-- ==== Sys2Proof/Word.lean ====
section
/-! DEFINITION. The word and byte types of the debug controller (spec 00_scope.md R12, 10_state.md R35). -/

namespace Sys2Proof

/-- Every address and every register value is an unsigned 32-bit number (R12). -/
abbrev Word := BitVec 32

/-- One byte of a memory span or of a command's payload (R79, R195). -/
abbrev Byte := BitVec 8

end Sys2Proof
end

