-- ==== Sys2Proof/Machine/Bytes.lean ====
section
/-! DEFINITION. Byte order and bit-field helpers shared by the decoder, the register words and the target.
Byte order: 20_memory.md R79 (the byte at the lowest address is bits [7:0] of the number). Field
notation: 00_scope.md R12. -/

namespace Sys2Proof.Machine

/-- The four bytes of a word in ascending address order (R79). -/
def bytesOfWord (w : Word) : List Byte :=
  [w.extractLsb' 0 8, w.extractLsb' 8 8, w.extractLsb' 16 8, w.extractLsb' 24 8]

/-- The word whose bytes, in ascending address order, are `b0 b1 b2 b3` (R79). -/
def wordOfBytes4 (b0 b1 b2 b3 : Byte) : Word := b3 ++ b2 ++ b1 ++ b0

/-- The word a list of bytes in ascending address order stands for; a missing byte counts as zero (the
controller's words always have four). -/
def wordOfBytes (bs : List Byte) : Word :=
  wordOfBytes4 (bs.getD 0 0) (bs.getD 1 0) (bs.getD 2 0) (bs.getD 3 0)

/-- The first word of a byte sequence and the rest; `none` if fewer than four bytes stand there. -/
def takeWord : List Byte → Option (Word × List Byte)
  | b0 :: b1 :: b2 :: b3 :: rest => some (wordOfBytes4 b0 b1 b2 b3, rest)
  | _ => none

/-- `b << n` as a word: one bit at position `n`, the rest zero (R12). -/
def bitAt (n : Nat) (b : Bool) : Word := if b then 1#32 <<< n else 0#32

/-- `w` with bit `n` replaced by `b`. -/
def putBit (w : Word) (n : Nat) (b : Bool) : Word := (w &&& ~~~(1#32 <<< n)) ||| bitAt n b

/-- `w[hi:lo]` as an unsigned number (R12). -/
def getField (w : Word) (hi lo : Nat) : Nat := (w.toNat >>> lo) % 2 ^ (hi + 1 - lo)

/-- `w` with the field `[hi:lo]` replaced by the low bits of `v`. -/
def putField (w : Word) (hi lo v : Nat) : Word :=
  let mask : Word := BitVec.ofNat 32 (2 ^ (hi + 1 - lo) - 1) <<< lo
  (w &&& ~~~mask) ||| ((BitVec.ofNat 32 v <<< lo) &&& mask)

/-- `{hi16, 0}`: a key in the upper half-word of a word (R120, R128). -/
def keyWord (key : BitVec 16) : Word := key.setWidth 32 <<< 16

/-- The upper half-word `v[31:16]`, where a key-protected write carries its key (R86). -/
def upperHalf (v : Word) : BitVec 16 := v.extractLsb' 16 16

/-- The word-aligned address at or below `a`. -/
def wordAddress (a : Word) : Word := a &&& 0xFFFFFFFC#32

/-- The byte lane of `a` inside its word. -/
def byteLane (a : Word) : Nat := a.toNat % 4

end Sys2Proof.Machine
end

