-- ==== Sys2Proof/Machine/Types.lean ====
section
/-! DEFINITION. The vocabulary of the machine: the records the controller and the target are made of, the events
the target performs on its own, and the free choices of the environment (10_state.md, 20_memory.md). -/

namespace Sys2Proof.Machine

/-- The architecture variant of the attached core (R3, R22; codes in R116). -/
inductive Variant where
  | v6M
  | v7M
  | v8M
  deriving DecidableEq, Repr, Inhabited

/-- The ceiling on the width of a sub-transfer (R192; codes in R116). -/
inductive AlignHint where
  | byte
  | halfword
  | word
  deriving DecidableEq, Repr, Inhabited

/-- The size class of a watchpoint (R27; codes in R116). -/
inductive SizeClass where
  | byte
  | halfword
  | word
  | doubleword
  deriving DecidableEq, Repr, Inhabited

/-- The access type of a watchpoint; `access` is both (R27; codes in R116). -/
inductive AccessType where
  | read
  | write
  | access
  deriving DecidableEq, Repr, Inhabited

/-- Which watchpoint function-register encoding a variant uses (R10 `WP_ENC`, R119). -/
inductive WpEncoding where
  | legacy
  | v2
  deriving DecidableEq, Repr, Inhabited

/-- The control word: the four writable bits of the control register (R23). -/
structure ControlWord where
  debugEnable : Bool
  haltRequest : Bool
  stepRequest : Bool
  maskInterrupts : Bool
  deriving DecidableEq, Repr, Inhabited

/-- A breakpoint slot (R26): `codeAddress` is the masked address and has meaning only while in use. -/
structure BpSlot where
  inUse : Bool
  codeAddress : Word
  deriving DecidableEq, Repr, Inhabited

/-- A watchpoint slot (R27): `dataAddress` is the address as the host gave it. -/
structure WpSlot where
  inUse : Bool
  dataAddress : Word
  sizeClass : SizeClass
  accessType : AccessType
  deriving DecidableEq, Repr, Inhabited

/-- The Halt Reason snapshot (R31): five flags and the slot a watchpoint halt is attributed to. -/
structure HaltReason where
  external : Bool
  vectorCatch : Bool
  watchpointHit : Bool
  breakpointHit : Bool
  haltedByRequest : Bool
  wpSlotValid : Bool
  wpSlot : BitVec 4
  deriving DecidableEq, Repr, Inhabited

/-- The two failures a transaction can answer with (R14, R68). -/
inductive PortFailure where
  /-- A transport failure, not recoverable by this layer (R261). -/
  | linkError
  /-- The port's transport backend is not present (R267). -/
  | backendUnavailable
  deriving DecidableEq, Repr, Inhabited

/-- The eight failure kinds a command can end with (R260). -/
inductive Failure where
  /-- R261. -/
  | linkError
  /-- R262. -/
  | protocolTimeout
  /-- R263. -/
  | registerTimeout
  /-- R264. -/
  | noFreeSlot
  /-- R265: carries the address of the failing sub-transfer. -/
  | memoryAccessFault (faultAddress : Word)
  /-- R266. -/
  | resetTimeout
  /-- R267. -/
  | backendUnavailable
  /-- R268: the request has no meaning; nothing was done. -/
  | refused
  deriving DecidableEq, Repr, Inhabited

/-- The result values of a command that completed (R112, R114). -/
inductive Result where
  | none
  | value (v : Word)
  | data (bytes : List Byte)
  | slot (i : BitVec 4)
  | reason (w : Word)
  deriving DecidableEq, Repr, Inhabited

/-- The controller's answer to a command: a status and its values (R114). -/
inductive Response where
  | ok (r : Result)
  | failed (f : Failure)
  deriving DecidableEq, Repr, Inhabited

/-- The port's answer to one transaction: its result or a port failure (R14, R68). -/
inductive Answer (α : Type) where
  | ok (v : α)
  | fail (f : PortFailure)
  deriving DecidableEq, Repr, Inhabited

/-- One transaction of the trace with the answer it got (R14, R19). -/
inductive TraceEntry where
  | rd32 (a : Word) (answer : Answer Word)
  | wr32 (a v : Word) (answer : Answer Unit)
  | memRead (a : Word) (n : Nat) (answer : Answer (List Byte))
  | memWrite (a : Word) (bytes : List Byte) (answer : Answer Unit)
  deriving DecidableEq, Repr, Inhabited

/-- The target's memory: address and byte pairs in one canonical form (`Memory.wf`). -/
abbrev Memory := List Host.Cell

/-- The five sticky bits of the fault status register (R98, R126). -/
structure FaultFlags where
  halted : Bool
  bkpt : Bool
  dwttrap : Bool
  vcatch : Bool
  external : Bool
  deriving DecidableEq, Repr, Inhabited

/-- The target's core registers, reached through the selector (R35, R36). The current stack pointer is
no register of its own: it is whichever of `msp` and `psp` the core uses (R37). -/
structure CoreRegs where
  r : Vector Word 13
  lr : Word
  pc : Word
  xpsr : Word
  msp : Word
  psp : Word
  /-- The four parts of the one register that `SEL_SPECIAL` names (R36). -/
  control : Byte
  faultmask : Byte
  basepri : Byte
  primask : Byte
  usesPsp : Bool
  deriving DecidableEq, Repr, Inhabited

/-- A core-register transfer in flight (R50 (d), R99). `data` is what the data register held at the selector write: a write
transfers that content and not what the register is given later (R321). `steady` says that the core has been halted ever
since the selector write (log entry 16). -/
structure Transfer where
  sel : BitVec 7
  write : Bool
  data : Word
  steady : Bool
  deriving DecidableEq, Repr, Inhabited

/-- The target's debug state (R24, R50, R86 to R101). -/
structure DebugRegs where
  /-- The live writable bits of the control register, as a read returns them (R86, R87). -/
  ctl : ControlWord
  /-- A keyed write asked for debug and the enable has not taken effect yet (R89). -/
  enablePending : Bool
  /-- The read-only status bits (R24, R122). -/
  halted : Bool
  sleeping : Bool
  lockup : Bool
  resetSeen : Bool
  registerReady : Bool
  /-- A resume word reached a halted core that has not left the halted state yet (R91). -/
  resumePending : Bool
  /-- A step was started and its instruction has not retired yet (R92). -/
  stepping : Bool
  /-- The data register (R124). -/
  dcrdr : Word
  /-- The transfer the last selector write started, until it completes (R99). -/
  transfer : Option Transfer
  /-- The monitor-control register (R125). -/
  demcr : Word
  /-- The fault status register's five bits (R126). -/
  dfsr : FaultFlags
  /-- The hard-fault status register (R127). -/
  hfsr : Word
  /-- A keyed reset request was taken and the reset has not happened yet (R101). -/
  resetPending : Bool
  /-- The core came out of a reset with the vector catch armed and has not completed its halt yet (R100, R101, R257). -/
  catchPending : Bool
  /-- The global enable of the breakpoint unit (R96). -/
  fpbEnabled : Bool
  /-- The breakpoint comparators (R96, R132). -/
  fpComp : Vector Word 15
  /-- The watchpoint unit's address, mask and function registers (R97, R134 to R136). -/
  dwtComp : Vector Word 15
  dwtMask : Vector Word 15
  dwtFunction : Vector Word 15
  /-- The matched bit of each function register (R97, R137). -/
  matched : Vector Bool 15
  deriving DecidableEq, Repr, Inhabited

/-- The target: the core and its debug registers behind the port (R5 (d)). -/
structure Target where
  mem : Memory
  core : CoreRegs
  dbg : DebugRegs
  /-- Bytes the instruction cache holds, most recent first (R50 (f), R103). -/
  icache : List Host.Cell
  /-- Bytes the data cache holds that memory does not have yet, one per address (R50 (f), R103). -/
  dcache : List Host.Cell
  /-- The address the core starts at when it comes out of reset (R62, R101). -/
  resetVector : Word
  deriving DecidableEq, Repr, Inhabited

/-- How the program counter moves when an instruction retires (R93, R94). -/
inductive NextPc where
  /-- A non-branching instruction of `len` bytes: `pc <- pc + len` (R93). -/
  | sequential (len : Word)
  /-- A branch (R93 does not hold for it; 93_implementation_defined.md U6). -/
  | branch (pc : Word)
  /-- A pending interrupt was taken first; only with `mask_interrupts = 0` (R94). -/
  | interrupt (pc : Word)
  deriving DecidableEq, Repr, Inhabited

/-- A data access of the core that a watchpoint comparator may match (R97). -/
structure DataAccess where
  slot : Nat
  addr : Word
  write : Bool
  deriving DecidableEq, Repr, Inhabited

/-- A debug event that halts a running core (R90, R96, R97, R293). -/
inductive HaltCause where
  /-- The halt request is set (R90). -/
  | request
  /-- The core is about to execute the instruction at the address breakpoint comparator `i` holds (R96). -/
  | comparator (i : Nat)
  /-- The core reaches a software breakpoint instruction (R293). -/
  | instruction
  /-- The core makes data accesses that watchpoint comparators may match (R97; several at once, R277). -/
  | watchpoint (hits : List DataAccess)
  /-- A vector catch other than the core-reset one, whose bit of the monitor-control register is `n`. Such bits exist, and nothing
  describes them (R100, R125): any other bit that is set may be one (log entry 36). -/
  | vectorCatch (n : Nat)
  deriving DecidableEq, Repr, Inhabited

/-- Why the target is reset: the controller's own request, or any other cause (R101, R253 (c)). -/
inductive ResetCause where
  | requested
  | other
  deriving DecidableEq, Repr, Inhabited

/-- What the target may do on its own between two transactions (R81, R85 to R103). An event whose condition
in the target contract does not hold has no effect (Machine/Target.lean says the conditions). -/
inductive TargetEvent where
  /-- "The enable takes effect" (R89). -/
  | enableTakesEffect
  /-- The running core halts at debug events. Whether events of different kinds can coincide at one halt is not stated
  (R277); the model allows any of them together (log entry 34). -/
  | halts (causes : List HaltCause)
  /-- A resumed core leaves the halted state (R91). -/
  | resumes
  /-- A stepped core leaves the halted state, where the step write itself did not clear `halted` (R92, R312). -/
  | stepLeavesHalt
  /-- The stepped instruction retires and the core halts again; `flags` are the fault status bits it sets (R92, R167 (c)), and
  `hits` the data accesses it makes that watchpoint comparators may match (R97). -/
  | stepRetires (next : NextPc) (flags : FaultFlags) (hits : List DataAccess)
  /-- A core whose step has landed and whose step request still stands goes on, as the target decides: with another single
  step (`again`), or running on (R323; log entry 38). -/
  | stepRequestStands (again : Bool)
  /-- A running core retires an instruction or takes an interrupt (R81, R94). -/
  | retires (next : NextPc)
  /-- An external debug request halts the core, or reaches a halted one (R98, R318). Whether it then cancels a resume or a step that
  is pending is not stated: `cancels` says it (log entry 37). -/
  | externalHalt (cancels : Bool)
  /-- The core-register transfer completes; `value` is what a read delivers where R99 defines no result, and `lost`
  says whether a write to a running core is lost (U7, U9). -/
  | transferCompletes (value : Word) (lost : Bool)
  /-- The target is reset; what R101 does not say about its registers afterwards is arbitrary (U4). -/
  | systemReset (cause : ResetCause) (core : CoreRegs) (dbg : DebugRegs)
  /-- The core that a reset caught completes its halt at the reset vector (R100, R101, R257). -/
  | vectorCatchHalts
  /-- The target loses power, which it does not while debug is enabled; what its registers hold afterwards is not in the
  source (R291, N13), so it is arbitrary (log entry 35). -/
  | powerDown (core : CoreRegs) (dbg : DebugRegs)
  /-- The core or another bus master stores a byte (R81, R83). -/
  | storeByte (a : Word) (b : Byte)
  /-- The core stores a byte that stays in its data cache (R50 (f)); on a target without cache it reaches memory (R103). -/
  | cachedStore (a : Word) (b : Byte)
  /-- The data cache writes a line back on its own, or drops it (R50 (f)). -/
  | writeBack (a : Word)
  | dropLine (a : Word)
  /-- The instruction cache, where the target has one, takes in a byte of memory (R50 (f), R84). -/
  | fetchFill (a : Word)
  /-- The core's registers change for reasons the contract does not list (U1). -/
  | coreChanges (core : CoreRegs)
  /-- The target changes its own control bits (R51, U3). -/
  | controlChanges (ctl : ControlWord)
  /-- The target goes to sleep, wakes, locks up or leaves lockup (R44). -/
  | sleepLockup (sleeping lockup : Bool)
  /-- The hard-fault status, the data register, the monitor-control register or the reset vector change (U1). -/
  | hfsrChanges (v : Word)
  | dcrdrChanges (v : Word)
  | demcrChanges (v : Word)
  | resetVectorChanges (v : Word)
  /-- Something else rewrites the comparator banks or the unit enable (R51, R314). -/
  | comparatorsChange (fpbEnabled : Bool) (fpComp dwtComp dwtMask dwtFunction : Vector Word 15)
  /-- A step request stands on a running core, which is outside the state machine (R167 (a), U5). -/
  | unlisted (core : CoreRegs) (dbg : DebugRegs)
  deriving DecidableEq, Repr, Inhabited

/-- How the port answers one transaction (R68). After a failure the target may or may not have taken
the access: `reached` says which (U2). -/
inductive PortOutcome where
  | answered
  | failed (f : PortFailure) (reached : Bool)
  deriving DecidableEq, Repr, Inhabited

/-- The environment's free choices at one transaction: what the target does before it, how the port
answers it, and the value of the bits of an answer that the target contract leaves open (R81, R85, U1). -/
structure Choice where
  events : List TargetEvent
  outcome : PortOutcome
  noise : Word
  deriving DecidableEq, Repr, Inhabited

end Sys2Proof.Machine
end

