-- ==== Sys2Proof/Config.lean ====
section
/-! DEFINITION. The configuration record (00_scope.md R10; 93_implementation_defined.md G1, U16): every named
parameter of the controller and of its register map, the constants of the target the contract speaks
of, and the values the spec leaves open. The default values are in Machine/Params.lean. -/

namespace Sys2Proof

open Machine

/-- Capacity of the breakpoint slot table (R10, D5). -/
abbrev BP_CAP : Nat := 15

/-- Capacity of the watchpoint slot table (R10, D5). -/
abbrev WP_CAP : Nat := 15

/-- A parameter that is a function of the variant, as a table. -/
structure PerVariant (α : Type) where
  v6M : α
  v7M : α
  v8M : α
  deriving DecidableEq, Repr

/-- The entry of a table for one variant. -/
def PerVariant.at {α : Type} (t : PerVariant α) : Variant → α
  | .v6M => t.v6M
  | .v7M => t.v7M
  | .v8M => t.v8M

/-- The predicate `CachePresent` (R10, R129): some bit of a field is set, which the default is, or any
other predicate at all. -/
inductive CacheTest where
  | anyBitOf (mask : Word)
  | other
  deriving DecidableEq, Repr

/-- The parameters. Names follow R10, R36, R72, R73 and R120 to R137. -/
structure Config where
  /-- `POLL_MAX`, the bound of every poll as a count of reads (R10, R15). -/
  pollMax : Nat
  /-- `DCACHE_LINE`, the step of the clean loop in bytes (R10, R199). -/
  dcacheLine : Nat
  /-- `CachePresent` (R10, R129). -/
  cacheTest : CacheTest
  /-- `HAS_CACHE_OPS` (R10, D6). -/
  hasCacheOps : PerVariant Bool
  /-- `WP_ENC` (R10, D7). -/
  wpEnc : PerVariant WpEncoding
  /-- Whether the port's transport backend is present at all (R68, R267). -/
  backendPresent : Bool
  /-- The window of the private peripheral bus (R62). -/
  ppbBase : Word
  ppbLast : Word
  /-- The register map (R72, R73). -/
  addrDhcsr : Word
  addrDcrsr : Word
  addrDcrdr : Word
  addrDemcr : Word
  addrDfsr : Word
  addrHfsr : Word
  addrAircr : Word
  addrCacheId : Word
  addrIciallu : Word
  addrDccmvac : Word
  addrFpCtrl : Word
  addrFpComp0 : Word
  fpCompStride : Word
  addrDwtCtrl : Word
  addrDwtComp0 : Word
  addrDwtMask0 : Word
  addrDwtFunction0 : Word
  dwtStride : Word
  /-- The control/status register (R121, R122). -/
  dbgKey : BitVec 16
  bitCDebugEn : Nat
  bitCHalt : Nat
  bitCStep : Nat
  bitCMaskInts : Nat
  bitSRegRdy : Nat
  bitSHalt : Nat
  bitSSleep : Nat
  bitSLockup : Nat
  bitSResetSt : Nat
  /-- The direction bit of the selector word (R123). -/
  bitRegWnR : Nat
  /-- The core-reset vector-catch bit (R125). -/
  bitVcCoreReset : Nat
  /-- The fault status register (R126). -/
  bitDfsrHalted : Nat
  bitDfsrBkpt : Nat
  bitDfsrDwttrap : Nat
  bitDfsrVcatch : Nat
  bitDfsrExternal : Nat
  /-- The reset-control word (R128). -/
  vectKey : BitVec 16
  bitSysResetReq : Nat
  /-- The breakpoint unit (R131, R132). -/
  fpNumCodeHi : Nat
  fpNumCodeLo : Nat
  bitFpEnable : Nat
  bitFpKey : Nat
  bpAddrMask : Word
  bitFpCompEnable : Nat
  /-- The watchpoint unit (R133 to R137). -/
  dwtNumCompHi : Nat
  dwtNumCompLo : Nat
  legacyRead : Word
  legacyWrite : Word
  legacyAccess : Word
  v2MatchRead : Word
  v2MatchWrite : Word
  v2MatchAccess : Word
  v2ActionDebugEvent : Word
  v2ActionLo : Nat
  v2LenByte : Word
  v2LenHalfword : Word
  v2LenWord : Word
  v2LenLo : Nat
  bitDwtMatched : Nat
  /-- The selector codes (R36). -/
  selR : Vector (BitVec 7) 13
  selSp : BitVec 7
  selLr : BitVec 7
  selPc : BitVec 7
  selXpsr : BitVec 7
  selMsp : BitVec 7
  selPsp : BitVec 7
  selSpecial : BitVec 7
  /-- The layout of the register `SEL_SPECIAL` names: the lowest bit of each of its four bytes (R36, G1). -/
  specialControlLo : Nat
  specialFaultmaskLo : Nat
  specialBasepriLo : Nat
  specialPrimaskLo : Nat
  /-- Constants of the attached target (R102): the two comparator counts and the cache-identification word,
  the variant it really is, and its real data-cache line in bytes (R322). -/
  fpCount : Nat
  dwtCount : Nat
  cacheId : Word
  targetVariant : Variant
  targetLine : Nat
  /-- Whether the attached target has caches: without one the cache operations "are no-ops" (R103). What makes a target one
  without cache is not stated, so it is a constant of the target (log entry 31). -/
  targetHasCache : Bool
  /-- Whether the selector write makes `register_ready` read 0 (R99, R311, U8). -/
  selectorClearsReady : Bool
  /-- Whether the step write makes `halted` read 0 at once (R312, U17). -/
  stepClearsHalted : Bool
  /-- The bit of the monitor-control register without which the watchpoint unit does not work, if the
  target has one (R320). -/
  traceEnableBit : Option Nat
  deriving DecidableEq, Repr

/-- The predicate `CachePresent` where it is not a test of a field: open (R10, R129). -/
opaque Config.cachePresentOther : Word → Bool

/-- The environment's choice at the n-th transaction where the state scripts none: open (R81, R85, U1). -/
opaque Config.freeChoice : Nat → Choice

end Sys2Proof
end

