-- ==== Sys2Proof/Machine/Params.lean ====
section
/-! DEFINITION. The default parameter values (93_implementation_defined.md G1; log entry 4) and the structural
constraints the rules put on any values (G1, last paragraph). -/

namespace Sys2Proof.Machine

/-- The defaults of R10, R36, R72, R73 and R120 to R137. `POLL_MAX` has no default in R10: 4 is the value of
the common configuration of 95_test_vectors.md part 3, and so are the target's constants. -/
def defaultConfig : Config where
  pollMax := 4
  dcacheLine := 32
  cacheTest := .anyBitOf 0x00000007#32
  hasCacheOps := { v6M := false, v7M := true, v8M := true }
  wpEnc := { v6M := .legacy, v7M := .legacy, v8M := .v2 }
  backendPresent := true
  ppbBase := 0xE0000000#32
  ppbLast := 0xE00FFFFF#32
  addrDhcsr := 0xE000EDF0#32
  addrDcrsr := 0xE000EDF4#32
  addrDcrdr := 0xE000EDF8#32
  addrDemcr := 0xE000EDFC#32
  addrDfsr := 0xE000ED30#32
  addrHfsr := 0xE000ED2C#32
  addrAircr := 0xE000ED0C#32
  addrCacheId := 0xE000ED78#32
  addrIciallu := 0xE000EF50#32
  addrDccmvac := 0xE000EF68#32
  addrFpCtrl := 0xE0002000#32
  addrFpComp0 := 0xE0002008#32
  fpCompStride := 4#32
  addrDwtCtrl := 0xE0001000#32
  addrDwtComp0 := 0xE0001020#32
  addrDwtMask0 := 0xE0001024#32
  addrDwtFunction0 := 0xE0001028#32
  dwtStride := 16#32
  dbgKey := 0xA05F#16
  bitCDebugEn := 0
  bitCHalt := 1
  bitCStep := 2
  bitCMaskInts := 3
  bitSRegRdy := 16
  bitSHalt := 17
  bitSSleep := 18
  bitSLockup := 19
  bitSResetSt := 25
  bitRegWnR := 16
  bitVcCoreReset := 0
  bitDfsrHalted := 0
  bitDfsrBkpt := 1
  bitDfsrDwttrap := 2
  bitDfsrVcatch := 3
  bitDfsrExternal := 4
  vectKey := 0x05FA#16
  bitSysResetReq := 2
  fpNumCodeHi := 7
  fpNumCodeLo := 4
  bitFpEnable := 0
  bitFpKey := 1
  bpAddrMask := 0xFFFFFFFE#32
  bitFpCompEnable := 0
  dwtNumCompHi := 31
  dwtNumCompLo := 28
  legacyRead := 5#32
  legacyWrite := 6#32
  legacyAccess := 7#32
  v2MatchRead := 6#32
  v2MatchWrite := 5#32
  v2MatchAccess := 4#32
  v2ActionDebugEvent := 1#32
  v2ActionLo := 4
  v2LenByte := 0#32
  v2LenHalfword := 1#32
  v2LenWord := 2#32
  v2LenLo := 10
  bitDwtMatched := 24
  selR := Vector.ofFn fun k => BitVec.ofNat 7 k.val
  selSp := 13#7
  selLr := 14#7
  selPc := 15#7
  selXpsr := 16#7
  selMsp := 17#7
  selPsp := 18#7
  selSpecial := 20#7
  specialControlLo := 24
  specialFaultmaskLo := 16
  specialBasepriLo := 8
  specialPrimaskLo := 0
  fpCount := 4
  dwtCount := 2
  cacheId := 0#32
  targetVariant := .v7M
  targetLine := 32
  targetHasCache := false
  selectorClearsReady := true
  stepClearsHalted := true
  traceEnableBit := none

/-- `comparator_address(base, stride, i) = base + stride * i` (R17). -/
def comparatorAddress (base stride : Word) (i : Nat) : Word := base + stride * BitVec.ofNat 32 i

/-- `ADDR_FP_COMP(i)` (R73). -/
def addrFpComp (cfg : Config) (i : Nat) : Word := comparatorAddress cfg.addrFpComp0 cfg.fpCompStride i

/-- `ADDR_DWT_COMP(i)` (R73). -/
def addrDwtComp (cfg : Config) (i : Nat) : Word := comparatorAddress cfg.addrDwtComp0 cfg.dwtStride i

/-- `ADDR_DWT_MASK(i)` (R73). -/
def addrDwtMask (cfg : Config) (i : Nat) : Word := comparatorAddress cfg.addrDwtMask0 cfg.dwtStride i

/-- `ADDR_DWT_FUNCTION(i)` (R73). -/
def addrDwtFunction (cfg : Config) (i : Nat) : Word := comparatorAddress cfg.addrDwtFunction0 cfg.dwtStride i

/-- Every address of the register map (R72, R73). -/
def registerAddresses (cfg : Config) : List Word :=
  [cfg.addrDhcsr, cfg.addrDcrsr, cfg.addrDcrdr, cfg.addrDemcr, cfg.addrDfsr, cfg.addrHfsr, cfg.addrAircr,
    cfg.addrCacheId, cfg.addrIciallu, cfg.addrDccmvac, cfg.addrFpCtrl, cfg.addrDwtCtrl]
  ++ ((List.range BP_CAP).map (addrFpComp cfg) ++ ((List.range WP_CAP).map (addrDwtComp cfg)
  ++ ((List.range WP_CAP).map (addrDwtMask cfg) ++ (List.range WP_CAP).map (addrDwtFunction cfg))))

/-- The named bits of each register word, word by word (R121 to R137). -/
def bitGroups (cfg : Config) : List (List Nat) :=
  [[cfg.bitCDebugEn, cfg.bitCHalt, cfg.bitCStep, cfg.bitCMaskInts, cfg.bitSRegRdy, cfg.bitSHalt, cfg.bitSSleep,
      cfg.bitSLockup, cfg.bitSResetSt],
    [cfg.bitDfsrHalted, cfg.bitDfsrBkpt, cfg.bitDfsrDwttrap, cfg.bitDfsrVcatch, cfg.bitDfsrExternal],
    [cfg.bitFpEnable, cfg.bitFpKey], [cfg.bitVcCoreReset], [cfg.bitSysResetReq], [cfg.bitFpCompEnable],
    [cfg.bitRegWnR], [cfg.bitDwtMatched]]

/-- The lowest bits of CONTROL, FAULTMASK, BASEPRI and PRIMASK in the register `SEL_SPECIAL` names (R36). -/
def specialParts (cfg : Config) : List Nat :=
  [cfg.specialControlLo, cfg.specialFaultmaskLo, cfg.specialBasepriLo, cfg.specialPrimaskLo]

/-- The elements of a list are pairwise different, as a Bool. -/
def allDistinct {α : Type} [DecidableEq α] : List α → Bool
  | [] => true
  | x :: xs => !(xs.elem x) && allDistinct xs

/-- The structural constraints on the parameters (G1): `POLL_MAX` at least 1; `DCACHE_LINE` a power of two;
register addresses word-aligned, inside the window and different; bit positions inside a word and different within
a word; the control bits below the key, the direction bit above the selector field; the breakpoint address
mask clear at the enable bit; count fields inside a word; the function codes not the disabled word; the four parts of
the special register the four bytes of a word, in any order (R36). -/
def configWf (cfg : Config) : Bool :=
  decide (1 ≤ cfg.pollMax)
  && (List.range 32).any (fun k => cfg.dcacheLine == 2 ^ k)
  && (registerAddresses cfg).all (fun a => a.toNat % 4 == 0 && decide (cfg.ppbBase ≤ a) && decide (a ≤ cfg.ppbLast))
  && allDistinct (registerAddresses cfg)
  && (bitGroups cfg).all (fun g => allDistinct g && g.all (fun n => decide (n < 32)))
  && [cfg.bitCDebugEn, cfg.bitCHalt, cfg.bitCStep, cfg.bitCMaskInts, cfg.bitSysResetReq].all (fun n => decide (n < 16))
  && decide (7 ≤ cfg.bitRegWnR)
  && !(cfg.bpAddrMask.getLsbD cfg.bitFpCompEnable)
  && decide (cfg.fpNumCodeLo ≤ cfg.fpNumCodeHi) && decide (cfg.fpNumCodeHi < 32)
  && decide (cfg.bitFpEnable < cfg.fpNumCodeLo ∨ cfg.fpNumCodeHi < cfg.bitFpEnable)
  && decide (cfg.dwtNumCompLo ≤ cfg.dwtNumCompHi) && decide (cfg.dwtNumCompHi < 32)
  && [cfg.legacyRead, cfg.legacyWrite, cfg.legacyAccess, cfg.v2MatchRead, cfg.v2MatchWrite, cfg.v2MatchAccess].all
      (fun w => w != 0#32 && !(w.getLsbD cfg.bitDwtMatched))
  && (specialParts cfg).all (fun n => [0, 8, 16, 24].elem n) && allDistinct (specialParts cfg)

end Sys2Proof.Machine
end

