-- ==== Sys2Proof/Machine/Operands.lean ====
section
/-! DEFINITION. Operand codes (30_encoding.md R116) and the register words the controller writes (R121 to R136). -/

namespace Sys2Proof.Machine

/-- The variant code (R116); code 3 is reserved. -/
def variantOf (code : BitVec 2) : Option Variant :=
  match code with
  | 0#2 => some .v6M
  | 1#2 => some .v7M
  | 2#2 => some .v8M
  | _ => none

/-- The align hint code (R116); code 3 is reserved. -/
def hintOf (code : BitVec 2) : Option AlignHint :=
  match code with
  | 0#2 => some .byte
  | 1#2 => some .halfword
  | 2#2 => some .word
  | _ => none

/-- The size class code (R116). -/
def sizeClassOf (code : BitVec 2) : SizeClass :=
  match code with
  | 0#2 => .byte
  | 1#2 => .halfword
  | 2#2 => .word
  | _ => .doubleword

/-- The access type code (R116); code 0 is reserved. -/
def accessOf (code : BitVec 2) : Option AccessType :=
  match code with
  | 1#2 => some .read
  | 2#2 => some .write
  | 3#2 => some .access
  | _ => none

/-- The ceiling `H` of an align hint, in bytes (R192). -/
def AlignHint.ceiling : AlignHint → Nat
  | .byte => 1
  | .halfword => 2
  | .word => 4

/-- `CachePresent(v)` (R10, R129). -/
def cachePresentOf (cfg : Config) (v : Word) : Bool :=
  match cfg.cacheTest with
  | .anyBitOf mask => v &&& mask != 0#32
  | .other => Config.cachePresentOther v

/-- `DhcsrWord(cw)`: the key in the upper half, the four control bits, every other bit zero (R121). -/
def dhcsrWord (cfg : Config) (cw : ControlWord) : Word :=
  keyWord cfg.dbgKey ||| bitAt cfg.bitCMaskInts cw.maskInterrupts ||| bitAt cfg.bitCStep cw.stepRequest
    ||| bitAt cfg.bitCHalt cw.haltRequest ||| bitAt cfg.bitCDebugEn cw.debugEnable

/-- The control bits of a word written to the control register (R86, R121). -/
def controlBits (cfg : Config) (v : Word) : ControlWord where
  debugEnable := v.getLsbD cfg.bitCDebugEn
  haltRequest := v.getLsbD cfg.bitCHalt
  stepRequest := v.getLsbD cfg.bitCStep
  maskInterrupts := v.getLsbD cfg.bitCMaskInts

/-- `SelWord(sel, dir)`: the selector in `[6:0]`, the direction bit, every other bit zero (R123); `dir` is 1
for a write. -/
def selWord (cfg : Config) (sel : BitVec 7) (write : Bool) : Word := bitAt cfg.bitRegWnR write ||| sel.setWidth 32

/-- `ResetWord` (R128). -/
def resetWord (cfg : Config) : Word := keyWord cfg.vectKey ||| bitAt cfg.bitSysResetReq true

/-- The monitor-control word with the core-reset vector-catch bit set and every other bit as read (R125, R252). -/
def armWord (cfg : Config) (v : Word) : Word := v ||| bitAt cfg.bitVcCoreReset true

/-- `FpbEnableWord` (R131). -/
def fpbEnableWord (cfg : Config) : Word := bitAt cfg.bitFpKey true ||| bitAt cfg.bitFpEnable true

/-- `FpbDisableWord` (R131). -/
def fpbDisableWord (cfg : Config) : Word := bitAt cfg.bitFpKey true

/-- `NumCode(v)`, the breakpoint unit's comparator count (R131). -/
def numCode (cfg : Config) (v : Word) : Nat := getField v cfg.fpNumCodeHi cfg.fpNumCodeLo

/-- `NumComp(v)`, the watchpoint unit's comparator count (R133). -/
def numComp (cfg : Config) (v : Word) : Nat := getField v cfg.dwtNumCompHi cfg.dwtNumCompLo

/-- `code_address AND BP_ADDR_MASK` (R212). -/
def maskedAddress (cfg : Config) (a : Word) : Word := a &&& cfg.bpAddrMask

/-- `BpWord(a)` (R132). -/
def bpWord (cfg : Config) (a : Word) : Word := maskedAddress cfg a ||| bitAt cfg.bitFpCompEnable true

/-- The disabled word of a breakpoint comparator and of a watchpoint function register (R132, R137). -/
def disabledWord : Word := 0#32

/-- `SizeMask(size_class)`: the number of low address bits the comparator ignores (R134). -/
def sizeMask : SizeClass → Word
  | .byte => 0#32
  | .halfword => 1#32
  | .word => 2#32
  | .doubleword => 3#32

/-- `WpFuncLegacy(access)` (R135). -/
def wpFuncLegacy (cfg : Config) : AccessType → Word
  | .read => cfg.legacyRead
  | .write => cfg.legacyWrite
  | .access => cfg.legacyAccess

/-- `WP_MATCH_V2(access)` (R136). -/
def wpMatchV2 (cfg : Config) : AccessType → Word
  | .read => cfg.v2MatchRead
  | .write => cfg.v2MatchWrite
  | .access => cfg.v2MatchAccess

/-- `WP_LEN_V2(size)`; `doubleword` has no length code (R136). -/
def wpLenV2 (cfg : Config) : SizeClass → Option Word
  | .byte => some cfg.v2LenByte
  | .halfword => some cfg.v2LenHalfword
  | .word => some cfg.v2LenWord
  | .doubleword => none

/-- `WpFuncV2(access, size)` (R136); none for `doubleword`. -/
def wpFuncV2 (cfg : Config) (kind : AccessType) (size : SizeClass) : Option Word :=
  match wpLenV2 cfg size with
  | some len => some (wpMatchV2 cfg kind ||| cfg.v2ActionDebugEvent <<< cfg.v2ActionLo ||| len <<< cfg.v2LenLo)
  | none => none

end Sys2Proof.Machine
end

