-- ==== Sys2Proof/Machine/State.lean ====
section
/-! DEFINITION. The state of the machine as plain data (10_state.md R20 to R33; 70_reset_and_hazards.md R300), the
reasons a step can stop, the state after reset, and the named updates the commands make. -/

namespace Sys2Proof.Machine

/-- Reasons the machine stops with a fault. There are none: every failure of a command is a response after
which "the controller accepts the next command normally" (R270), the decoder is total (R117) and every poll
is bounded (R15), so no step of the controller stops the machine. -/
inductive Fault where
  deriving DecidableEq, Repr

/-- Reasons a step has no meaning. -/
inductive Refusal where
  /-- Raised by an arm of `exec` whose command has no meaning yet; safe. No arm raises it. (The status `Refused`
  of R268 is no refusal of the model: it is a response, in a next state.) -/
  | notModelled (mnemonic : String)
  deriving DecidableEq, Repr

/-- The state: the controller's registers (R20), the two message ports of the host (R9), the target behind
the transaction port (R85 to R103), and the environment's choices. -/
structure State where
  /-- The configuration, fixed before the first command (R10, R302). -/
  cfg : Config
  /-- `ATTACHED`, 1 bit (R21). -/
  attached : Bool
  /-- `VARIANT`, 2 bits (R22). -/
  variant : Variant
  /-- `CW`, 4 bits (R23). -/
  cw : ControlWord
  /-- `N_BP`, 4 bits (R25). -/
  nBp : BitVec 4
  /-- `N_WP`, 4 bits (R25). -/
  nWp : BitVec 4
  /-- `BP[0 .. BP_CAP-1]` (R26). -/
  bp : Vector BpSlot BP_CAP
  /-- `WP[0 .. WP_CAP-1]` (R27). -/
  wp : Vector WpSlot WP_CAP
  /-- `FPB_ON`, 1 bit (R29). -/
  fpbOn : Bool
  /-- `CACHE_PRESENT`, 1 bit (R30). -/
  cachePresent : Bool
  /-- `HR_VALID`, 1 bit (R31). -/
  hrValid : Bool
  /-- `HR`, 5 + 1 + 4 bits (R31). -/
  hr : HaltReason
  /-- `BUSY`, 1 bit (R32). -/
  busy : Bool
  /-- The command port: the messages the host still presents, in order; the first is the one presented now (R9, R40). -/
  commands : List (List Byte)
  /-- The response port: every response delivered, oldest first (R9, R114). -/
  responses : List Response
  /-- The trace: every transaction issued with its answer, oldest first (R19). -/
  trace : List TraceEntry
  /-- The target behind the transaction port (R5, R85). -/
  target : Target
  /-- The environment's choices that are scripted: entry `n` is for the n-th transaction since reset; the model's own field. -/
  env : List Choice
  /-- How many transactions have been issued since reset; the model's own field. -/
  tick : Nat
  deriving DecidableEq, Repr

/-- The control word with every bit clear. -/
def clearWord : ControlWord := ⟨false, false, false, false⟩

/-- A halt reason with every field clear. -/
def noReason : HaltReason := ⟨false, false, false, false, false, false, 0#4⟩

/-- A free breakpoint slot. -/
def freeBp : BpSlot := ⟨false, 0#32⟩

/-- A free watchpoint slot. -/
def freeWp : WpSlot := ⟨false, 0#32, .byte, .read⟩

/-- The target's core registers as the model starts them (log entry 6). -/
def resetCore : CoreRegs where
  r := Vector.replicate 13 0#32
  lr := 0#32
  pc := 0#32
  xpsr := 0#32
  msp := 0#32
  psp := 0#32
  control := 0#8
  faultmask := 0#8
  basepri := 0#8
  primask := 0#8
  usesPsp := false

/-- The target's debug registers as the model starts them (log entry 6). -/
def resetDebug : DebugRegs where
  ctl := clearWord
  enablePending := false
  halted := false
  sleeping := false
  lockup := false
  resetSeen := false
  registerReady := false
  resumePending := false
  stepping := false
  dcrdr := 0#32
  transfer := none
  demcr := 0#32
  dfsr := ⟨false, false, false, false, false⟩
  hfsr := 0#32
  resetPending := false
  catchPending := false
  fpbEnabled := false
  fpComp := Vector.replicate 15 0#32
  dwtComp := Vector.replicate 15 0#32
  dwtMask := Vector.replicate 15 0#32
  dwtFunction := Vector.replicate 15 0#32
  matched := Vector.replicate 15 false

/-- The target as the model starts it: its registers are not given by the source (R303). -/
def resetTarget : Target where
  mem := []
  core := resetCore
  dbg := resetDebug
  icache := []
  dcache := []
  resetVector := 0#32

/-- The machine right after the controller's reset (R300): `ATTACHED = 0`, `BUSY = 0`, no command in
progress; the unspecified registers at the values of log entry 5. -/
def State.reset : State where
  cfg := defaultConfig
  attached := false
  variant := .v6M
  cw := clearWord
  nBp := 0#4
  nWp := 0#4
  bp := Vector.replicate BP_CAP freeBp
  wp := Vector.replicate WP_CAP freeWp
  fpbOn := false
  cachePresent := false
  hrValid := false
  hr := noReason
  busy := false
  commands := []
  responses := []
  trace := []
  target := resetTarget
  env := []
  tick := 0

/-- The environment's choice at the next transaction: the scripted one, or an open one (R85, U1). -/
def State.choice (s : State) : Choice := s.env.getD s.tick (Config.freeChoice s.tick)

/-- `CW <- cw` (R151). -/
def State.setCw (s : State) (cw : ControlWord) : State := { s with cw := cw }

/-- `FPB_ON <- 1` (R213 step 3). -/
def State.setFpbOn (s : State) : State := { s with fpbOn := true }

/-- `BP[i] <- slot` (R213 step 5, R216 step 2). -/
def State.setBp (s : State) (i : Nat) (slot : BpSlot) : State := { s with bp := s.bp.setIfInBounds i slot }

/-- `WP[i] <- slot` (R222 step 6, R228 step 2). -/
def State.setWp (s : State) (i : Nat) (slot : WpSlot) : State := { s with wp := s.wp.setIfInBounds i slot }

/-- `HR <- h; HR_VALID <- 1` (R238 step 6). -/
def State.setHr (s : State) (h : HaltReason) : State := { s with hr := h, hrValid := true }

/-- `HR_VALID <- 0` (R243). -/
def State.dropHr (s : State) : State := { s with hrValid := false }

/-- Step 6 of ATTACH (R152): every register of R20 but `BUSY`; `in_use` of every slot is cleared. -/
def State.commitAttach (s : State) (variant : Variant) (cw : ControlWord) (nBp nWp : BitVec 4) (cachePresent : Bool) :
    State :=
  { s with
    variant := variant, cw := cw, nBp := nBp, nWp := nWp
    bp := s.bp.map fun slot => { slot with inUse := false }
    wp := s.wp.map fun slot => { slot with inUse := false }
    fpbOn := false, cachePresent := cachePresent, hrValid := false, attached := true }

/-- Step 4 of DETACH (R158). -/
def State.dropHandle (s : State) : State :=
  { s with
    bp := s.bp.map fun slot => { slot with inUse := false }
    wp := s.wp.map fun slot => { slot with inUse := false }
    fpbOn := false, hrValid := false, cw := clearWord, attached := false }

/-- One transaction has been issued and answered: the target it left, and its entry of the trace (R19, R80). -/
def State.afterTransaction (s : State) (target : Target) (entry : TraceEntry) : State :=
  { s with target := target, trace := s.trace ++ [entry], tick := s.tick + 1 }

/-- The command port accepts a command (R32). -/
def State.accept (s : State) : State := { s with busy := true }

/-- The response is delivered, and the controller is idle again (R32, R272 (d)). -/
def State.deliver (s : State) (r : Response) : State := { s with busy := false, responses := s.responses ++ [r] }

/-- The command port now presents what follows the command just taken (R40). -/
def State.presenting (s : State) (commands : List (List Byte)) : State := { s with commands := commands }

end Sys2Proof.Machine
end

