-- ==== Sys2Proof/Machine/Flags.lean ====
section
/-! DEFINITION. Status bits, fault flags, the halt reason and the status codes (10_state.md R44; 30_encoding.md R114,
R115, R122, R126, R137; 45_fault_interpreter.md R236). -/

namespace Sys2Proof.Machine

/-- `debug_enable` as read back (R122). -/
def statusDebugEnable (cfg : Config) (v : Word) : Bool := v.getLsbD cfg.bitCDebugEn

/-- `register_ready` (R122). -/
def statusRegisterReady (cfg : Config) (v : Word) : Bool := v.getLsbD cfg.bitSRegRdy

/-- `halted` (R122). -/
def statusHalted (cfg : Config) (v : Word) : Bool := v.getLsbD cfg.bitSHalt

/-- `sleeping` (R122); no command tests it (R24). -/
def statusSleeping (cfg : Config) (v : Word) : Bool := v.getLsbD cfg.bitSSleep

/-- `lockup` (R122); no command tests it (R24). -/
def statusLockup (cfg : Config) (v : Word) : Bool := v.getLsbD cfg.bitSLockup

/-- `reset_since_last_read` (R122). -/
def statusResetSeen (cfg : Config) (v : Word) : Bool := v.getLsbD cfg.bitSResetSt

/-- The word a read of the control/status register returns: the writable bits and the five status bits (R87);
every other bit is open, taken from `noise`. -/
def statusWord (cfg : Config) (d : DebugRegs) (noise : Word) : Word :=
  let w := putBit noise cfg.bitCDebugEn d.ctl.debugEnable
  let w := putBit w cfg.bitCHalt d.ctl.haltRequest
  let w := putBit w cfg.bitCStep d.ctl.stepRequest
  let w := putBit w cfg.bitCMaskInts d.ctl.maskInterrupts
  let w := putBit w cfg.bitSRegRdy d.registerReady
  let w := putBit w cfg.bitSHalt d.halted
  let w := putBit w cfg.bitSSleep d.sleeping
  let w := putBit w cfg.bitSLockup d.lockup
  putBit w cfg.bitSResetSt d.resetSeen

/-- The five flags of a fault status word (R126). -/
def faultFlags (cfg : Config) (v : Word) : FaultFlags where
  halted := v.getLsbD cfg.bitDfsrHalted
  bkpt := v.getLsbD cfg.bitDfsrBkpt
  dwttrap := v.getLsbD cfg.bitDfsrDwttrap
  vcatch := v.getLsbD cfg.bitDfsrVcatch
  external := v.getLsbD cfg.bitDfsrExternal

/-- The word a read of the fault status register returns (R126); the bits the controller ignores are open. -/
def faultWord (cfg : Config) (f : FaultFlags) (noise : Word) : Word :=
  let w := putBit noise cfg.bitDfsrHalted f.halted
  let w := putBit w cfg.bitDfsrBkpt f.bkpt
  let w := putBit w cfg.bitDfsrDwttrap f.dwttrap
  let w := putBit w cfg.bitDfsrVcatch f.vcatch
  putBit w cfg.bitDfsrExternal f.external

/-- The flags set in either (an event sets bits, R98). -/
def FaultFlags.union (f g : FaultFlags) : FaultFlags :=
  ⟨f.halted || g.halted, f.bkpt || g.bkpt, f.dwttrap || g.dwttrap, f.vcatch || g.vcatch, f.external || g.external⟩

/-- The flags of `f` not set in `g`: write-1-to-clear (R98). -/
def FaultFlags.minus (f g : FaultFlags) : FaultFlags :=
  ⟨f.halted && !g.halted, f.bkpt && !g.bkpt, f.dwttrap && !g.dwttrap, f.vcatch && !g.vcatch, f.external && !g.external⟩

/-- `RESETALL`, the OR of the five flag bits (R126). -/
def resetAll (cfg : Config) : Word :=
  bitAt cfg.bitDfsrHalted true ||| bitAt cfg.bitDfsrBkpt true ||| bitAt cfg.bitDfsrDwttrap true
    ||| bitAt cfg.bitDfsrVcatch true ||| bitAt cfg.bitDfsrExternal true

/-- `interpret(dfsr, hfsr)` (R236), with no slot attributed yet (R238 step 3). `hfsr` has no effect
(90_conflicts.md C2). -/
def interpret (cfg : Config) (dfsr _hfsr : Word) : HaltReason where
  external := dfsr.getLsbD cfg.bitDfsrExternal
  vectorCatch := dfsr.getLsbD cfg.bitDfsrVcatch
  watchpointHit := dfsr.getLsbD cfg.bitDfsrDwttrap
  breakpointHit := dfsr.getLsbD cfg.bitDfsrBkpt
  haltedByRequest := dfsr.getLsbD cfg.bitDfsrHalted
  wpSlotValid := false
  wpSlot := 0#4

/-- The matched bit of a function register word (R137). -/
def matchedBit (cfg : Config) (f : Word) : Bool := f.getLsbD cfg.bitDwtMatched

/-- The `reason` word of a held snapshot (R114). -/
def reasonWord (h : HaltReason) : Word :=
  bitAt 0 h.haltedByRequest ||| bitAt 1 h.breakpointHit ||| bitAt 2 h.watchpointHit ||| bitAt 3 h.vectorCatch
    ||| bitAt 4 h.external ||| bitAt 8 h.wpSlotValid ||| h.wpSlot.setWidth 32 <<< 12 ||| bitAt 31 true

/-- The `reason` word when the target was not halted: `valid = 0`, all other bits zero (R114). -/
def noReasonWord : Word := 0#32

/-- The failure a port failure raises when it ends a command (R261, R267). -/
def PortFailure.raised : PortFailure → Failure
  | .linkError => .linkError
  | .backendUnavailable => .backendUnavailable

/-- The numeric code of a failure (R115). -/
def Failure.code : Failure → Nat
  | .linkError => 1
  | .protocolTimeout => 2
  | .registerTimeout => 3
  | .noFreeSlot => 4
  | .memoryAccessFault _ => 5
  | .resetTimeout => 6
  | .backendUnavailable => 7
  | .refused => 8

/-- The status code of a response (R115). -/
def Response.status : Response → Nat
  | .ok _ => 0
  | .failed f => f.code

/-- `fault_address`, present only with `MemoryAccessFault` (R114). -/
def Response.faultAddress : Response → Option Word
  | .failed (.memoryAccessFault a) => some a
  | _ => none

end Sys2Proof.Machine
end

