-- ==== Sys2Proof/Machine/Memory.lean ====
section
/-! DEFINITION. The target's memory: 2^32 bytes, one flat byte-addressed space (20_memory.md R60), as a list of
(address, byte) pairs in one canonical form. An address that is not listed reads as 0 (log entry 7). -/

namespace Sys2Proof.Machine

/-- What an address that is not listed reads as (log entry 7). -/
abbrev unlistedByte : Byte := 0#8

/-- Addresses strictly rising from `least` on and below 2^32, no entry equal to the unlisted byte. -/
def Memory.wfFrom (least : Nat) : Memory → Bool
  | [] => true
  | (a, b) :: rest => decide (least ≤ a) && decide (a < 2 ^ 32) && b != unlistedByte && Memory.wfFrom (a + 1) rest

/-- The canonical form. -/
def Memory.wf (m : Memory) : Bool := Memory.wfFrom 0 m

/-- The byte at an address. -/
def Memory.read (m : Memory) (a : Nat) : Byte :=
  match m with
  | [] => unlistedByte
  | (k, b) :: rest => if a = k then b else Memory.read rest a

/-- The list with `b` at `a`, in canonical form: putting the unlisted byte removes the entry. -/
def Memory.put (m : Memory) (a : Nat) (b : Byte) : Memory :=
  match m with
  | [] => if b = unlistedByte then [] else [(a, b)]
  | (k, c) :: rest =>
    if a < k then (if b = unlistedByte then (k, c) :: rest else (a, b) :: (k, c) :: rest)
    else if a = k then (if b = unlistedByte then rest else (a, b) :: rest)
    else (k, c) :: Memory.put rest a b

/-- A byte stored at an address. The space has 2^32 bytes (R60): a number at or above 2^32 is no address
and takes none. -/
def Memory.write (m : Memory) (a : Nat) (b : Byte) : Memory := if a < 2 ^ 32 then m.put a b else m

/-- `n` bytes from `a` on, in ascending address order (R14). -/
def Memory.readBytes (m : Memory) (a : Nat) : Nat → List Byte
  | 0 => []
  | n + 1 => m.read a :: Memory.readBytes m (a + 1) n

/-- The bytes stored from `a` on, in ascending address order (R14). -/
def Memory.writeBytes (m : Memory) (a : Nat) : List Byte → Memory
  | [] => m
  | b :: bs => Memory.writeBytes (m.write a b) (a + 1) bs

end Sys2Proof.Machine
end

