-- ==== Sys2Proof/Machine/RegMap.lean ====
section
/-! DEFINITION. The Register Map (20_memory.md R72, R73): pure data, no behaviour. -/

namespace Sys2Proof.Machine

/-- The debug-relevant registers of the target (R72). -/
inductive Reg where
  | dhcsr
  | dcrsr
  | dcrdr
  | demcr
  | dfsr
  | hfsr
  | aircr
  | cacheId
  | iciallu
  | dccmvac
  | fpCtrl
  | fpComp (i : Nat)
  | dwtCtrl
  | dwtComp (i : Nat)
  | dwtMask (i : Nat)
  | dwtFunction (i : Nat)
  deriving DecidableEq, Repr

/-- The comparator index at which an indexed bank has address `a`, if it has one (R73: `0 <= i < 15`). -/
def bankIndex (base stride a : Word) : Option Nat :=
  (List.range 15).find? fun i => a == comparatorAddress base stride i

/-- The register at a word address, if the map has one (R72, R73). -/
def regAt (cfg : Config) (a : Word) : Option Reg :=
  if a = cfg.addrDhcsr then some .dhcsr
  else if a = cfg.addrDcrsr then some .dcrsr
  else if a = cfg.addrDcrdr then some .dcrdr
  else if a = cfg.addrDemcr then some .demcr
  else if a = cfg.addrDfsr then some .dfsr
  else if a = cfg.addrHfsr then some .hfsr
  else if a = cfg.addrAircr then some .aircr
  else if a = cfg.addrCacheId then some .cacheId
  else if a = cfg.addrIciallu then some .iciallu
  else if a = cfg.addrDccmvac then some .dccmvac
  else if a = cfg.addrFpCtrl then some .fpCtrl
  else if a = cfg.addrDwtCtrl then some .dwtCtrl
  else match bankIndex cfg.addrFpComp0 cfg.fpCompStride a with
  | some i => some (.fpComp i)
  | none =>
    match bankIndex cfg.addrDwtComp0 cfg.dwtStride a with
    | some i => some (.dwtComp i)
    | none =>
      match bankIndex cfg.addrDwtMask0 cfg.dwtStride a with
      | some i => some (.dwtMask i)
      | none =>
        match bankIndex cfg.addrDwtFunction0 cfg.dwtStride a with
        | some i => some (.dwtFunction i)
        | none => none

/-- The address of a register of the map (R72, R73). -/
def Reg.address (cfg : Config) : Reg → Word
  | .dhcsr => cfg.addrDhcsr
  | .dcrsr => cfg.addrDcrsr
  | .dcrdr => cfg.addrDcrdr
  | .demcr => cfg.addrDemcr
  | .dfsr => cfg.addrDfsr
  | .hfsr => cfg.addrHfsr
  | .aircr => cfg.addrAircr
  | .cacheId => cfg.addrCacheId
  | .iciallu => cfg.addrIciallu
  | .dccmvac => cfg.addrDccmvac
  | .fpCtrl => cfg.addrFpCtrl
  | .fpComp i => addrFpComp cfg i
  | .dwtCtrl => cfg.addrDwtCtrl
  | .dwtComp i => addrDwtComp cfg i
  | .dwtMask i => addrDwtMask cfg i
  | .dwtFunction i => addrDwtFunction cfg i

/-- Whether an address lies in the window of the private peripheral bus (R60, R62). -/
def inPpb (cfg : Config) (a : Word) : Bool := decide (cfg.ppbBase ≤ a) && decide (a ≤ cfg.ppbLast)

end Sys2Proof.Machine
end

