-- ==== Sys2Proof/Machine/Target.lean ====
section
/-! DEFINITION. The target's side of the transaction port: the target contract (20_memory.md R85 to R107). What the
contract leaves open is taken from the environment's choices, never fixed here (93_implementation_defined.md
U1 to U19). -/

namespace Sys2Proof.Machine

/-- The current stack pointer is the one of MSP and PSP the core uses (R37). -/
def CoreRegs.sp (c : CoreRegs) : Word := if c.usesPsp then c.psp else c.msp

/-- The register `SEL_SPECIAL` names: CONTROL, FAULTMASK, BASEPRI and PRIMASK, a byte each (R36). -/
def CoreRegs.special (cfg : Config) (c : CoreRegs) : Word :=
  c.control.setWidth 32 <<< cfg.specialControlLo ||| c.faultmask.setWidth 32 <<< cfg.specialFaultmaskLo
    ||| c.basepri.setWidth 32 <<< cfg.specialBasepriLo ||| c.primask.setWidth 32 <<< cfg.specialPrimaskLo

/-- A write of the register `SEL_SPECIAL` names gives each of its four parts its byte (R36). -/
def CoreRegs.setSpecial (cfg : Config) (c : CoreRegs) (v : Word) : CoreRegs :=
  { c with
    control := v.extractLsb' cfg.specialControlLo 8
    faultmask := v.extractLsb' cfg.specialFaultmaskLo 8
    basepri := v.extractLsb' cfg.specialBasepriLo 8
    primask := v.extractLsb' cfg.specialPrimaskLo 8 }

/-- The index `k` with `SEL_R<k>` equal to the code (R36). -/
def generalIndex (cfg : Config) (sel : BitVec 7) : Option Nat :=
  (List.range 13).find? fun k => cfg.selR.getD k 0#7 == sel

/-- The core register a selector code names (R36); `none` if it names no register. -/
def coreRegister (cfg : Config) (c : CoreRegs) (sel : BitVec 7) : Option Word :=
  match generalIndex cfg sel with
  | some k => some (c.r.getD k 0#32)
  | none =>
    if sel = cfg.selSp then some c.sp
    else if sel = cfg.selLr then some c.lr
    else if sel = cfg.selPc then some c.pc
    else if sel = cfg.selXpsr then some c.xpsr
    else if sel = cfg.selMsp then some c.msp
    else if sel = cfg.selPsp then some c.psp
    else if sel = cfg.selSpecial then some (c.special cfg)
    else none

/-- `x[sel] <- v` (R13, R99); a code that names no register changes nothing (U9). -/
def setCoreRegister (cfg : Config) (c : CoreRegs) (sel : BitVec 7) (v : Word) : CoreRegs :=
  match generalIndex cfg sel with
  | some k => { c with r := c.r.setIfInBounds k v }
  | none =>
    if sel = cfg.selSp then (if c.usesPsp then { c with psp := v } else { c with msp := v })
    else if sel = cfg.selLr then { c with lr := v }
    else if sel = cfg.selPc then { c with pc := v }
    else if sel = cfg.selXpsr then { c with xpsr := v }
    else if sel = cfg.selMsp then { c with msp := v }
    else if sel = cfg.selPsp then { c with psp := v }
    else if sel = cfg.selSpecial then c.setSpecial cfg v
    else c

/-- The program counter after an instruction retires (R93, R94). -/
def CoreRegs.advance (c : CoreRegs) : NextPc → CoreRegs
  | .sequential len => { c with pc := c.pc + len }
  | .branch pc => { c with pc := pc }
  | .interrupt pc => { c with pc := pc }

/-- With `mask_interrupts = 1` no pending interrupt is dispatched first (R94). -/
def DebugRegs.mayTake (d : DebugRegs) : NextPc → Bool
  | .sequential _ => true
  | .branch _ => true
  | .interrupt _ => !d.ctl.maskInterrupts

/-- The core is no longer halted since the selector write of a transfer in flight (R99). -/
def Transfer.unsteady (x : Transfer) : Transfer := { x with steady := false }

/-- The core leaves the halted state (R91, R92). -/
def DebugRegs.leaveHalt (d : DebugRegs) : DebugRegs :=
  { d with halted := false, transfer := d.transfer.map Transfer.unsteady }

/-- The core enters the halted state at a debug event, which sets sticky fault status bits (R98). A resume or a step that was
pending ends with it, which no rule states (log entry 37). -/
def DebugRegs.enterHalt (d : DebugRegs) (flags : FaultFlags) : DebugRegs :=
  { d with halted := true, stepping := false, resumePending := false, dfsr := d.dfsr.union flags }

/-- No fault flag. -/
def noFlags : FaultFlags := ⟨false, false, false, false, false⟩

/-- A keyed write of the control register (R86), with what it starts: the enable (R89), the release of a
halted core (R89, R91), a step (R92). A halt request written to a halted core keeps it halted (R90). A core
released from debug control has no vector catch to complete (R89, R100). -/
def DebugRegs.keyedControl (cfg : Config) (d : DebugRegs) (new : ControlWord) : DebugRegs :=
  let releases := !new.debugEnable || (!new.haltRequest && !new.stepRequest)
  let starts := new.debugEnable && new.stepRequest && !new.haltRequest && d.halted
  let leaves := starts && cfg.stepClearsHalted
  { d with
    ctl := { new with debugEnable := new.debugEnable && d.ctl.debugEnable }
    enablePending := new.debugEnable && !d.ctl.debugEnable
    resumePending := d.halted && releases
    stepping := starts || (d.stepping && !releases)
    halted := d.halted && !leaves
    transfer := if leaves then d.transfer.map Transfer.unsteady else d.transfer
    catchPending := d.catchPending && new.debugEnable }

/-- Whether the watchpoint unit works: its trace-enable bit, where the target has one, is 1 (R320). -/
def dwtWorks (cfg : Config) (d : DebugRegs) : Bool :=
  match cfg.traceEnableBit with
  | none => true
  | some n => d.demcr.getLsbD n

/-- Whether breakpoint comparator `i` matches the address the core is about to execute (R96, R132). -/
def breakpointMatches (cfg : Config) (t : Target) (i : Nat) : Bool :=
  let word := t.dbg.fpComp.getD i disabledWord
  t.dbg.fpbEnabled && decide (i < cfg.fpCount) && word.getLsbD cfg.bitFpCompEnable
    && maskedAddress cfg word == maskedAddress cfg t.core.pc

/-- Whether an access type covers a data access (R27). -/
def AccessType.covers : AccessType → Bool → Bool
  | .read, isWrite => !isWrite
  | .write, isWrite => isWrite
  | .access, _ => true

/-- The size in bytes of a watchpoint size class (R116: the code is log2 of it). -/
def SizeClass.bytes : SizeClass → Nat
  | .byte => 1
  | .halfword => 2
  | .word => 4
  | .doubleword => 8

/-- Whether a function word in the legacy encoding covers a data access (R135). -/
def legacyCovers (cfg : Config) (f : Word) (x : DataAccess) : Bool :=
  [AccessType.read, .write, .access].any fun k => f == wpFuncLegacy cfg k && k.covers x.write

/-- Whether a data access lies within the encoded length from the address register on (R97). Which addresses an unaligned
address register matches is open, so any may (U11). -/
def SizeClass.reaches (size : SizeClass) (comp addr : Word) : Bool :=
  comp.toNat % size.bytes != 0
    || (decide (comp.toNat ≤ addr.toNat) && decide (addr.toNat < comp.toNat + size.bytes))

/-- Whether a function word in the newer encoding covers a data access, its size included (R136). -/
def v2Covers (cfg : Config) (f comp : Word) (x : DataAccess) : Bool :=
  [AccessType.read, .write, .access].any fun k =>
    k.covers x.write && [SizeClass.byte, .halfword, .word, .doubleword].any fun size =>
      wpFuncV2 cfg k size == some f && size.reaches comp x.addr

/-- Whether a watchpoint comparator matches a data access: the encoded type, and the address equal to the
address register outside the masked low bits, or within the encoded length on the newer encoding (R97). -/
def watchpointMatches (cfg : Config) (d : DebugRegs) (x : DataAccess) : Bool :=
  let comp := d.dwtComp.getD x.slot 0#32
  let func := d.dwtFunction.getD x.slot disabledWord
  dwtWorks cfg d && decide (x.slot < cfg.dwtCount) &&
    match cfg.wpEnc.at cfg.targetVariant with
    | .legacy =>
      let n := (d.dwtMask.getD x.slot 0#32).toNat
      legacyCovers cfg func x && x.addr >>> n == comp >>> n
    | .v2 => v2Covers cfg func comp x

/-- The matched bits after a list of data accesses (R97). -/
def markMatched (cfg : Config) (d : DebugRegs) (hits : List DataAccess) : Vector Bool 15 :=
  hits.foldl (fun m x => if watchpointMatches cfg d x then m.setIfInBounds x.slot true else m) d.matched

/-- The bytes of the data cache in the line that holds `a` (R103). -/
def sameLine (cfg : Config) (a : Nat) (c : Host.Cell) : Bool := c.1 / cfg.targetLine == a / cfg.targetLine

/-- The data cache line that holds `a` is cleaned: what it holds goes to memory (R103). -/
def cleanLine (cfg : Config) (t : Target) (a : Nat) : Target :=
  { t with
    mem := (t.dcache.filter (sameLine cfg a)).foldl (fun m c => m.write c.1 c.2) t.mem
    dcache := t.dcache.filter fun c => !sameLine cfg a c }

/-- The byte the core fetches at `a`: what its instruction cache holds, else memory (R84, R103). -/
def Target.fetchByte (t : Target) (a : Nat) : Byte :=
  match t.icache.find? fun c => c.1 == a with
  | some c => c.2
  | none => t.mem.read a

/-- The target's debug registers changed. -/
def Target.setDbg (t : Target) (d : DebugRegs) : Target := { t with dbg := d }

/-- Whether what a debug event needs in order to halt a running core under debug is there (R90, R96, R97). What the vector-catch
bits other than the core-reset one catch is not described, so while one is set the core may halt at any time (R100, R125;
log entry 36). -/
def HaltCause.holds (cfg : Config) (t : Target) : HaltCause → Bool
  | .request => t.dbg.ctl.haltRequest
  | .comparator i => breakpointMatches cfg t i
  | .instruction => true
  | .watchpoint hits => hits.any (watchpointMatches cfg t.dbg)
  | .vectorCatch n => t.dbg.demcr.getLsbD n && n != cfg.bitVcCoreReset && some n != cfg.traceEnableBit

/-- The fault status bit a debug event sets (R90, R96, R97, R293). -/
def HaltCause.flag : HaltCause → FaultFlags
  | .request => { noFlags with halted := true }
  | .comparator _ => { noFlags with bkpt := true }
  | .instruction => { noFlags with bkpt := true }
  | .watchpoint _ => { noFlags with dwttrap := true }
  | .vectorCatch _ => { noFlags with vcatch := true }

/-- The data accesses a debug event is made of (R97). -/
def HaltCause.accesses : HaltCause → List DataAccess
  | .request => []
  | .comparator _ => []
  | .instruction => []
  | .watchpoint hits => hits
  | .vectorCatch _ => []

/-- The core enters the halted state at the debug events of a list: the bit of each is set, and the matched bits of their
data accesses (R97, R98, R277). -/
def DebugRegs.haltAt (cfg : Config) (d : DebugRegs) (causes : List HaltCause) : DebugRegs :=
  { d.enterHalt (causes.foldl (fun f c => f.union c.flag) noFlags) with
    matched := markMatched cfg d (causes.flatMap HaltCause.accesses) }

/-- A stepped core halts again after its instruction: `flags` are the bits the step sets (R92), with `DWTTRAP` and the matched
bits if a data access of the instruction matched (R97). In between it was not halted. -/
def DebugRegs.endStep (cfg : Config) (d : DebugRegs) (flags : FaultFlags) (hits : List DataAccess) : DebugRegs :=
  { d.leaveHalt.enterHalt { flags with dwttrap := flags.dwttrap || hits.any (watchpointMatches cfg d) } with
    matched := markMatched cfg d hits }

/-- An external debug request sets `EXTERNAL` and halts the core (R98); `cancels` says whether a resume or a step that was pending
ends with it (log entry 37). -/
def DebugRegs.externalRequest (d : DebugRegs) (cancels : Bool) : DebugRegs :=
  let h := d.enterHalt { noFlags with external := true }
  if cancels then h else { h with stepping := d.stepping, resumePending := d.resumePending }

/-- A step request that still stands once its step has landed lets the core go on (R323): `again` with another step, else
running on. -/
def DebugRegs.goOn (d : DebugRegs) (again : Bool) : DebugRegs :=
  if again then { d.leaveHalt with stepping := true } else d.leaveHalt

/-- The outcome of a core-register transfer (R99): defined for a register the table of R36 lists, while the
core is halted. At which moment it must be halted R99, U7 and R185 (a) do not say: here the result is defined only if it has been
halted from the selector write to the completion, and a read takes the register as it is at the completion (the
model's choice, log entry 16). A read is otherwise `value`; a write transfers what the data register held at the
selector write (R321), and otherwise it may be lost (U7, U9). -/
def Target.completeTransfer (cfg : Config) (t : Target) (x : Transfer) (value : Word) (lost : Bool) : Target :=
  let d := { t.dbg with transfer := none, registerReady := true }
  let steady := x.steady && t.dbg.halted
  if x.write then
    if lost && !steady then { t with dbg := d }
    else { t with core := setCoreRegister cfg t.core x.sel x.data, dbg := d }
  else
    let delivered := if steady then (coreRegister cfg t.core x.sel).getD value else value
    { t with dbg := { d with dcrdr := delivered } }

/-- The target is reset (R101). If the core-reset vector-catch bit is 1 and debug is enabled (R100) the core is then to halt with
`VCATCH` set; it stands at the reset vector either way. Whether that halt is complete when `reset_since_last_read` first
reads 1 is open (R257): it is an event of its own, `vectorCatchHalts`, which may come at once or later, and until then
the core runs nothing (log entry 33). The rest of `core` and `dbg` is arbitrary (U4). -/
def Target.reset (cfg : Config) (t : Target) (core : CoreRegs) (dbg : DebugRegs) : Target :=
  let caught := t.dbg.demcr.getLsbD cfg.bitVcCoreReset && t.dbg.ctl.debugEnable
  { t with
    core := { core with pc := t.resetVector }
    dbg := { dbg with
      halted := false, catchPending := caught, resetSeen := true, resetPending := false, stepping := false
      resumePending := false, transfer := dbg.transfer.map Transfer.unsteady } }

/-- One event of the target (R81); an event whose condition does not hold changes nothing. These points the source leaves open are
settled here, each by its log entry: debug events of different kinds may coincide at one halt (R277, entry 34); only a
target that has caches fills them (R103, entry 31); a power-down, which a core under debug does not
take, leaves the core and the debug blocks arbitrary (R291, entry 35); a pending step is not over before its one instruction has
retired (R92), and with the step request still standing then the target decides how the core goes on (R323, entry 38). -/
def Target.event (cfg : Config) (t : Target) : TargetEvent → Target
  | .enableTakesEffect =>
    if t.dbg.enablePending then
      t.setDbg { t.dbg with enablePending := false, ctl := { t.dbg.ctl with debugEnable := true } }
    else t
  | .halts causes =>
    let now := causes.filter (HaltCause.holds cfg t)
    if !t.dbg.halted && t.dbg.ctl.debugEnable && !now.isEmpty then t.setDbg (t.dbg.haltAt cfg now) else t
  | .resumes =>
    if t.dbg.resumePending then t.setDbg { t.dbg.leaveHalt with resumePending := false } else t
  | .stepLeavesHalt => if t.dbg.stepping then t.setDbg t.dbg.leaveHalt else t
  | .stepRetires next flags hits =>
    if t.dbg.stepping && !t.dbg.catchPending && t.dbg.mayTake next then
      { t with core := t.core.advance next, dbg := t.dbg.endStep cfg flags hits }
    else t
  | .stepRequestStands again =>
    if t.dbg.halted && !t.dbg.stepping && t.dbg.ctl.debugEnable && t.dbg.ctl.stepRequest && !t.dbg.ctl.haltRequest then
      t.setDbg (t.dbg.goOn again)
    else t
  | .retires next =>
    if !t.dbg.halted && !t.dbg.stepping && !t.dbg.catchPending && t.dbg.mayTake next then
      { t with core := t.core.advance next }
    else t
  | .externalHalt cancels =>
    if t.dbg.ctl.debugEnable then t.setDbg (t.dbg.externalRequest cancels) else t
  | .transferCompletes value lost =>
    match t.dbg.transfer with
    | some x => t.completeTransfer cfg x value lost
    | none => t
  | .systemReset cause core dbg =>
    match cause with
    | .requested => if t.dbg.resetPending then t.reset cfg core dbg else t
    | .other => t.reset cfg core dbg
  | .vectorCatchHalts =>
    if t.dbg.catchPending then
      t.setDbg { t.dbg.enterHalt { noFlags with vcatch := true } with catchPending := false }
    else t
  | .powerDown core dbg => if t.dbg.ctl.debugEnable then t else { t with core := core, dbg := dbg }
  | .storeByte a b => { t with mem := t.mem.write a.toNat b }
  | .cachedStore a b =>
    if cfg.targetHasCache then { t with dcache := (a.toNat, b) :: t.dcache.filter fun c => c.1 != a.toNat }
    else { t with mem := t.mem.write a.toNat b }
  | .writeBack a => cleanLine cfg t a.toNat
  | .dropLine a => { t with dcache := t.dcache.filter fun c => !sameLine cfg a.toNat c }
  | .fetchFill a =>
    if cfg.targetHasCache then
      { t with icache := (a.toNat, t.mem.read a.toNat) :: t.icache.filter fun c => c.1 != a.toNat }
    else t
  | .coreChanges core => { t with core := core }
  | .controlChanges ctl => t.setDbg { t.dbg with ctl := ctl }
  | .sleepLockup sleeping lockup => t.setDbg { t.dbg with sleeping := sleeping, lockup := lockup }
  | .hfsrChanges v => t.setDbg { t.dbg with hfsr := v }
  | .dcrdrChanges v => t.setDbg { t.dbg with dcrdr := v }
  | .demcrChanges v => t.setDbg { t.dbg with demcr := v }
  | .resetVectorChanges v => { t with resetVector := v }
  | .comparatorsChange fpbEnabled fpComp dwtComp dwtMask dwtFunction =>
    t.setDbg { t.dbg with
      fpbEnabled := fpbEnabled, fpComp := fpComp, dwtComp := dwtComp, dwtMask := dwtMask, dwtFunction := dwtFunction }
  | .unlisted core dbg =>
    if !t.dbg.halted && !t.dbg.stepping && t.dbg.ctl.stepRequest then { t with core := core, dbg := dbg } else t

/-- The target's own steps before a transaction, in order (R81). -/
def Target.events (cfg : Config) (t : Target) (es : List TargetEvent) : Target := es.foldl (Target.event cfg) t

/-- What a read of a register returns and what it does (R74, R87, R88, R97); `noise` is the value of every bit the
contract leaves open. R74 says that the data, fault status, breakpoint comparator, watchpoint address and watchpoint mask
registers are not idempotent to read and gives no effect of reading them; that their reads have none is the model's
choice (log entry 30). -/
def Target.readReg (cfg : Config) (t : Target) (noise : Word) : Reg → Word × Target
  | .dhcsr => (statusWord cfg t.dbg noise, t.setDbg { t.dbg with resetSeen := false })
  | .dcrsr => (noise, t)
  | .dcrdr => (t.dbg.dcrdr, t)
  | .demcr => (t.dbg.demcr, t)
  | .dfsr => (faultWord cfg t.dbg.dfsr noise, t)
  | .hfsr => (t.dbg.hfsr, t)
  | .aircr => (noise, t)
  | .cacheId => (cfg.cacheId, t)
  | .iciallu => (noise, t)
  | .dccmvac => (noise, t)
  | .fpCtrl =>
    (putBit (putField noise cfg.fpNumCodeHi cfg.fpNumCodeLo cfg.fpCount) cfg.bitFpEnable t.dbg.fpbEnabled, t)
  | .fpComp i => if i < cfg.fpCount then (t.dbg.fpComp.getD i 0#32, t) else (noise, t)
  | .dwtCtrl =>
    let count := if dwtWorks cfg t.dbg || noise.getLsbD cfg.dwtNumCompLo then cfg.dwtCount else 0
    (putField noise cfg.dwtNumCompHi cfg.dwtNumCompLo count, t)
  | .dwtComp i => if i < cfg.dwtCount then (t.dbg.dwtComp.getD i 0#32, t) else (noise, t)
  | .dwtMask i => if i < cfg.dwtCount then (t.dbg.dwtMask.getD i 0#32, t) else (noise, t)
  | .dwtFunction i =>
    if i < cfg.dwtCount then
      (putBit (t.dbg.dwtFunction.getD i 0#32) cfg.bitDwtMatched (t.dbg.matched.getD i false),
        t.setDbg { t.dbg with matched := t.dbg.matched.setIfInBounds i false })
    else (noise, t)

/-- What a write of a register does (R74, R86, R96, R98, R99, R101, R103); `noise` is what the hard-fault status
holds after a write, which nothing describes (R127). The bits of a selector word outside the selector field and the direction
bit, which only a host's WRMEM can set (R123), are ignored: the model's choice (log entry 32). The cache
operations are no-ops on a target without cache (R103). -/
def Target.writeReg (cfg : Config) (t : Target) (noise v : Word) : Reg → Target
  | .dhcsr =>
    if upperHalf v = cfg.dbgKey then t.setDbg (t.dbg.keyedControl cfg (controlBits cfg v)) else t
  | .dcrsr =>
    t.setDbg { t.dbg with
      transfer := some { sel := v.extractLsb' 0 7, write := v.getLsbD cfg.bitRegWnR, data := t.dbg.dcrdr, steady := t.dbg.halted }
      registerReady := t.dbg.registerReady && !cfg.selectorClearsReady }
  | .dcrdr => t.setDbg { t.dbg with dcrdr := v }
  | .demcr => t.setDbg { t.dbg with demcr := v }
  | .dfsr => t.setDbg { t.dbg with dfsr := t.dbg.dfsr.minus (faultFlags cfg v) }
  | .hfsr => t.setDbg { t.dbg with hfsr := noise }
  | .aircr =>
    if upperHalf v = cfg.vectKey ∧ v.getLsbD cfg.bitSysResetReq = true then t.setDbg { t.dbg with resetPending := true }
    else t
  | .cacheId => t
  | .iciallu => if cfg.targetHasCache then { t with icache := [] } else t
  | .dccmvac => if cfg.targetHasCache then cleanLine cfg t v.toNat else t
  | .fpCtrl =>
    if v.getLsbD cfg.bitFpKey then t.setDbg { t.dbg with fpbEnabled := v.getLsbD cfg.bitFpEnable } else t
  | .fpComp i =>
    if i < cfg.fpCount then t.setDbg { t.dbg with fpComp := t.dbg.fpComp.setIfInBounds i v } else t
  | .dwtCtrl => t
  | .dwtComp i =>
    if i < cfg.dwtCount then t.setDbg { t.dbg with dwtComp := t.dbg.dwtComp.setIfInBounds i v } else t
  | .dwtMask i =>
    if i < cfg.dwtCount then t.setDbg { t.dbg with dwtMask := t.dbg.dwtMask.setIfInBounds i v } else t
  | .dwtFunction i =>
    if i < cfg.dwtCount then
      t.setDbg { t.dbg with dwtFunction := t.dbg.dwtFunction.setIfInBounds i (putBit v cfg.bitDwtMatched false) }
    else t

/-- `n` bytes of a word from the lane of `a` on (R79). -/
def laneBytes (w a : Word) (n : Nat) : List Byte := ((bytesOfWord w).drop (byteLane a)).take n

/-- A word that has `bs` from the lane of `a` on and `noise` elsewhere (log entry 12). -/
def laneWord (noise a : Word) (bs : List Byte) : Word :=
  let n := bytesOfWord noise
  wordOfBytes (n.take (byteLane a) ++ bs ++ n.drop (byteLane a + bs.length))

/-- A naturally aligned read of `n` bytes, `n` in 1, 2, 4 (R14, R67, R104): a register of the map, an address of the
window the map does not list (open), or memory. -/
def Target.read (cfg : Config) (t : Target) (noise a : Word) (n : Nat) : List Byte × Target :=
  match regAt cfg (wordAddress a) with
  | some r => (laneBytes (t.readReg cfg noise r).1 a n, (t.readReg cfg noise r).2)
  | none => if inPpb cfg a then (laneBytes noise a n, t) else (t.mem.readBytes a.toNat n, t)

/-- A naturally aligned write of 1, 2 or 4 bytes (R14, R67, R104). -/
def Target.write (cfg : Config) (t : Target) (noise a : Word) (bs : List Byte) : Target :=
  match regAt cfg (wordAddress a) with
  | some r => t.writeReg cfg noise (laneWord noise a bs) r
  | none => if inPpb cfg a then t else { t with mem := t.mem.writeBytes a.toNat bs }

end Sys2Proof.Machine
end

