-- ==== Sys2Proof/Machine/Port.lean ====
section
/-! DEFINITION. The Debug Transaction Port (20_memory.md R66 to R70, R80, R81): one transaction at a time, each complete
before the next; before each, the target takes the steps the environment chose. -/

namespace Sys2Proof.Machine

/-- One transaction. The target takes its own steps; then the port answers, or fails, in which case the target
may or may not have taken the access (R68, U2). A port whose backend is not present answers every
transaction with `BackendUnavailable` and reaches no target (R267). -/
def transact {α : Type} (access : Target → Word → α × Target) (entry : Answer α → TraceEntry) (s : State) :
    Answer α × State :=
  let c := s.choice
  let t := s.target.events s.cfg c.events
  if s.cfg.backendPresent then
    match c.outcome with
    | .answered =>
      (.ok (access t c.noise).1, s.afterTransaction (access t c.noise).2 (entry (.ok (access t c.noise).1)))
    | .failed f reached =>
      (.fail f, s.afterTransaction (if reached then (access t c.noise).2 else t) (entry (.fail f)))
  else (.fail .backendUnavailable, s.afterTransaction t (entry (.fail .backendUnavailable)))

/-- `read32(a)` (R66): a word access, its bytes taken as a little-endian number (R79). -/
def portRead32 (a : Word) (s : State) : Answer Word × State :=
  transact (fun t noise => (wordOfBytes (t.read s.cfg noise a 4).1, (t.read s.cfg noise a 4).2)) (.rd32 a) s

/-- `write32(a, v)` (R66). -/
def portWrite32 (a v : Word) (s : State) : Answer Unit × State :=
  transact (fun t noise => ((), t.write s.cfg noise a (bytesOfWord v))) (.wr32 a v) s

/-- `read_block(a, n)` (R66), one access of `n` bytes (R67). -/
def portReadBlock (a : Word) (n : Nat) (s : State) : Answer (List Byte) × State :=
  transact (fun t noise => t.read s.cfg noise a n) (.memRead a n) s

/-- `write_block(a, bytes)` (R66), one access of as many bytes (R67). -/
def portWriteBlock (a : Word) (bs : List Byte) (s : State) : Answer Unit × State :=
  transact (fun t noise => ((), t.write s.cfg noise a bs)) (.memWrite a bs) s

end Sys2Proof.Machine
end

