-- ==== Sys2Proof/Machine/Ops.lean ====
section
/-! DEFINITION. The shared operations the commands are made of: transactions that end the command on a failure
(00_scope.md R14), `Poll` (R15), `raise` and `refuse` (R16), `WriteCW` (40_core_control.md R151), the sweep (R155),
`Capture` (45_fault_interpreter.md R238), and how a command starts and ends (10_state.md R32; 60_exceptions.md
R272, R273). -/

namespace Sys2Proof.Machine

/-- A command in progress: it reads and changes the state, and ends with a value or with a failure. The state a
failure leaves is the one the steps already done left (R16, R272 (a), (b)). -/
abbrev Cmd (α : Type) := EStateM Failure State α

/-- Taking a failure, the controller's only exception (R16, R272): the command ends here. Nothing is saved but
the failure itself, which becomes the response; `runCommand` delivers it. -/
def raise {α : Type} (f : Failure) : Cmd α := throw f

/-- `refuse` (R16, R268): used only before any transaction and any state change. -/
def refuse {α : Type} : Cmd α := raise .refused

/-- `if b: refuse`. -/
def refuseIf (b : Bool) : Cmd Unit := if b then refuse else pure ()

/-- An operand whose code is reserved is refused (R117). -/
def orRefuse {α : Type} : Option α → Cmd α
  | some v => pure v
  | none => refuse

/-- `if ATTACHED = 0: refuse` (R268 (b)). -/
def requireAttached : Cmd Unit := do refuseIf (!(← get).attached)

/-- A port failure ends the command with that failure (R14, R261). -/
def orRaise {α : Type} (call : State → Answer α × State) : Cmd α := fun s =>
  match call s with
  | (.ok v, s') => .ok v s'
  | (.fail f, s') => .error f.raised s'

/-- A port failure in a sub-transfer of RDMEM or WRMEM, of either kind, ends the command with
`MemoryAccessFault` and the address of the sub-transfer (R198, R265). -/
def orMemoryFault {α : Type} (a : Word) (call : State → Answer α × State) : Cmd α := fun s =>
  match call s with
  | (.ok v, s') => .ok v s'
  | (.fail _, s') => .error (.memoryAccessFault a) s'

/-- `Rd32(a)` (R14). -/
def rd32 (a : Word) : Cmd Word := orRaise (portRead32 a)

/-- `Wr32(a, v)` (R14). -/
def wr32 (a v : Word) : Cmd Unit := orRaise (portWrite32 a v)

/-- `MemRead(a, n)` as a sub-transfer (R14, R196). -/
def memRead (a : Word) (n : Nat) : Cmd (List Byte) := orMemoryFault a (portReadBlock a n)

/-- `MemWrite(a, n, bytes)` as a sub-transfer (R14, R197). -/
def memWrite (a : Word) (bs : List Byte) : Cmd Unit := orMemoryFault a (portWriteBlock a bs)

/-- The writes of a list, in order; the first to fail ends the command. -/
def writeAll : List (Word × Word) → Cmd Unit
  | [] => pure ()
  | (a, v) :: rest => do
    wr32 a v
    writeAll rest

/-- The writes of a list, in order, every one attempted and every failure ignored (R158, R274). -/
def attemptAll : List (Word × Word) → Cmd Unit
  | [] => pure ()
  | (a, v) :: rest => fun s => attemptAll rest (portWrite32 a v s).2

/-- `Poll(a, pred)` with `n` reads still allowed (R15): true for `Found`, false for `Exhausted`. -/
def poll (a : Word) (pred : Word → Bool) : Nat → Cmd Bool
  | 0 => pure false
  | n + 1 => do
    let v ← rd32 a
    if pred v then pure true else poll a pred n

/-- `Poll` of the control/status register with the bound `POLL_MAX`; `Exhausted` raises `timeout` (R15, R276). -/
def awaitStatus (pred : Config → Word → Bool) (timeout : Failure) : Cmd Unit := do
  let cfg := (← get).cfg
  if ← poll cfg.addrDhcsr (pred cfg) cfg.pollMax then pure () else raise timeout

/-- `WriteCW(cw)`: the one way the control register is written (R151). -/
def writeCw (cw : ControlWord) : Cmd Unit := do
  let cfg := (← get).cfg
  wr32 cfg.addrDhcsr (dhcsrWord cfg cw)
  modify (·.setCw cw)

/-- The writes of `Sweep(n_bp, n_wp)`: the disabled word to every breakpoint comparator and to every watchpoint
function register, ascending (R155). -/
def sweepWrites (cfg : Config) (nBp nWp : Nat) : List (Word × Word) :=
  (List.range nBp).map (fun i => (addrFpComp cfg i, disabledWord))
    ++ (List.range nWp).map (fun i => (addrDwtFunction cfg i, disabledWord))

/-- `ScanWatchpoints(h)` over the slots of a list (R239): every slot in use is read, the first matched one is
attributed. -/
def scanWatchpoints (h : HaltReason) : List Nat → Cmd HaltReason
  | [] => pure h
  | i :: rest => do
    let s ← get
    if (s.wp.getD i freeWp).inUse then
      let f ← rd32 (addrDwtFunction s.cfg i)
      if matchedBit s.cfg f && !h.wpSlotValid then
        scanWatchpoints { h with wpSlotValid := true, wpSlot := BitVec.ofNat 4 i } rest
      else scanWatchpoints h rest
    else scanWatchpoints h rest

/-- Step 4 of `Capture` (R238): a watchpoint halt is attributed to a slot, any other is left as it is. -/
def attributeHalt (h : HaltReason) : Cmd HaltReason := do
  let s ← get
  if h.watchpointHit then scanWatchpoints h (List.range s.nWp.toNat) else pure h

/-- `Capture` (R238). -/
def capture : Cmd Unit := do
  let s ← get
  let dfsr ← rd32 s.cfg.addrDfsr
  let hfsr ← rd32 s.cfg.addrHfsr
  let h ← attributeHalt (interpret s.cfg dfsr hfsr)
  wr32 s.cfg.addrDfsr (resetAll s.cfg)
  modify (·.setHr h)

/-- A command from its acceptance to its response (R32). While `BUSY = 1` none is accepted (R281). The response
of a failure carries its kind, and returning from it is being idle again: the next command starts from the
state the failure left (R272, R273). -/
def runCommand (body : Cmd Result) (s : State) : State :=
  if s.busy then s
  else
    match body s.accept with
    | .ok r s' => s'.deliver (.ok r)
    | .error f s' => s'.deliver (.failed f)

end Sys2Proof.Machine
end

