-- ==== Sys2Proof/Machine/Breakpoints.lean ====
section
/-! DEFINITION. The breakpoint manager: SETBP, CLRBP (43_breakpoints.md R210 to R218). -/

namespace Sys2Proof.Machine

/-- Breakpoint slot `i`. -/
def State.bpSlot (s : State) (i : Nat) : BpSlot := s.bp.getD i freeBp

/-- The slot below `N_BP` in use for a masked address (R213 step 1). -/
def State.bpHolding (s : State) (m : Word) : Option Nat :=
  (List.range s.nBp.toNat).find? fun j => (s.bpSlot j).inUse && (s.bpSlot j).codeAddress == m

/-- The least slot below `N_BP` not in use (R213 step 2). -/
def State.bpFree (s : State) : Option Nat := (List.range s.nBp.toNat).find? fun i => !(s.bpSlot i).inUse

/-- The lazy enable of the breakpoint unit (R213 step 3, R214). -/
def enableFpb : Cmd Unit := do
  let s ← get
  if s.fpbOn then pure ()
  else
    wr32 s.cfg.addrFpCtrl (fpbEnableWord s.cfg)
    modify State.setFpbOn

/-- SETBP (R213). -/
def cmdSetbp (codeAddress : Word) : Cmd Result := do
  requireAttached
  let s ← get
  let m := maskedAddress s.cfg codeAddress
  match s.bpHolding m with
  | some j => pure (.slot (BitVec.ofNat 4 j))
  | none =>
    match s.bpFree with
    | none => raise .noFreeSlot
    | some i =>
      enableFpb
      wr32 (addrFpComp s.cfg i) (bpWord s.cfg m)
      modify (·.setBp i { inUse := true, codeAddress := m })
      pure (.slot (BitVec.ofNat 4 i))

/-- CLRBP (R216). -/
def cmdClrbp (slot : BitVec 4) : Cmd Result := do
  requireAttached
  let s ← get
  refuseIf (decide (s.nBp.toNat ≤ slot.toNat))
  wr32 (addrFpComp s.cfg slot.toNat) disabledWord
  modify (·.setBp slot.toNat { s.bpSlot slot.toNat with inUse := false })
  pure .none

/-- SETBP: the meaning of its arm. -/
def execSetbp (codeAddress : Word) (s : State) : Host.Outcome State Fault Refusal :=
  .next (runCommand (cmdSetbp codeAddress) s)

/-- CLRBP: the meaning of its arm. -/
def execClrbp (slot : BitVec 4) (s : State) : Host.Outcome State Fault Refusal := .next (runCommand (cmdClrbp slot) s)

end Sys2Proof.Machine
end

