-- ==== Sys2Proof/Machine/CoreControl.lean ====
section
/-! DEFINITION. The core control state machine: ATTACH, DETACH, HALT, RESUME, RESUME.STEP (40_core_control.md). -/

namespace Sys2Proof.Machine

/-- The first control word of a handle (R153). -/
def attachCw : ControlWord := { debugEnable := true, haltRequest := false, stepRequest := false, maskInterrupts := false }

/-- A comparator count limited to the table's capacity (R154). -/
def slotCount (count cap : Nat) : BitVec 4 := BitVec.ofNat 4 (min count cap)

/-- `CACHE_PRESENT` as ATTACH samples it (R152 step 5, R156). -/
def sampleCache (variant : Variant) : Cmd Bool := do
  let cfg := (← get).cfg
  if cfg.hasCacheOps.at variant then
    let v ← rd32 cfg.addrCacheId
    pure (cachePresentOf cfg v)
  else pure false

/-- ATTACH (R152). -/
def cmdAttach (code : BitVec 2) : Cmd Result := do
  let s ← get
  refuseIf s.attached
  let variant ← orRefuse (variantOf code)
  wr32 s.cfg.addrDhcsr (dhcsrWord s.cfg attachCw)
  awaitStatus statusDebugEnable .protocolTimeout
  let fpCtrl ← rd32 s.cfg.addrFpCtrl
  let dwtCtrl ← rd32 s.cfg.addrDwtCtrl
  let nBp := slotCount (numCode s.cfg fpCtrl) BP_CAP
  let nWp := slotCount (numComp s.cfg dwtCtrl) WP_CAP
  writeAll (sweepWrites s.cfg nBp.toNat nWp.toNat)
  let cachePresent ← sampleCache variant
  modify (·.commitAttach variant attachCw nBp nWp cachePresent)
  pure .none

/-- DETACH (R158): the sweep, the breakpoint unit's disable and the cleared control word, all best effort; then
the handle is gone. -/
def cmdDetach : Cmd Result := do
  requireAttached
  let s ← get
  attemptAll (sweepWrites s.cfg s.nBp.toNat s.nWp.toNat
    ++ [(s.cfg.addrFpCtrl, fpbDisableWord s.cfg), (s.cfg.addrDhcsr, dhcsrWord s.cfg clearWord)])
  modify State.dropHandle
  pure .none

/-- Capture, unless the snapshot of this halt episode is held already (R160 step 1, R235). -/
def captureOnce : Cmd Unit := do
  if (← get).hrValid then pure () else capture

/-- HALT (R160). -/
def cmdHalt : Cmd Result := do
  requireAttached
  let s ← get
  let status ← rd32 s.cfg.addrDhcsr
  if statusHalted s.cfg status then
    captureOnce
    pure .none
  else
    modify State.dropHr
    writeCw { s.cw with haltRequest := true }
    awaitStatus statusHalted .protocolTimeout
    capture
    pure .none

/-- RESUME (R163). -/
def cmdResume (mask : Bool) : Cmd Result := do
  requireAttached
  let s ← get
  writeCw { s.cw with haltRequest := false, stepRequest := false, maskInterrupts := mask }
  modify State.dropHr
  pure .none

/-- RESUME.STEP (R165, R166). -/
def cmdResumeStep (mask : Bool) : Cmd Result := do
  requireAttached
  let s ← get
  writeCw { s.cw with haltRequest := false, stepRequest := true, maskInterrupts := mask }
  modify State.dropHr
  awaitStatus statusHalted .protocolTimeout
  writeCw { (← get).cw with haltRequest := true, stepRequest := false }
  capture
  pure .none

/-- ATTACH: the meaning of its arm. -/
def execAttach (variant : BitVec 2) (s : State) : Host.Outcome State Fault Refusal :=
  .next (runCommand (cmdAttach variant) s)

/-- DETACH: the meaning of its arm. -/
def execDetach (s : State) : Host.Outcome State Fault Refusal := .next (runCommand cmdDetach s)

/-- HALT: the meaning of its arm. -/
def execHalt (s : State) : Host.Outcome State Fault Refusal := .next (runCommand cmdHalt s)

/-- RESUME: the meaning of its arm. -/
def execResume (mask : Bool) (s : State) : Host.Outcome State Fault Refusal := .next (runCommand (cmdResume mask) s)

/-- RESUME.STEP: the meaning of its arm. -/
def execResumeStep (mask : Bool) (s : State) : Host.Outcome State Fault Refusal :=
  .next (runCommand (cmdResumeStep mask) s)

end Sys2Proof.Machine
end

