-- ==== Sys2Proof/Machine/FaultInterpreter.lean ====
section
/-! DEFINITION. The fault interpreter's command HALTREASON (45_fault_interpreter.md R235, R241 to R243); `interpret` is in
Machine/Flags.lean, `Capture` and the scan in Machine/Ops.lean, because HALT and RESUME.STEP use them too. -/

namespace Sys2Proof.Machine

/-- HALTREASON (R241). -/
def cmdHaltreason : Cmd Result := do
  requireAttached
  let s ← get
  if s.hrValid then pure (.reason (reasonWord s.hr))
  else
    let status ← rd32 s.cfg.addrDhcsr
    if statusHalted s.cfg status then
      capture
      pure (.reason (reasonWord (← get).hr))
    else pure (.reason noReasonWord)

/-- HALTREASON: the meaning of its arm. -/
def execHaltreason (s : State) : Host.Outcome State Fault Refusal := .next (runCommand cmdHaltreason s)

end Sys2Proof.Machine
end

