-- ==== Sys2Proof/Machine/MemoryAccess.lean ====
section
/-! DEFINITION. The memory access unit: `Decompose`, RDMEM, WRMEM, cache maintenance (42_memory_access.md). -/

namespace Sys2Proof.Machine

/-- The width of the next sub-transfer: the largest of 4, 2, 1 within the ceiling and the remaining span, and to
which the address is aligned (R193). -/
def transferWidth (a n h : Nat) : Nat :=
  if 4 ≤ h ∧ 4 ≤ n ∧ a % 4 = 0 then 4 else if 2 ≤ h ∧ 2 ≤ n ∧ a % 2 = 0 then 2 else 1

/-- The loop of `Decompose`, with at most `fuel` rounds (R193). -/
def decomposeLoop : Nat → Nat → Nat → Nat → List (Nat × Nat)
  | 0, _, _, _ => []
  | fuel + 1, a, n, h =>
    if n = 0 then []
    else (a, transferWidth a n h) :: decomposeLoop fuel (a + transferWidth a n h) (n - transferWidth a n h) h

/-- `Decompose(a, n, H)`: the sub-transfers `(address, width)` of a span, in order (R193). The loop ends after
at most `n` rounds. -/
def decompose (a n h : Nat) : List (Nat × Nat) := decomposeLoop n a n h

/-- The reads of a list of sub-transfers, their bytes joined (R196). -/
def readTransfers : List (Nat × Nat) → Cmd (List Byte)
  | [] => pure []
  | (x, w) :: rest => do
    let bs ← memRead (BitVec.ofNat 32 x) w
    let more ← readTransfers rest
    pure (bs ++ more)

/-- The writes of a list of sub-transfers; `(x, w)` carries the span bytes `x - base .. x - base + w - 1` (R195, R197). -/
def writeTransfers (base : Nat) (bytes : List Byte) : List (Nat × Nat) → Cmd Unit
  | [] => pure ()
  | (x, w) :: rest => do
    memWrite (BitVec.ofNat 32 x) ((bytes.drop (x - base)).take w)
    writeTransfers base bytes rest

/-- The loop of `CacheMaintain` from line `l` up to `stop`, with at most `fuel` rounds (R199 step 2). -/
def cleanLoop (line : Nat) : Nat → Nat → Nat → List Nat
  | 0, _, _ => []
  | fuel + 1, l, stop => if l < stop then l :: cleanLoop line fuel (l + line) stop else []

/-- The line addresses `CacheMaintain(addr, len)` cleans: from `addr AND NOT(DCACHE_LINE - 1)` on, while below
`addr + len`, as integers (R199). -/
def cleanLines (cfg : Config) (addr : Word) (len : Nat) : List Nat :=
  let first := (addr &&& ~~~(BitVec.ofNat 32 (cfg.dcacheLine - 1))).toNat
  cleanLoop cfg.dcacheLine (addr.toNat + len - first) first (addr.toNat + len)

/-- The writes of `CacheMaintain(addr, len)` (R199): invalidate the instruction cache, then clean by line. -/
def cacheWrites (cfg : Config) (addr : Word) (len : Nat) : List (Word × Word) :=
  (cfg.addrIciallu, 0#32) :: (cleanLines cfg addr len).map fun l => (cfg.addrDccmvac, BitVec.ofNat 32 l)

/-- `addr + len > 2^32`: the span would pass the top of the address space (R191). -/
def spanTooLong (addr len : Word) : Bool := decide (2 ^ 32 < addr.toNat + len.toNat)

/-- RDMEM (R196). -/
def cmdRdmem (hint : BitVec 2) (addr len : Word) : Cmd Result := do
  requireAttached
  let ceiling ← orRefuse (hintOf hint)
  refuseIf (spanTooLong addr len)
  let data ← readTransfers (decompose addr.toNat len.toNat ceiling.ceiling)
  pure (.data data)

/-- WRMEM (R197). A payload that is not `len` bytes is no command (R110) and is refused. -/
def cmdWrmem (hint : BitVec 2) (code : Bool) (addr len : Word) (bytes : List Byte) : Cmd Result := do
  requireAttached
  let ceiling ← orRefuse (hintOf hint)
  refuseIf (spanTooLong addr len)
  refuseIf (bytes.length != len.toNat)
  writeTransfers addr.toNat bytes (decompose addr.toNat len.toNat ceiling.ceiling)
  let s ← get
  if code && s.cachePresent && decide (0 < len.toNat) then
    writeAll (cacheWrites s.cfg addr len.toNat)
    pure .none
  else pure .none

/-- RDMEM: the meaning of its arm. -/
def execRdmem (hint : BitVec 2) (addr len : Word) (s : State) : Host.Outcome State Fault Refusal :=
  .next (runCommand (cmdRdmem hint addr len) s)

/-- WRMEM: the meaning of its arm. -/
def execWrmem (hint : BitVec 2) (code : Bool) (addr len : Word) (bytes : List Byte) (s : State) :
    Host.Outcome State Fault Refusal :=
  .next (runCommand (cmdWrmem hint code addr len bytes) s)

end Sys2Proof.Machine
end

