-- ==== Sys2Proof/Machine/RegisterAccess.lean ====
section
/-! DEFINITION. The register access unit: RDREG, WRREG (41_register_access.md R180 to R185). -/

namespace Sys2Proof.Machine

/-- RDREG (R182): the selector with direction 0, the ready poll, then the data register. -/
def cmdRdreg (sel : BitVec 7) : Cmd Result := do
  requireAttached
  let s ← get
  wr32 s.cfg.addrDcrsr (selWord s.cfg sel false)
  awaitStatus statusRegisterReady .registerTimeout
  let value ← rd32 s.cfg.addrDcrdr
  pure (.value value)

/-- WRREG (R183): the data first, the selector with direction 1, then the ready poll. -/
def cmdWrreg (sel : BitVec 7) (value : Word) : Cmd Result := do
  requireAttached
  let s ← get
  wr32 s.cfg.addrDcrdr value
  wr32 s.cfg.addrDcrsr (selWord s.cfg sel true)
  awaitStatus statusRegisterReady .registerTimeout
  pure .none

/-- RDREG: the meaning of its arm. -/
def execRdreg (sel : BitVec 7) (s : State) : Host.Outcome State Fault Refusal := .next (runCommand (cmdRdreg sel) s)

/-- WRREG: the meaning of its arm. -/
def execWrreg (sel : BitVec 7) (value : Word) (s : State) : Host.Outcome State Fault Refusal :=
  .next (runCommand (cmdWrreg sel value) s)

end Sys2Proof.Machine
end

