-- ==== Sys2Proof/Machine/ResetSequencer.lean ====
section
/-! DEFINITION. The reset sequencer: RESET (46_reset_sequencer.md R250 to R257). -/

namespace Sys2Proof.Machine

/-- Arming the core-reset vector catch: a read and a write of the monitor-control register (R252 step 1). -/
def armVectorCatch : Cmd Unit := do
  let cfg := (← get).cfg
  let v ← rd32 cfg.addrDemcr
  wr32 cfg.addrDemcr (armWord cfg v)

/-- RESET (R252). -/
def cmdReset (catchVector : Bool) : Cmd Result := do
  requireAttached
  let s ← get
  if catchVector then armVectorCatch else pure ()
  wr32 s.cfg.addrAircr (resetWord s.cfg)
  modify State.dropHr
  awaitStatus statusResetSeen .resetTimeout
  pure .none

/-- RESET: the meaning of its arm. -/
def execReset (catchVector : Bool) (s : State) : Host.Outcome State Fault Refusal :=
  .next (runCommand (cmdReset catchVector) s)

end Sys2Proof.Machine
end

