-- ==== Sys2Proof/Machine/Watchpoints.lean ====
section
/-! DEFINITION. The watchpoint manager: SETWP, CLRWP (44_watchpoints.md R220 to R230). -/

namespace Sys2Proof.Machine

/-- Watchpoint slot `i`. -/
def State.wpSlot (s : State) (i : Nat) : WpSlot := s.wp.getD i freeWp

/-- The slot below `N_WP` in use for a triple (R222 step 1). -/
def State.wpHolding (s : State) (w : WpSlot) : Option Nat :=
  (List.range s.nWp.toNat).find? fun j => (s.wpSlot j).inUse && s.wpSlot j == { w with inUse := true }

/-- The least slot below `N_WP` not in use (R222 step 2). -/
def State.wpFree (s : State) : Option Nat := (List.range s.nWp.toNat).find? fun i => !(s.wpSlot i).inUse

/-- The writes that give a comparator its size and arm it, after its address (R222 steps 4 and 5); `none` if the
encoding of the variant has no word for the size (R225). -/
def armWrites (cfg : Config) (encoding : WpEncoding) (i : Nat) (size : SizeClass) (kind : AccessType) :
    Option (List (Word × Word)) :=
  match encoding with
  | .legacy => some [(addrDwtMask cfg i, sizeMask size), (addrDwtFunction cfg i, wpFuncLegacy cfg kind)]
  | .v2 => (wpFuncV2 cfg kind size).map fun f => [(addrDwtFunction cfg i, f)]

/-- SETWP (R222). -/
def cmdSetwp (sizeCode accessCode : BitVec 2) (address : Word) : Cmd Result := do
  requireAttached
  let s ← get
  let size := sizeClassOf sizeCode
  let kind ← orRefuse (accessOf accessCode)
  let encoding := s.cfg.wpEnc.at s.variant
  refuseIf (encoding == .v2 && size == .doubleword)
  let watch : WpSlot := { inUse := true, dataAddress := address, sizeClass := size, accessType := kind }
  match s.wpHolding watch with
  | some j => pure (.slot (BitVec.ofNat 4 j))
  | none =>
    match s.wpFree with
    | none => raise .noFreeSlot
    | some i =>
      let arming ← orRefuse (armWrites s.cfg encoding i size kind)
      writeAll ((addrDwtComp s.cfg i, address) :: arming)
      modify (·.setWp i watch)
      pure (.slot (BitVec.ofNat 4 i))

/-- CLRWP (R228). -/
def cmdClrwp (slot : BitVec 4) : Cmd Result := do
  requireAttached
  let s ← get
  refuseIf (decide (s.nWp.toNat ≤ slot.toNat))
  wr32 (addrDwtFunction s.cfg slot.toNat) disabledWord
  modify (·.setWp slot.toNat { s.wpSlot slot.toNat with inUse := false })
  pure .none

/-- SETWP: the meaning of its arm. -/
def execSetwp (size access : BitVec 2) (address : Word) (s : State) : Host.Outcome State Fault Refusal :=
  .next (runCommand (cmdSetwp size access address) s)

/-- CLRWP: the meaning of its arm. -/
def execClrwp (slot : BitVec 4) (s : State) : Host.Outcome State Fault Refusal := .next (runCommand (cmdClrwp slot) s)

end Sys2Proof.Machine
end

