-- ==== Sys2Proof/Syntax.lean ====
section
/-! DEFINITION. The command set of the controller: one constructor per row of spec/opcode_table.json
(30_encoding.md R112). Operands are carried as the codes the header holds, the reserved codes of R116
included, because a header with a reserved code is a row of the table that the command itself refuses. -/

namespace Sys2Proof

/-- The fifteen commands (R2, R112). -/
inductive Instr where
  /-- ATTACH, R152: `variant` is the two-bit variant code (`arg[1:0]`). -/
  | attach (variant : BitVec 2)
  /-- DETACH, R158. -/
  | detach
  /-- HALT, R160. -/
  | halt
  /-- RESUME, R163: `mask` is `mask_interrupts` (`arg[1]`). -/
  | resume (mask : Bool)
  /-- RESUME.STEP, R165: `mask` is `mask_interrupts` (`arg[1]`). -/
  | resumeStep (mask : Bool)
  /-- RESET, R252: `catchVector` is `arg[0]`. -/
  | reset (catchVector : Bool)
  /-- RDREG, R182: the seven-bit selector code. -/
  | rdreg (sel : BitVec 7)
  /-- WRREG, R183: the selector code and operand word W1. -/
  | wrreg (sel : BitVec 7) (value : Word)
  /-- RDMEM, R196: the align hint code, W1 and W2. -/
  | rdmem (hint : BitVec 2) (addr len : Word)
  /-- WRMEM, R197: the align hint code, the code-region flag, W1, W2 and the payload. -/
  | wrmem (hint : BitVec 2) (code : Bool) (addr len : Word) (bytes : List Byte)
  /-- SETBP, R213: W1 is the code address. -/
  | setbp (codeAddress : Word)
  /-- CLRBP, R216: the slot id (`arg[3:0]`). -/
  | clrbp (slot : BitVec 4)
  /-- SETWP, R222: size class code (`arg[1:0]`), access type code (`arg[3:2]`), W1 the data address. -/
  | setwp (size access : BitVec 2) (address : Word)
  /-- CLRWP, R228: the slot id (`arg[3:0]`). -/
  | clrwp (slot : BitVec 4)
  /-- HALTREASON, R241. -/
  | haltreason
  deriving DecidableEq, Repr

end Sys2Proof
end

