-- ==== Sys2Proof/Machine/Dispatch.lean ====
section
/-! DEFINITION. The dispatch: one arm per command of the table (30_encoding.md R112). -/

namespace Sys2Proof.Machine

def exec (i : Instr) (s : State) : Host.Outcome State Fault Refusal :=
  match i with
  | .attach variant => Sys2Proof.Machine.execAttach variant s
  | .detach => Sys2Proof.Machine.execDetach s
  | .halt => Sys2Proof.Machine.execHalt s
  | .resume mask => Sys2Proof.Machine.execResume mask s
  | .resumeStep mask => Sys2Proof.Machine.execResumeStep mask s
  | .reset catchVector => Sys2Proof.Machine.execReset catchVector s
  | .rdreg sel => Sys2Proof.Machine.execRdreg sel s
  | .wrreg sel value => Sys2Proof.Machine.execWrreg sel value s
  | .rdmem hint addr len => Sys2Proof.Machine.execRdmem hint addr len s
  | .wrmem hint code addr len bytes => Sys2Proof.Machine.execWrmem hint code addr len bytes s
  | .setbp codeAddress => Sys2Proof.Machine.execSetbp codeAddress s
  | .clrbp slot => Sys2Proof.Machine.execClrbp slot s
  | .setwp size access address => Sys2Proof.Machine.execSetwp size access address s
  | .clrwp slot => Sys2Proof.Machine.execClrwp slot s
  | .haltreason => Sys2Proof.Machine.execHaltreason s

end Sys2Proof.Machine
end

