-- ==== Sys2Proof/WellFormed.lean ====
section
/-! DEFINITION. Which commands are well formed: no reserved operand code (30_encoding.md R116, R117) and, for
WRMEM, a payload of exactly `len` bytes (R110, R197). -/

namespace Sys2Proof

/-- A command is ill-formed if one of its codes is reserved (R117), or if WRMEM's payload is not the
number of bytes its operand word 2 says (R110). Such a command is refused by its meaning (R268). -/
def Instr.wellFormed : Instr → Bool
  | .attach variant => variant != 3#2
  | .detach => true
  | .halt => true
  | .resume _ => true
  | .resumeStep _ => true
  | .reset _ => true
  | .rdreg _ => true
  | .wrreg _ _ => true
  | .rdmem hint _ _ => hint != 3#2
  | .wrmem hint _ _ len bytes => hint != 3#2 && bytes.length == len.toNat
  | .setbp _ => true
  | .clrbp _ => true
  | .setwp _ access _ => access != 0#2
  | .clrwp _ => true
  | .haltreason => true

end Sys2Proof
end

