-- ==== Sys2Proof/Decode.lean ====
section
/-! DEFINITION. The command decoder and encoder (30_encoding.md R110 to R117). A command arrives whole (R40), as
one message of bytes: the header word, the operand words, and for WRMEM the payload. Words are laid
out with their low byte first (log entry 2, after R79). -/

namespace Sys2Proof

open Machine

/-- Why a message is no command (R117). Every one is answered with the status `Refused` (R268 (a)). -/
inductive DecodeError where
  /-- Fewer bytes than one header word. -/
  | shortHeader
  /-- `header[27:8]` is not zero (R117). -/
  | reservedBits
  /-- An `arg` bit the command does not define is 1 (R117). -/
  | undefinedArg
  /-- `op` is 0xE or 0xF (R117). -/
  | reservedOp
  /-- The operand words present are not those the `op` fixes (R110). -/
  | operandCount
  /-- WRMEM's payload is not as long as operand word 2 says (R110). -/
  | payloadLength
  deriving DecidableEq, Repr

/-- `op = header[31:28]` (R110). -/
def headerOp (h : Word) : BitVec 4 := h.extractLsb' 28 4

/-- `header[27:8]`, reserved, zero (R110). -/
def headerReserved (h : Word) : BitVec 20 := h.extractLsb' 8 20

/-- `arg = header[7:0]` (R110). -/
def headerArg (h : Word) : BitVec 8 := h.extractLsb' 0 8

/-- The `arg` bits each `op` defines (R112); none for the reserved `op` values. -/
def argMask (op : BitVec 4) : BitVec 8 :=
  match op with
  | 0x0#4 => 0x03#8
  | 0x3#4 => 0x03#8
  | 0x4#4 => 0x01#8
  | 0x5#4 => 0x7F#8
  | 0x6#4 => 0x7F#8
  | 0x7#4 => 0x03#8
  | 0x8#4 => 0x07#8
  | 0xA#4 => 0x0F#8
  | 0xB#4 => 0x0F#8
  | 0xC#4 => 0x0F#8
  | _ => 0x00#8

/-- How many operand words each `op` takes (R110, R112). -/
def operandWords (op : BitVec 4) : Nat :=
  match op with
  | 0x6#4 => 1
  | 0x7#4 => 2
  | 0x8#4 => 2
  | 0x9#4 => 1
  | 0xB#4 => 1
  | _ => 0

/-- A command with no operand words: nothing may follow the header. -/
def decode0 (i : Instr) : List Byte → Except DecodeError Instr
  | [] => .ok i
  | _ => .error .operandCount

/-- A command with one operand word: exactly W1 follows the header. -/
def decode1 (f : Word → Instr) (rest : List Byte) : Except DecodeError Instr :=
  match takeWord rest with
  | some (w1, []) => .ok (f w1)
  | _ => .error .operandCount

/-- A command with two operand words and, after them, a payload whose length `payload` accepts. -/
def decode2 (f : Word → Word → List Byte → Instr) (payload : Word → Nat) (rest : List Byte) :
    Except DecodeError Instr :=
  match takeWord rest with
  | some (w1, more) =>
    match takeWord more with
    | some (w2, bytes) =>
      if bytes.length = payload w2 then .ok (f w1 w2 bytes) else .error .payloadLength
    | none => .error .operandCount
  | none => .error .operandCount

/-- The command a well-shaped header selects, given the bytes after it (R112, R113). -/
def decodeOp (op : BitVec 4) (arg : BitVec 8) (rest : List Byte) : Except DecodeError Instr :=
  match op with
  | 0x0#4 => decode0 (.attach (arg.extractLsb' 0 2)) rest
  | 0x1#4 => decode0 .detach rest
  | 0x2#4 => decode0 .halt rest
  | 0x3#4 => decode0 (if arg.getLsbD 0 then .resumeStep (arg.getLsbD 1) else .resume (arg.getLsbD 1)) rest
  | 0x4#4 => decode0 (.reset (arg.getLsbD 0)) rest
  | 0x5#4 => decode0 (.rdreg (arg.extractLsb' 0 7)) rest
  | 0x6#4 => decode1 (.wrreg (arg.extractLsb' 0 7)) rest
  | 0x7#4 => decode2 (fun w1 w2 _ => .rdmem (arg.extractLsb' 0 2) w1 w2) (fun _ => 0) rest
  | 0x8#4 => decode2 (.wrmem (arg.extractLsb' 0 2) (arg.getLsbD 2)) (·.toNat) rest
  | 0x9#4 => decode1 .setbp rest
  | 0xA#4 => decode0 (.clrbp (arg.extractLsb' 0 4)) rest
  | 0xB#4 => decode1 (.setwp (arg.extractLsb' 0 2) (arg.extractLsb' 2 2)) rest
  | 0xC#4 => decode0 (.clrwp (arg.extractLsb' 0 4)) rest
  | 0xD#4 => decode0 .haltreason rest
  | _ => .error .reservedOp

/-- The decoder: total on any message (R117). -/
def decode (message : List Byte) : Except DecodeError Instr :=
  match takeWord message with
  | none => .error .shortHeader
  | some (h, rest) =>
    if headerReserved h ≠ 0 then .error .reservedBits
    else if headerArg h &&& ~~~(argMask (headerOp h)) ≠ 0 then .error .undefinedArg
    else decodeOp (headerOp h) (headerArg h) rest

/-- A header word from its fields (R110). -/
def header (op : BitVec 4) (arg : BitVec 8) : Word := op ++ (0#20 ++ arg)

/-- The `op` value of each command (R112). -/
def Instr.op : Instr → BitVec 4
  | .attach _ => 0x0#4
  | .detach => 0x1#4
  | .halt => 0x2#4
  | .resume _ => 0x3#4
  | .resumeStep _ => 0x3#4
  | .reset _ => 0x4#4
  | .rdreg _ => 0x5#4
  | .wrreg _ _ => 0x6#4
  | .rdmem _ _ _ => 0x7#4
  | .wrmem _ _ _ _ _ => 0x8#4
  | .setbp _ => 0x9#4
  | .clrbp _ => 0xA#4
  | .setwp _ _ _ => 0xB#4
  | .clrwp _ => 0xC#4
  | .haltreason => 0xD#4

/-- The `arg` byte of each command (R112). -/
def Instr.arg : Instr → BitVec 8
  | .attach variant => variant.setWidth 8
  | .detach => 0#8
  | .halt => 0#8
  | .resume mask => (BitVec.ofBool mask ++ 0#1).setWidth 8
  | .resumeStep mask => (BitVec.ofBool mask ++ 1#1).setWidth 8
  | .reset catchVector => (BitVec.ofBool catchVector).setWidth 8
  | .rdreg sel => sel.setWidth 8
  | .wrreg sel _ => sel.setWidth 8
  | .rdmem hint _ _ => hint.setWidth 8
  | .wrmem hint code _ _ _ => (BitVec.ofBool code ++ hint).setWidth 8
  | .setbp _ => 0#8
  | .clrbp slot => slot.setWidth 8
  | .setwp size access _ => (access ++ size).setWidth 8
  | .clrwp slot => slot.setWidth 8
  | .haltreason => 0#8

/-- The operand words and the payload of each command, after the header (R112). -/
def Instr.tail : Instr → List Byte
  | .wrreg _ value => bytesOfWord value
  | .rdmem _ addr len => bytesOfWord addr ++ bytesOfWord len
  | .wrmem _ _ addr len bytes => bytesOfWord addr ++ (bytesOfWord len ++ bytes)
  | .setbp codeAddress => bytesOfWord codeAddress
  | .setwp _ _ address => bytesOfWord address
  | .attach _ => []
  | .detach => []
  | .halt => []
  | .resume _ => []
  | .resumeStep _ => []
  | .reset _ => []
  | .rdreg _ => []
  | .clrbp _ => []
  | .clrwp _ => []
  | .haltreason => []

/-- The encoder: the message of a command (R110, R112). -/
def encode (i : Instr) : List Byte := bytesOfWord (header i.op i.arg) ++ i.tail

/-- The message of a command whose first `nbits` bits are `w` and whose every further bit is zero: the
header and as many zero operand words as its `op` takes (R110), and no payload. -/
def tableMessage (nbits w : Nat) : List Byte :=
  let h : Word := BitVec.ofNat 32 (w % 2 ^ nbits)
  let w1 : Word := BitVec.ofNat 32 ((w % 2 ^ nbits) >>> 32)
  let w2 : Word := BitVec.ofNat 32 ((w % 2 ^ nbits) >>> 64)
  bytesOfWord h ++ (bytesOfWord w1 ++ bytesOfWord w2).take (4 * operandWords (headerOp h))

/-- The instruction the decoder reads from the table word `w` of `nbits` bits. -/
def decodeTableWord (nbits w : Nat) : Option Instr :=
  match decode (tableMessage nbits w) with
  | .ok i => some i
  | .error _ => none

end Sys2Proof
end

