-- ==== Sys2Proof/Machine/Fetch.lean ====
section
/-! DEFINITION. Taking a command from the command port (00_scope.md R9; 10_state.md R32, R40). The controller has no program
counter; a command arrives whole, and the host presents one at a time. -/

namespace Sys2Proof.Machine

/-- What the command port presents. -/
inductive Presented where
  /-- Nothing: the controller does nothing on its own (R5, R280). -/
  | nothing
  /-- A message that is no command (R117). -/
  | malformed (rest : List (List Byte)) (e : DecodeError)
  /-- A command. -/
  | command (rest : List (List Byte)) (i : Instr)
  deriving DecidableEq, Repr

/-- The command port read and the message it presents decoded (R40, R117). -/
def fetchCommand (s : State) : Presented :=
  match s.commands with
  | [] => .nothing
  | m :: rest =>
    match decode m with
    | .ok i => .command rest i
    | .error e => .malformed rest e

/-- A malformed message is a command that is refused: status `Refused`, no transaction, no other change (R117,
R268 (a)). -/
def refuseMessage (s : State) : State := runCommand refuse s

end Sys2Proof.Machine
end

