-- ==== Sys2Proof/Machine/Step.lean ====
section
/-! DEFINITION. One step: the controller takes the command presented and answers it (10_state.md R32: a command as one
atomic step). -/

namespace Sys2Proof.Machine

/-- While `BUSY = 1` no command is accepted (R32, R281); with none presented nothing happens (R280); a message
that is no command is refused (R117); else the command runs. -/
def step (s : State) : Host.Outcome State Fault Refusal :=
  if s.busy then .next s
  else
    match fetchCommand s with
    | .nothing => .next s
    | .malformed rest _ => .next (refuseMessage (s.presenting rest))
    | .command rest i => exec i (s.presenting rest)

/-- The table word `w` as the command the port presents next: the host presents it before anything else (log
entry 3). -/
def State.withFetchWord (s : State) (nbits w : Nat) : State := s.presenting (tableMessage nbits w :: s.commands)

end Sys2Proof.Machine
end

