-- ==== Sys2Proof/Safety.lean ====
section
/-! DEFINITION. What counts as a safe run, and the terms the statements use: how the port and the target behave from a
state on, what a poll sees, and the invariants that hold between commands (10_state.md R23, R26, R27, R52). -/

namespace Sys2Proof.Machine

/-- A handle exists and no command is in progress: every command but ATTACH may run (R284). -/
def State.ready (s : State) : Prop := s.attached = true ∧ s.busy = false

/-- The environment's choice at the `k`-th transaction from this state on. -/
def State.choiceAt (s : State) (k : Nat) : Choice := s.env.getD (s.tick + k) (Config.freeChoice (s.tick + k))

/-- Before each of the next `n` transactions the target does nothing on its own (one of the behaviours of R81). -/
def State.quietFor (s : State) (n : Nat) : Prop := ∀ k, k < n → (s.choiceAt k).events = []

/-- The port answers each of the next `n` transactions (R68). -/
def State.answersFor (s : State) (n : Nat) : Prop :=
  s.cfg.backendPresent = true ∧ ∀ k, k < n → (s.choiceAt k).outcome = .answered

/-- The state after `k` reads of one address. -/
def afterReads (a : Word) : Nat → State → State
  | 0, s => s
  | k + 1, s => afterReads a k (portRead32 a s).2

/-- What the port answers to the read that follows `k` reads of the same address. -/
def readAfter (a : Word) (k : Nat) (s : State) : Answer Word := (portRead32 a (afterReads a k s)).1

/-- The first `k` reads of an address are answered and none shows the awaited bit. -/
def readsWithout (a : Word) (pred : Word → Bool) (k : Nat) (s : State) : Prop :=
  ∀ j, j < k → ∃ v, readAfter a j s = .ok v ∧ pred v = false

/-- A poll finds the awaited bit at its read number `k + 1` (R15). -/
def pollFindsAt (a : Word) (pred : Word → Bool) (k : Nat) (s : State) : Prop :=
  readsWithout a pred k s ∧ ∃ v, readAfter a k s = .ok v ∧ pred v = true

/-- The writes of a list, one after the other, whatever the port answers. -/
def afterWrites : List (Word × Word) → State → State
  | [], s => s
  | (a, v) :: rest, s => afterWrites rest (portWrite32 a v s).2

/-- Every write of a list is answered, one after the other. -/
def writesAnswered : List (Word × Word) → State → Prop
  | [], _ => True
  | (a, v) :: rest, s => (portWrite32 a v s).1 = .ok () ∧ writesAnswered rest (portWrite32 a v s).2

/-- Whether the port answered the transaction (R68). -/
def TraceEntry.answered : TraceEntry → Bool
  | .rd32 _ (.ok _) => true
  | .rd32 _ (.fail _) => false
  | .wr32 _ _ (.ok _) => true
  | .wr32 _ _ (.fail _) => false
  | .memRead _ _ (.ok _) => true
  | .memRead _ _ (.fail _) => false
  | .memWrite _ _ (.ok _) => true
  | .memWrite _ _ (.fail _) => false

/-- The failure that a transaction which failed ends its command with (R261, R265, R267); `none` if it was answered. -/
def TraceEntry.failure : TraceEntry → Option Failure
  | .rd32 _ (.ok _) => none
  | .rd32 _ (.fail f) => some f.raised
  | .wr32 _ _ (.ok _) => none
  | .wr32 _ _ (.fail f) => some f.raised
  | .memRead _ _ (.ok _) => none
  | .memRead a _ (.fail _) => some (.memoryAccessFault a)
  | .memWrite _ _ (.ok _) => none
  | .memWrite a _ (.fail _) => some (.memoryAccessFault a)

/-- The address and width of a sub-transfer (R193); `none` for a register access. -/
def TraceEntry.transfer : TraceEntry → Option (Word × Nat)
  | .rd32 _ _ => none
  | .wr32 _ _ _ => none
  | .memRead a n _ => some (a, n)
  | .memWrite a bytes _ => some (a, bytes.length)

/-- The bytes a sub-transfer read. -/
def TraceEntry.dataRead : TraceEntry → List Byte
  | .memRead _ _ (.ok bytes) => bytes
  | .memRead _ _ (.fail _) => []
  | .rd32 _ _ => []
  | .wr32 _ _ _ => []
  | .memWrite _ _ _ => []

/-- The sub-transfers of a command's span, as the port sees them (R193). -/
def subTransfers (addr len : Word) (h : AlignHint) : List (Word × Nat) :=
  (decompose addr.toNat len.toNat h.ceiling).map fun p => (BitVec.ofNat 32 p.1, p.2)

/-- Memory as the platform's plain memory: neither a register of the map nor an address of the window (R60, R62). -/
def plainAddress (cfg : Config) (a : Word) : Prop := regAt cfg (wordAddress a) = none ∧ inPpb cfg a = false

/-- Every transaction of a command's trace is naturally aligned (R67, R105). -/
def TraceEntry.aligned : TraceEntry → Bool
  | .rd32 a _ => a.toNat % 4 == 0
  | .wr32 a _ _ => a.toNat % 4 == 0
  | .memRead a n _ => (n == 1 || n == 2 || n == 4) && a.toNat % n == 0
  | .memWrite a bytes _ => (bytes.length == 1 || bytes.length == 2 || bytes.length == 4) && a.toNat % bytes.length == 0

/-- A write of the control register carries the key in its upper half (R121); any other transaction passes. -/
def TraceEntry.keyed (cfg : Config) : TraceEntry → Bool
  | .wr32 a v _ => a != cfg.addrDhcsr || upperHalf v == cfg.dbgKey
  | .rd32 _ _ => true
  | .memRead _ _ _ => true
  | .memWrite _ _ _ => true

/-- The control word of a successful control-register write of the controller (R23). -/
def TraceEntry.controlWrite (cfg : Config) : TraceEntry → Option ControlWord
  | .wr32 a v (.ok _) => if a = cfg.addrDhcsr then some (controlBits cfg v) else none
  | .wr32 _ _ (.fail _) => none
  | .rd32 _ _ => none
  | .memRead _ _ _ => none
  | .memWrite _ _ _ => none

/-- The four control bits of the last word the controller wrote to the control register with success (R23). -/
def lastControlWrite (cfg : Config) (trace : List TraceEntry) : Option ControlWord :=
  (trace.filterMap (TraceEntry.controlWrite cfg)).getLast?

/-- R23: while attached, `CW` equals the four writable bits of the last control word written with success. -/
def State.cwFollowsRegister (s : State) : Prop :=
  s.attached = true → lastControlWrite s.cfg s.trace = some s.cw

/-- BPI1 and BPI2 (R26): a breakpoint slot in use is below `N_BP`, and no two in use hold the same address. -/
def State.breakpointsOk (s : State) : Prop :=
  (∀ i, i < BP_CAP → (s.bpSlot i).inUse = true → i < s.nBp.toNat) ∧
  ∀ i j, i < BP_CAP → j < BP_CAP → i ≠ j → (s.bpSlot i).inUse = true → (s.bpSlot j).inUse = true →
    (s.bpSlot i).codeAddress ≠ (s.bpSlot j).codeAddress

/-- WPI1 and WPI2 (R27): a watchpoint slot in use is below `N_WP`, and no two in use hold the same triple. -/
def State.watchpointsOk (s : State) : Prop :=
  (∀ i, i < WP_CAP → (s.wpSlot i).inUse = true → i < s.nWp.toNat) ∧
  ∀ i j, i < WP_CAP → j < WP_CAP → i ≠ j → (s.wpSlot i).inUse = true → (s.wpSlot j).inUse = true →
    s.wpSlot i ≠ s.wpSlot j

/-- What holds of a handle between commands (R52): debug enabled in `CW`, both slot tables sound, the breakpoint
unit enabled once if a breakpoint is in use, and a held attribution that names an existing watchpoint slot
of a watchpoint halt. -/
def State.handleOk (s : State) : Prop :=
  s.attached = true →
    s.cw.debugEnable = true ∧ s.breakpointsOk ∧ s.watchpointsOk
    ∧ ((∃ i, i < BP_CAP ∧ (s.bpSlot i).inUse = true) → s.fpbOn = true)
    ∧ (s.hrValid = true → s.hr.wpSlotValid = true → s.hr.watchpointHit = true ∧ s.hr.wpSlot.toNat < s.nWp.toNat)

/-- No slot of either table is in use. -/
def State.allSlotsFree (s : State) : Prop :=
  (∀ i, i < BP_CAP → (s.bpSlot i).inUse = false) ∧ ∀ i, i < WP_CAP → (s.wpSlot i).inUse = false

/-- How many breakpoint slots below `N_BP` are in use (R218). -/
def State.breakpointsInUse (s : State) : Nat :=
  ((List.range s.nBp.toNat).filter fun i => (s.bpSlot i).inUse).length

/-- The target is left under debug control, "power-locked": debug is enabled, or about to be (R89, R291). -/
def Target.powerLocked (t : Target) : Bool := t.dbg.ctl.debugEnable || t.dbg.enablePending

/-- The port answers a read of `a` with `v`, and the machine goes on as `t` (R66). -/
def State.reads (s : State) (a v : Word) (t : State) : Prop := portRead32 a s = (.ok v, t)

/-- The port answers a write of `v` to `a`, and the machine goes on as `t` (R66). -/
def State.writes (s : State) (a v : Word) (t : State) : Prop := portWrite32 a v s = (.ok (), t)

/-- The function registers of the listed watchpoint slots are read, in order; `words` pairs each slot with the word
its register answered (R239). -/
def State.readsSlots (s : State) : List Nat → List (Nat × Word) → State → Prop
  | [], words, t => words = [] ∧ t = s
  | i :: rest, words, t =>
    ∃ f u more, s.reads (addrDwtFunction s.cfg i) f u ∧ words = (i, f) :: more ∧ u.readsSlots rest more t

/-- The watchpoint slots whose function registers a halt makes the controller read: every slot in use, ascending, if
the halt is a watchpoint's, and none otherwise (R238 step 4, R239). -/
def State.scannedSlots (s : State) (h : HaltReason) : List Nat :=
  if h.watchpointHit then (List.range s.nWp.toNat).filter fun i => (s.wpSlot i).inUse else []

/-- The halt reason attributed to the first slot whose word has its matched bit set (R239). -/
def attributed (cfg : Config) (h : HaltReason) (words : List (Nat × Word)) : HaltReason :=
  match words.find? fun p => matchedBit cfg p.2 with
  | some p => { h with wpSlotValid := true, wpSlot := BitVec.ofNat 4 p.1 }
  | none => h

/-- The transactions of `Capture` (R238) are all answered, lead from `s` to `t`, and show the halt reason `h`. -/
def State.captures (s : State) (h : HaltReason) (t : State) : Prop :=
  ∃ dfsr hfsr words s1 s2 s3,
    s.reads s.cfg.addrDfsr dfsr s1 ∧ s1.reads s.cfg.addrHfsr hfsr s2
    ∧ s2.readsSlots (s.scannedSlots (interpret s.cfg dfsr hfsr)) words s3
    ∧ s3.writes s.cfg.addrDfsr (resetAll s.cfg) t ∧ h = attributed s.cfg (interpret s.cfg dfsr hfsr) words

/-- The requests that have no meaning (R268 (a) to (f)), and a WRMEM whose payload is not as long as its operand word
2 says, which is no command at all (R110; log entry 9). -/
def refusedRequest (s : State) : Instr → Bool
  | .attach variant => s.attached || (variantOf variant).isNone
  | .detach => !s.attached
  | .halt => !s.attached
  | .resume _ => !s.attached
  | .resumeStep _ => !s.attached
  | .reset _ => !s.attached
  | .rdreg _ => !s.attached
  | .wrreg _ _ => !s.attached
  | .rdmem hint addr len => !s.attached || (hintOf hint).isNone || decide (2 ^ 32 < addr.toNat + len.toNat)
  | .wrmem hint _ addr len bytes =>
    !s.attached || (hintOf hint).isNone || decide (2 ^ 32 < addr.toNat + len.toNat) || bytes.length != len.toNat
  | .setbp _ => !s.attached
  | .clrbp slot => !s.attached || decide (s.nBp.toNat ≤ slot.toNat)
  | .setwp size access _ =>
    !s.attached || (accessOf access).isNone
      || (s.cfg.wpEnc.at s.variant == .v2 && sizeClassOf size == .doubleword)
  | .clrwp slot => !s.attached || decide (s.nWp.toNat ≤ slot.toNat)
  | .haltreason => !s.attached

/-- The failure kinds a command can end with (R260, the column "raised by"). A port failure keeps its kind in every
command that issues a register transaction, but in DETACH, which ignores it; RDMEM issues sub-transfers only. -/
def mayEndWith (i : Instr) (f : Failure) : Bool :=
  match f with
  | .refused => true
  | .linkError => i.op != 0x1#4 && i.op != 0x7#4
  | .backendUnavailable => i.op != 0x1#4 && i.op != 0x7#4
  | .protocolTimeout => i.op == 0x0#4 || i.op == 0x2#4 || (i.op == 0x3#4 && i.arg.getLsbD 0)
  | .registerTimeout => i.op == 0x5#4 || i.op == 0x6#4
  | .noFreeSlot => i.op == 0x9#4 || i.op == 0xB#4
  | .memoryAccessFault _ => i.op == 0x7#4 || i.op == 0x8#4
  | .resetTimeout => i.op == 0x4#4

/-- The register write of a trace entry, whether it was answered or not; `none` for any other transaction. -/
def TraceEntry.registerWrite : TraceEntry → Option (Word × Word)
  | .wr32 a v _ => some (a, v)
  | .rd32 _ _ => none
  | .memRead _ _ _ => none
  | .memWrite _ _ _ => none

/-- The trace entries of register writes that the port answered. -/
def writeEntries (ws : List (Word × Word)) : List TraceEntry := ws.map fun w => .wr32 w.1 w.2 (.ok ())

/-- The trace entries of the sub-transfers of a WRMEM that the port answered: `(x, w)` carries span bytes
`x - base .. x - base + w - 1` (R195). -/
def storeEntries (base : Nat) (bytes : List Byte) (transfers : List (Nat × Nat)) : List TraceEntry :=
  transfers.map fun p => .memWrite (BitVec.ofNat 32 p.1) ((bytes.drop (p.1 - base)).take p.2) (.ok ())

/-- The cache-maintenance writes WRMEM issues after its sub-transfers (R197, R199). -/
def State.maintenanceOf (s : State) (code : Bool) (addr len : Word) : List (Word × Word) :=
  if code && s.cachePresent && decide (0 < len.toNat) then cacheWrites s.cfg addr len.toNat else []

/-- The `in_use` bits and the addresses of the breakpoint slots in use agree: the same breakpoints are set (R26). -/
def State.sameBreakpoints (s t : State) : Prop :=
  ∀ j, (t.bpSlot j).inUse = (s.bpSlot j).inUse ∧ ((s.bpSlot j).inUse = true → t.bpSlot j = s.bpSlot j)

/-- The same watchpoints are set (R27). -/
def State.sameWatchpoints (s t : State) : Prop :=
  ∀ j, (t.wpSlot j).inUse = (s.wpSlot j).inUse ∧ ((s.wpSlot j).inUse = true → t.wpSlot j = s.wpSlot j)

end Sys2Proof.Machine
end

