-- ==== Sys2Proof/Certificates/Slice0/Obligations.lean ====
section
/-! DEFINITION. The statements for the provers. Each names the rules of spec/ it formalises; a statement that rests on a
choice of the model says so and names its log entry. -/

open Sys2Proof Sys2Proof.Machine

/-! ### The command encoding (30_encoding.md) -/

/-- R110, R112, R113: decoding the message of a command gives the command back, with every operand at every value,
reserved codes included; a WRMEM carries as many payload bytes as its operand word 2 says. -/
def Obligations.DecodeOfEncode : Prop :=
  ∀ i : Instr, (∀ hint code addr len bytes, i = .wrmem hint code addr len bytes → bytes.length = len.toNat) →
    decode (encode i) = .ok i

/-- R110, R112: a message has one meaning, and no two messages share it: what decodes to a command is that command's
message. -/
def Obligations.EncodeOfDecode : Prop :=
  ∀ (m : List Byte) (i : Instr), decode m = .ok i → encode i = m

/-- R117: every 32-bit header is one row of R112 or refused. It is refused exactly if `op` is 0xE or 0xF, if
`header[27:8]` is not zero or if an `arg` bit that the row does not define is 1. -/
def Obligations.EveryHeaderIsARowOrRefused : Prop :=
  ∀ h : Word,
    let malformed := headerOp h = 0xE#4 ∨ headerOp h = 0xF#4 ∨ headerReserved h ≠ 0
      ∨ headerArg h &&& ~~~(argMask (headerOp h)) ≠ 0
    (malformed → ∀ rest, ∃ e, decode (bytesOfWord h ++ rest) = .error e) ∧
    (¬ malformed → ∃ rest i, decode (bytesOfWord h ++ rest) = .ok i ∧ header i.op i.arg = h)

/-- R112, R116 on words written out from 95_test_vectors.md (V-ENC, V-WP3): one command of each family. -/
def Obligations.DecodedWords : Prop :=
  decode (bytesOfWord 0x00000001#32) = .ok (.attach 1#2)
  ∧ decode (bytesOfWord 0x30000003#32) = .ok (.resumeStep true)
  ∧ decode (bytesOfWord 0x5000000F#32) = .ok (.rdreg 15#7)
  ∧ decode (bytesOfWord 0x80000006#32 ++ bytesOfWord 0x2000001E#32 ++ bytesOfWord 4#32 ++ [1#8, 2#8, 3#8, 4#8])
      = .ok (.wrmem 2#2 true 0x2000001E#32 4#32 [1#8, 2#8, 3#8, 4#8])
  ∧ decode (bytesOfWord 0x90000000#32 ++ bytesOfWord 0x08000100#32) = .ok (.setbp 0x08000100#32)
  ∧ decode (bytesOfWord 0xB000000A#32 ++ bytesOfWord 0x20000100#32) = .ok (.setwp 2#2 2#2 0x20000100#32)
  ∧ decode (bytesOfWord 0xD0000000#32) = .ok .haltreason
  ∧ decode (bytesOfWord 0x40000001#32) = .ok (.reset true)

/-! ### A step (10_state.md R32, R40; 60_exceptions.md) -/

/-- R32, R40: a step takes the one command that is presented and runs it; the port then presents what follows. -/
def Obligations.StepRunsTheDecodedCommand : Prop :=
  ∀ (s : State) (m : List Byte) (rest : List (List Byte)) (i : Instr),
    s.busy = false → s.commands = m :: rest → decode m = .ok i →
    step s = exec i (s.presenting rest) ∧ (s.presenting rest).commands = rest
    ∧ (s.presenting rest).target = s.target ∧ (s.presenting rest).busy = false

/-- R32, R280, R281: with a command in progress none is accepted, and with none presented nothing happens; a message
that is no command is answered `Refused` with no transaction and no other change (R117, R268 (a)). Two points are the model's
own: that the first two leave the whole state as it is (log entry 10), and that a message with too few or too many bytes for
its op, which R117 and R268 (a) do not name, is answered `Refused` like a malformed one (log entry 9). -/
def Obligations.StepWithoutACommand : Prop :=
  ∀ s : State,
    (s.busy = true → step s = .next s ∧ ∀ i, exec i s = .next s) ∧
    (s.busy = false → s.commands = [] → step s = .next s) ∧
    (∀ m rest e, s.busy = false → s.commands = m :: rest → decode m = .error e →
      step s = .next ((s.presenting rest).deliver (.failed .refused)))

/-- R268: a request with no meaning is answered `Refused`, with no transaction and no state change, be it a message that is
no command (a) or a command whose code, lifecycle or operands are wrong (a) to (f); and no other command is ever answered so.
(The payload clause of
WRMEM, and that a message of a wrong length is answered so, is log entry 9.) -/
def Obligations.RefusedExactlyWhenMeaningless : Prop :=
  ∀ (i : Instr) (s : State), s.busy = false →
    (refusedRequest s i = true → exec i s = .next (s.deliver (.failed .refused))) ∧
    (refusedRequest s i = false →
      ∃ t r, exec i s = .next t ∧ t.responses = s.responses ++ [r] ∧ r ≠ .failed .refused) ∧
    (∀ m rest e, s.commands = m :: rest → decode m = .error e →
      step s = .next ((s.presenting rest).deliver (.failed .refused)))

/-- R261, R267, R265: outside DETACH the first transaction that fails is the last one of its command, and the response carries
its failure: the port's own kind for a register access, `MemoryAccessFault` with its address for a sub-transfer; a command whose
transactions are all answered ends with no such failure. DETACH ignores every failure and goes on to its last write. -/
def Obligations.TheFirstFailedTransactionEndsTheCommand : Prop :=
  ∀ (i : Instr) (s t : State), s.busy = false → exec i s = .next t →
    ∃ es r, t.trace = s.trace ++ es ∧ t.responses = s.responses ++ [r] ∧
      (i = .detach → s.attached = true → r = .ok .none ∧ es.length = s.nBp.toNat + s.nWp.toNat + 2) ∧
      (i ≠ .detach →
        ((∀ e ∈ es, e.answered = true) ∧ (∀ f : PortFailure, r ≠ .failed f.raised)
          ∧ ∀ a, r ≠ .failed (.memoryAccessFault a)) ∨
        ∃ before last f, es = before ++ [last] ∧ (∀ e ∈ before, e.answered = true) ∧ last.failure = some f
          ∧ r = .failed f)

/-- R270, R272 (c), (d), R302: every command that is accepted is answered by exactly one response, and the controller is
idle again; its transactions are added to the trace, and the configuration and the commands still presented stay. -/
def Obligations.EveryCommandIsAnsweredOnce : Prop :=
  ∀ (i : Instr) (s : State), s.busy = false →
    ∃ t r es, exec i s = .next t ∧ t.responses = s.responses ++ [r] ∧ t.busy = false
      ∧ t.trace = s.trace ++ es ∧ t.tick = s.tick + es.length
      ∧ t.cfg = s.cfg ∧ t.commands = s.commands ∧ t.env = s.env

/-- R260, the column "raised by": the failure kinds each command can end with. -/
def Obligations.FailureKindsOfEachCommand : Prop :=
  ∀ (i : Instr) (s t : State) (f : Failure), s.busy = false → exec i s = .next t →
    t.responses = s.responses ++ [.failed f] → mayEndWith i f = true

/-- R20, the column "written by": a command changes no register of the controller but those its row names. -/
def Obligations.RegistersChangeOnlyAsWritten : Prop :=
  ∀ (i : Instr) (s t : State), exec i s = .next t →
    ((∀ v, i ≠ .attach v) → t.variant = s.variant ∧ t.nBp = s.nBp ∧ t.nWp = s.nWp ∧ t.cachePresent = s.cachePresent) ∧
    ((∀ v, i ≠ .attach v) → i ≠ .detach → t.attached = s.attached) ∧
    ((∀ v, i ≠ .attach v) → i ≠ .detach → i ≠ .halt → (∀ m, i ≠ .resume m) → (∀ m, i ≠ .resumeStep m) → t.cw = s.cw) ∧
    ((∀ v, i ≠ .attach v) → i ≠ .detach → (∀ a, i ≠ .setbp a) → t.fpbOn = s.fpbOn ∧
      ((∀ n, i ≠ .clrbp n) → t.bp = s.bp)) ∧
    ((∀ v, i ≠ .attach v) → i ≠ .detach → (∀ z k a, i ≠ .setwp z k a) → (∀ n, i ≠ .clrwp n) → t.wp = s.wp) ∧
    (i ≠ .halt → (∀ m, i ≠ .resumeStep m) → i ≠ .haltreason → t.hr = s.hr ∧
      ((∀ v, i ≠ .attach v) → i ≠ .detach → (∀ m, i ≠ .resume m) → (∀ c, i ≠ .reset c) → t.hrValid = s.hrValid))

/-- R272 (b): what a command that ends with a failure leaves in the handle. ATTACH commits nothing; a slot is marked or
freed only by a command that succeeds; `HR` is stored only by a Capture that succeeds. `FPB_ON` can be set by a SETBP
that fails, `CW` written and `HR_VALID` cleared by the writes that did succeed. -/
def Obligations.AFailureLeavesTheHandle : Prop :=
  ∀ (i : Instr) (s t : State) (f : Failure), s.busy = false → exec i s = .next t →
    t.responses = s.responses ++ [.failed f] →
    t.attached = s.attached ∧ t.variant = s.variant ∧ t.nBp = s.nBp ∧ t.nWp = s.nWp ∧ t.bp = s.bp ∧ t.wp = s.wp
    ∧ t.cachePresent = s.cachePresent ∧ t.hr = s.hr
    ∧ (t.fpbOn = s.fpbOn ∨ ∃ a, i = .setbp a)
    ∧ (t.hrValid = s.hrValid ∨ (t.hrValid = false ∧ (i = .halt ∨ (∃ m, i = .resumeStep m) ∨ ∃ c, i = .reset c)))
    ∧ (t.cw = s.cw ∨ i = .halt ∨ ∃ m, i = .resumeStep m)

/-! ### The transaction port (20_memory.md R66 to R70, R81) -/

/-- R66, R67, R68, R81: before a transaction, be it one of the word primitives or of the block primitives, the target takes the
steps the environment chose; a transaction that completes answers with what the target holds then, a block read with as
many bytes as it asked for; one that fails delivers no value, and the target may or may not have taken it. A port whose
backend is not present answers each of the four with `BackendUnavailable` and reaches no target (R267; that the target's own
steps are taken all the same is log entry 11). -/
def Obligations.ATransactionAnswersOrFails : Prop :=
  ∀ (s : State) (a v x : Word) (bytes : List Byte), a.toNat % 4 = 0 →
    bytes.length = 1 ∨ bytes.length = 2 ∨ bytes.length = 4 → x.toNat % bytes.length = 0 →
    let n := bytes.length
    let u := s.target.events s.cfg s.choice.events
    let rd32 := u.read s.cfg s.choice.noise a 4
    let wr32 := u.write s.cfg s.choice.noise a (bytesOfWord v)
    let rdBlock := u.read s.cfg s.choice.noise x n
    let wrBlock := u.write s.cfg s.choice.noise x bytes
    (s.cfg.backendPresent = true → s.choice.outcome = .answered →
      (∃ w, portRead32 a s = (.ok w, s.afterTransaction rd32.2 (.rd32 a (.ok w))) ∧ bytesOfWord w = rd32.1) ∧
      portWrite32 a v s = (.ok (), s.afterTransaction wr32 (.wr32 a v (.ok ()))) ∧
      portReadBlock x n s = (.ok rdBlock.1, s.afterTransaction rdBlock.2 (.memRead x n (.ok rdBlock.1))) ∧
      rdBlock.1.length = n ∧
      portWriteBlock x bytes s = (.ok (), s.afterTransaction wrBlock (.memWrite x bytes (.ok ())))) ∧
    (∀ f reached, s.cfg.backendPresent = true → s.choice.outcome = .failed f reached →
      portRead32 a s = (.fail f, s.afterTransaction (if reached then rd32.2 else u) (.rd32 a (.fail f))) ∧
      portWrite32 a v s = (.fail f, s.afterTransaction (if reached then wr32 else u) (.wr32 a v (.fail f))) ∧
      portReadBlock x n s = (.fail f, s.afterTransaction (if reached then rdBlock.2 else u) (.memRead x n (.fail f))) ∧
      portWriteBlock x bytes s
        = (.fail f, s.afterTransaction (if reached then wrBlock else u) (.memWrite x bytes (.fail f)))) ∧
    (s.cfg.backendPresent = false →
      let f := PortFailure.backendUnavailable
      portRead32 a s = (.fail f, s.afterTransaction u (.rd32 a (.fail f))) ∧
      portWrite32 a v s = (.fail f, s.afterTransaction u (.wr32 a v (.fail f))) ∧
      portReadBlock x n s = (.fail f, s.afterTransaction u (.memRead x n (.fail f))) ∧
      portWriteBlock x bytes s = (.fail f, s.afterTransaction u (.memWrite x bytes (.fail f))))

/-- R267: with a port whose backend is not present, ATTACH fails at its first transaction with `BackendUnavailable`, and
the controller stays detached. -/
def Obligations.AttachWithoutABackend : Prop :=
  ∀ (code : BitVec 2) (s : State), s.busy = false → s.attached = false → (variantOf code).isSome = true →
    s.cfg.backendPresent = false →
    ∃ t, exec (.attach code) s = .next t ∧ t.responses = s.responses ++ [.failed .backendUnavailable]
      ∧ t.attached = false
      ∧ t.trace = s.trace ++ [.wr32 s.cfg.addrDhcsr (dhcsrWord s.cfg attachCw) (.fail .backendUnavailable)]

/-! ### Core control (40_core_control.md) -/

/-- R152, R154, R155: an ATTACH whose transactions are all answered, and whose poll finds the enable at its read
number `k + 1`: the counts are those read, limited to the capacities, and the whole handle is written. -/
def Obligations.AttachCompletes : Prop :=
  ∀ (code : BitVec 2) (variant : Variant) (k : Nat) (s s1 s3 s4 s6 : State) (fpCtrl dwtCtrl : Word) (cp : Bool),
    s.busy = false → s.attached = false → variantOf code = some variant →
    s.accept.writes s.cfg.addrDhcsr (dhcsrWord s.cfg attachCw) s1 →
    k < s.cfg.pollMax → pollFindsAt s.cfg.addrDhcsr (statusDebugEnable s.cfg) k s1 →
    (afterReads s.cfg.addrDhcsr (k + 1) s1).reads s.cfg.addrFpCtrl fpCtrl s3 →
    s3.reads s.cfg.addrDwtCtrl dwtCtrl s4 →
    let nBp := min (numCode s.cfg fpCtrl) 15
    let nWp := min (numComp s.cfg dwtCtrl) 15
    let sweep := (List.range nBp).map (fun j => (addrFpComp s.cfg j, 0#32))
      ++ (List.range nWp).map (fun j => (addrDwtFunction s.cfg j, 0#32))
    writesAnswered sweep s4 →
    (if s.cfg.hasCacheOps.at variant = true then
      ∃ v, (afterWrites sweep s4).reads s.cfg.addrCacheId v s6 ∧ cp = cachePresentOf s.cfg v
    else s6 = afterWrites sweep s4 ∧ cp = false) →
    ∃ t, exec (.attach code) s = .next t ∧ t.responses = s.responses ++ [.ok .none] ∧ t.busy = false
      ∧ t.attached = true ∧ t.variant = variant ∧ t.nBp.toNat = nBp ∧ t.nWp.toNat = nWp
      ∧ t.cw = { debugEnable := true, haltRequest := false, stepRequest := false, maskInterrupts := false }
      ∧ t.allSlotsFree ∧ t.fpbOn = false ∧ t.cachePresent = cp ∧ t.hrValid = false
      ∧ t.trace = s6.trace ∧ t.target = s6.target

/-- R158, R159 (c), (d), (e), R274: DETACH answers `Ok` and destroys the handle whatever the port answers; every write of
the sweep, the breakpoint unit's disable and the cleared control word are attempted, in that order. -/
def Obligations.DetachAlwaysCompletes : Prop :=
  ∀ s : State, s.ready →
    ∃ t es, exec .detach s = .next t ∧ t.responses = s.responses ++ [.ok .none] ∧ t.busy = false
      ∧ t.attached = false ∧ t.cw = { debugEnable := false, haltRequest := false, stepRequest := false, maskInterrupts := false }
      ∧ t.allSlotsFree ∧ t.fpbOn = false ∧ t.hrValid = false
      ∧ t.trace = s.trace ++ es
      ∧ es.map TraceEntry.registerWrite =
        ((List.range s.nBp.toNat).map (fun j => (addrFpComp s.cfg j, 0#32))
          ++ (List.range s.nWp.toNat).map (fun j => (addrDwtFunction s.cfg j, 0#32))
          ++ [(s.cfg.addrFpCtrl, fpbDisableWord s.cfg), (s.cfg.addrDhcsr, keyWord s.cfg.dbgKey)]).map some

/-- R158 ("must leave the core's debug-enable bit cleared"), R86, R96: where every transaction of DETACH is answered, and the
target does nothing on its own meanwhile, debug is disabled in the target, so it does not remain power-locked, and
the breakpoint unit is off. -/
def Obligations.DetachReleasesTheTarget : Prop :=
  ∀ s : State, s.ready → configWf s.cfg = true →
    s.answersFor (s.nBp.toNat + s.nWp.toNat + 2) → s.quietFor (s.nBp.toNat + s.nWp.toNat + 2) →
    ∃ t, exec .detach s = .next t ∧ t.target.powerLocked = false ∧ t.target.dbg.fpbEnabled = false
      ∧ (∀ j, j < s.nBp.toNat → j < s.cfg.fpCount → t.target.dbg.fpComp.getD j 0#32 = 0#32)
      ∧ (∀ j, j < s.nWp.toNat → j < s.cfg.dwtCount → t.target.dbg.dwtFunction.getD j 0#32 = 0#32)
      ∧ t.target.mem = s.target.mem ∧ t.target.core = s.target.core

/-- R160 step 1, R161 (a), (b), (d): HALT of a core that reads as halted writes no control word. With a snapshot held it makes
the one read and changes nothing else; without one it captures. -/
def Obligations.HaltOnAHaltedCore : Prop :=
  ∀ (s s1 : State) (v : Word), s.ready → s.accept.reads s.cfg.addrDhcsr v s1 → statusHalted s.cfg v = true →
    (s.hrValid = true → exec .halt s = .next (s1.deliver (.ok .none))) ∧
    (s.hrValid = false → ∀ h t, s1.captures h t → exec .halt s = .next ((t.setHr h).deliver (.ok .none)))

/-- R160: HALT of a core that reads as running asserts `halt_request`, waits for `halted` and captures. -/
def Obligations.HaltOnARunningCore : Prop :=
  ∀ (s s1 s2 s3 : State) (v : Word) (k : Nat) (h : HaltReason), s.ready →
    s.accept.reads s.cfg.addrDhcsr v s1 → statusHalted s.cfg v = false →
    let cw := { s.cw with haltRequest := true }
    s1.dropHr.writes s.cfg.addrDhcsr (dhcsrWord s.cfg cw) s2 →
    k < s.cfg.pollMax → pollFindsAt s.cfg.addrDhcsr (statusHalted s.cfg) k (s2.setCw cw) →
    (afterReads s.cfg.addrDhcsr (k + 1) (s2.setCw cw)).captures h s3 →
    exec .halt s = .next ((s3.setHr h).deliver (.ok .none)) ∧ s3.cw = cw

/-- R163, R164: RESUME makes exactly one transaction, the control word with `halt_request` and `step_request` clear and the
mask as given; on success `CW` follows and the snapshot is dropped, on a port failure neither changes. -/
def Obligations.ResumeWritesTheControlWordOnce : Prop :=
  ∀ (mask : Bool) (s : State), s.ready →
    let cw := { s.cw with haltRequest := false, stepRequest := false, maskInterrupts := mask }
    (∀ u, s.accept.writes s.cfg.addrDhcsr (dhcsrWord s.cfg cw) u →
      exec (.resume mask) s = .next ((u.setCw cw).dropHr.deliver (.ok .none))) ∧
    (∀ f u, portWrite32 s.cfg.addrDhcsr (dhcsrWord s.cfg cw) s.accept = (.fail f, u) →
      ∃ t, exec (.resume mask) s = .next t ∧ t.responses = s.responses ++ [.failed f.raised] ∧ t.cw = s.cw
        ∧ t.hrValid = s.hrValid ∧ t.trace = u.trace ∧ t.target = u.target)

/-- R165, R166: RESUME.STEP that lands: the step word, the poll for `halted`, the word that clears `step_request` and sets
`halt_request`, and Capture. -/
def Obligations.StepCommandCompletes : Prop :=
  ∀ (mask : Bool) (s s1 s2 s3 : State) (k : Nat) (h : HaltReason), s.ready →
    let cw1 := { s.cw with haltRequest := false, stepRequest := true, maskInterrupts := mask }
    let cw2 := { s.cw with haltRequest := true, stepRequest := false, maskInterrupts := mask }
    s.accept.writes s.cfg.addrDhcsr (dhcsrWord s.cfg cw1) s1 →
    k < s.cfg.pollMax → pollFindsAt s.cfg.addrDhcsr (statusHalted s.cfg) k (s1.setCw cw1).dropHr →
    (afterReads s.cfg.addrDhcsr (k + 1) (s1.setCw cw1).dropHr).writes s.cfg.addrDhcsr (dhcsrWord s.cfg cw2) s2 →
    (s2.setCw cw2).captures h s3 →
    exec (.resumeStep mask) s = .next ((s3.setHr h).deliver (.ok .none)) ∧ s3.cw = cw2

/-- R262, R15: `POLL_MAX` answered reads none of which shows the awaited bit end ATTACH, HALT and RESUME.STEP with
`ProtocolTimeout`; the writes before the poll stand, and `CW` reflects them. -/
def Obligations.ProtocolTimeouts : Prop :=
  (∀ (code : BitVec 2) (s s1 : State), s.busy = false → s.attached = false → (variantOf code).isSome = true →
    s.accept.writes s.cfg.addrDhcsr (dhcsrWord s.cfg attachCw) s1 →
    readsWithout s.cfg.addrDhcsr (statusDebugEnable s.cfg) s.cfg.pollMax s1 →
    exec (.attach code) s
      = .next ((afterReads s.cfg.addrDhcsr s.cfg.pollMax s1).deliver (.failed .protocolTimeout))) ∧
  (∀ (s s1 s2 : State) (v : Word), s.ready →
    s.accept.reads s.cfg.addrDhcsr v s1 → statusHalted s.cfg v = false →
    let cw := { s.cw with haltRequest := true }
    s1.dropHr.writes s.cfg.addrDhcsr (dhcsrWord s.cfg cw) s2 →
    readsWithout s.cfg.addrDhcsr (statusHalted s.cfg) s.cfg.pollMax (s2.setCw cw) →
    exec .halt s = .next ((afterReads s.cfg.addrDhcsr s.cfg.pollMax (s2.setCw cw)).deliver (.failed .protocolTimeout))) ∧
  (∀ (mask : Bool) (s s1 : State), s.ready →
    let cw := { s.cw with haltRequest := false, stepRequest := true, maskInterrupts := mask }
    s.accept.writes s.cfg.addrDhcsr (dhcsrWord s.cfg cw) s1 →
    readsWithout s.cfg.addrDhcsr (statusHalted s.cfg) s.cfg.pollMax (s1.setCw cw).dropHr →
    exec (.resumeStep mask) s
      = .next ((afterReads s.cfg.addrDhcsr s.cfg.pollMax (s1.setCw cw).dropHr).deliver (.failed .protocolTimeout)))

/-- R52: while attached, `CW.step_request` is 1 only after a RESUME.STEP that ended with a failure after its first write. -/
def Obligations.StepRequestStandsOnlyAfterAFailedStep : Prop :=
  ∀ (i : Instr) (s t : State), exec i s = .next t → t.attached = true → t.cw.stepRequest = true →
    s.cw.stepRequest = true ∨
    (∃ m f, i = .resumeStep m ∧ t.responses = s.responses ++ [.failed f] ∧ t.cw.haltRequest = false)

/-! ### Register access (41_register_access.md) -/

/-- R182: RDREG writes the selector with direction 0, waits for `register_ready` and then reads the data register; it
changes no register of the controller. -/
def Obligations.RdregCompletes : Prop :=
  ∀ (sel : BitVec 7) (s s1 s2 : State) (k : Nat) (value : Word), s.ready →
    s.accept.writes s.cfg.addrDcrsr (selWord s.cfg sel false) s1 →
    k < s.cfg.pollMax → pollFindsAt s.cfg.addrDhcsr (statusRegisterReady s.cfg) k s1 →
    (afterReads s.cfg.addrDhcsr (k + 1) s1).reads s.cfg.addrDcrdr value s2 →
    exec (.rdreg sel) s = .next (s2.deliver (.ok (.value value)))

/-- R183, R180: WRREG writes the data register first, then the selector with direction 1, and waits for
`register_ready`. -/
def Obligations.WrregCompletes : Prop :=
  ∀ (sel : BitVec 7) (value : Word) (s s1 s2 : State) (k : Nat), s.ready →
    s.accept.writes s.cfg.addrDcrdr value s1 →
    s1.writes s.cfg.addrDcrsr (selWord s.cfg sel true) s2 →
    k < s.cfg.pollMax → pollFindsAt s.cfg.addrDhcsr (statusRegisterReady s.cfg) k s2 →
    exec (.wrreg sel value) s = .next ((afterReads s.cfg.addrDhcsr (k + 1) s2).deliver (.ok .none))

/-- R263, R266, R15: an exhausted poll ends RDREG (whose data register is then not read) and WRREG with `RegisterTimeout`,
and RESET with `ResetTimeout`, its request written and the snapshot dropped. -/
def Obligations.RegisterAndResetTimeouts : Prop :=
  (∀ (sel : BitVec 7) (s s1 : State), s.ready →
    s.accept.writes s.cfg.addrDcrsr (selWord s.cfg sel false) s1 →
    readsWithout s.cfg.addrDhcsr (statusRegisterReady s.cfg) s.cfg.pollMax s1 →
    exec (.rdreg sel) s = .next ((afterReads s.cfg.addrDhcsr s.cfg.pollMax s1).deliver (.failed .registerTimeout))) ∧
  (∀ (sel : BitVec 7) (value : Word) (s s1 s2 : State), s.ready →
    s.accept.writes s.cfg.addrDcrdr value s1 → s1.writes s.cfg.addrDcrsr (selWord s.cfg sel true) s2 →
    readsWithout s.cfg.addrDhcsr (statusRegisterReady s.cfg) s.cfg.pollMax s2 →
    exec (.wrreg sel value) s
      = .next ((afterReads s.cfg.addrDhcsr s.cfg.pollMax s2).deliver (.failed .registerTimeout))) ∧
  (∀ (catchVector : Bool) (s s0 s1 : State), s.ready →
    (if catchVector = true then ∃ v u, s.accept.reads s.cfg.addrDemcr v u
        ∧ u.writes s.cfg.addrDemcr (v ||| bitAt s.cfg.bitVcCoreReset true) s0
    else s0 = s.accept) →
    s0.writes s.cfg.addrAircr (resetWord s.cfg) s1 →
    readsWithout s.cfg.addrDhcsr (statusResetSeen s.cfg) s.cfg.pollMax s1.dropHr →
    exec (.reset catchVector) s
      = .next ((afterReads s.cfg.addrDhcsr s.cfg.pollMax s1.dropHr).deliver (.failed .resetTimeout)))

/-- R183 ("`x[sel] <- value` once ready is seen"), R182, R99, on a halted core whose transfers each complete before the first
poll read: WRREG of a register that the table of R36 lists writes that register and no other, and RDREG of it gives the value
back. Two selector codes name different registers unless one of them is that of the current stack pointer (R37). That nothing
else of the target moves meanwhile, and that the transfers complete so soon, is assumed of the environment. -/
def Obligations.WrregThenRdregReadsTheValue : Prop :=
  ∀ (sel : BitVec 7) (value v1 v2 : Word) (l1 l2 : Bool) (s : State), s.ready → configWf s.cfg = true →
    s.answersFor 6 → s.target.dbg.halted = true → (coreRegister s.cfg s.target.core sel).isSome = true →
    (∀ k, k < 6 → (s.choiceAt k).events =
      if k = 2 then [.transferCompletes v1 l1] else if k = 4 then [.transferCompletes v2 l2] else []) →
    ∃ t u, exec (.wrreg sel value) s = .next t ∧ t.target.core = setCoreRegister s.cfg s.target.core sel value
      ∧ coreRegister s.cfg t.target.core sel = some value
      ∧ (∀ other, other ≠ sel → other ≠ s.cfg.selSp → sel ≠ s.cfg.selSp →
        coreRegister s.cfg t.target.core other = coreRegister s.cfg s.target.core other)
      ∧ t.target.mem = s.target.mem
      ∧ exec (.rdreg sel) t = .next u ∧ u.responses = s.responses ++ [.ok .none, .ok (.value value)]
      ∧ u.target.core = t.target.core ∧ u.target.mem = s.target.mem

/-! ### Memory access (42_memory_access.md) -/

/-- R194: the sub-transfers of a span are adjacent, ascending and cover it exactly (a); each is naturally aligned and no
wider than the ceiling (b); they are a lead of strictly growing widths below the ceiling, a run of transfers of the
ceiling's width and a tail of strictly shrinking widths below it, where lead and tail can meet if the run is empty (c); and
there are no more of them than the rule says (d). -/
def Obligations.DecomposeProperties : Prop :=
  ∀ (a n : Nat) (hint : AlignHint),
    let h := hint.ceiling
    let l := decompose a n h
    (l.map Prod.snd).sum = n
    ∧ (∀ k, k < l.length → (l.getD k (0, 0)).1 = a + ((l.take k).map Prod.snd).sum)
    ∧ (∀ p ∈ l, (p.2 = 1 ∨ p.2 = 2 ∨ p.2 = 4) ∧ p.1 % p.2 = 0 ∧ p.2 ≤ h)
    ∧ (∃ lead run tail : List Nat, l.map Prod.snd = lead ++ run ++ tail
      ∧ (∀ w ∈ lead, w < h) ∧ (∀ w ∈ run, w = h) ∧ (∀ w ∈ tail, w < h)
      ∧ lead.Pairwise (· < ·) ∧ tail.Pairwise (· > ·))
    ∧ (h = 4 → l.length ≤ n / 4 + 4) ∧ (h = 2 → l.length ≤ n / 2 + 2) ∧ (h = 1 → l.length = n)

/-- R196, R193: a RDMEM whose sub-transfers are all answered makes exactly those of the decomposition, in order, and
returns their bytes joined, `len` of them. -/
def Obligations.RdmemCompletes : Prop :=
  ∀ (hint : BitVec 2) (h : AlignHint) (addr len : Word) (s : State), s.ready → hintOf hint = some h →
    addr.toNat + len.toNat ≤ 2 ^ 32 → s.answersFor (decompose addr.toNat len.toNat h.ceiling).length →
    ∃ t es, exec (.rdmem hint addr len) s = .next t ∧ t.trace = s.trace ++ es
      ∧ es.map TraceEntry.transfer = (subTransfers addr len h).map some
      ∧ t.responses = s.responses ++ [.ok (.data (es.flatMap TraceEntry.dataRead))]
      ∧ (es.flatMap TraceEntry.dataRead).length = len.toNat

/-- R197, R195, R199: a WRMEM whose transactions are all answered makes the sub-transfers of the decomposition, each with
its bytes of the span, in order; after them, for a code region where a cache is present, the cache-maintenance writes. -/
def Obligations.WrmemCompletes : Prop :=
  ∀ (hint : BitVec 2) (h : AlignHint) (code : Bool) (addr len : Word) (bytes : List Byte) (s : State), s.ready →
    hintOf hint = some h → addr.toNat + len.toNat ≤ 2 ^ 32 → bytes.length = len.toNat →
    let transfers := decompose addr.toNat len.toNat h.ceiling
    s.answersFor (transfers.length + (s.maintenanceOf code addr len).length) →
    ∃ t, exec (.wrmem hint code addr len bytes) s = .next t ∧ t.responses = s.responses ++ [.ok .none]
      ∧ t.trace = s.trace ++ storeEntries addr.toNat bytes transfers ++ writeEntries (s.maintenanceOf code addr len)
      ∧ ((storeEntries addr.toNat bytes transfers).map TraceEntry.transfer) = (subTransfers addr len h).map some

/-- R198, R265: the first sub-transfer that fails, with either kind of port failure, ends RDMEM and WRMEM with
`MemoryAccessFault` and the address of that sub-transfer; no later transaction is issued. -/
def Obligations.MemoryAccessFaultAtTheFirstFailure : Prop :=
  ∀ (hint : BitVec 2) (h : AlignHint) (code : Bool) (addr len : Word) (bytes : List Byte) (s : State) (n : Nat)
    (f : PortFailure) (reached : Bool),
    s.ready → hintOf hint = some h → addr.toNat + len.toNat ≤ 2 ^ 32 → bytes.length = len.toNat →
    n < (decompose addr.toNat len.toNat h.ceiling).length → s.answersFor n →
    (s.choiceAt n).outcome = .failed f reached →
    let x : Word := BitVec.ofNat 32 ((decompose addr.toNat len.toNat h.ceiling).getD n (0, 0)).1
    (∃ t es, exec (.rdmem hint addr len) s = .next t ∧ t.trace = s.trace ++ es
      ∧ es.map TraceEntry.transfer = ((subTransfers addr len h).take (n + 1)).map some
      ∧ t.responses = s.responses ++ [.failed (.memoryAccessFault x)]) ∧
    (∃ t es, exec (.wrmem hint code addr len bytes) s = .next t ∧ t.trace = s.trace ++ es
      ∧ es.map TraceEntry.transfer = ((subTransfers addr len h).take (n + 1)).map some
      ∧ t.responses = s.responses ++ [.failed (.memoryAccessFault x)])

/-- R199: the lines `CacheMaintain` cleans are multiples of the line, rising by one line each; they are the lines that hold a
byte of the span, every one and no other. -/
def Obligations.CacheMaintenanceCoversTheSpan : Prop :=
  ∀ (cfg : Config) (addr : Word) (len : Nat), configWf cfg = true → 0 < len → addr.toNat + len ≤ 2 ^ 32 →
    cacheWrites cfg addr len
      = (cfg.addrIciallu, 0#32) :: (cleanLines cfg addr len).map (fun l => (cfg.addrDccmvac, BitVec.ofNat 32 l))
    ∧ (∀ l ∈ cleanLines cfg addr len, l % cfg.dcacheLine = 0 ∧ addr.toNat < l + cfg.dcacheLine ∧ l < addr.toNat + len)
    ∧ (cleanLines cfg addr len).IsChain (fun l m => m = l + cfg.dcacheLine)
    ∧ ∀ b, addr.toNat ≤ b → b < addr.toNat + len → b / cfg.dcacheLine * cfg.dcacheLine ∈ cleanLines cfg addr len

/-- R195, R60, R103: where the target does nothing on its own meanwhile, every address of the span is plain memory and
nothing waits in the data cache, a WRMEM whose transactions are answered stores exactly its bytes at exactly its
span: byte `k` at `addr + k`, every other byte of memory as it was, and no register of the core or of the debug
blocks changed. -/
def Obligations.WrmemStoresItsSpan : Prop :=
  ∀ (hint : BitVec 2) (h : AlignHint) (code : Bool) (addr len : Word) (bytes : List Byte) (s : State), s.ready →
    configWf s.cfg = true → hintOf hint = some h → addr.toNat + len.toNat ≤ 2 ^ 32 → bytes.length = len.toNat →
    let n := (decompose addr.toNat len.toNat h.ceiling).length + (s.maintenanceOf code addr len).length
    s.answersFor n → s.quietFor n → s.target.dcache = [] → s.target.mem.wf = true →
    (∀ k, k < len.toNat → plainAddress s.cfg (addr + BitVec.ofNat 32 k)) →
    ∃ t, exec (.wrmem hint code addr len bytes) s = .next t ∧ t.responses = s.responses ++ [.ok .none]
      ∧ (∀ k, k < len.toNat → t.target.mem.read (addr.toNat + k) = bytes.getD k 0)
      ∧ (∀ a, (a < addr.toNat ∨ addr.toNat + len.toNat ≤ a) → t.target.mem.read a = s.target.mem.read a)
      ∧ t.target.core = s.target.core ∧ t.target.dbg = s.target.dbg

/-- R200 (g), R195, 95_test_vectors.md S2: "`write_memory(a, bytes)` then `read_memory(a, len(bytes))` returns `bytes` unchanged",
for any alignment, any length and any two align hints. -/
def Obligations.WriteThenReadReturnsTheBytes : Prop :=
  ∀ (hint hint' : BitVec 2) (h h' : AlignHint) (code : Bool) (addr len : Word) (bytes : List Byte) (s : State), s.ready →
    configWf s.cfg = true → hintOf hint = some h → hintOf hint' = some h' → addr.toNat + len.toNat ≤ 2 ^ 32 →
    bytes.length = len.toNat →
    let n := (decompose addr.toNat len.toNat h.ceiling).length + (s.maintenanceOf code addr len).length
      + (decompose addr.toNat len.toNat h'.ceiling).length
    s.answersFor n → s.quietFor n → s.target.dcache = [] → s.target.mem.wf = true →
    (∀ k, k < len.toNat → plainAddress s.cfg (addr + BitVec.ofNat 32 k)) →
    ∃ t u, exec (.wrmem hint code addr len bytes) s = .next t ∧ exec (.rdmem hint' addr len) t = .next u
      ∧ u.responses = s.responses ++ [.ok .none, .ok (.data bytes)]

/-- R198 ("the target holds the new bytes in `[addr, x)`, old bytes from `x + w` on"): what a WRMEM that fails at its
sub-transfer `n` leaves in plain memory, where the target does nothing on its own meanwhile. -/
def Obligations.AFailedWrmemLeavesAPrefix : Prop :=
  ∀ (hint : BitVec 2) (h : AlignHint) (code : Bool) (addr len : Word) (bytes : List Byte) (s : State) (n : Nat)
    (f : PortFailure) (reached : Bool),
    s.ready → configWf s.cfg = true → hintOf hint = some h → addr.toNat + len.toNat ≤ 2 ^ 32 → bytes.length = len.toNat →
    n < (decompose addr.toNat len.toNat h.ceiling).length → s.answersFor n → s.quietFor (n + 1) →
    (s.choiceAt n).outcome = .failed f reached → s.target.mem.wf = true →
    (∀ k, k < len.toNat → plainAddress s.cfg (addr + BitVec.ofNat 32 k)) →
    let x := ((decompose addr.toNat len.toNat h.ceiling).getD n (0, 0)).1
    let w := ((decompose addr.toNat len.toNat h.ceiling).getD n (0, 0)).2
    ∃ t, exec (.wrmem hint code addr len bytes) s = .next t
      ∧ (∀ k, addr.toNat + k < x → t.target.mem.read (addr.toNat + k) = bytes.getD k 0)
      ∧ (∀ a, (a < addr.toNat ∨ x + w ≤ a) → t.target.mem.read a = s.target.mem.read a)

/-- The memory frame of every command but WRMEM (R61: "all other accesses to space (a) are made by the controller itself to the
fixed register addresses"): where the target does nothing on its own meanwhile, and nothing waits in its data
cache, every byte of memory and every core register is as it was. -/
def Obligations.MemoryAndCoreFrame : Prop :=
  ∀ (i : Instr) (s t : State), (∀ hint code addr len bytes, i ≠ .wrmem hint code addr len bytes) →
    configWf s.cfg = true → exec i s = .next t → s.quietFor (t.tick - s.tick) → s.target.dcache = [] →
    (∀ a, t.target.mem.read a = s.target.mem.read a) ∧ t.target.core = s.target.core
    ∧ t.target.resetVector = s.target.resetVector

/-! ### Breakpoints (43_breakpoints.md) -/

/-- R213 steps 2 to 5, R214: a new address takes the least free slot: the unit is enabled first if this handle has not done so,
then the comparator is written, then the slot is marked; a failed comparator write marks no slot. -/
def Obligations.SetbpOfANewAddress : Prop :=
  ∀ (a : Word) (s s0 : State) (i : Nat), s.ready → i < s.nBp.toNat →
    let m := maskedAddress s.cfg a
    (∀ j, j < s.nBp.toNat → (s.bpSlot j).inUse = true → (s.bpSlot j).codeAddress ≠ m) →
    (∀ j, j < i → (s.bpSlot j).inUse = true) → (s.bpSlot i).inUse = false →
    (if s.fpbOn = true then s0 = s.accept
    else ∃ s1, s.accept.writes s.cfg.addrFpCtrl (fpbEnableWord s.cfg) s1 ∧ s0 = s1.setFpbOn) →
    (∀ u, s0.writes (addrFpComp s.cfg i) (m ||| bitAt s.cfg.bitFpCompEnable true) u →
      ∃ t, exec (.setbp a) s = .next t ∧ t.responses = s.responses ++ [.ok (.slot (BitVec.ofNat 4 i))]
        ∧ t.bpSlot i = { inUse := true, codeAddress := m } ∧ (∀ j, j ≠ i → t.bpSlot j = s.bpSlot j)
        ∧ t.fpbOn = true ∧ t.trace = u.trace ∧ t.target = u.target) ∧
    (∀ f u, portWrite32 (addrFpComp s.cfg i) (m ||| bitAt s.cfg.bitFpCompEnable true) s0 = (.fail f, u) →
      ∃ t, exec (.setbp a) s = .next t ∧ t.responses = s.responses ++ [.failed f.raised] ∧ t.bp = s.bp
        ∧ t.fpbOn = true)

/-- R264, R215 (b), R230: `NoFreeSlot` is returned exactly when a new address (a new triple) is asked for while every slot below
the count is in use; no transaction is made then and nothing changes. -/
def Obligations.NoFreeSlotExactlyWhenFull : Prop :=
  (∀ (a : Word) (s t : State), s.ready → exec (.setbp a) s = .next t →
    (t.responses = s.responses ++ [.failed .noFreeSlot] ↔
      s.breakpointsInUse = s.nBp.toNat ∧
      ∀ j, j < s.nBp.toNat → (s.bpSlot j).inUse = true → (s.bpSlot j).codeAddress ≠ maskedAddress s.cfg a) ∧
    (t.responses = s.responses ++ [.failed .noFreeSlot] → t = s.deliver (.failed .noFreeSlot))) ∧
  (∀ (size access : BitVec 2) (kind : AccessType) (address : Word) (s t : State), s.ready → accessOf access = some kind →
    (s.cfg.wpEnc.at s.variant = .v2 → sizeClassOf size ≠ .doubleword) → exec (.setwp size access address) s = .next t →
    (t.responses = s.responses ++ [.failed .noFreeSlot] ↔
      ∀ j, j < s.nWp.toNat → (s.wpSlot j).inUse = true ∧ s.wpSlot j ≠ ⟨true, address, sizeClassOf size, kind⟩) ∧
    (t.responses = s.responses ++ [.failed .noFreeSlot] → t = s.deliver (.failed .noFreeSlot)))

/-- R213 step 1, R215 (a), R218, 95_test_vectors.md S3: an address that a slot in use already covers gives that slot, with no transaction
and no change; so "calling `set_breakpoint(addr)` twice ... returns the same slot id both times and consumes only one
slot". -/
def Obligations.SetbpIsIdempotent : Prop :=
  (∀ (a : Word) (s : State) (j : Nat), s.ready → s.breakpointsOk → j < s.nBp.toNat →
    (s.bpSlot j).inUse = true → (s.bpSlot j).codeAddress = maskedAddress s.cfg a →
    exec (.setbp a) s = .next (s.deliver (.ok (.slot (BitVec.ofNat 4 j))))) ∧
  (∀ (a a' : Word) (s t : State) (r : Result), s.ready →
    maskedAddress s.cfg a' = maskedAddress s.cfg a → exec (.setbp a) s = .next t →
    t.responses = s.responses ++ [.ok r] →
    exec (.setbp a') t = .next (t.deliver (.ok r)) ∧ t.breakpointsInUse ≤ s.breakpointsInUse + 1)

/-- R216, R217 (a), (b): CLRBP writes the disabled word to the slot's comparator and frees the slot, in use or not; a port
failure leaves the slot as it was. -/
def Obligations.ClrbpFreesTheSlot : Prop :=
  ∀ (slot : BitVec 4) (s : State), s.ready → slot.toNat < s.nBp.toNat →
    (∀ u, s.accept.writes (addrFpComp s.cfg slot.toNat) 0#32 u →
      ∃ t, exec (.clrbp slot) s = .next t ∧ t.responses = s.responses ++ [.ok .none]
        ∧ (t.bpSlot slot.toNat).inUse = false ∧ (∀ j, j ≠ slot.toNat → t.bpSlot j = s.bpSlot j)
        ∧ t.fpbOn = s.fpbOn ∧ t.trace = u.trace ∧ t.target = u.target) ∧
    (∀ f u, portWrite32 (addrFpComp s.cfg slot.toNat) 0#32 s.accept = (.fail f, u) →
      exec (.clrbp slot) s = .next (u.deliver (.failed f.raised)))

/-- R217 (d): after SETBP of a new address and CLRBP of the slot it took, the same breakpoints are set as before, and
the comparator of a free slot that held the disabled word holds it again, where the port answers and the target does nothing
on its own. -/
def Obligations.SetbpThenClrbpRestores : Prop :=
  ∀ (a : Word) (s t : State) (slot : BitVec 4), s.ready → configWf s.cfg = true → s.bpHolding (maskedAddress s.cfg a) = none →
    s.answersFor 3 → s.quietFor 3 → exec (.setbp a) s = .next t → t.responses = s.responses ++ [.ok (.slot slot)] →
    ∃ u, exec (.clrbp slot) t = .next u ∧ u.responses = t.responses ++ [.ok .none] ∧ s.sameBreakpoints u
      ∧ (s.target.dbg.fpComp.getD slot.toNat 0#32 = 0#32 → u.target.dbg.fpComp = s.target.dbg.fpComp)

/-! ### Watchpoints (44_watchpoints.md) -/

/-- R222 steps 2 to 6, R223, R134 to R136: SETWP of a new triple takes the least free slot and writes address, mask (under
the legacy encoding only) and function, in that order. -/
def Obligations.SetwpOfANewWatch : Prop :=
  ∀ (size access : BitVec 2) (kind : AccessType) (address : Word) (s u : State) (i : Nat), s.ready →
    accessOf access = some kind → i < s.nWp.toNat →
    (∀ j, j < s.nWp.toNat → (s.wpSlot j).inUse = true → s.wpSlot j ≠ ⟨true, address, sizeClassOf size, kind⟩) →
    (∀ j, j < i → (s.wpSlot j).inUse = true) → (s.wpSlot i).inUse = false →
    let legacyWrites := [(addrDwtComp s.cfg i, address), (addrDwtMask s.cfg i, size.setWidth 32),
      (addrDwtFunction s.cfg i, wpFuncLegacy s.cfg kind)]
    let v2Writes := fun code : Word => [(addrDwtComp s.cfg i, address),
      (addrDwtFunction s.cfg i,
        wpMatchV2 s.cfg kind ||| s.cfg.v2ActionDebugEvent <<< s.cfg.v2ActionLo ||| code <<< s.cfg.v2LenLo)]
    ((s.cfg.wpEnc.at s.variant = .legacy ∧ writesAnswered legacyWrites s.accept ∧ u = afterWrites legacyWrites s.accept)
      ∨ (s.cfg.wpEnc.at s.variant = .v2 ∧ ∃ code, wpLenV2 s.cfg (sizeClassOf size) = some code
        ∧ writesAnswered (v2Writes code) s.accept ∧ u = afterWrites (v2Writes code) s.accept)) →
    ∃ t, exec (.setwp size access address) s = .next t ∧ t.responses = s.responses ++ [.ok (.slot (BitVec.ofNat 4 i))]
      ∧ t.wpSlot i = ⟨true, address, sizeClassOf size, kind⟩ ∧ (∀ j, j ≠ i → t.wpSlot j = s.wpSlot j)
      ∧ t.trace = u.trace ∧ t.target = u.target

/-- R222 step 1, R226 (a): an active triple gives its slot, with no transaction and no change, even if the pool is full; so a
triple given twice takes one slot. -/
def Obligations.SetwpIsIdempotent : Prop :=
  (∀ (size access : BitVec 2) (kind : AccessType) (address : Word) (s : State) (j : Nat), s.ready →
    accessOf access = some kind → (s.cfg.wpEnc.at s.variant = .v2 → sizeClassOf size ≠ .doubleword) →
    s.watchpointsOk → j < s.nWp.toNat → s.wpSlot j = ⟨true, address, sizeClassOf size, kind⟩ →
    exec (.setwp size access address) s = .next (s.deliver (.ok (.slot (BitVec.ofNat 4 j))))) ∧
  (∀ (size access : BitVec 2) (address : Word) (s t : State) (r : Result), s.ready →
    exec (.setwp size access address) s = .next t → t.responses = s.responses ++ [.ok r] →
    exec (.setwp size access address) t = .next (t.deliver (.ok r)))

/-- R228, R229 (a), (b), (c): CLRWP writes the disabled word to the slot's function register and to nothing else, and frees
the slot; the halt reason stays, and a port failure leaves the slot as it was. -/
def Obligations.ClrwpFreesTheSlot : Prop :=
  ∀ (slot : BitVec 4) (s : State), s.ready → slot.toNat < s.nWp.toNat →
    (∀ u, s.accept.writes (addrDwtFunction s.cfg slot.toNat) 0#32 u →
      ∃ t, exec (.clrwp slot) s = .next t ∧ t.responses = s.responses ++ [.ok .none]
        ∧ (t.wpSlot slot.toNat).inUse = false ∧ (∀ j, j ≠ slot.toNat → t.wpSlot j = s.wpSlot j)
        ∧ t.hr = s.hr ∧ t.hrValid = s.hrValid ∧ t.trace = u.trace ∧ t.target = u.target) ∧
    (∀ f u, portWrite32 (addrDwtFunction s.cfg slot.toNat) 0#32 s.accept = (.fail f, u) →
      exec (.clrwp slot) s = .next (u.deliver (.failed f.raised)))

/-- R230: "`set_watchpoint` followed by `clear_watchpoint` restores the comparator function register to its disabled encoding
and frees the slot", for every pair the variant accepts, where the port answers, whatever the target does meanwhile. -/
def Obligations.SetwpThenClrwpRestores : Prop :=
  ∀ (size access : BitVec 2) (address : Word) (s t : State) (slot : BitVec 4), s.ready → configWf s.cfg = true →
    s.answersFor 4 → slot.toNat < s.cfg.dwtCount →
    exec (.setwp size access address) s = .next t → t.responses = s.responses ++ [.ok (.slot slot)] →
    ∃ u, exec (.clrwp slot) t = .next u ∧ u.responses = t.responses ++ [.ok .none]
      ∧ (u.wpSlot slot.toNat).inUse = false ∧ u.target.dbg.dwtFunction.getD slot.toNat 1#32 = 0#32

/-! ### The fault interpreter (45_fault_interpreter.md) -/

/-- R236: each flag of the halt reason is a copy of one bit of the fault status, and nothing else matters; with the default
positions the response word of R114 carries the five at the positions they have in the fault status (V-FI1). -/
def Obligations.InterpretCopiesTheBits : Prop :=
  (∀ (cfg : Config) (dfsr hfsr : Word),
    (interpret cfg dfsr hfsr).external = dfsr.getLsbD cfg.bitDfsrExternal
    ∧ (interpret cfg dfsr hfsr).vectorCatch = dfsr.getLsbD cfg.bitDfsrVcatch
    ∧ (interpret cfg dfsr hfsr).watchpointHit = dfsr.getLsbD cfg.bitDfsrDwttrap
    ∧ (interpret cfg dfsr hfsr).breakpointHit = dfsr.getLsbD cfg.bitDfsrBkpt
    ∧ (interpret cfg dfsr hfsr).haltedByRequest = dfsr.getLsbD cfg.bitDfsrHalted) ∧
  ∀ dfsr hfsr : Word, reasonWord (interpret defaultConfig dfsr hfsr) = 0x80000000#32 ||| (dfsr &&& 0x1F#32)

/-- R241, R242 (b), (c): HALTREASON answers from the held snapshot with no transaction; asked of a running core it
answers `valid = 0` after one read and changes nothing; else it captures and answers the new snapshot. -/
def Obligations.HaltreasonAnswers : Prop :=
  ∀ s : State, s.ready →
    (s.hrValid = true → exec .haltreason s = .next (s.deliver (.ok (.reason (reasonWord s.hr))))) ∧
    (s.hrValid = false → ∀ v s1, s.accept.reads s.cfg.addrDhcsr v s1 →
      (statusHalted s.cfg v = false → exec .haltreason s = .next (s1.deliver (.ok (.reason 0#32)))) ∧
      (statusHalted s.cfg v = true → ∀ h t, s1.captures h t →
        exec .haltreason s = .next ((t.setHr h).deliver (.ok (.reason (reasonWord h))))))

/-- R245, R239, R240, 95_test_vectors.md S5: after a watchpoint match has halted the core, HALTREASON attributes the halt to the lowest
slot in use that matched; afterwards no slot in use has its matched bit set and the fault status is clear. The port answers,
and the target does nothing on its own meanwhile. -/
def Obligations.AWatchpointHaltIsAttributed : Prop :=
  ∀ (s : State) (i : Nat), s.ready → configWf s.cfg = true → s.hrValid = false →
    s.answersFor (s.nWp.toNat + 4) → s.quietFor (s.nWp.toNat + 4) → s.nWp.toNat ≤ s.cfg.dwtCount →
    s.target.dbg.halted = true → s.target.dbg.dfsr.dwttrap = true →
    i < s.nWp.toNat → (s.wpSlot i).inUse = true → s.target.dbg.matched.getD i false = true →
    (∀ j, j < i → (s.wpSlot j).inUse = true → s.target.dbg.matched.getD j false = false) →
    ∃ t, exec .haltreason s = .next t ∧ t.responses = s.responses ++ [.ok (.reason (reasonWord t.hr))]
      ∧ t.hrValid = true ∧ t.hr.watchpointHit = true ∧ t.hr.wpSlotValid = true ∧ t.hr.wpSlot.toNat = i
      ∧ (∀ j, j < s.nWp.toNat → (s.wpSlot j).inUse = true → t.target.dbg.matched.getD j false = false)
      ∧ t.target.dbg.dfsr = ⟨false, false, false, false, false⟩

/-! ### The reset sequencer (46_reset_sequencer.md) -/

/-- R252, R253 (a), (b): RESET arms the vector catch first if it is asked to, with every other bit as read, then writes the
reset request, drops the snapshot and waits for the reset to be seen; it changes no other register of the
controller. -/
def Obligations.ResetCompletes : Prop :=
  ∀ (catchVector : Bool) (s s0 s1 : State) (k : Nat), s.ready →
    (if catchVector = true then ∃ v u, s.accept.reads s.cfg.addrDemcr v u
        ∧ u.writes s.cfg.addrDemcr (v ||| bitAt s.cfg.bitVcCoreReset true) s0
    else s0 = s.accept) →
    s0.writes s.cfg.addrAircr (keyWord s.cfg.vectKey ||| bitAt s.cfg.bitSysResetReq true) s1 →
    k < s.cfg.pollMax → pollFindsAt s.cfg.addrDhcsr (statusResetSeen s.cfg) k s1.dropHr →
    exec (.reset catchVector) s = .next ((afterReads s.cfg.addrDhcsr (k + 1) s1.dropHr).deliver (.ok .none))

/-- R101, R100, R252, R257, 95_test_vectors.md S8: RESET with `catch = 1`, whose reset happens before the first poll read, leaves the
core at the reset vector, provided debug is enabled in the target. If the core has completed its halt by then (`settled`) it
is halted with `VCATCH` set; if it has not, it is when it completes it, which R257 leaves room for (that it then runs nothing
before is log entry 33). What the reset leaves of every other register is arbitrary. -/
def Obligations.ResetWithCatchHaltsAtTheResetVector : Prop :=
  ∀ (s : State) (core : CoreRegs) (dbg : DebugRegs) (settled : Bool), s.ready → configWf s.cfg = true →
    s.answersFor 4 → s.target.dbg.ctl.debugEnable = true →
    (∀ k, k < 4 → (s.choiceAt k).events =
      if k = 3 then .systemReset .requested core dbg :: (if settled then [.vectorCatchHalts] else []) else []) →
    ∃ t, exec (.reset true) s = .next t ∧ t.responses = s.responses ++ [.ok .none] ∧ t.hrValid = false
      ∧ t.target.dbg.halted = settled ∧ t.target.core.pc = s.target.resetVector ∧ t.target.dbg.resetSeen = false
      ∧ (settled = false → ∀ next, t.target.event s.cfg (.retires next) = t.target) ∧
      let u := if settled then t.target else t.target.event s.cfg .vectorCatchHalts
      u.dbg.halted = true ∧ u.dbg.dfsr.vcatch = true ∧ u.core.pc = s.target.resetVector

/-! ### Controller and target together -/

/-- R92, R93, R165, 95_test_vectors.md S6: a RESUME.STEP whose instruction, `len` bytes long and no branch, retires before the first poll
read advances the program counter by exactly that length and leaves the core halted and held, whatever data accesses the
instruction makes. A core that still has a vector catch to complete runs nothing (log entry 33). -/
def Obligations.AStepAdvancesByOneInstruction : Prop :=
  ∀ (mask : Bool) (len : Word) (flags : FaultFlags) (hits : List DataAccess) (s : State), s.ready →
    configWf s.cfg = true → s.answersFor (s.nWp.toNat + 6) → s.cw.debugEnable = true → s.target.dbg.halted = true →
    s.target.dbg.catchPending = false →
    (∀ k, k < s.nWp.toNat + 6 →
      (s.choiceAt k).events = if k = 1 then [.stepRetires (.sequential len) flags hits] else []) →
    ∃ t, exec (.resumeStep mask) s = .next t ∧ t.responses = s.responses ++ [.ok .none]
      ∧ t.target.core = { s.target.core with pc := s.target.core.pc + len }
      ∧ t.target.dbg.halted = true ∧ t.target.mem = s.target.mem
      ∧ t.cw = { s.cw with haltRequest := true, stepRequest := false, maskInterrupts := mask }
      ∧ t.hrValid = true ∧ t.hr.haltedByRequest = (s.target.dbg.dfsr.halted || flags.halted)

/-- R86, R87, R88: a control write without the key changes nothing; one with it sets the three request bits, and debug
enable at most as asked; a read of the register shows the control bits and the five status bits, and consumes
`reset_since_last_read` and nothing else. -/
def Obligations.TheControlRegister : Prop :=
  ∀ (cfg : Config) (t : Target) (noise v : Word), configWf cfg = true →
    let u := t.write cfg noise cfg.addrDhcsr (bytesOfWord v)
    let w := wordOfBytes (t.read cfg noise cfg.addrDhcsr 4).1
    (upperHalf v ≠ cfg.dbgKey → u = t) ∧
    (upperHalf v = cfg.dbgKey →
      u.dbg.ctl.haltRequest = v.getLsbD cfg.bitCHalt ∧ u.dbg.ctl.stepRequest = v.getLsbD cfg.bitCStep
      ∧ u.dbg.ctl.maskInterrupts = v.getLsbD cfg.bitCMaskInts
      ∧ (v.getLsbD cfg.bitCDebugEn = false → u.powerLocked = false)
      ∧ u.core = t.core ∧ u.mem = t.mem) ∧
    controlBits cfg w = t.dbg.ctl ∧ statusHalted cfg w = t.dbg.halted ∧ statusRegisterReady cfg w = t.dbg.registerReady
    ∧ statusSleeping cfg w = t.dbg.sleeping ∧ statusLockup cfg w = t.dbg.lockup ∧ statusResetSeen cfg w = t.dbg.resetSeen
    ∧ (t.read cfg noise cfg.addrDhcsr 4).2 = { t with dbg := { t.dbg with resetSeen := false } }

/-- R96, R97, R98, R99, R101, R102, R137, R321: writing the fault status clears exactly the bits written as 1; the breakpoint unit's
control register ignores a write without its key bit; the reset-control register ignores a write without its key; the two
comparator counts and the cache-identification word read as the target's constants and ignore every write; a read of
a watchpoint function register reports the matched bit and clears it, and no other; a register write of the core
transfers what the data register held at the selector write, not what it is given after it. -/
def Obligations.TheDebugUnits : Prop :=
  ∀ (cfg : Config) (t : Target) (noise noise' v : Word) (i : Nat) (sel : BitVec 7), configWf cfg = true →
    let word := fun (t : Target) (a : Word) => wordOfBytes (t.read cfg noise' a 4).1
    (faultFlags cfg (word (t.write cfg noise cfg.addrDfsr (bytesOfWord v)) cfg.addrDfsr)
      = t.dbg.dfsr.minus (faultFlags cfg v)) ∧
    (v.getLsbD cfg.bitFpKey = false → t.write cfg noise cfg.addrFpCtrl (bytesOfWord v) = t) ∧
    ((t.write cfg noise cfg.addrFpCtrl (bytesOfWord (fpbEnableWord cfg))).dbg.fpbEnabled = true) ∧
    (upperHalf v ≠ cfg.vectKey → t.write cfg noise cfg.addrAircr (bytesOfWord v) = t) ∧
    ((t.write cfg noise cfg.addrAircr (bytesOfWord (resetWord cfg))).dbg.resetPending = true) ∧
    (numCode cfg (word (t.write cfg noise cfg.addrFpCtrl (bytesOfWord v)) cfg.addrFpCtrl)
        = cfg.fpCount % 2 ^ (cfg.fpNumCodeHi + 1 - cfg.fpNumCodeLo)
      ∧ numCode cfg (word t cfg.addrFpCtrl) = cfg.fpCount % 2 ^ (cfg.fpNumCodeHi + 1 - cfg.fpNumCodeLo)) ∧
    (t.write cfg noise cfg.addrDwtCtrl (bytesOfWord v) = t ∧ (dwtWorks cfg t.dbg = true →
      numComp cfg (word t cfg.addrDwtCtrl) = cfg.dwtCount % 2 ^ (cfg.dwtNumCompHi + 1 - cfg.dwtNumCompLo))) ∧
    (t.write cfg noise cfg.addrCacheId (bytesOfWord v) = t ∧ word t cfg.addrCacheId = cfg.cacheId) ∧
    (i < 15 → i < cfg.dwtCount →
      let r := t.read cfg noise (addrDwtFunction cfg i) 4
      matchedBit cfg (wordOfBytes r.1) = t.dbg.matched.getD i false
      ∧ r.2.dbg.matched.getD i false = false ∧ (∀ j, j ≠ i → r.2.dbg.matched.getD j false = t.dbg.matched.getD j false)
      ∧ r.2 = { t with dbg := { t.dbg with matched := r.2.dbg.matched } }) ∧
    (t.dbg.halted = true → ∀ value lost,
      let u := t.write cfg noise cfg.addrDcrsr (bytesOfWord (selWord cfg sel true))
      let w := (u.write cfg noise cfg.addrDcrdr (bytesOfWord v)).event cfg (.transferCompletes value lost)
      w.core = setCoreRegister cfg t.core sel t.dbg.dcrdr ∧ w.dbg.dcrdr = v)

/-- R90, R96, R97, R98, R293, R277: what halts a running core, and that it does. A comparator halts it exactly while the unit is on, debug
is enabled, the comparator is enabled and the core stands at its address; a watchpoint comparator exactly while debug is
enabled, for a data access of the encoded type at an address it covers (an unaligned address register of the newer
encoding may cover any, U11); a halt request and a breakpoint instruction exactly while debug is enabled; a disabled word
matches nothing; another vector catch only while debug is enabled and its bit is set (that it then may is log entry 36). Each
sets its fault status bit and clears none, and a watchpoint sets the matched bit of its slot and no
other. Events of several kinds may come together (log entry 34): the bit of each is set. -/
def Obligations.DebugEventsHaltTheCore : Prop :=
  ∀ (cfg : Config) (t : Target), t.dbg.halted = false →
    let after := fun causes => (t.event cfg (.halts causes)).dbg
    (∀ i, ((after [.comparator i]).halted = true ↔
        t.dbg.ctl.debugEnable = true ∧ t.dbg.fpbEnabled = true ∧ i < cfg.fpCount
        ∧ (t.dbg.fpComp.getD i 0#32).getLsbD cfg.bitFpCompEnable = true
        ∧ maskedAddress cfg (t.dbg.fpComp.getD i 0#32) = maskedAddress cfg t.core.pc)
      ∧ ((after [.comparator i]).halted = true →
        t.dbg.fpComp.getD i 0#32 ≠ 0#32 ∧ (after [.comparator i]).dfsr = { t.dbg.dfsr with bkpt := true })) ∧
    (∀ x, configWf cfg = true → x.slot < 15 →
      let func := t.dbg.dwtFunction.getD x.slot 0#32
      let comp := t.dbg.dwtComp.getD x.slot 0#32
      let n := (t.dbg.dwtMask.getD x.slot 0#32).toNat
      ((after [.watchpoint [x]]).halted = true ↔
        t.dbg.ctl.debugEnable = true ∧ dwtWorks cfg t.dbg = true ∧ x.slot < cfg.dwtCount ∧
        ((cfg.wpEnc.at cfg.targetVariant = .legacy ∧ x.addr >>> n = comp >>> n
            ∧ ∃ kind, func = wpFuncLegacy cfg kind ∧ kind.covers x.write = true) ∨
          (cfg.wpEnc.at cfg.targetVariant = .v2 ∧ ∃ kind size, wpFuncV2 cfg kind size = some func
            ∧ kind.covers x.write = true ∧ (comp.toNat % size.bytes = 0 →
              comp.toNat ≤ x.addr.toNat ∧ x.addr.toNat < comp.toNat + size.bytes))))
      ∧ ((after [.watchpoint [x]]).halted = true → func ≠ 0#32
        ∧ (after [.watchpoint [x]]).dfsr = { t.dbg.dfsr with dwttrap := true }
        ∧ (after [.watchpoint [x]]).matched.getD x.slot false = true
        ∧ ∀ j, j ≠ x.slot → (after [.watchpoint [x]]).matched.getD j false = t.dbg.matched.getD j false)) ∧
    (((after [.request]).halted = true ↔ t.dbg.ctl.debugEnable = true ∧ t.dbg.ctl.haltRequest = true)
      ∧ ((after [.request]).halted = true → (after [.request]).dfsr = { t.dbg.dfsr with halted := true })) ∧
    (((after [.instruction]).halted = true ↔ t.dbg.ctl.debugEnable = true)
      ∧ ((after [.instruction]).halted = true → (after [.instruction]).dfsr = { t.dbg.dfsr with bkpt := true })) ∧
    (∀ n, (after [.vectorCatch n]).halted = true →
      t.dbg.ctl.debugEnable = true ∧ t.dbg.demcr.getLsbD n = true ∧ n ≠ cfg.bitVcCoreReset
      ∧ (after [.vectorCatch n]).dfsr = { t.dbg.dfsr with vcatch := true }) ∧
    ∀ causes, ∀ c ∈ causes, c.holds cfg t = true → t.dbg.ctl.debugEnable = true →
      (after causes).halted = true ∧ (after causes).dfsr.union c.flag = (after causes).dfsr

/-- R103, R84: on a target with caches invalidating makes the core fetch what memory holds, and cleaning a line puts what the data
cache holds of that line into memory and changes no byte of any other line; on a target without cache "these are no-ops"
(what makes a target one without is the model's constant, log entry 31). -/
def Obligations.CacheOperations : Prop :=
  ∀ (cfg : Config) (t : Target) (noise v : Word), configWf cfg = true → t.mem.wf = true →
    let i := t.write cfg noise cfg.addrIciallu (bytesOfWord v)
    let u := t.write cfg noise cfg.addrDccmvac (bytesOfWord v)
    (cfg.targetHasCache = false → i = t ∧ u = t) ∧
    (cfg.targetHasCache = true →
      (∀ a, i.fetchByte a = t.mem.read a) ∧ i.mem = t.mem ∧
      (∀ c ∈ t.dcache, (∀ d ∈ t.dcache, d.1 = c.1 → d = c) → c.1 < 2 ^ 32 →
        c.1 / cfg.targetLine = v.toNat / cfg.targetLine → u.mem.read c.1 = c.2) ∧
      (∀ a, a / cfg.targetLine ≠ v.toNat / cfg.targetLine → u.mem.read a = t.mem.read a) ∧
      (∀ c ∈ u.dcache, c ∈ t.dcache ∧ c.1 / cfg.targetLine ≠ v.toNat / cfg.targetLine))

/-! ### Invariants -/

/-- R52, R26, R27: what holds of a handle between commands is kept by every step. -/
def Obligations.EveryStepKeepsTheHandle : Prop :=
  ∀ s t : State, s.handleOk → step s = .next t → t.handleOk

/-- R23: `CW` equals the four writable bits of the last control word written with success, whatever the port and the target
do; every step keeps it. -/
def Obligations.EveryStepKeepsCwTheLastControlWord : Prop :=
  ∀ s t : State, configWf s.cfg = true → s.cwFollowsRegister → step s = .next t → t.cwFollowsRegister

/-- The canonical form of memory (the model's own, log entry 7) is kept by every step, whatever the environment does. -/
def Obligations.EveryStepKeepsMemoryCanonical : Prop :=
  ∀ s t : State, s.target.mem.wf = true → step s = .next t → t.target.mem.wf = true

/-- R300: after reset the controller is detached and idle with no command in progress; the three invariants hold, and the
default parameters meet the constraints of G1. -/
def Obligations.ResetMeetsTheInvariants : Prop :=
  State.reset.attached = false ∧ State.reset.busy = false ∧ State.reset.commands = [] ∧ State.reset.trace = []
  ∧ State.reset.handleOk ∧ State.reset.cwFollowsRegister ∧ State.reset.target.mem.wf = true
  ∧ configWf State.reset.cfg = true

/-- R151, R121, R105: every control word written carries the key, and reads back as the word asked for; every transaction
of every command is naturally aligned. -/
def Obligations.TransactionsAreKeyedAndAligned : Prop :=
  ∀ (i : Instr) (s t : State), configWf s.cfg = true → exec i s = .next t →
    ∃ es, t.trace = s.trace ++ es ∧ (∀ e ∈ es, e.keyed s.cfg = true ∧ e.aligned = true)
      ∧ ∀ cw : ControlWord, upperHalf (dhcsrWord s.cfg cw) = s.cfg.dbgKey ∧ controlBits s.cfg (dhcsrWord s.cfg cw) = cw
end

