-- ==== Sys2Proof/Laws/Cmd.lean ====
section
/-! SUPPORT. How a command in progress runs: the lemmas of the sequencing steps, and relations that every step of a
command keeps. -/

namespace Sys2Proof.Machine

section
variable {α β : Type} (s : State)

theorem Cmd.bind_run (x : Cmd α) (f : α → Cmd β) :
    (x >>= f) s = match x s with
      | .ok a s' => f a s'
      | .error e s' => .error e s' := by
  show EStateM.bind x f s = _
  unfold EStateM.bind
  cases x s <;> rfl

@[simp] theorem Cmd.pure_run (a : α) : (pure a : Cmd α) s = .ok a s := rfl
@[simp] theorem Cmd.get_run : (get : Cmd State) s = .ok s s := rfl
@[simp] theorem Cmd.modify_run (f : State → State) : (modify f : Cmd Unit) s = .ok () (f s) := rfl
@[simp] theorem Cmd.raise_run (f : Failure) : (raise f : Cmd α) s = .error f s := rfl
@[simp] theorem Cmd.refuse_run : (refuse : Cmd α) s = .error .refused s := rfl

/-- A step that succeeds hands its value and its state to the next. -/
theorem Cmd.bind_of_ok {x : Cmd α} {s s' : State} {a : α} (f : α → Cmd β) (h : x s = .ok a s') :
    (x >>= f) s = f a s' := by rw [Cmd.bind_run, h]

/-- A step that fails ends the command (R16, R272). -/
theorem Cmd.bind_of_error {x : Cmd α} {s s' : State} {e : Failure} (f : α → Cmd β) (h : x s = .error e s') :
    (x >>= f) s = .error e s' := by rw [Cmd.bind_run, h]

/-- What a sequence that succeeds went through. -/
theorem Cmd.bind_ok_inv {x : Cmd α} {f : α → Cmd β} {s t : State} {b : β} (h : (x >>= f) s = .ok b t) :
    ∃ a u, x s = .ok a u ∧ f a u = .ok b t := by
  rw [Cmd.bind_run] at h
  cases hx : x s with
  | ok a u => rw [hx] at h; exact ⟨a, u, rfl, h⟩
  | error e u => rw [hx] at h; cases h

@[simp] theorem refuseIf_true : refuseIf true s = .error .refused s := rfl
@[simp] theorem refuseIf_false : refuseIf false s = .ok () s := rfl
@[simp] theorem orRefuse_some (a : α) : (orRefuse (some a) : Cmd α) s = .ok a s := rfl
@[simp] theorem orRefuse_none : (orRefuse none : Cmd α) s = .error .refused s := rfl

/-- The lifecycle check (R268 (b)). -/
theorem requireAttached_run :
    requireAttached s = if s.attached = true then .ok () s else .error .refused s := by
  unfold requireAttached
  rw [Cmd.bind_of_ok _ (Cmd.get_run s)]
  cases h : s.attached <;> simp

end

/-- A relation that a command keeps between the state it starts in and the state it ends in, whether it succeeds
or fails. -/
def Cmd.Keeps {α : Type} (R : State → State → Prop) (c : Cmd α) : Prop :=
  ∀ s, match c s with
    | .ok _ t => R s t
    | .error _ t => R s t

section
variable {α β : Type} {R : State → State → Prop}

theorem Cmd.keeps_pure (hr : ∀ s, R s s) (a : α) : (pure a : Cmd α).Keeps R := fun s => hr s

theorem Cmd.keeps_raise (hr : ∀ s, R s s) (f : Failure) : (raise f : Cmd α).Keeps R := fun s => hr s

theorem Cmd.keeps_get (hr : ∀ s, R s s) : (get : Cmd State).Keeps R := fun s => hr s

theorem Cmd.keeps_modify {f : State → State} (h : ∀ s, R s (f s)) : (modify f : Cmd Unit).Keeps R := fun s => h s

/-- A sequence keeps a transitive relation that its parts keep. -/
theorem Cmd.keeps_bind (ht : ∀ s t u, R s t → R t u → R s u) {x : Cmd α} {f : α → Cmd β}
    (hx : x.Keeps R) (hf : ∀ a, (f a).Keeps R) : (x >>= f).Keeps R := by
  intro s
  rw [Cmd.bind_run]
  have h := hx s
  cases hxs : x s with
  | error e t => rw [hxs] at h; exact h
  | ok a t =>
    rw [hxs] at h
    have h' := hf a t
    show match f a t with | .ok _ u => R s u | .error _ u => R s u
    cases hft : f a t with
    | ok b u => rw [hft] at h'; exact ht _ _ _ h h'
    | error e u => rw [hft] at h'; exact ht _ _ _ h h'

/-- The same, where the second part keeps the relation only from the states the first part can end in. -/
theorem Cmd.keeps_bind_of (ht : ∀ s t u, R s t → R t u → R s u) {x : Cmd α} {f : α → Cmd β}
    (hx : x.Keeps R)
    (hf : ∀ s a t, x s = .ok a t → match f a t with | .ok _ u => R t u | .error _ u => R t u) :
    (x >>= f).Keeps R := by
  intro s
  rw [Cmd.bind_run]
  have h := hx s
  cases hxs : x s with
  | error e t => rw [hxs] at h; exact h
  | ok a t =>
    rw [hxs] at h
    have h' := hf s a t hxs
    show match f a t with | .ok _ u => R s u | .error _ u => R s u
    cases hft : f a t with
    | ok b u => rw [hft] at h'; exact ht _ _ _ h h'
    | error e u => rw [hft] at h'; exact ht _ _ _ h h'

theorem Cmd.keeps_refuse (hr : ∀ s, R s s) : (refuse : Cmd α).Keeps R := fun s => hr s

theorem Cmd.keeps_refuseIf (hr : ∀ s, R s s) (b : Bool) : (refuseIf b).Keeps R := by
  cases b <;> exact fun s => hr s

theorem Cmd.keeps_orRefuse (hr : ∀ s, R s s) (o : Option α) : (orRefuse o : Cmd α).Keeps R := by
  cases o <;> exact fun s => hr s

theorem Cmd.keeps_requireAttached (hr : ∀ s, R s s) : requireAttached.Keeps R := by
  intro s
  rw [requireAttached_run]
  by_cases h : s.attached = true
  · simp only [h, if_true]; exact hr s
  · simp only [h]; exact hr s

end

end Sys2Proof.Machine
end

