-- ==== Sys2Proof/Laws/State.lean ====
section
/-! SUPPORT. One lemma per field per named update of the state, so that no proof unfolds a record update. -/

namespace Sys2Proof.Machine

section
variable (s : State)

@[simp] theorem State.setCw_cfg (cw : ControlWord) : (s.setCw cw).cfg = s.cfg := rfl
@[simp] theorem State.setCw_attached (cw : ControlWord) : (s.setCw cw).attached = s.attached := rfl
@[simp] theorem State.setCw_variant (cw : ControlWord) : (s.setCw cw).variant = s.variant := rfl
@[simp] theorem State.setCw_cw (cw : ControlWord) : (s.setCw cw).cw = cw := rfl
@[simp] theorem State.setCw_nBp (cw : ControlWord) : (s.setCw cw).nBp = s.nBp := rfl
@[simp] theorem State.setCw_nWp (cw : ControlWord) : (s.setCw cw).nWp = s.nWp := rfl
@[simp] theorem State.setCw_bp (cw : ControlWord) : (s.setCw cw).bp = s.bp := rfl
@[simp] theorem State.setCw_wp (cw : ControlWord) : (s.setCw cw).wp = s.wp := rfl
@[simp] theorem State.setCw_fpbOn (cw : ControlWord) : (s.setCw cw).fpbOn = s.fpbOn := rfl
@[simp] theorem State.setCw_cachePresent (cw : ControlWord) : (s.setCw cw).cachePresent = s.cachePresent := rfl
@[simp] theorem State.setCw_hrValid (cw : ControlWord) : (s.setCw cw).hrValid = s.hrValid := rfl
@[simp] theorem State.setCw_hr (cw : ControlWord) : (s.setCw cw).hr = s.hr := rfl
@[simp] theorem State.setCw_busy (cw : ControlWord) : (s.setCw cw).busy = s.busy := rfl
@[simp] theorem State.setCw_commands (cw : ControlWord) : (s.setCw cw).commands = s.commands := rfl
@[simp] theorem State.setCw_responses (cw : ControlWord) : (s.setCw cw).responses = s.responses := rfl
@[simp] theorem State.setCw_trace (cw : ControlWord) : (s.setCw cw).trace = s.trace := rfl
@[simp] theorem State.setCw_target (cw : ControlWord) : (s.setCw cw).target = s.target := rfl
@[simp] theorem State.setCw_env (cw : ControlWord) : (s.setCw cw).env = s.env := rfl
@[simp] theorem State.setCw_tick (cw : ControlWord) : (s.setCw cw).tick = s.tick := rfl

@[simp] theorem State.setFpbOn_cfg : s.setFpbOn.cfg = s.cfg := rfl
@[simp] theorem State.setFpbOn_attached : s.setFpbOn.attached = s.attached := rfl
@[simp] theorem State.setFpbOn_variant : s.setFpbOn.variant = s.variant := rfl
@[simp] theorem State.setFpbOn_cw : s.setFpbOn.cw = s.cw := rfl
@[simp] theorem State.setFpbOn_nBp : s.setFpbOn.nBp = s.nBp := rfl
@[simp] theorem State.setFpbOn_nWp : s.setFpbOn.nWp = s.nWp := rfl
@[simp] theorem State.setFpbOn_bp : s.setFpbOn.bp = s.bp := rfl
@[simp] theorem State.setFpbOn_wp : s.setFpbOn.wp = s.wp := rfl
@[simp] theorem State.setFpbOn_fpbOn : s.setFpbOn.fpbOn = true := rfl
@[simp] theorem State.setFpbOn_cachePresent : s.setFpbOn.cachePresent = s.cachePresent := rfl
@[simp] theorem State.setFpbOn_hrValid : s.setFpbOn.hrValid = s.hrValid := rfl
@[simp] theorem State.setFpbOn_hr : s.setFpbOn.hr = s.hr := rfl
@[simp] theorem State.setFpbOn_busy : s.setFpbOn.busy = s.busy := rfl
@[simp] theorem State.setFpbOn_commands : s.setFpbOn.commands = s.commands := rfl
@[simp] theorem State.setFpbOn_responses : s.setFpbOn.responses = s.responses := rfl
@[simp] theorem State.setFpbOn_trace : s.setFpbOn.trace = s.trace := rfl
@[simp] theorem State.setFpbOn_target : s.setFpbOn.target = s.target := rfl
@[simp] theorem State.setFpbOn_env : s.setFpbOn.env = s.env := rfl
@[simp] theorem State.setFpbOn_tick : s.setFpbOn.tick = s.tick := rfl

@[simp] theorem State.setBp_cfg (i : Nat) (slot : BpSlot) : (s.setBp i slot).cfg = s.cfg := rfl
@[simp] theorem State.setBp_attached (i : Nat) (slot : BpSlot) : (s.setBp i slot).attached = s.attached := rfl
@[simp] theorem State.setBp_variant (i : Nat) (slot : BpSlot) : (s.setBp i slot).variant = s.variant := rfl
@[simp] theorem State.setBp_cw (i : Nat) (slot : BpSlot) : (s.setBp i slot).cw = s.cw := rfl
@[simp] theorem State.setBp_nBp (i : Nat) (slot : BpSlot) : (s.setBp i slot).nBp = s.nBp := rfl
@[simp] theorem State.setBp_nWp (i : Nat) (slot : BpSlot) : (s.setBp i slot).nWp = s.nWp := rfl
@[simp] theorem State.setBp_bp (i : Nat) (slot : BpSlot) : (s.setBp i slot).bp = s.bp.setIfInBounds i slot := rfl
@[simp] theorem State.setBp_wp (i : Nat) (slot : BpSlot) : (s.setBp i slot).wp = s.wp := rfl
@[simp] theorem State.setBp_fpbOn (i : Nat) (slot : BpSlot) : (s.setBp i slot).fpbOn = s.fpbOn := rfl
@[simp] theorem State.setBp_cachePresent (i : Nat) (slot : BpSlot) : (s.setBp i slot).cachePresent = s.cachePresent := rfl
@[simp] theorem State.setBp_hrValid (i : Nat) (slot : BpSlot) : (s.setBp i slot).hrValid = s.hrValid := rfl
@[simp] theorem State.setBp_hr (i : Nat) (slot : BpSlot) : (s.setBp i slot).hr = s.hr := rfl
@[simp] theorem State.setBp_busy (i : Nat) (slot : BpSlot) : (s.setBp i slot).busy = s.busy := rfl
@[simp] theorem State.setBp_commands (i : Nat) (slot : BpSlot) : (s.setBp i slot).commands = s.commands := rfl
@[simp] theorem State.setBp_responses (i : Nat) (slot : BpSlot) : (s.setBp i slot).responses = s.responses := rfl
@[simp] theorem State.setBp_trace (i : Nat) (slot : BpSlot) : (s.setBp i slot).trace = s.trace := rfl
@[simp] theorem State.setBp_target (i : Nat) (slot : BpSlot) : (s.setBp i slot).target = s.target := rfl
@[simp] theorem State.setBp_env (i : Nat) (slot : BpSlot) : (s.setBp i slot).env = s.env := rfl
@[simp] theorem State.setBp_tick (i : Nat) (slot : BpSlot) : (s.setBp i slot).tick = s.tick := rfl

@[simp] theorem State.setWp_cfg (i : Nat) (slot : WpSlot) : (s.setWp i slot).cfg = s.cfg := rfl
@[simp] theorem State.setWp_attached (i : Nat) (slot : WpSlot) : (s.setWp i slot).attached = s.attached := rfl
@[simp] theorem State.setWp_variant (i : Nat) (slot : WpSlot) : (s.setWp i slot).variant = s.variant := rfl
@[simp] theorem State.setWp_cw (i : Nat) (slot : WpSlot) : (s.setWp i slot).cw = s.cw := rfl
@[simp] theorem State.setWp_nBp (i : Nat) (slot : WpSlot) : (s.setWp i slot).nBp = s.nBp := rfl
@[simp] theorem State.setWp_nWp (i : Nat) (slot : WpSlot) : (s.setWp i slot).nWp = s.nWp := rfl
@[simp] theorem State.setWp_bp (i : Nat) (slot : WpSlot) : (s.setWp i slot).bp = s.bp := rfl
@[simp] theorem State.setWp_wp (i : Nat) (slot : WpSlot) : (s.setWp i slot).wp = s.wp.setIfInBounds i slot := rfl
@[simp] theorem State.setWp_fpbOn (i : Nat) (slot : WpSlot) : (s.setWp i slot).fpbOn = s.fpbOn := rfl
@[simp] theorem State.setWp_cachePresent (i : Nat) (slot : WpSlot) : (s.setWp i slot).cachePresent = s.cachePresent := rfl
@[simp] theorem State.setWp_hrValid (i : Nat) (slot : WpSlot) : (s.setWp i slot).hrValid = s.hrValid := rfl
@[simp] theorem State.setWp_hr (i : Nat) (slot : WpSlot) : (s.setWp i slot).hr = s.hr := rfl
@[simp] theorem State.setWp_busy (i : Nat) (slot : WpSlot) : (s.setWp i slot).busy = s.busy := rfl
@[simp] theorem State.setWp_commands (i : Nat) (slot : WpSlot) : (s.setWp i slot).commands = s.commands := rfl
@[simp] theorem State.setWp_responses (i : Nat) (slot : WpSlot) : (s.setWp i slot).responses = s.responses := rfl
@[simp] theorem State.setWp_trace (i : Nat) (slot : WpSlot) : (s.setWp i slot).trace = s.trace := rfl
@[simp] theorem State.setWp_target (i : Nat) (slot : WpSlot) : (s.setWp i slot).target = s.target := rfl
@[simp] theorem State.setWp_env (i : Nat) (slot : WpSlot) : (s.setWp i slot).env = s.env := rfl
@[simp] theorem State.setWp_tick (i : Nat) (slot : WpSlot) : (s.setWp i slot).tick = s.tick := rfl

@[simp] theorem State.setHr_cfg (h : HaltReason) : (s.setHr h).cfg = s.cfg := rfl
@[simp] theorem State.setHr_attached (h : HaltReason) : (s.setHr h).attached = s.attached := rfl
@[simp] theorem State.setHr_variant (h : HaltReason) : (s.setHr h).variant = s.variant := rfl
@[simp] theorem State.setHr_cw (h : HaltReason) : (s.setHr h).cw = s.cw := rfl
@[simp] theorem State.setHr_nBp (h : HaltReason) : (s.setHr h).nBp = s.nBp := rfl
@[simp] theorem State.setHr_nWp (h : HaltReason) : (s.setHr h).nWp = s.nWp := rfl
@[simp] theorem State.setHr_bp (h : HaltReason) : (s.setHr h).bp = s.bp := rfl
@[simp] theorem State.setHr_wp (h : HaltReason) : (s.setHr h).wp = s.wp := rfl
@[simp] theorem State.setHr_fpbOn (h : HaltReason) : (s.setHr h).fpbOn = s.fpbOn := rfl
@[simp] theorem State.setHr_cachePresent (h : HaltReason) : (s.setHr h).cachePresent = s.cachePresent := rfl
@[simp] theorem State.setHr_hrValid (h : HaltReason) : (s.setHr h).hrValid = true := rfl
@[simp] theorem State.setHr_hr (h : HaltReason) : (s.setHr h).hr = h := rfl
@[simp] theorem State.setHr_busy (h : HaltReason) : (s.setHr h).busy = s.busy := rfl
@[simp] theorem State.setHr_commands (h : HaltReason) : (s.setHr h).commands = s.commands := rfl
@[simp] theorem State.setHr_responses (h : HaltReason) : (s.setHr h).responses = s.responses := rfl
@[simp] theorem State.setHr_trace (h : HaltReason) : (s.setHr h).trace = s.trace := rfl
@[simp] theorem State.setHr_target (h : HaltReason) : (s.setHr h).target = s.target := rfl
@[simp] theorem State.setHr_env (h : HaltReason) : (s.setHr h).env = s.env := rfl
@[simp] theorem State.setHr_tick (h : HaltReason) : (s.setHr h).tick = s.tick := rfl

@[simp] theorem State.dropHr_cfg : s.dropHr.cfg = s.cfg := rfl
@[simp] theorem State.dropHr_attached : s.dropHr.attached = s.attached := rfl
@[simp] theorem State.dropHr_variant : s.dropHr.variant = s.variant := rfl
@[simp] theorem State.dropHr_cw : s.dropHr.cw = s.cw := rfl
@[simp] theorem State.dropHr_nBp : s.dropHr.nBp = s.nBp := rfl
@[simp] theorem State.dropHr_nWp : s.dropHr.nWp = s.nWp := rfl
@[simp] theorem State.dropHr_bp : s.dropHr.bp = s.bp := rfl
@[simp] theorem State.dropHr_wp : s.dropHr.wp = s.wp := rfl
@[simp] theorem State.dropHr_fpbOn : s.dropHr.fpbOn = s.fpbOn := rfl
@[simp] theorem State.dropHr_cachePresent : s.dropHr.cachePresent = s.cachePresent := rfl
@[simp] theorem State.dropHr_hrValid : s.dropHr.hrValid = false := rfl
@[simp] theorem State.dropHr_hr : s.dropHr.hr = s.hr := rfl
@[simp] theorem State.dropHr_busy : s.dropHr.busy = s.busy := rfl
@[simp] theorem State.dropHr_commands : s.dropHr.commands = s.commands := rfl
@[simp] theorem State.dropHr_responses : s.dropHr.responses = s.responses := rfl
@[simp] theorem State.dropHr_trace : s.dropHr.trace = s.trace := rfl
@[simp] theorem State.dropHr_target : s.dropHr.target = s.target := rfl
@[simp] theorem State.dropHr_env : s.dropHr.env = s.env := rfl
@[simp] theorem State.dropHr_tick : s.dropHr.tick = s.tick := rfl

@[simp] theorem State.commitAttach_cfg (v : Variant) (cw : ControlWord) (m n : BitVec 4) (cp : Bool) : (s.commitAttach v cw m n cp).cfg = s.cfg := rfl
@[simp] theorem State.commitAttach_attached (v : Variant) (cw : ControlWord) (m n : BitVec 4) (cp : Bool) : (s.commitAttach v cw m n cp).attached = true := rfl
@[simp] theorem State.commitAttach_variant (v : Variant) (cw : ControlWord) (m n : BitVec 4) (cp : Bool) : (s.commitAttach v cw m n cp).variant = v := rfl
@[simp] theorem State.commitAttach_cw (v : Variant) (cw : ControlWord) (m n : BitVec 4) (cp : Bool) : (s.commitAttach v cw m n cp).cw = cw := rfl
@[simp] theorem State.commitAttach_nBp (v : Variant) (cw : ControlWord) (m n : BitVec 4) (cp : Bool) : (s.commitAttach v cw m n cp).nBp = m := rfl
@[simp] theorem State.commitAttach_nWp (v : Variant) (cw : ControlWord) (m n : BitVec 4) (cp : Bool) : (s.commitAttach v cw m n cp).nWp = n := rfl
@[simp] theorem State.commitAttach_bp (v : Variant) (cw : ControlWord) (m n : BitVec 4) (cp : Bool) : (s.commitAttach v cw m n cp).bp = s.bp.map fun slot => { slot with inUse := false } := rfl
@[simp] theorem State.commitAttach_wp (v : Variant) (cw : ControlWord) (m n : BitVec 4) (cp : Bool) : (s.commitAttach v cw m n cp).wp = s.wp.map fun slot => { slot with inUse := false } := rfl
@[simp] theorem State.commitAttach_fpbOn (v : Variant) (cw : ControlWord) (m n : BitVec 4) (cp : Bool) : (s.commitAttach v cw m n cp).fpbOn = false := rfl
@[simp] theorem State.commitAttach_cachePresent (v : Variant) (cw : ControlWord) (m n : BitVec 4) (cp : Bool) : (s.commitAttach v cw m n cp).cachePresent = cp := rfl
@[simp] theorem State.commitAttach_hrValid (v : Variant) (cw : ControlWord) (m n : BitVec 4) (cp : Bool) : (s.commitAttach v cw m n cp).hrValid = false := rfl
@[simp] theorem State.commitAttach_hr (v : Variant) (cw : ControlWord) (m n : BitVec 4) (cp : Bool) : (s.commitAttach v cw m n cp).hr = s.hr := rfl
@[simp] theorem State.commitAttach_busy (v : Variant) (cw : ControlWord) (m n : BitVec 4) (cp : Bool) : (s.commitAttach v cw m n cp).busy = s.busy := rfl
@[simp] theorem State.commitAttach_commands (v : Variant) (cw : ControlWord) (m n : BitVec 4) (cp : Bool) : (s.commitAttach v cw m n cp).commands = s.commands := rfl
@[simp] theorem State.commitAttach_responses (v : Variant) (cw : ControlWord) (m n : BitVec 4) (cp : Bool) : (s.commitAttach v cw m n cp).responses = s.responses := rfl
@[simp] theorem State.commitAttach_trace (v : Variant) (cw : ControlWord) (m n : BitVec 4) (cp : Bool) : (s.commitAttach v cw m n cp).trace = s.trace := rfl
@[simp] theorem State.commitAttach_target (v : Variant) (cw : ControlWord) (m n : BitVec 4) (cp : Bool) : (s.commitAttach v cw m n cp).target = s.target := rfl
@[simp] theorem State.commitAttach_env (v : Variant) (cw : ControlWord) (m n : BitVec 4) (cp : Bool) : (s.commitAttach v cw m n cp).env = s.env := rfl
@[simp] theorem State.commitAttach_tick (v : Variant) (cw : ControlWord) (m n : BitVec 4) (cp : Bool) : (s.commitAttach v cw m n cp).tick = s.tick := rfl

@[simp] theorem State.dropHandle_cfg : s.dropHandle.cfg = s.cfg := rfl
@[simp] theorem State.dropHandle_attached : s.dropHandle.attached = false := rfl
@[simp] theorem State.dropHandle_variant : s.dropHandle.variant = s.variant := rfl
@[simp] theorem State.dropHandle_cw : s.dropHandle.cw = clearWord := rfl
@[simp] theorem State.dropHandle_nBp : s.dropHandle.nBp = s.nBp := rfl
@[simp] theorem State.dropHandle_nWp : s.dropHandle.nWp = s.nWp := rfl
@[simp] theorem State.dropHandle_bp : s.dropHandle.bp = s.bp.map fun slot => { slot with inUse := false } := rfl
@[simp] theorem State.dropHandle_wp : s.dropHandle.wp = s.wp.map fun slot => { slot with inUse := false } := rfl
@[simp] theorem State.dropHandle_fpbOn : s.dropHandle.fpbOn = false := rfl
@[simp] theorem State.dropHandle_cachePresent : s.dropHandle.cachePresent = s.cachePresent := rfl
@[simp] theorem State.dropHandle_hrValid : s.dropHandle.hrValid = false := rfl
@[simp] theorem State.dropHandle_hr : s.dropHandle.hr = s.hr := rfl
@[simp] theorem State.dropHandle_busy : s.dropHandle.busy = s.busy := rfl
@[simp] theorem State.dropHandle_commands : s.dropHandle.commands = s.commands := rfl
@[simp] theorem State.dropHandle_responses : s.dropHandle.responses = s.responses := rfl
@[simp] theorem State.dropHandle_trace : s.dropHandle.trace = s.trace := rfl
@[simp] theorem State.dropHandle_target : s.dropHandle.target = s.target := rfl
@[simp] theorem State.dropHandle_env : s.dropHandle.env = s.env := rfl
@[simp] theorem State.dropHandle_tick : s.dropHandle.tick = s.tick := rfl

@[simp] theorem State.afterTransaction_cfg (t : Target) (e : TraceEntry) : (s.afterTransaction t e).cfg = s.cfg := rfl
@[simp] theorem State.afterTransaction_attached (t : Target) (e : TraceEntry) : (s.afterTransaction t e).attached = s.attached := rfl
@[simp] theorem State.afterTransaction_variant (t : Target) (e : TraceEntry) : (s.afterTransaction t e).variant = s.variant := rfl
@[simp] theorem State.afterTransaction_cw (t : Target) (e : TraceEntry) : (s.afterTransaction t e).cw = s.cw := rfl
@[simp] theorem State.afterTransaction_nBp (t : Target) (e : TraceEntry) : (s.afterTransaction t e).nBp = s.nBp := rfl
@[simp] theorem State.afterTransaction_nWp (t : Target) (e : TraceEntry) : (s.afterTransaction t e).nWp = s.nWp := rfl
@[simp] theorem State.afterTransaction_bp (t : Target) (e : TraceEntry) : (s.afterTransaction t e).bp = s.bp := rfl
@[simp] theorem State.afterTransaction_wp (t : Target) (e : TraceEntry) : (s.afterTransaction t e).wp = s.wp := rfl
@[simp] theorem State.afterTransaction_fpbOn (t : Target) (e : TraceEntry) : (s.afterTransaction t e).fpbOn = s.fpbOn := rfl
@[simp] theorem State.afterTransaction_cachePresent (t : Target) (e : TraceEntry) : (s.afterTransaction t e).cachePresent = s.cachePresent := rfl
@[simp] theorem State.afterTransaction_hrValid (t : Target) (e : TraceEntry) : (s.afterTransaction t e).hrValid = s.hrValid := rfl
@[simp] theorem State.afterTransaction_hr (t : Target) (e : TraceEntry) : (s.afterTransaction t e).hr = s.hr := rfl
@[simp] theorem State.afterTransaction_busy (t : Target) (e : TraceEntry) : (s.afterTransaction t e).busy = s.busy := rfl
@[simp] theorem State.afterTransaction_commands (t : Target) (e : TraceEntry) : (s.afterTransaction t e).commands = s.commands := rfl
@[simp] theorem State.afterTransaction_responses (t : Target) (e : TraceEntry) : (s.afterTransaction t e).responses = s.responses := rfl
@[simp] theorem State.afterTransaction_trace (t : Target) (e : TraceEntry) : (s.afterTransaction t e).trace = s.trace ++ [e] := rfl
@[simp] theorem State.afterTransaction_target (t : Target) (e : TraceEntry) : (s.afterTransaction t e).target = t := rfl
@[simp] theorem State.afterTransaction_env (t : Target) (e : TraceEntry) : (s.afterTransaction t e).env = s.env := rfl
@[simp] theorem State.afterTransaction_tick (t : Target) (e : TraceEntry) : (s.afterTransaction t e).tick = s.tick + 1 := rfl

@[simp] theorem State.accept_cfg : s.accept.cfg = s.cfg := rfl
@[simp] theorem State.accept_attached : s.accept.attached = s.attached := rfl
@[simp] theorem State.accept_variant : s.accept.variant = s.variant := rfl
@[simp] theorem State.accept_cw : s.accept.cw = s.cw := rfl
@[simp] theorem State.accept_nBp : s.accept.nBp = s.nBp := rfl
@[simp] theorem State.accept_nWp : s.accept.nWp = s.nWp := rfl
@[simp] theorem State.accept_bp : s.accept.bp = s.bp := rfl
@[simp] theorem State.accept_wp : s.accept.wp = s.wp := rfl
@[simp] theorem State.accept_fpbOn : s.accept.fpbOn = s.fpbOn := rfl
@[simp] theorem State.accept_cachePresent : s.accept.cachePresent = s.cachePresent := rfl
@[simp] theorem State.accept_hrValid : s.accept.hrValid = s.hrValid := rfl
@[simp] theorem State.accept_hr : s.accept.hr = s.hr := rfl
@[simp] theorem State.accept_busy : s.accept.busy = true := rfl
@[simp] theorem State.accept_commands : s.accept.commands = s.commands := rfl
@[simp] theorem State.accept_responses : s.accept.responses = s.responses := rfl
@[simp] theorem State.accept_trace : s.accept.trace = s.trace := rfl
@[simp] theorem State.accept_target : s.accept.target = s.target := rfl
@[simp] theorem State.accept_env : s.accept.env = s.env := rfl
@[simp] theorem State.accept_tick : s.accept.tick = s.tick := rfl

@[simp] theorem State.deliver_cfg (r : Response) : (s.deliver r).cfg = s.cfg := rfl
@[simp] theorem State.deliver_attached (r : Response) : (s.deliver r).attached = s.attached := rfl
@[simp] theorem State.deliver_variant (r : Response) : (s.deliver r).variant = s.variant := rfl
@[simp] theorem State.deliver_cw (r : Response) : (s.deliver r).cw = s.cw := rfl
@[simp] theorem State.deliver_nBp (r : Response) : (s.deliver r).nBp = s.nBp := rfl
@[simp] theorem State.deliver_nWp (r : Response) : (s.deliver r).nWp = s.nWp := rfl
@[simp] theorem State.deliver_bp (r : Response) : (s.deliver r).bp = s.bp := rfl
@[simp] theorem State.deliver_wp (r : Response) : (s.deliver r).wp = s.wp := rfl
@[simp] theorem State.deliver_fpbOn (r : Response) : (s.deliver r).fpbOn = s.fpbOn := rfl
@[simp] theorem State.deliver_cachePresent (r : Response) : (s.deliver r).cachePresent = s.cachePresent := rfl
@[simp] theorem State.deliver_hrValid (r : Response) : (s.deliver r).hrValid = s.hrValid := rfl
@[simp] theorem State.deliver_hr (r : Response) : (s.deliver r).hr = s.hr := rfl
@[simp] theorem State.deliver_busy (r : Response) : (s.deliver r).busy = false := rfl
@[simp] theorem State.deliver_commands (r : Response) : (s.deliver r).commands = s.commands := rfl
@[simp] theorem State.deliver_responses (r : Response) : (s.deliver r).responses = s.responses ++ [r] := rfl
@[simp] theorem State.deliver_trace (r : Response) : (s.deliver r).trace = s.trace := rfl
@[simp] theorem State.deliver_target (r : Response) : (s.deliver r).target = s.target := rfl
@[simp] theorem State.deliver_env (r : Response) : (s.deliver r).env = s.env := rfl
@[simp] theorem State.deliver_tick (r : Response) : (s.deliver r).tick = s.tick := rfl

@[simp] theorem State.presenting_cfg (c : List (List Byte)) : (s.presenting c).cfg = s.cfg := rfl
@[simp] theorem State.presenting_attached (c : List (List Byte)) : (s.presenting c).attached = s.attached := rfl
@[simp] theorem State.presenting_variant (c : List (List Byte)) : (s.presenting c).variant = s.variant := rfl
@[simp] theorem State.presenting_cw (c : List (List Byte)) : (s.presenting c).cw = s.cw := rfl
@[simp] theorem State.presenting_nBp (c : List (List Byte)) : (s.presenting c).nBp = s.nBp := rfl
@[simp] theorem State.presenting_nWp (c : List (List Byte)) : (s.presenting c).nWp = s.nWp := rfl
@[simp] theorem State.presenting_bp (c : List (List Byte)) : (s.presenting c).bp = s.bp := rfl
@[simp] theorem State.presenting_wp (c : List (List Byte)) : (s.presenting c).wp = s.wp := rfl
@[simp] theorem State.presenting_fpbOn (c : List (List Byte)) : (s.presenting c).fpbOn = s.fpbOn := rfl
@[simp] theorem State.presenting_cachePresent (c : List (List Byte)) : (s.presenting c).cachePresent = s.cachePresent := rfl
@[simp] theorem State.presenting_hrValid (c : List (List Byte)) : (s.presenting c).hrValid = s.hrValid := rfl
@[simp] theorem State.presenting_hr (c : List (List Byte)) : (s.presenting c).hr = s.hr := rfl
@[simp] theorem State.presenting_busy (c : List (List Byte)) : (s.presenting c).busy = s.busy := rfl
@[simp] theorem State.presenting_commands (c : List (List Byte)) : (s.presenting c).commands = c := rfl
@[simp] theorem State.presenting_responses (c : List (List Byte)) : (s.presenting c).responses = s.responses := rfl
@[simp] theorem State.presenting_trace (c : List (List Byte)) : (s.presenting c).trace = s.trace := rfl
@[simp] theorem State.presenting_target (c : List (List Byte)) : (s.presenting c).target = s.target := rfl
@[simp] theorem State.presenting_env (c : List (List Byte)) : (s.presenting c).env = s.env := rfl
@[simp] theorem State.presenting_tick (c : List (List Byte)) : (s.presenting c).tick = s.tick := rfl

end

end Sys2Proof.Machine
end

