-- ==== Sys2Proof/Laws/Port.lean ====
section
/-! SUPPORT. The transaction port: what one transaction, and any number of them, leaves unchanged. -/

namespace Sys2Proof.Machine

/-- `t` differs from `s` only by transactions: another target, a longer trace, a later tick. Every register of the
controller and both message ports are as in `s`. -/
def PortOnly (s t : State) : Prop :=
  ∃ (target : Target) (entries : List TraceEntry),
    t = { s with target := target, trace := s.trace ++ entries, tick := s.tick + entries.length }

theorem PortOnly.refl (s : State) : PortOnly s s := ⟨s.target, [], by simp⟩

theorem PortOnly.trans {s t u : State} (h : PortOnly s t) (h' : PortOnly t u) : PortOnly s u := by
  obtain ⟨t1, e1, rfl⟩ := h
  obtain ⟨t2, e2, rfl⟩ := h'
  exact ⟨t2, e1 ++ e2, by simp [Nat.add_assoc]⟩

theorem portOnly_trans (s t u : State) (h : PortOnly s t) (h' : PortOnly t u) : PortOnly s u := h.trans h'

theorem PortOnly.afterTransaction (s : State) (target : Target) (e : TraceEntry) :
    PortOnly s (s.afterTransaction target e) := ⟨target, [e], rfl⟩

/-- One transaction: it changes the target, adds its entry with its answer to the trace, and nothing else. -/
theorem transact_spec {α : Type} (access : Target → Word → α × Target) (entry : Answer α → TraceEntry) (s : State) :
    ∃ target, (transact access entry s).2 = s.afterTransaction target (entry (transact access entry s).1) := by
  unfold transact
  by_cases hb : s.cfg.backendPresent = true
  · rw [if_pos hb]
    cases s.choice.outcome with
    | answered => exact ⟨_, rfl⟩
    | failed f reached => exact ⟨_, rfl⟩
  · rw [if_neg hb]; exact ⟨_, rfl⟩

/-- A transaction the port answers (R66): the target's own steps come first, then the access. -/
theorem transact_answered {α : Type} {access : Target → Word → α × Target} {entry : Answer α → TraceEntry} {s : State}
    (hb : s.cfg.backendPresent = true) (ho : s.choice.outcome = .answered) :
    transact access entry s =
      (.ok (access (s.target.events s.cfg s.choice.events) s.choice.noise).1,
        s.afterTransaction (access (s.target.events s.cfg s.choice.events) s.choice.noise).2
          (entry (.ok (access (s.target.events s.cfg s.choice.events) s.choice.noise).1))) := by
  unfold transact
  rw [if_pos hb, ho]

theorem portRead32_spec (a : Word) (s : State) :
    ∃ target, (portRead32 a s).2 = s.afterTransaction target (.rd32 a (portRead32 a s).1) := transact_spec _ _ s

theorem portWrite32_spec (a v : Word) (s : State) :
    ∃ target, (portWrite32 a v s).2 = s.afterTransaction target (.wr32 a v (portWrite32 a v s).1) := transact_spec _ _ s

theorem portReadBlock_spec (a : Word) (n : Nat) (s : State) :
    ∃ target, (portReadBlock a n s).2 = s.afterTransaction target (.memRead a n (portReadBlock a n s).1) :=
  transact_spec _ _ s

theorem portWriteBlock_spec (a : Word) (bs : List Byte) (s : State) :
    ∃ target, (portWriteBlock a bs s).2 = s.afterTransaction target (.memWrite a bs (portWriteBlock a bs s).1) :=
  transact_spec _ _ s

theorem portRead32_portOnly (a : Word) (s : State) : PortOnly s (portRead32 a s).2 := by
  obtain ⟨t, h⟩ := portRead32_spec a s
  rw [h]; exact PortOnly.afterTransaction s t _

theorem portWrite32_portOnly (a v : Word) (s : State) : PortOnly s (portWrite32 a v s).2 := by
  obtain ⟨t, h⟩ := portWrite32_spec a v s
  rw [h]; exact PortOnly.afterTransaction s t _

theorem portReadBlock_portOnly (a : Word) (n : Nat) (s : State) : PortOnly s (portReadBlock a n s).2 := by
  obtain ⟨t, h⟩ := portReadBlock_spec a n s
  rw [h]; exact PortOnly.afterTransaction s t _

theorem portWriteBlock_portOnly (a : Word) (bs : List Byte) (s : State) : PortOnly s (portWriteBlock a bs s).2 := by
  obtain ⟨t, h⟩ := portWriteBlock_spec a bs s
  rw [h]; exact PortOnly.afterTransaction s t _

theorem afterReads_portOnly (a : Word) (k : Nat) (s : State) : PortOnly s (afterReads a k s) := by
  induction k generalizing s with
  | zero => exact PortOnly.refl s
  | succ k ih => exact (portRead32_portOnly a s).trans (ih _)

theorem afterWrites_portOnly (ws : List (Word × Word)) (s : State) : PortOnly s (afterWrites ws s) := by
  induction ws generalizing s with
  | nil => exact PortOnly.refl s
  | cons w ws ih => exact (portWrite32_portOnly w.1 w.2 s).trans (ih _)

section
variable {s t : State} (h : PortOnly s t)
include h

theorem PortOnly.cfg : t.cfg = s.cfg := by obtain ⟨_, _, rfl⟩ := h; rfl
theorem PortOnly.attached : t.attached = s.attached := by obtain ⟨_, _, rfl⟩ := h; rfl
theorem PortOnly.variant : t.variant = s.variant := by obtain ⟨_, _, rfl⟩ := h; rfl
theorem PortOnly.cw : t.cw = s.cw := by obtain ⟨_, _, rfl⟩ := h; rfl
theorem PortOnly.nBp : t.nBp = s.nBp := by obtain ⟨_, _, rfl⟩ := h; rfl
theorem PortOnly.nWp : t.nWp = s.nWp := by obtain ⟨_, _, rfl⟩ := h; rfl
theorem PortOnly.bp : t.bp = s.bp := by obtain ⟨_, _, rfl⟩ := h; rfl
theorem PortOnly.wp : t.wp = s.wp := by obtain ⟨_, _, rfl⟩ := h; rfl
theorem PortOnly.fpbOn : t.fpbOn = s.fpbOn := by obtain ⟨_, _, rfl⟩ := h; rfl
theorem PortOnly.cachePresent : t.cachePresent = s.cachePresent := by obtain ⟨_, _, rfl⟩ := h; rfl
theorem PortOnly.hrValid : t.hrValid = s.hrValid := by obtain ⟨_, _, rfl⟩ := h; rfl
theorem PortOnly.hr : t.hr = s.hr := by obtain ⟨_, _, rfl⟩ := h; rfl
theorem PortOnly.busy : t.busy = s.busy := by obtain ⟨_, _, rfl⟩ := h; rfl
theorem PortOnly.commands : t.commands = s.commands := by obtain ⟨_, _, rfl⟩ := h; rfl
theorem PortOnly.responses : t.responses = s.responses := by obtain ⟨_, _, rfl⟩ := h; rfl
theorem PortOnly.env : t.env = s.env := by obtain ⟨_, _, rfl⟩ := h; rfl
theorem PortOnly.tick_le : s.tick ≤ t.tick := by obtain ⟨_, _, rfl⟩ := h; exact Nat.le_add_right _ _

/-- What the environment promised for the transactions from `s` on holds for those from `t` on. -/
theorem PortOnly.choiceAt (k : Nat) : t.choiceAt k = s.choiceAt (t.tick - s.tick + k) := by
  unfold State.choiceAt
  rw [h.env, ← Nat.add_assoc, Nat.add_sub_cancel' h.tick_le]

theorem PortOnly.quietFor {n : Nat} (hq : s.quietFor (t.tick - s.tick + n)) : t.quietFor n := fun k hk => by
  rw [h.choiceAt]; exact hq _ (by omega)

theorem PortOnly.answersFor {n : Nat} (ha : s.answersFor (t.tick - s.tick + n)) : t.answersFor n :=
  ⟨by rw [h.cfg]; exact ha.1, fun k hk => by rw [h.choiceAt]; exact ha.2 _ (by omega)⟩

end

end Sys2Proof.Machine
end

