-- ==== Sys2Proof/Laws/Ops.lean ====
section
/-! SUPPORT. The shared operations of the commands: one lemma for each that says everything it can do. -/

namespace Sys2Proof.Machine

/-- `Rd32` (R14): the port's answer, or the port's failure raised. -/
theorem rd32_run (a : Word) (s : State) :
    rd32 a s = match (portRead32 a s).1 with
      | .ok v => .ok v (portRead32 a s).2
      | .fail f => .error f.raised (portRead32 a s).2 := by
  show orRaise (portRead32 a) s = _
  unfold orRaise
  cases h : portRead32 a s with
  | mk ans t => cases ans <;> rfl

/-- `Wr32` (R14). -/
theorem wr32_run (a v : Word) (s : State) :
    wr32 a v s = match (portWrite32 a v s).1 with
      | .ok u => .ok u (portWrite32 a v s).2
      | .fail f => .error f.raised (portWrite32 a v s).2 := by
  show orRaise (portWrite32 a v) s = _
  unfold orRaise
  cases h : portWrite32 a v s with
  | mk ans t => cases ans <;> rfl

/-- `MemRead` as a sub-transfer: either port failure is a memory access fault at its address (R198). -/
theorem memRead_run (a : Word) (n : Nat) (s : State) :
    memRead a n s = match (portReadBlock a n s).1 with
      | .ok bs => .ok bs (portReadBlock a n s).2
      | .fail _ => .error (.memoryAccessFault a) (portReadBlock a n s).2 := by
  show orMemoryFault a (portReadBlock a n) s = _
  unfold orMemoryFault
  cases h : portReadBlock a n s with
  | mk ans t => cases ans <;> rfl

/-- `MemWrite` as a sub-transfer (R198). -/
theorem memWrite_run (a : Word) (bs : List Byte) (s : State) :
    memWrite a bs s = match (portWriteBlock a bs s).1 with
      | .ok u => .ok u (portWriteBlock a bs s).2
      | .fail _ => .error (.memoryAccessFault a) (portWriteBlock a bs s).2 := by
  show orMemoryFault a (portWriteBlock a bs) s = _
  unfold orMemoryFault
  cases h : portWriteBlock a bs s with
  | mk ans t => cases ans <;> rfl

theorem rd32_portOnly (a : Word) : (rd32 a).Keeps PortOnly := by
  intro s
  rw [rd32_run]
  cases (portRead32 a s).1 <;> exact portRead32_portOnly a s

theorem wr32_portOnly (a v : Word) : (wr32 a v).Keeps PortOnly := by
  intro s
  rw [wr32_run]
  cases (portWrite32 a v s).1 <;> exact portWrite32_portOnly a v s

theorem memRead_portOnly (a : Word) (n : Nat) : (memRead a n).Keeps PortOnly := by
  intro s
  rw [memRead_run]
  cases (portReadBlock a n s).1 <;> exact portReadBlock_portOnly a n s

theorem memWrite_portOnly (a : Word) (bs : List Byte) : (memWrite a bs).Keeps PortOnly := by
  intro s
  rw [memWrite_run]
  cases (portWriteBlock a bs s).1 <;> exact portWriteBlock_portOnly a bs s

theorem writeAll_portOnly (ws : List (Word × Word)) : (writeAll ws).Keeps PortOnly := by
  induction ws with
  | nil => exact Cmd.keeps_pure PortOnly.refl ()
  | cons w ws ih => exact Cmd.keeps_bind portOnly_trans (wr32_portOnly w.1 w.2) fun _ => ih

/-- The writes of a list that are all answered, one after the other. -/
theorem writeAll_answered {ws : List (Word × Word)} {s : State} (h : writesAnswered ws s) :
    writeAll ws s = .ok () (afterWrites ws s) := by
  induction ws generalizing s with
  | nil => rfl
  | cons w ws ih =>
    obtain ⟨a, v⟩ := w
    have hw : wr32 a v s = .ok () (portWrite32 a v s).2 := by rw [wr32_run, h.1]
    show (wr32 a v >>= fun _ => writeAll ws) s = _
    rw [Cmd.bind_of_ok _ hw, ih h.2]
    rfl

/-- Best-effort writes never fail: every one is attempted (R158, R274). -/
theorem attemptAll_run (ws : List (Word × Word)) (s : State) : attemptAll ws s = .ok () (afterWrites ws s) := by
  induction ws generalizing s with
  | nil => rfl
  | cons w ws ih => exact ih _

theorem poll_portOnly (a : Word) (pred : Word → Bool) (n : Nat) : (poll a pred n).Keeps PortOnly := by
  induction n with
  | zero => exact Cmd.keeps_pure PortOnly.refl false
  | succ n ih =>
    refine Cmd.keeps_bind portOnly_trans (rd32_portOnly a) fun v => ?_
    by_cases h : pred v = true
    · rw [if_pos h]; exact Cmd.keeps_pure PortOnly.refl true
    · rw [if_neg h]; exact ih

/-- One more read of a poll (R15). -/
theorem poll_succ (a : Word) (pred : Word → Bool) (n : Nat) (s : State) :
    poll a pred (n + 1) s = match readAfter a 0 s with
      | .ok v =>
        if pred v then EStateM.Result.ok true (afterReads a 1 s) else poll a pred n (afterReads a 1 s)
      | .fail f => .error f.raised (afterReads a 1 s) := by
  show (rd32 a >>= fun v => if pred v then pure true else poll a pred n) s = _
  rw [Cmd.bind_run, rd32_run]
  show _ = match (portRead32 a s).1 with
    | .ok v =>
      if pred v then EStateM.Result.ok true (portRead32 a s).2 else poll a pred n (portRead32 a s).2
    | .fail f => .error f.raised (portRead32 a s).2
  cases (portRead32 a s).1 with
  | fail f => rfl
  | ok v =>
    show (if pred v = true then (pure true : Cmd Bool) else poll a pred n) (portRead32 a s).2 = _
    by_cases h : pred v = true
    · rw [if_pos h]; show _ = (if pred v = true then _ else _); rw [if_pos h]; rfl
    · rw [if_neg h]; show _ = (if pred v = true then _ else _); rw [if_neg h]

/-- Everything a poll can do (R15, R276): it finds the bit at one of its reads; or all `n` reads are answered and
none shows it; or a read fails first. -/
theorem poll_cases (a : Word) (pred : Word → Bool) (n : Nat) (s : State) :
    (∃ k, k < n ∧ pollFindsAt a pred k s ∧ poll a pred n s = .ok true (afterReads a (k + 1) s)) ∨
    (readsWithout a pred n s ∧ poll a pred n s = .ok false (afterReads a n s)) ∨
    (∃ k f, k < n ∧ readsWithout a pred k s ∧ readAfter a k s = .fail f ∧
      poll a pred n s = .error f.raised (afterReads a (k + 1) s)) := by
  induction n generalizing s with
  | zero => exact .inr (.inl ⟨fun j hj => absurd hj (Nat.not_lt_zero j), rfl⟩)
  | succ n ih =>
    have shift : ∀ k, (∃ v, readAfter a 0 s = .ok v ∧ pred v = false) → readsWithout a pred k (afterReads a 1 s) →
        readsWithout a pred (k + 1) s := by
      intro k h0 h j hj
      cases j with
      | zero => exact h0
      | succ j => exact h j (by omega)
    rw [poll_succ]
    cases h0 : readAfter a 0 s with
    | fail f =>
      exact .inr (.inr ⟨0, f, Nat.succ_pos n, fun j hj => absurd hj (Nat.not_lt_zero j), h0, rfl⟩)
    | ok v =>
      by_cases hp : pred v = true
      · refine .inl ⟨0, Nat.succ_pos n, ⟨fun j hj => absurd hj (Nat.not_lt_zero j), v, h0, hp⟩, ?_⟩
        simp [hp]
      · have hp' : pred v = false := by simpa using hp
        have h0' : ∃ v, readAfter a 0 s = .ok v ∧ pred v = false := ⟨v, h0, hp'⟩
        simp only [hp', Bool.false_eq_true, if_false]
        rcases ih (afterReads a 1 s) with ⟨k, hk, hf, he⟩ | ⟨hw, he⟩ | ⟨k, f, hk, hw, hf, he⟩
        · exact .inl ⟨k + 1, by omega, ⟨shift k h0' hf.1, hf.2⟩, he⟩
        · exact .inr (.inl ⟨shift n h0' hw, he⟩)
        · exact .inr (.inr ⟨k + 1, f, by omega, shift k h0' hw, hf, he⟩)

/-- A poll that finds the bit within its bound. -/
theorem poll_found {a : Word} {pred : Word → Bool} {n k : Nat} {s : State} (hk : k < n) (h : pollFindsAt a pred k s) :
    poll a pred n s = .ok true (afterReads a (k + 1) s) := by
  induction n generalizing k s with
  | zero => omega
  | succ n ih =>
    obtain ⟨hw, v, hv, hp⟩ := h
    rw [poll_succ]
    cases k with
    | zero => rw [hv]; simp [hp]
    | succ k =>
      obtain ⟨w, h0, hp0⟩ := hw 0 (Nat.succ_pos k)
      rw [h0]
      simp only [hp0, Bool.false_eq_true, if_false]
      exact ih (by omega) ⟨fun j hj => hw (j + 1) (by omega), v, hv, hp⟩

/-- A poll whose every read is answered without the bit. -/
theorem poll_exhausted {a : Word} {pred : Word → Bool} {n : Nat} {s : State} (h : readsWithout a pred n s) :
    poll a pred n s = .ok false (afterReads a n s) := by
  induction n generalizing s with
  | zero => rfl
  | succ n ih =>
    obtain ⟨w, h0, hp0⟩ := h 0 (Nat.succ_pos n)
    rw [poll_succ, h0]
    simp only [hp0, Bool.false_eq_true, if_false]
    exact ih fun j hj => h (j + 1) (by omega)

/-- The bounded wait for a status bit (R15): the poll of the control/status register, and the timeout raised if
it is exhausted. -/
theorem awaitStatus_run (pred : Config → Word → Bool) (timeout : Failure) (s : State) :
    awaitStatus pred timeout s = match poll s.cfg.addrDhcsr (pred s.cfg) s.cfg.pollMax s with
      | .ok true t => .ok () t
      | .ok false t => .error timeout t
      | .error e t => .error e t := by
  show (get >>= fun s0 => poll s0.cfg.addrDhcsr (pred s0.cfg) s0.cfg.pollMax >>= fun b =>
    if b then (pure () : Cmd Unit) else raise timeout) s = _
  rw [Cmd.bind_of_ok _ (Cmd.get_run s), Cmd.bind_run]
  cases poll s.cfg.addrDhcsr (pred s.cfg) s.cfg.pollMax s with
  | error e t => rfl
  | ok b t => cases b <;> rfl

theorem awaitStatus_found {pred : Config → Word → Bool} {timeout : Failure} {k : Nat} {s : State}
    (hk : k < s.cfg.pollMax) (h : pollFindsAt s.cfg.addrDhcsr (pred s.cfg) k s) :
    awaitStatus pred timeout s = .ok () (afterReads s.cfg.addrDhcsr (k + 1) s) := by
  rw [awaitStatus_run, poll_found hk h]

theorem awaitStatus_exhausted {pred : Config → Word → Bool} {timeout : Failure} {s : State}
    (h : readsWithout s.cfg.addrDhcsr (pred s.cfg) s.cfg.pollMax s) :
    awaitStatus pred timeout s = .error timeout (afterReads s.cfg.addrDhcsr s.cfg.pollMax s) := by
  rw [awaitStatus_run, poll_exhausted h]

theorem awaitStatus_portOnly (pred : Config → Word → Bool) (timeout : Failure) :
    (awaitStatus pred timeout).Keeps PortOnly := by
  intro s
  rw [awaitStatus_run]
  have h := poll_portOnly s.cfg.addrDhcsr (pred s.cfg) s.cfg.pollMax s
  cases hp : poll s.cfg.addrDhcsr (pred s.cfg) s.cfg.pollMax s with
  | error e t => rw [hp] at h; exact h
  | ok b t => rw [hp] at h; cases b <;> exact h

/-- `WriteCW` (R151): one transaction; `CW` follows only if it succeeded. -/
theorem writeCw_run (cw : ControlWord) (s : State) :
    writeCw cw s = match (portWrite32 s.cfg.addrDhcsr (dhcsrWord s.cfg cw) s).1 with
      | .ok _ => .ok () ((portWrite32 s.cfg.addrDhcsr (dhcsrWord s.cfg cw) s).2.setCw cw)
      | .fail f => .error f.raised (portWrite32 s.cfg.addrDhcsr (dhcsrWord s.cfg cw) s).2 := by
  show (get >>= fun s0 => wr32 s0.cfg.addrDhcsr (dhcsrWord s0.cfg cw) >>= fun _ =>
    (modify (·.setCw cw) : Cmd Unit)) s = _
  rw [Cmd.bind_of_ok _ (Cmd.get_run s), Cmd.bind_run, wr32_run]
  cases (portWrite32 s.cfg.addrDhcsr (dhcsrWord s.cfg cw) s).1 <;> rfl

theorem scanWatchpoints_portOnly (h : HaltReason) (slots : List Nat) : (scanWatchpoints h slots).Keeps PortOnly := by
  induction slots generalizing h with
  | nil => exact Cmd.keeps_pure PortOnly.refl h
  | cons i rest ih =>
    refine Cmd.keeps_bind portOnly_trans (Cmd.keeps_get PortOnly.refl) fun s => ?_
    by_cases hu : (s.wp.getD i freeWp).inUse = true
    · rw [if_pos hu]
      refine Cmd.keeps_bind portOnly_trans (rd32_portOnly _) fun f => ?_
      by_cases hm : (matchedBit s.cfg f && !h.wpSlotValid) = true
      · rw [if_pos hm]; exact ih _
      · rw [if_neg hm]; exact ih _
    · rw [if_neg hu]; exact ih _

/-- What the scan can attribute (R239): a slot of the list, once, or nothing; the five flags stay. -/
theorem scanWatchpoints_ok {h h' : HaltReason} {slots : List Nat} {s t : State}
    (hs : scanWatchpoints h slots s = .ok h' t) :
    h' = h ∨ (h.wpSlotValid = false ∧ ∃ i ∈ slots, h' = { h with wpSlotValid := true, wpSlot := BitVec.ofNat 4 i }) := by
  induction slots generalizing h s with
  | nil => cases hs; exact .inl rfl
  | cons i rest ih =>
    obtain ⟨s0, s1, hg, hs⟩ := Cmd.bind_ok_inv hs
    cases hg
    have skip : ∀ {u}, scanWatchpoints h rest u = .ok h' t → h' = h ∨ (h.wpSlotValid = false ∧
        ∃ j ∈ i :: rest, h' = { h with wpSlotValid := true, wpSlot := BitVec.ofNat 4 j }) := by
      intro u hu
      rcases ih hu with rfl | ⟨hv, j, hj, rfl⟩
      · exact .inl rfl
      · exact .inr ⟨hv, j, List.mem_cons_of_mem i hj, rfl⟩
    by_cases hu : (s.wp.getD i freeWp).inUse = true
    · rw [if_pos hu] at hs
      obtain ⟨f, s2, _, hs⟩ := Cmd.bind_ok_inv hs
      by_cases hm : (matchedBit s.cfg f && !h.wpSlotValid) = true
      · rw [if_pos hm] at hs
        have hv : h.wpSlotValid = false := by
          cases hv : h.wpSlotValid
          · rfl
          · simp [hv] at hm
        rcases ih hs with rfl | ⟨hv', _⟩
        · exact .inr ⟨hv, i, List.mem_cons_self, rfl⟩
        · simp at hv'
      · rw [if_neg hm] at hs; exact skip hs
    · rw [if_neg hu] at hs; exact skip hs

/-- Everything the attribution of a halt can do (R238 step 4, R239). -/
theorem attributeHalt_cases (h : HaltReason) (hv : h.wpSlotValid = false) (s : State) :
    (∃ h' t, attributeHalt h s = .ok h' t ∧ PortOnly s t ∧
      (h'.wpSlotValid = true → h'.watchpointHit = true ∧ h'.wpSlot.toNat < s.nWp.toNat)) ∨
    (∃ f t, attributeHalt h s = .error f t ∧ PortOnly s t) := by
  have hrun : attributeHalt h s =
      (if h.watchpointHit then scanWatchpoints h (List.range s.nWp.toNat) else pure h) s := rfl
  by_cases hw : h.watchpointHit = true
  · rw [hrun, if_pos hw]
    have hp := scanWatchpoints_portOnly h (List.range s.nWp.toNat) s
    cases hs : scanWatchpoints h (List.range s.nWp.toNat) s with
    | error f t => rw [hs] at hp; exact .inr ⟨f, t, rfl, hp⟩
    | ok h' t =>
      rw [hs] at hp
      refine .inl ⟨h', t, rfl, hp, fun hv' => ?_⟩
      rcases scanWatchpoints_ok hs with rfl | ⟨_, i, hi, rfl⟩
      · rw [hv] at hv'; cases hv'
      · refine ⟨hw, ?_⟩
        have hlt := List.mem_range.mp hi
        show (BitVec.ofNat 4 i).toNat < _
        rw [BitVec.toNat_ofNat]
        exact Nat.lt_of_le_of_lt (Nat.mod_le _ _) hlt
  · rw [hrun, if_neg hw]
    exact .inl ⟨h, s, rfl, PortOnly.refl s, fun hv' => by rw [hv] at hv'; cases hv'⟩

/-- `Capture`, written out (R238). -/
theorem capture_run (s : State) :
    capture s = (rd32 s.cfg.addrDfsr >>= fun dfsr => rd32 s.cfg.addrHfsr >>= fun hfsr =>
      attributeHalt (interpret s.cfg dfsr hfsr) >>= fun h =>
      wr32 s.cfg.addrDfsr (resetAll s.cfg) >>= fun _ => (modify (·.setHr h) : Cmd Unit)) s := rfl

/-- Everything `Capture` can do (R238): a port failure leaves every register as it was; success stores a snapshot
whose attribution, if it has one, is a watchpoint slot below `N_WP`. -/
theorem capture_cases (s : State) :
    (∃ u h, PortOnly s u ∧ capture s = .ok () (u.setHr h) ∧
      (h.wpSlotValid = true → h.watchpointHit = true ∧ h.wpSlot.toNat < s.nWp.toNat)) ∨
    (∃ u f, PortOnly s u ∧ capture s = .error f u) := by
  rw [capture_run]
  have h1 := rd32_portOnly s.cfg.addrDfsr s
  cases hd : rd32 s.cfg.addrDfsr s with
  | error f u => rw [hd] at h1; exact .inr ⟨u, f, h1, Cmd.bind_of_error _ hd⟩
  | ok dfsr s1 =>
    rw [hd] at h1
    rw [Cmd.bind_of_ok _ hd]
    have h2 := rd32_portOnly s.cfg.addrHfsr s1
    cases hh : rd32 s.cfg.addrHfsr s1 with
    | error f u => rw [hh] at h2; exact .inr ⟨u, f, h1.trans h2, Cmd.bind_of_error _ hh⟩
    | ok hfsr s2 =>
      rw [hh] at h2
      rw [Cmd.bind_of_ok _ hh]
      rcases attributeHalt_cases (interpret s.cfg dfsr hfsr) rfl s2 with ⟨h, s3, hs, h3, hv⟩ | ⟨f, s3, hs, h3⟩
      · rw [Cmd.bind_of_ok _ hs]
        have h4 := wr32_portOnly s.cfg.addrDfsr (resetAll s.cfg) s3
        have h13 := (h1.trans h2).trans h3
        rw [(h1.trans h2).nWp] at hv
        cases hw : wr32 s.cfg.addrDfsr (resetAll s.cfg) s3 with
        | error f u => rw [hw] at h4; exact .inr ⟨u, f, h13.trans h4, Cmd.bind_of_error _ hw⟩
        | ok x u => rw [hw] at h4; exact .inl ⟨u, h, h13.trans h4, Cmd.bind_of_ok _ hw, hv⟩
      · exact .inr ⟨s3, f, (h1.trans h2).trans h3, Cmd.bind_of_error _ hs⟩

theorem rd32_of_reads {s t : State} {a v : Word} (h : s.reads a v t) : rd32 a s = .ok v t := by
  rw [rd32_run, show portRead32 a s = (.ok v, t) from h]

theorem wr32_of_writes {s t : State} {a v : Word} (h : s.writes a v t) : wr32 a v s = .ok () t := by
  rw [wr32_run, show portWrite32 a v s = (.ok (), t) from h]

theorem wr32_of_fail {s t : State} {a v : Word} {f : PortFailure} (h : portWrite32 a v s = (.fail f, t)) :
    wr32 a v s = .error f.raised t := by
  rw [wr32_run, h]

theorem State.reads.portOnly {s t : State} {a v : Word} (h : s.reads a v t) : PortOnly s t := by
  have := portRead32_portOnly a s
  rwa [show portRead32 a s = (.ok v, t) from h] at this

theorem State.writes.portOnly {s t : State} {a v : Word} (h : s.writes a v t) : PortOnly s t := by
  have := portWrite32_portOnly a v s
  rwa [show portWrite32 a v s = (.ok (), t) from h] at this

theorem State.readsSlots.portOnly {s t : State} {slots : List Nat} {words : List (Nat × Word)}
    (h : s.readsSlots slots words t) : PortOnly s t := by
  induction slots generalizing s words with
  | nil => obtain ⟨_, rfl⟩ := h; exact PortOnly.refl _
  | cons i rest ih =>
    obtain ⟨f, u, more, hr, _, hm⟩ := h
    exact hr.portOnly.trans (ih hm)

theorem scanWatchpoints_cons (h : HaltReason) (i : Nat) (rest : List Nat) (s : State) :
    scanWatchpoints h (i :: rest) s =
      if (s.wpSlot i).inUse = true then
        (rd32 (addrDwtFunction s.cfg i) >>= fun f =>
          if (matchedBit s.cfg f && !h.wpSlotValid) = true then
            scanWatchpoints { h with wpSlotValid := true, wpSlot := BitVec.ofNat 4 i } rest
          else scanWatchpoints h rest) s
      else scanWatchpoints h rest s := by
  show (if (s.wpSlot i).inUse = true then _ else _ : Cmd HaltReason) s = _
  split <;> rfl

/-- A scan that has its slot attributes no other (R239). -/
theorem attributed_valid {h : HaltReason} (hv : h.wpSlotValid = true) (words : List (Nat × Word))
    (s t : State) (slots : List Nat) (hr : s.readsSlots (slots.filter fun i => (s.wpSlot i).inUse) words t) :
    scanWatchpoints h slots s = .ok h t := by
  induction slots generalizing s words with
  | nil => obtain ⟨_, rfl⟩ := hr; rfl
  | cons i rest ih =>
    rw [scanWatchpoints_cons]
    by_cases hu : (s.wpSlot i).inUse = true
    · simp only [List.filter_cons, hu, if_true] at hr
      obtain ⟨f, u, more, hf, _, hm⟩ := hr
      rw [if_pos hu, Cmd.bind_of_ok _ (rd32_of_reads hf)]
      rw [if_neg (by simp [hv])]
      refine ih more u ?_
      rw [show (rest.filter fun i => (u.wpSlot i).inUse) = rest.filter fun i => (s.wpSlot i).inUse by
        unfold State.wpSlot; rw [hf.portOnly.wp]]
      exact hm
    · simp only [List.filter_cons, hu] at hr
      rw [if_neg hu]
      exact ih words s hr

/-- The scan of a list of slots reads the function register of each one in use, and attributes the halt to the first that
matched (R239). -/
theorem scanWatchpoints_run (h : HaltReason) (hv : h.wpSlotValid = false) (words : List (Nat × Word)) (s t : State)
    (slots : List Nat) (hr : s.readsSlots (slots.filter fun i => (s.wpSlot i).inUse) words t) :
    scanWatchpoints h slots s = .ok (attributed s.cfg h words) t := by
  induction slots generalizing s words with
  | nil => obtain ⟨rfl, rfl⟩ := hr; rfl
  | cons i rest ih =>
    rw [scanWatchpoints_cons]
    by_cases hu : (s.wpSlot i).inUse = true
    · simp only [List.filter_cons, hu, if_true] at hr
      obtain ⟨f, u, more, hf, rfl, hm⟩ := hr
      rw [if_pos hu, Cmd.bind_of_ok _ (rd32_of_reads hf)]
      have hm' : u.readsSlots (rest.filter fun i => (u.wpSlot i).inUse) more t := by
        rw [show (rest.filter fun i => (u.wpSlot i).inUse) = rest.filter fun i => (s.wpSlot i).inUse by
          unfold State.wpSlot; rw [hf.portOnly.wp]]
        exact hm
      by_cases hmb : matchedBit s.cfg f = true
      · rw [if_pos (by simp [hmb, hv]), attributed_valid rfl more u t rest hm']
        unfold attributed
        rw [List.find?_cons_of_pos (by simpa using hmb)]
      · rw [if_neg (by simp [hmb]), ih more u hm', hf.portOnly.cfg]
        unfold attributed
        rw [List.find?_cons_of_neg (by simpa using hmb)]
    · simp only [List.filter_cons, hu] at hr
      rw [if_neg hu]
      exact ih words s hr

/-- A Capture whose transactions are all answered stores the halt reason they show (R238). -/
theorem capture_of_captures {s t : State} {h : HaltReason} (hc : s.captures h t) : capture s = .ok () (t.setHr h) := by
  obtain ⟨dfsr, hfsr, words, s1, s2, s3, hd, hh, hw, hx, rfl⟩ := hc
  have h2 := hd.portOnly.trans hh.portOnly
  rw [capture_run, Cmd.bind_of_ok _ (rd32_of_reads hd), Cmd.bind_of_ok _ (rd32_of_reads hh)]
  have ha : attributeHalt (interpret s.cfg dfsr hfsr) s2 = .ok (attributed s.cfg (interpret s.cfg dfsr hfsr) words) s3 := by
    show (if (interpret s.cfg dfsr hfsr).watchpointHit then scanWatchpoints _ (List.range s2.nWp.toNat)
      else (pure _ : Cmd HaltReason)) s2 = _
    unfold State.scannedSlots at hw
    by_cases hit : (interpret s.cfg dfsr hfsr).watchpointHit = true
    · rw [if_pos hit] at hw ⊢
      rw [← h2.cfg, h2.nWp]
      refine scanWatchpoints_run _ rfl words s2 s3 _ ?_
      rw [show ((List.range s.nWp.toNat).filter fun i => (s2.wpSlot i).inUse)
        = (List.range s.nWp.toNat).filter fun i => (s.wpSlot i).inUse by unfold State.wpSlot; rw [h2.wp]]
      exact hw
    · rw [if_neg hit] at hw ⊢
      obtain ⟨rfl, rfl⟩ := hw
      rfl
  rw [Cmd.bind_of_ok _ ha, Cmd.bind_of_ok _ (wr32_of_writes hx)]
  rfl

theorem State.captures.portOnly {s t : State} {h : HaltReason} (hc : s.captures h t) : PortOnly s t := by
  obtain ⟨_, _, _, _, _, _, hd, hh, hw, hx, _⟩ := hc
  exact (hd.portOnly.trans hh.portOnly).trans (hw.portOnly.trans hx.portOnly)

/-- A command that is not accepted (R281). -/
theorem runCommand_busy {body : Cmd Result} {s : State} (h : s.busy = true) : runCommand body s = s := by
  unfold runCommand; rw [if_pos h]

/-- A command that completes. -/
theorem runCommand_ok {body : Cmd Result} {s t : State} {r : Result} (hb : s.busy = false)
    (h : body s.accept = .ok r t) : runCommand body s = t.deliver (.ok r) := by
  unfold runCommand; rw [if_neg (by simp [hb]), h]

/-- A command that ends with a failure (R272). -/
theorem runCommand_error {body : Cmd Result} {s t : State} {f : Failure} (hb : s.busy = false)
    (h : body s.accept = .error f t) : runCommand body s = t.deliver (.failed f) := by
  unfold runCommand; rw [if_neg (by simp [hb]), h]

/-- A relation that the body, the acceptance and the delivery keep, a whole command keeps. -/
theorem runCommand_keeps {R : State → State → Prop} (hr : ∀ s, R s s) (ht : ∀ s t u, R s t → R t u → R s u)
    (ha : ∀ s : State, R s s.accept) (hd : ∀ (s : State) r, R s (s.deliver r)) {body : Cmd Result}
    (hb : body.Keeps R) (s : State) : R s (runCommand body s) := by
  unfold runCommand
  split
  · exact hr s
  · have h := hb s.accept
    cases hs : body s.accept with
    | ok r t => rw [hs] at h; exact ht _ _ _ (ht _ _ _ (ha s) h) (hd t _)
    | error f t => rw [hs] at h; exact ht _ _ _ (ht _ _ _ (ha s) h) (hd t _)

end Sys2Proof.Machine
end

