-- ==== Sys2Proof/Laws/Commands.lean ====
section
/-! SUPPORT. What the steps that single commands are made of can do, one lemma each, for the proofs about commands. -/

namespace Sys2Proof.Machine

/-- A handle that exists passes the lifecycle check (R268 (b)). -/
theorem requireAttached_of_ready {s : State} (h : s.ready) : requireAttached s.accept = .ok () s.accept := by
  rw [requireAttached_run]; exact if_pos h.1

/-- A command word written with success: `CW` follows (R151). -/
theorem writeCw_of_writes {s t : State} {cw : ControlWord} (h : s.writes s.cfg.addrDhcsr (dhcsrWord s.cfg cw) t) :
    writeCw cw s = .ok () (t.setCw cw) := by
  rw [writeCw_run, show portWrite32 s.cfg.addrDhcsr (dhcsrWord s.cfg cw) s = _ from h]

/-- A command word whose write fails: `CW` stays (R151). -/
theorem writeCw_of_fail {s t : State} {cw : ControlWord} {f : PortFailure}
    (h : portWrite32 s.cfg.addrDhcsr (dhcsrWord s.cfg cw) s = (.fail f, t)) : writeCw cw s = .error f.raised t := by
  rw [writeCw_run, h]

/-- The snapshot is taken once in a halt episode (R235). -/
theorem captureOnce_run (s : State) : captureOnce s = if s.hrValid = true then .ok () s else capture s := by
  unfold captureOnce
  refine (Cmd.bind_of_ok _ (Cmd.get_run s)).trans ?_
  split <;> rfl

/-- Arming the vector catch is a read and a write (R252 step 1). -/
theorem armVectorCatch_of {s t u : State} {v : Word} (hr : s.reads s.cfg.addrDemcr v u)
    (hw : u.writes s.cfg.addrDemcr (armWord s.cfg v) t) : armVectorCatch s = .ok () t := by
  unfold armVectorCatch
  refine (Cmd.bind_of_ok _ (Cmd.get_run s)).trans ?_
  refine (Cmd.bind_of_ok _ (rd32_of_reads hr)).trans ?_
  exact wr32_of_writes hw

/-- A unit that is on is not enabled again (R214). -/
theorem enableFpb_on {s : State} (h : s.fpbOn = true) : enableFpb s = .ok () s := by
  unfold enableFpb
  refine (Cmd.bind_of_ok _ (Cmd.get_run s)).trans ?_
  simp only [h, if_true]
  rfl

/-- The first use of a handle enables the unit (R214). -/
theorem enableFpb_off {s t : State} (h : s.fpbOn = false) (hw : s.writes s.cfg.addrFpCtrl (fpbEnableWord s.cfg) t) :
    enableFpb s = .ok () t.setFpbOn := by
  unfold enableFpb
  refine (Cmd.bind_of_ok _ (Cmd.get_run s)).trans ?_
  simp only [h, Bool.false_eq_true, if_false]
  refine (Cmd.bind_of_ok _ (wr32_of_writes hw)).trans ?_
  rfl

/-- The cache-identification register is read on a variant that has one (R156). -/
theorem sampleCache_present {s t : State} {variant : Variant} {v : Word} (h : s.cfg.hasCacheOps.at variant = true)
    (hr : s.reads s.cfg.addrCacheId v t) : sampleCache variant s = .ok (cachePresentOf s.cfg v) t := by
  unfold sampleCache
  refine (Cmd.bind_of_ok _ (Cmd.get_run s)).trans ?_
  simp only [h, if_true]
  refine (Cmd.bind_of_ok _ (rd32_of_reads hr)).trans ?_
  rfl

/-- No read is made on a variant without cache operations (R156). -/
theorem sampleCache_absent {s : State} {variant : Variant} (h : s.cfg.hasCacheOps.at variant = false) :
    sampleCache variant s = .ok false s := by
  unfold sampleCache
  refine (Cmd.bind_of_ok _ (Cmd.get_run s)).trans ?_
  simp only [h, Bool.false_eq_true, if_false]
  rfl

/-- A span's reads: the first sub-transfer, then the rest (R196). -/
theorem readTransfers_cons (x w : Nat) (rest : List (Nat × Nat)) (s : State) :
    readTransfers ((x, w) :: rest) s = match memRead (BitVec.ofNat 32 x) w s with
      | .ok bs t => (match readTransfers rest t with
        | .ok more u => .ok (bs ++ more) u
        | .error e u => .error e u)
      | .error e t => .error e t := by
  show (memRead (BitVec.ofNat 32 x) w >>= fun bs => readTransfers rest >>= fun more => pure (bs ++ more)) s = _
  rw [Cmd.bind_run]
  cases memRead (BitVec.ofNat 32 x) w s with
  | ok bs t =>
    dsimp only
    rw [Cmd.bind_run]
    generalize readTransfers rest t = r
    cases r <;> rfl
  | error e t => rfl

/-- A span's writes: the first sub-transfer with its bytes, then the rest (R195, R197). -/
theorem writeTransfers_cons (base : Nat) (bytes : List Byte) (x w : Nat) (rest : List (Nat × Nat)) (s : State) :
    writeTransfers base bytes ((x, w) :: rest) s =
      match memWrite (BitVec.ofNat 32 x) ((bytes.drop (x - base)).take w) s with
      | .ok _ t => writeTransfers base bytes rest t
      | .error e t => .error e t := by
  show (memWrite (BitVec.ofNat 32 x) ((bytes.drop (x - base)).take w) >>= fun _ => writeTransfers base bytes rest) s = _
  rw [Cmd.bind_run]
  cases memWrite (BitVec.ofNat 32 x) ((bytes.drop (x - base)).take w) s <;> rfl

theorem readTransfers_portOnly (l : List (Nat × Nat)) : (readTransfers l).Keeps PortOnly := by
  induction l with
  | nil => exact Cmd.keeps_pure PortOnly.refl _
  | cons p rest ih =>
    exact Cmd.keeps_bind portOnly_trans (memRead_portOnly _ _) fun _ =>
      Cmd.keeps_bind portOnly_trans ih fun _ => Cmd.keeps_pure PortOnly.refl _

theorem writeTransfers_portOnly (base : Nat) (bytes : List Byte) (l : List (Nat × Nat)) :
    (writeTransfers base bytes l).Keeps PortOnly := by
  induction l with
  | nil => exact Cmd.keeps_pure PortOnly.refl _
  | cons p rest ih => exact Cmd.keeps_bind portOnly_trans (memWrite_portOnly _ _) fun _ => ih

/-- The least index with a property (R213 step 2, R222 step 2). -/
theorem find_least {n i : Nat} {p : Nat → Bool} (hi : i < n) (hp : p i = true) (hl : ∀ j, j < i → p j = false) :
    (List.range n).find? p = some i := by
  rw [List.find?_range_eq_some]
  exact ⟨hp, by simpa using hi, fun j hj => by simp [hl j hj]⟩

end Sys2Proof.Machine
end

