-- ==== Sys2Proof/Laws/RegMap.lean ====
section
/-! SUPPORT. The register map under the structural constraints of `configWf`: every register of the map is found at its own
address, and the addresses are word-aligned and inside the window. -/

namespace Sys2Proof.Machine

/-- The registers of the map (R72, R73). -/
def mapRegs : List Reg :=
  [.dhcsr, .dcrsr, .dcrdr, .demcr, .dfsr, .hfsr, .aircr, .cacheId, .iciallu, .dccmvac, .fpCtrl, .dwtCtrl]
  ++ ((List.range 15).map Reg.fpComp ++ ((List.range 15).map Reg.dwtComp ++ ((List.range 15).map Reg.dwtMask
  ++ (List.range 15).map Reg.dwtFunction)))

theorem registerAddresses_eq (cfg : Config) : registerAddresses cfg = mapRegs.map (Reg.address cfg) := by
  simp only [registerAddresses, mapRegs, List.map_append, List.map_map]
  rfl

theorem allDistinct_iff {α : Type} [DecidableEq α] (l : List α) : allDistinct l = true ↔ l.Nodup := by
  induction l with
  | nil => simp [allDistinct]
  | cons x xs ih => simp [allDistinct, ih]

theorem find?_map_range {β : Type} (f : Nat → β) (p : β → Bool) (n : Nat) :
    ((List.range n).map f).find? p = ((List.range n).find? fun i => p (f i)).map f := by
  rw [List.find?_map]; rfl

/-- The register at an address is the first of the map with that address. -/
theorem regAt_eq_find? (cfg : Config) (a : Word) : regAt cfg a = mapRegs.find? fun r => decide (a = r.address cfg) := by
  have hb : ∀ (base stride : Word) (f : Nat → Reg), (∀ i, (f i).address cfg = comparatorAddress base stride i) →
      ((List.range 15).map f).find? (fun r => decide (a = r.address cfg)) = (bankIndex base stride a).map f := by
    intro base stride f hf
    rw [find?_map_range]
    unfold bankIndex
    congr 1
    congr 1
    funext i
    rw [hf i]
    by_cases h : a = comparatorAddress base stride i <;> simp [h]
  unfold mapRegs
  rw [List.find?_append, List.find?_append, List.find?_append, List.find?_append,
    hb cfg.addrFpComp0 cfg.fpCompStride .fpComp fun _ => rfl, hb cfg.addrDwtComp0 cfg.dwtStride .dwtComp fun _ => rfl,
    hb cfg.addrDwtMask0 cfg.dwtStride .dwtMask fun _ => rfl, hb cfg.addrDwtFunction0 cfg.dwtStride .dwtFunction fun _ => rfl]
  unfold regAt
  simp only [List.find?_cons, List.find?_nil, Reg.address]
  by_cases h0 : a = cfg.addrDhcsr
  · simp [h0]
  simp only [h0, decide_false, if_false]
  by_cases h1 : a = cfg.addrDcrsr
  · simp [h1]
  simp only [h1, decide_false, if_false]
  by_cases h2 : a = cfg.addrDcrdr
  · simp [h2]
  simp only [h2, decide_false, if_false]
  by_cases h3 : a = cfg.addrDemcr
  · simp [h3]
  simp only [h3, decide_false, if_false]
  by_cases h4 : a = cfg.addrDfsr
  · simp [h4]
  simp only [h4, decide_false, if_false]
  by_cases h5 : a = cfg.addrHfsr
  · simp [h5]
  simp only [h5, decide_false, if_false]
  by_cases h6 : a = cfg.addrAircr
  · simp [h6]
  simp only [h6, decide_false, if_false]
  by_cases h7 : a = cfg.addrCacheId
  · simp [h7]
  simp only [h7, decide_false, if_false]
  by_cases h8 : a = cfg.addrIciallu
  · simp [h8]
  simp only [h8, decide_false, if_false]
  by_cases h9 : a = cfg.addrDccmvac
  · simp [h9]
  simp only [h9, decide_false, if_false]
  by_cases h10 : a = cfg.addrFpCtrl
  · simp [h10]
  simp only [h10, decide_false, if_false]
  by_cases h11 : a = cfg.addrDwtCtrl
  · simp [h11]
  simp only [h11, decide_false, if_false]
  cases bankIndex cfg.addrFpComp0 cfg.fpCompStride a <;> cases bankIndex cfg.addrDwtComp0 cfg.dwtStride a <;>
    cases bankIndex cfg.addrDwtMask0 cfg.dwtStride a <;> cases bankIndex cfg.addrDwtFunction0 cfg.dwtStride a <;> rfl

/-- The conditions of `configWf` on the register addresses. -/
theorem configWf_addresses {cfg : Config} (h : configWf cfg = true) :
    (mapRegs.map (Reg.address cfg)).Nodup ∧
    ∀ r ∈ mapRegs, (r.address cfg).toNat % 4 = 0 ∧ cfg.ppbBase ≤ r.address cfg ∧ r.address cfg ≤ cfg.ppbLast := by
  simp only [configWf, Bool.and_eq_true, and_assoc] at h
  obtain ⟨_, _, hall, hd, _⟩ := h
  rw [registerAddresses_eq] at hd hall
  refine ⟨(allDistinct_iff _).1 hd, fun r hr => ?_⟩
  have := List.all_eq_true.1 hall _ (List.mem_map_of_mem hr)
  simpa [and_assoc] using this

theorem find?_nodup {α β : Type} [DecidableEq β] (f : α → β) {l : List α} (h : (l.map f).Nodup) {x : α} (hx : x ∈ l) :
    l.find? (fun y => decide (f x = f y)) = some x := by
  induction l with
  | nil => simp at hx
  | cons y ys ih =>
    simp only [List.map_cons, List.nodup_cons] at h
    rw [List.find?_cons]
    rcases List.mem_cons.1 hx with rfl | hx
    · simp
    · have hne : f x ≠ f y := fun he => h.1 (he ▸ List.mem_map_of_mem hx)
      simp only [hne, decide_false]
      exact ih h.2 hx

/-- Every register of the map is found at its address. -/
theorem regAt_address {cfg : Config} (h : configWf cfg = true) {r : Reg} (hr : r ∈ mapRegs) :
    regAt cfg (r.address cfg) = some r := by
  rw [regAt_eq_find?]; exact find?_nodup _ (configWf_addresses h).1 hr

theorem wordAddress_of_aligned {a : Word} (h : a.toNat % 4 = 0) : wordAddress a = a := by
  unfold wordAddress
  have h2 : a &&& 3#32 = 0#32 := by
    apply BitVec.eq_of_toNat_eq
    rw [BitVec.toNat_and]
    simpa [Nat.and_two_pow_sub_one_eq_mod a.toNat 2] using h
  have hs : a = (a &&& 0xFFFFFFFC#32) ||| (a &&& 3#32) := by
    rw [← BitVec.and_or_distrib_left]
    have : (0xFFFFFFFC#32 ||| 3#32) = BitVec.allOnes 32 := by decide
    rw [this, BitVec.and_allOnes]
  conv_rhs => rw [hs, h2]
  rw [BitVec.or_zero]

theorem wordAddress_address {cfg : Config} (h : configWf cfg = true) {r : Reg} (hr : r ∈ mapRegs) :
    wordAddress (r.address cfg) = r.address cfg :=
  wordAddress_of_aligned ((configWf_addresses h).2 r hr).1

/-- Different registers of the map have different addresses. -/
theorem address_injective {cfg : Config} (h : configWf cfg = true) {r q : Reg} (hr : r ∈ mapRegs) (hq : q ∈ mapRegs)
    (he : r.address cfg = q.address cfg) : r = q := by
  have h1 := regAt_address h hr
  rw [he, regAt_address h hq] at h1
  exact (Option.some.inj h1).symm

theorem mem_mapRegs_fpComp {i : Nat} (h : i < 15) : Reg.fpComp i ∈ mapRegs := by simp [mapRegs, h]
theorem mem_mapRegs_dwtComp {i : Nat} (h : i < 15) : Reg.dwtComp i ∈ mapRegs := by simp [mapRegs, h]
theorem mem_mapRegs_dwtMask {i : Nat} (h : i < 15) : Reg.dwtMask i ∈ mapRegs := by simp [mapRegs, h]
theorem mem_mapRegs_dwtFunction {i : Nat} (h : i < 15) : Reg.dwtFunction i ∈ mapRegs := by simp [mapRegs, h]

end Sys2Proof.Machine
end

