-- ==== Sys2Proof/Laws/Words.lean ====
section
/-! SUPPORT. Bits, bytes and register words: what each helper of Machine/Bytes.lean reads back as, and the words of
Machine/Operands.lean and Machine/Flags.lean under the structural constraints of `configWf`. -/

namespace Sys2Proof.Machine

theorem getLsbD_bitAt (n m : Nat) (b : Bool) : (bitAt n b).getLsbD m = (b && decide (m = n) && decide (n < 32)) := by
  unfold bitAt
  cases b
  · simp
  · rw [if_pos rfl, ← BitVec.twoPow_eq, BitVec.getLsbD_twoPow]
    by_cases h : m = n
    · subst h; simp
    · have : ¬ n = m := fun he => h he.symm
      simp [h, this]

theorem getLsbD_putBit_same (w : Word) {n : Nat} (b : Bool) (hn : n < 32) : (putBit w n b).getLsbD n = b := by
  unfold putBit
  rw [BitVec.getLsbD_or, getLsbD_bitAt, BitVec.getLsbD_and, BitVec.getLsbD_not, ← BitVec.twoPow_eq, BitVec.getLsbD_twoPow]
  simp [hn]

theorem getLsbD_putBit_other (w : Word) {n m : Nat} (b : Bool) (h : m ≠ n) :
    (putBit w n b).getLsbD m = w.getLsbD m := by
  unfold putBit
  rw [BitVec.getLsbD_or, getLsbD_bitAt, BitVec.getLsbD_and, BitVec.getLsbD_not, ← BitVec.twoPow_eq, BitVec.getLsbD_twoPow]
  have : ¬ n = m := fun he => h he.symm
  by_cases hm : m < 32
  · simp [h, this, hm]
  · simp [h, this, BitVec.getLsbD_of_ge w m (by omega)]

theorem putBit_zero_false (n : Nat) : putBit 0#32 n false = 0#32 := by
  unfold putBit bitAt; simp

theorem getLsbD_keyWord (k : BitVec 16) (n : Nat) :
    (keyWord k).getLsbD n = (decide (16 ≤ n) && k.getLsbD (n - 16)) := by
  unfold keyWord
  rw [BitVec.getLsbD_shiftLeft, BitVec.getLsbD_setWidth]
  by_cases h : n < 16
  · simp [h, show ¬ 16 ≤ n by omega]
  · by_cases h2 : n < 32
    · simp [h, h2, show 16 ≤ n by omega, show n - 16 < 32 by omega]
    · simp [h2, show 16 ≤ n by omega, BitVec.getLsbD_of_ge k (n - 16) (by omega)]

theorem getLsbD_upperHalf (w : Word) {n : Nat} (h : n < 16) : (upperHalf w).getLsbD n = w.getLsbD (16 + n) := by
  unfold upperHalf; rw [BitVec.getLsbD_extractLsb']; simp [h]

theorem wordOfBytes_bytesOfWord (w : Word) : wordOfBytes (bytesOfWord w) = w := by
  unfold wordOfBytes bytesOfWord wordOfBytes4
  simp only [List.getD_cons_zero, List.getD_cons_succ]
  ext i hi
  simp only [BitVec.getElem_append, BitVec.getElem_extractLsb']
  by_cases h0 : i < 8
  · simp [h0, BitVec.getLsbD_eq_getElem hi]
  · by_cases h1 : i - 8 < 8
    · simp [h0, h1, show 8 + (i - 8) = i by omega, BitVec.getLsbD_eq_getElem hi]
    · by_cases h2 : i - 8 - 8 < 8
      · simp [h0, h1, h2, show 16 + (i - 8 - 8) = i by omega, BitVec.getLsbD_eq_getElem hi]
      · simp [h0, h1, h2, show 24 + (i - 8 - 8 - 8) = i by omega, BitVec.getLsbD_eq_getElem hi]

theorem getLsbD_wordOfBytes4 (b0 b1 b2 b3 : Byte) (i : Nat) :
    (wordOfBytes4 b0 b1 b2 b3).getLsbD i =
      if i < 8 then b0.getLsbD i else if i < 16 then b1.getLsbD (i - 8) else if i < 24 then b2.getLsbD (i - 16)
      else b3.getLsbD (i - 24) := by
  show BitVec.getLsbD (w := 8 + 8 + 8 + 8) (b3 ++ b2 ++ b1 ++ b0) i = _
  simp only [BitVec.getLsbD_append]
  by_cases h0 : i < 8
  · simp [h0]
  · by_cases h1 : i < 16
    · simp [h0, h1, show i - 8 < 8 by omega]
    · by_cases h2 : i < 24
      · simp [h0, h1, h2, show ¬ i - 8 < 8 by omega, show i - 8 - 8 = i - 16 by omega, show i - 16 < 8 by omega]
      · simp [h0, h1, h2, show ¬ i - 8 < 8 by omega, show i - 8 - 8 = i - 16 by omega, show ¬ i - 16 < 8 by omega, show i - 16 - 8 = i - 24 by omega]
theorem extract_append (b0 b1 b2 b3 : Byte) :
    (wordOfBytes4 b0 b1 b2 b3).extractLsb' 0 8 = b0 ∧ (wordOfBytes4 b0 b1 b2 b3).extractLsb' 8 8 = b1
    ∧ (wordOfBytes4 b0 b1 b2 b3).extractLsb' 16 8 = b2 ∧ (wordOfBytes4 b0 b1 b2 b3).extractLsb' 24 8 = b3 := by
  refine ⟨?_, ?_, ?_, ?_⟩ <;> apply BitVec.eq_of_getLsbD_eq <;> intro i hi <;>
    rw [BitVec.getLsbD_extractLsb', getLsbD_wordOfBytes4]
  · simp [hi]
  · simp [hi, show 8 + i < 16 by omega]
  · simp [hi, show ¬ 16 + i < 8 by omega, show 16 + i < 24 by omega]
  · simp [hi, show ¬ 24 + i < 8 by omega, show ¬ 24 + i < 16 by omega]
/-- Four bytes make a word whose bytes they are. -/
theorem bytesOfWord_wordOfBytes {bs : List Byte} (h : bs.length = 4) : bytesOfWord (wordOfBytes bs) = bs := by
  match bs, h with
  | [b0, b1, b2, b3], _ =>
    obtain ⟨h0, h1, h2, h3⟩ := extract_append b0 b1 b2 b3
    show [_, _, _, _] = _
    simp only [wordOfBytes, List.getD_cons_zero, List.getD_cons_succ, h0, h1, h2, h3]

theorem takeWord_bytesOfWord (w : Word) (rest : List Byte) : takeWord (bytesOfWord w ++ rest) = some (w, rest) := by
  have := wordOfBytes_bytesOfWord w
  simp only [wordOfBytes, bytesOfWord, List.getD_cons_zero, List.getD_cons_succ] at this
  show some (_, rest) = _
  rw [this]

theorem takeWord_some {m rest : List Byte} {w : Word} (h : takeWord m = some (w, rest)) : m = bytesOfWord w ++ rest := by
  match m, h with
  | b0 :: b1 :: b2 :: b3 :: r, h =>
    simp only [takeWord, Option.some.injEq, Prod.mk.injEq] at h
    obtain ⟨rfl, rfl⟩ := h
    have := bytesOfWord_wordOfBytes (bs := [b0, b1, b2, b3]) rfl
    simp only [wordOfBytes, List.getD_cons_zero, List.getD_cons_succ] at this
    rw [this]; rfl

@[simp] theorem length_bytesOfWord (w : Word) : (bytesOfWord w).length = 4 := rfl

theorem laneBytes_word {a : Word} (h : a.toNat % 4 = 0) (w : Word) : laneBytes w a 4 = bytesOfWord w := by
  unfold laneBytes byteLane; rw [h]; rfl

theorem laneWord_word {a : Word} (h : a.toNat % 4 = 0) (noise v : Word) : laneWord noise a (bytesOfWord v) = v := by
  unfold laneWord byteLane
  rw [h]
  simp only [List.take_zero, List.nil_append, length_bytesOfWord]
  rw [List.drop_of_length_le (by simp), List.append_nil, wordOfBytes_bytesOfWord]

/-- The bytes of a lane are as many as asked, where the access is naturally aligned. -/
theorem length_laneBytes {a : Word} {n : Nat} (hn : n = 1 ∨ n = 2 ∨ n = 4) (ha : a.toNat % n = 0) (w : Word) :
    (laneBytes w a n).length = n := by
  unfold laneBytes byteLane
  rw [List.length_take, List.length_drop, length_bytesOfWord]
  rcases hn with rfl | rfl | rfl <;> omega

/-- The constraints of `configWf` that are not about addresses (G1). -/
theorem configWf_facts {cfg : Config} (h : configWf cfg = true) :
    1 ≤ cfg.pollMax ∧ (∃ k, k < 32 ∧ cfg.dcacheLine = 2 ^ k)
    ∧ (∀ g ∈ bitGroups cfg, g.Nodup ∧ ∀ n ∈ g, n < 32)
    ∧ (cfg.bitCDebugEn < 16 ∧ cfg.bitCHalt < 16 ∧ cfg.bitCStep < 16 ∧ cfg.bitCMaskInts < 16 ∧ cfg.bitSysResetReq < 16)
    ∧ 7 ≤ cfg.bitRegWnR ∧ cfg.bpAddrMask.getLsbD cfg.bitFpCompEnable = false
    ∧ ∀ w ∈ [cfg.legacyRead, cfg.legacyWrite, cfg.legacyAccess, cfg.v2MatchRead, cfg.v2MatchWrite, cfg.v2MatchAccess],
      w ≠ 0#32 ∧ w.getLsbD cfg.bitDwtMatched = false := by
  simp only [configWf, Bool.and_eq_true, and_assoc, decide_eq_true_eq] at h
  obtain ⟨h1, h2, _, _, h5, h6, h7, h8, _, _, _, _, _, h14, _⟩ := h
  refine ⟨h1, ?_, ?_, ?_, h7, by simpa using h8, ?_⟩
  · obtain ⟨k, hk, he⟩ := List.any_eq_true.1 h2
    exact ⟨k, List.mem_range.1 hk, by simpa using he⟩
  · intro g hg
    have := List.all_eq_true.1 h5 g hg
    simp only [Bool.and_eq_true] at this
    refine ⟨?_, fun n hn => by simpa using List.all_eq_true.1 this.2 n hn⟩
    have hd := this.1
    clear this h5 hg
    induction g with
    | nil => exact List.nodup_nil
    | cons x xs ih =>
      simp only [allDistinct, Bool.and_eq_true] at hd
      exact List.nodup_cons.2 ⟨by simpa using hd.1, ih hd.2⟩
  · simpa using h6
  · intro w hw
    simpa using List.all_eq_true.1 h14 w hw

section
variable {cfg : Config} (h : configWf cfg = true)
include h

/-- The named bits of the control/status register: inside a word and pairwise different. -/
theorem configWf_statusBits :
    [cfg.bitCDebugEn, cfg.bitCHalt, cfg.bitCStep, cfg.bitCMaskInts, cfg.bitSRegRdy, cfg.bitSHalt, cfg.bitSSleep,
      cfg.bitSLockup, cfg.bitSResetSt].Nodup ∧
    ∀ n ∈ [cfg.bitCDebugEn, cfg.bitCHalt, cfg.bitCStep, cfg.bitCMaskInts, cfg.bitSRegRdy, cfg.bitSHalt, cfg.bitSSleep,
      cfg.bitSLockup, cfg.bitSResetSt], n < 32 :=
  (configWf_facts h).2.2.1 _ (by simp [bitGroups])

theorem configWf_faultBits :
    [cfg.bitDfsrHalted, cfg.bitDfsrBkpt, cfg.bitDfsrDwttrap, cfg.bitDfsrVcatch, cfg.bitDfsrExternal].Nodup ∧
    ∀ n ∈ [cfg.bitDfsrHalted, cfg.bitDfsrBkpt, cfg.bitDfsrDwttrap, cfg.bitDfsrVcatch, cfg.bitDfsrExternal], n < 32 :=
  (configWf_facts h).2.2.1 _ (by simp [bitGroups])

theorem configWf_fpBits : cfg.bitFpEnable ≠ cfg.bitFpKey ∧ cfg.bitFpEnable < 32 ∧ cfg.bitFpKey < 32 := by
  have := (configWf_facts h).2.2.1 [cfg.bitFpEnable, cfg.bitFpKey] (by simp [bitGroups])
  simpa using this

theorem configWf_singleBits : cfg.bitVcCoreReset < 32 ∧ cfg.bitFpCompEnable < 32 ∧ cfg.bitRegWnR < 32
    ∧ cfg.bitDwtMatched < 32 := by
  have f := (configWf_facts h).2.2.1
  refine ⟨(f [cfg.bitVcCoreReset] (by simp [bitGroups])).2 _ (by simp), (f [cfg.bitFpCompEnable] (by simp [bitGroups])).2 _ (by simp),
    (f [cfg.bitRegWnR] (by simp [bitGroups])).2 _ (by simp), (f [cfg.bitDwtMatched] (by simp [bitGroups])).2 _ (by simp)⟩

/-- The word the controller writes carries the key (R121). -/
theorem upperHalf_dhcsrWord (cw : ControlWord) : upperHalf (dhcsrWord cfg cw) = cfg.dbgKey := by
  obtain ⟨_, _, _, ⟨h1, h2, h3, h4, _⟩, _⟩ := configWf_facts h
  apply BitVec.eq_of_getLsbD_eq
  intro i hi
  rw [getLsbD_upperHalf _ hi]
  simp only [dhcsrWord, BitVec.getLsbD_or, getLsbD_keyWord, getLsbD_bitAt]
  simp [show 16 + i ≠ cfg.bitCDebugEn by omega, show 16 + i ≠ cfg.bitCHalt by omega, show 16 + i ≠ cfg.bitCStep by omega,
    show 16 + i ≠ cfg.bitCMaskInts by omega]

/-- The word the controller writes has the four control bits asked for (R121). -/
theorem controlBits_dhcsrWord (cw : ControlWord) : controlBits cfg (dhcsrWord cfg cw) = cw := by
  obtain ⟨_, _, _, ⟨h1, h2, h3, h4, _⟩, _⟩ := configWf_facts h
  have hd := (configWf_statusBits h).1
  simp only [List.nodup_cons, List.mem_cons, not_or] at hd
  obtain ⟨⟨a1, a2, a3, _⟩, ⟨b2, b3, _⟩, ⟨c3, _⟩, _⟩ := hd
  obtain ⟨d, r, st, mk⟩ := cw
  simp only [controlBits, dhcsrWord, BitVec.getLsbD_or, getLsbD_keyWord, getLsbD_bitAt]
  simp [show ¬ 16 ≤ cfg.bitCDebugEn by omega, show ¬ 16 ≤ cfg.bitCHalt by omega, show ¬ 16 ≤ cfg.bitCStep by omega,
    show ¬ 16 ≤ cfg.bitCMaskInts by omega, show cfg.bitCDebugEn < 32 by omega, show cfg.bitCHalt < 32 by omega,
    show cfg.bitCStep < 32 by omega, show cfg.bitCMaskInts < 32 by omega, a1, a2, a3, b2, b3, c3, Ne.symm a1, Ne.symm a2,
    Ne.symm a3, Ne.symm b2, Ne.symm b3, Ne.symm c3]

/-- The status word shows each of the nine bits (R87). -/
theorem statusWord_bits (d : DebugRegs) (noise : Word) :
    controlBits cfg (statusWord cfg d noise) = d.ctl ∧ statusHalted cfg (statusWord cfg d noise) = d.halted
    ∧ statusRegisterReady cfg (statusWord cfg d noise) = d.registerReady
    ∧ statusSleeping cfg (statusWord cfg d noise) = d.sleeping ∧ statusLockup cfg (statusWord cfg d noise) = d.lockup
    ∧ statusResetSeen cfg (statusWord cfg d noise) = d.resetSeen
    ∧ statusDebugEnable cfg (statusWord cfg d noise) = d.ctl.debugEnable := by
  obtain ⟨hd, hl⟩ := configWf_statusBits h
  simp only [List.nodup_cons, List.mem_cons, not_or] at hd
  obtain ⟨⟨a1, a2, a3, a4, a5, a6, a7, a8, _⟩, ⟨b2, b3, b4, b5, b6, b7, b8, _⟩, ⟨c3, c4, c5, c6, c7, c8, _⟩,
    ⟨d4, d5, d6, d7, d8, _⟩, ⟨e5, e6, e7, e8, _⟩, ⟨f6, f7, f8, _⟩, ⟨g7, g8, _⟩, ⟨i8, _⟩, _⟩ := hd
  simp only [List.forall_mem_cons] at hl
  obtain ⟨l0, l1, l2, l3, l4, l5, l6, l7, l8, _⟩ := hl
  obtain ⟨⟨w0, w1, w2, w3⟩, _⟩ := d
  have o := fun (w : Word) {n m : Nat} (b : Bool) (hne : m ≠ n) => getLsbD_putBit_other w b hne
  have e := fun (w : Word) {n : Nat} (b : Bool) (hlt : n < 32) => getLsbD_putBit_same w b hlt
  refine ⟨?_, ?_, ?_, ?_, ?_, ?_, ?_⟩
  · simp only [controlBits, statusWord]
    rw [o _ _ a8, o _ _ a7, o _ _ a6, o _ _ a5, o _ _ a4, o _ _ a3, o _ _ a2, o _ _ a1, e _ _ l0,
      o _ _ b8, o _ _ b7, o _ _ b6, o _ _ b5, o _ _ b4, o _ _ b3, o _ _ b2, e _ _ l1,
      o _ _ c8, o _ _ c7, o _ _ c6, o _ _ c5, o _ _ c4, o _ _ c3, e _ _ l2,
      o _ _ d8, o _ _ d7, o _ _ d6, o _ _ d5, o _ _ d4, e _ _ l3]
  · simp only [statusHalted, statusWord]; rw [o _ _ f8, o _ _ f7, o _ _ f6, e _ _ l5]
  · simp only [statusRegisterReady, statusWord]; rw [o _ _ e8, o _ _ e7, o _ _ e6, o _ _ e5, e _ _ l4]
  · simp only [statusSleeping, statusWord]; rw [o _ _ g8, o _ _ g7, e _ _ l6]
  · simp only [statusLockup, statusWord]; rw [o _ _ i8, e _ _ l7]
  · simp only [statusResetSeen, statusWord]; rw [e _ _ l8]
  · simp only [statusDebugEnable, statusWord]
    rw [o _ _ a8, o _ _ a7, o _ _ a6, o _ _ a5, o _ _ a4, o _ _ a3, o _ _ a2, o _ _ a1, e _ _ l0]

/-- The fault status word shows each of the five flags (R126). -/
theorem faultFlags_faultWord (f : FaultFlags) (noise : Word) : faultFlags cfg (faultWord cfg f noise) = f := by
  obtain ⟨hd, hl⟩ := configWf_faultBits h
  simp only [List.nodup_cons, List.mem_cons, not_or] at hd
  obtain ⟨⟨a1, a2, a3, a4, _⟩, ⟨b2, b3, b4, _⟩, ⟨c3, c4, _⟩, ⟨d4, _⟩, _⟩ := hd
  simp only [List.forall_mem_cons] at hl
  obtain ⟨l0, l1, l2, l3, l4, _⟩ := hl
  obtain ⟨f0, f1, f2, f3, f4⟩ := f
  have o := fun (w : Word) {n m : Nat} (b : Bool) (hne : m ≠ n) => getLsbD_putBit_other w b hne
  have e := fun (w : Word) {n : Nat} (b : Bool) (hlt : n < 32) => getLsbD_putBit_same w b hlt
  simp only [faultFlags, faultWord]
  rw [o _ _ a4, o _ _ a3, o _ _ a2, o _ _ a1, e _ _ l0, o _ _ b4, o _ _ b3, o _ _ b2, e _ _ l1,
    o _ _ c4, o _ _ c3, e _ _ l2, o _ _ d4, e _ _ l3, e _ _ l4]

/-- `RESETALL` names all five flags (R126). -/
theorem faultFlags_resetAll : faultFlags cfg (resetAll cfg) = ⟨true, true, true, true, true⟩ := by
  obtain ⟨_, hl⟩ := configWf_faultBits h
  simp only [List.forall_mem_cons] at hl
  obtain ⟨l0, l1, l2, l3, l4, _⟩ := hl
  simp only [faultFlags, resetAll, BitVec.getLsbD_or, getLsbD_bitAt]
  simp [l0, l1, l2, l3, l4]

/-- The selector word carries selector and direction (R123). -/
theorem selWord_fields (sel : BitVec 7) (write : Bool) :
    (selWord cfg sel write).extractLsb' 0 7 = sel ∧ (selWord cfg sel write).getLsbD cfg.bitRegWnR = write := by
  have h7 := (configWf_facts h).2.2.2.2.1
  have hlt := (configWf_singleBits h).2.2.1
  constructor
  · apply BitVec.eq_of_getLsbD_eq
    intro i hi
    rw [BitVec.getLsbD_extractLsb']
    simp only [selWord, BitVec.getLsbD_or, getLsbD_bitAt, BitVec.getLsbD_setWidth]
    simp [hi, show i ≠ cfg.bitRegWnR by omega]
    omega
  · simp only [selWord, BitVec.getLsbD_or, getLsbD_bitAt, BitVec.getLsbD_setWidth]
    simp [hlt, BitVec.getLsbD_of_ge sel _ h7]

end

end Sys2Proof.Machine
end

