-- ==== Sys2Proof/Laws/CoreRegs.lean ====
section
/-! SUPPORT. The core registers behind the selector (10_state.md R36, R37), the debug events that halt the core (20_memory.md R96, R97),
and the count fields: what each operation of Machine/Target.lean on them can do. -/

namespace Sys2Proof.Machine

/-- The four parts of the special register are the four bytes of a word. -/
theorem configWf_special {cfg : Config} (h : configWf cfg = true) :
    (∀ n ∈ specialParts cfg, n = 0 ∨ n = 8 ∨ n = 16 ∨ n = 24) ∧ (specialParts cfg).Nodup := by
  simp only [configWf, Bool.and_eq_true, and_assoc] at h
  obtain ⟨_, _, _, _, _, _, _, _, _, _, _, _, _, _, h15, h16⟩ := h
  refine ⟨fun n hn => ?_, (allDistinct_iff _).1 h16⟩
  simpa using List.all_eq_true.1 h15 n hn

theorem getLsbD_byteAt (v : Word) {lo i : Nat} (hi : i < 32) :
    ((v.extractLsb' lo 8).setWidth 32 <<< lo).getLsbD i = (decide (lo ≤ i) && decide (i < lo + 8) && v.getLsbD i) := by
  rw [BitVec.getLsbD_shiftLeft, BitVec.getLsbD_setWidth, BitVec.getLsbD_extractLsb']
  by_cases h1 : lo ≤ i
  · have : lo + (i - lo) = i := by omega
    by_cases h2 : i < lo + 8
    · simp [hi, h1, h2, this, show ¬ i < lo by omega, show i - lo < 8 by omega, show i - lo < 32 by omega]
    · simp [h2, show ¬ i - lo < 8 by omega]
  · simp [h1, show i < lo by omega]

/-- The special register gives back the word written to it (R36). -/
theorem CoreRegs.special_setSpecial {cfg : Config} (h : configWf cfg = true) (c : CoreRegs) (v : Word) :
    (c.setSpecial cfg v).special cfg = v := by
  obtain ⟨hm, hd⟩ := configWf_special h
  apply BitVec.eq_of_getLsbD_eq
  intro i hi
  simp only [CoreRegs.special, CoreRegs.setSpecial, BitVec.getLsbD_or, getLsbD_byteAt v hi]
  unfold specialParts at hm hd
  have m1 := hm cfg.specialControlLo (by simp)
  have m2 := hm cfg.specialFaultmaskLo (by simp)
  have m3 := hm cfg.specialBasepriLo (by simp)
  have m4 := hm cfg.specialPrimaskLo (by simp)
  simp only [List.nodup_cons, List.mem_cons, not_or] at hd
  obtain ⟨⟨d1, d2, d3, _⟩, ⟨d4, d5, _⟩, ⟨d6, _⟩, _⟩ := hd
  have : (decide (cfg.specialControlLo ≤ i) && decide (i < cfg.specialControlLo + 8)
      || decide (cfg.specialFaultmaskLo ≤ i) && decide (i < cfg.specialFaultmaskLo + 8)
      || decide (cfg.specialBasepriLo ≤ i) && decide (i < cfg.specialBasepriLo + 8)
      || decide (cfg.specialPrimaskLo ≤ i) && decide (i < cfg.specialPrimaskLo + 8)) = true := by
    simp only [Bool.or_eq_true, Bool.and_eq_true, decide_eq_true_eq]
    omega
  rw [← Bool.and_or_distrib_right, ← Bool.and_or_distrib_right, ← Bool.and_or_distrib_right, this, Bool.true_and]

/-- A register or slot table after one entry is written (R36, R213 step 5, R216 step 2). -/
theorem getD_setIfInBounds {α : Type} {n : Nat} (v : Vector α n) (i j : Nat) (x d : α) :
    (v.setIfInBounds i x).getD j d = if i = j ∧ j < n then x else v.getD j d := by
  simp only [Vector.getD]
  by_cases h : i = j
  · subst h; by_cases hn : i < n <;> simp [hn]
  · simp [h]

section
variable (cfg : Config) (c : CoreRegs) (sel : BitVec 7) (v : Word)

@[simp] theorem CoreRegs.setSpecial_r : (c.setSpecial cfg v).r = c.r := rfl
@[simp] theorem CoreRegs.setSpecial_lr : (c.setSpecial cfg v).lr = c.lr := rfl
@[simp] theorem CoreRegs.setSpecial_pc : (c.setSpecial cfg v).pc = c.pc := rfl
@[simp] theorem CoreRegs.setSpecial_xpsr : (c.setSpecial cfg v).xpsr = c.xpsr := rfl
@[simp] theorem CoreRegs.setSpecial_msp : (c.setSpecial cfg v).msp = c.msp := rfl
@[simp] theorem CoreRegs.setSpecial_psp : (c.setSpecial cfg v).psp = c.psp := rfl
@[simp] theorem CoreRegs.setSpecial_usesPsp : (c.setSpecial cfg v).usesPsp = c.usesPsp := rfl
@[simp] theorem CoreRegs.setSpecial_sp : (c.setSpecial cfg v).sp = c.sp := rfl

/-- A general register's index is below 13 and has the code. -/
theorem generalIndex_some {k : Nat} (h : generalIndex cfg sel = some k) : k < 13 ∧ cfg.selR.getD k 0#7 = sel := by
  unfold generalIndex at h
  rw [List.find?_range_eq_some] at h
  exact ⟨by simpa using h.2.1, by simpa using h.1⟩

/-- A register of the table reads as what is written to it (R36, R37, R99). -/
theorem coreRegister_setCoreRegister_same (h : configWf cfg = true) (hs : (coreRegister cfg c sel).isSome = true) :
    coreRegister cfg (setCoreRegister cfg c sel v) sel = some v := by
  unfold coreRegister setCoreRegister at *
  cases hg : generalIndex cfg sel with
  | some k =>
    dsimp only
    rw [getD_setIfInBounds, if_pos ⟨rfl, (generalIndex_some cfg sel hg).1⟩]
  | none =>
    simp only [hg] at hs ⊢
    split_ifs at hs ⊢ <;> first | (simp_all [CoreRegs.sp]; done) | simp_all [CoreRegs.special_setSpecial h]

/-- Another code names another register, unless one of the two is that of the current stack pointer (R37). -/
theorem coreRegister_setCoreRegister_other {other : BitVec 7} (ho : other ≠ sel) (hos : other ≠ cfg.selSp)
    (hss : sel ≠ cfg.selSp) : coreRegister cfg (setCoreRegister cfg c sel v) other = coreRegister cfg c other := by
  unfold coreRegister setCoreRegister
  cases hg : generalIndex cfg sel with
  | some k =>
    cases hg' : generalIndex cfg other with
    | some j =>
      have hne : k ≠ j := by
        rintro rfl
        exact ho ((generalIndex_some cfg other hg').2.symm.trans (generalIndex_some cfg sel hg).2)
      dsimp only
      rw [getD_setIfInBounds, if_neg fun h => hne h.1]
    | none => rfl
  | none =>
    cases hg' : generalIndex cfg other with
    | some j => simp only [hss, if_false]; split_ifs <;> rfl
    | none =>
      simp only [hss, hos, if_false]
      by_cases h : sel = cfg.selLr
      · rw [if_pos h]
        split_ifs <;> first | rfl | exact absurd (by rw [h]; assumption) ho
      rw [if_neg h]
      clear h
      by_cases h : sel = cfg.selPc
      · rw [if_pos h]
        split_ifs <;> first | rfl | exact absurd (by rw [h]; assumption) ho
      rw [if_neg h]
      clear h
      by_cases h : sel = cfg.selXpsr
      · rw [if_pos h]
        split_ifs <;> first | rfl | exact absurd (by rw [h]; assumption) ho
      rw [if_neg h]
      clear h
      by_cases h : sel = cfg.selMsp
      · rw [if_pos h]
        split_ifs <;> first | rfl | exact absurd (by rw [h]; assumption) ho
      rw [if_neg h]
      clear h
      by_cases h : sel = cfg.selPsp
      · rw [if_pos h]
        split_ifs <;> first | rfl | exact absurd (by rw [h]; assumption) ho
      rw [if_neg h]
      clear h
      by_cases h : sel = cfg.selSpecial
      · rw [if_pos h]
        split_ifs <;> first | rfl | exact absurd (by rw [h]; assumption) ho
      rw [if_neg h]

end

/-- A count field reads as the number put there, as far as the field is wide (R102, R131, R133). -/
theorem getField_putField (w : Word) {hi lo : Nat} (v : Nat) (h : lo ≤ hi) (hh : hi < 32) :
    getField (putField w hi lo v) hi lo = v % 2 ^ (hi + 1 - lo) := by
  apply Nat.eq_of_testBit_eq
  intro i
  unfold getField putField
  rw [Nat.testBit_mod_two_pow, Nat.testBit_mod_two_pow, Nat.testBit_shiftRight]
  by_cases hi' : i < hi + 1 - lo
  · have hb : lo + i < 32 := by omega
    have hm : (BitVec.ofNat 32 (2 ^ (hi + 1 - lo) - 1) <<< lo).getLsbD (lo + i) = true := by
      rw [BitVec.getLsbD_shiftLeft, BitVec.getLsbD_ofNat, Nat.testBit_two_pow_sub_one]
      simp [hb, hi', show ¬ lo + i < lo by omega]
      omega
    rw [show ∀ x : Word, x.toNat.testBit (lo + i) = x.getLsbD (lo + i) from fun _ => rfl]
    simp only [BitVec.getLsbD_or, BitVec.getLsbD_and, BitVec.getLsbD_not, hm]
    rw [BitVec.getLsbD_shiftLeft, BitVec.getLsbD_ofNat]
    simp [hb, hi', show ¬ lo + i < lo by omega]
    intro
    omega
  · simp [hi']

theorem union_right_comm (f g e : FaultFlags) : (f.union g).union e = (f.union e).union g := by
  simp [FaultFlags.union, Bool.or_right_comm]

/-- The bits of a list of debug events: each event's own is among them (R277). -/
theorem flag_mem_causes (causes : List HaltCause) (f : FaultFlags) {c : HaltCause} (hc : c ∈ causes) :
    (causes.foldl (fun f c => f.union c.flag) f).union c.flag = causes.foldl (fun f c => f.union c.flag) f := by
  have keep : ∀ (l : List HaltCause) (f : FaultFlags), f.union c.flag = f →
      (l.foldl (fun f c => f.union c.flag) f).union c.flag = l.foldl (fun f c => f.union c.flag) f := by
    intro l
    induction l with
    | nil => intro f h; exact h
    | cons d l ih =>
      intro f h
      apply ih
      show (f.union d.flag).union c.flag = f.union d.flag
      rw [union_right_comm, h]
  induction causes generalizing f with
  | nil => cases hc
  | cons d l ih =>
    rcases List.mem_cons.1 hc with he | hc
    · subst he
      exact keep l _ (by simp [FaultFlags.union])
    · exact ih _ hc

/-- A halt at debug events: the core is halted, their bits are set and none is cleared (R98). -/
theorem DebugRegs.haltAt_halted (cfg : Config) (d : DebugRegs) (causes : List HaltCause) :
    (d.haltAt cfg causes).halted = true
    ∧ (d.haltAt cfg causes).dfsr = d.dfsr.union (causes.foldl (fun f c => f.union c.flag) noFlags)
    ∧ (d.haltAt cfg causes).matched = markMatched cfg d (causes.flatMap HaltCause.accesses)
    ∧ (d.haltAt cfg causes).ctl = d.ctl := ⟨rfl, rfl, rfl, rfl⟩

/-- Leaving the halted state makes a transfer in flight unsteady and changes nothing else but `halted`. -/
theorem DebugRegs.leaveHalt_facts (d : DebugRegs) :
    d.leaveHalt.halted = false ∧ d.leaveHalt.transfer = d.transfer.map Transfer.unsteady
    ∧ { d.leaveHalt with halted := d.halted, transfer := d.transfer } = d := ⟨rfl, rfl, rfl⟩

/-- A keyed write of the control register, field by field (R86, R89, R91, R92). -/
theorem DebugRegs.keyedControl_facts (cfg : Config) (d : DebugRegs) (new : ControlWord) :
    (d.keyedControl cfg new).ctl = { new with debugEnable := new.debugEnable && d.ctl.debugEnable }
    ∧ (d.keyedControl cfg new).enablePending = (new.debugEnable && !d.ctl.debugEnable)
    ∧ (d.keyedControl cfg new).halted = (d.halted
      && !(new.debugEnable && new.stepRequest && !new.haltRequest && d.halted && cfg.stepClearsHalted))
    ∧ (d.keyedControl cfg new).dfsr = d.dfsr ∧ (d.keyedControl cfg new).fpbEnabled = d.fpbEnabled
    ∧ (d.keyedControl cfg new).fpComp = d.fpComp ∧ (d.keyedControl cfg new).dwtFunction = d.dwtFunction
    ∧ (d.keyedControl cfg new).matched = d.matched := ⟨rfl, rfl, rfl, rfl, rfl, rfl, rfl, rfl⟩

/-- An external debug request: the core is halted, `EXTERNAL` is set and no bit cleared (R98). -/
theorem DebugRegs.externalRequest_halted (d : DebugRegs) (cancels : Bool) :
    (d.externalRequest cancels).halted = true
    ∧ (d.externalRequest cancels).dfsr = d.dfsr.union { noFlags with external := true }
    ∧ (d.externalRequest cancels).ctl = d.ctl := by
  cases cancels <;> exact ⟨rfl, rfl, rfl⟩

/-- A step that ends: the core is halted again and its bits are set (R92). -/
theorem DebugRegs.endStep_halted (cfg : Config) (d : DebugRegs) (flags : FaultFlags) (hits : List DataAccess) :
    (d.endStep cfg flags hits).halted = true ∧ (d.endStep cfg flags hits).stepping = false
    ∧ (d.endStep cfg flags hits).dfsr.halted = (d.dfsr.halted || flags.halted)
    ∧ (d.endStep cfg flags hits).ctl = d.ctl := ⟨rfl, rfl, rfl, rfl⟩

end Sys2Proof.Machine
end

