-- ==== Sys2Proof/Laws/Memory.lean ====
section
/-! SUPPORT. The target's memory: every operation keeps the canonical form; a byte read after a write is the byte
written there, and every other byte is as before. -/

namespace Sys2Proof.Machine

theorem Memory.wfFrom_mono {m : Memory} {k l : Nat} (h : Memory.wfFrom l m = true) (hkl : k ≤ l) :
    Memory.wfFrom k m = true := by
  cases m with
  | nil => rfl
  | cons c rest =>
    obtain ⟨a, b⟩ := c
    simp only [Memory.wfFrom, Bool.and_eq_true, decide_eq_true_eq] at h ⊢
    exact ⟨⟨⟨by omega, h.1.1.2⟩, h.1.2⟩, h.2⟩

theorem Memory.wfFrom_put {m : Memory} {k a : Nat} {b : Byte} (h : Memory.wfFrom k m = true) (hk : k ≤ a)
    (ha : a < 2 ^ 32) : Memory.wfFrom k (m.put a b) = true := by
  induction m generalizing k with
  | nil =>
    unfold Memory.put
    by_cases hb : b = unlistedByte
    · simp [hb, Memory.wfFrom]
    · simp [hb, Memory.wfFrom, hk]; omega
  | cons c rest ih =>
    obtain ⟨x, y⟩ := c
    simp only [Memory.wfFrom, Bool.and_eq_true, decide_eq_true_eq, bne_iff_ne] at h
    obtain ⟨⟨⟨hkx, hx⟩, hy⟩, hr⟩ := h
    unfold Memory.put
    by_cases h1 : a < x
    · by_cases hb : b = unlistedByte
      · simp only [h1, hb, if_true, Memory.wfFrom, Bool.and_eq_true, decide_eq_true_eq, bne_iff_ne]
        exact ⟨⟨⟨hkx, hx⟩, hy⟩, hr⟩
      · have : a + 1 ≤ x := h1
        simp only [h1, hb, if_true, if_false, Memory.wfFrom, Bool.and_eq_true, decide_eq_true_eq, bne_iff_ne]
        exact ⟨⟨⟨hk, ha⟩, hb⟩, ⟨⟨this, hx⟩, hy⟩, hr⟩
    · by_cases h2 : a = x
      · by_cases hb : b = unlistedByte
        · simp only [h2, hb, Nat.lt_irrefl, if_true, if_false]
          exact Memory.wfFrom_mono hr (by omega)
        · subst h2
          simp only [hb, Nat.lt_irrefl, if_true, if_false, Memory.wfFrom, Bool.and_eq_true, decide_eq_true_eq,
            bne_iff_ne]
          exact ⟨⟨⟨hk, ha⟩, hb⟩, hr⟩
      · have := ih hr (by omega)
        simp only [h1, h2, if_false, Memory.wfFrom, Bool.and_eq_true, decide_eq_true_eq, bne_iff_ne]
        exact ⟨⟨⟨hkx, hx⟩, hy⟩, this⟩

/-- A byte stored keeps the canonical form. -/
theorem Memory.wf_write {m : Memory} (h : m.wf = true) (a : Nat) (b : Byte) : (m.write a b).wf = true := by
  unfold Memory.write
  split
  · exact Memory.wfFrom_put h (Nat.zero_le a) ‹_›
  · exact h

/-- Bytes stored keep the canonical form. -/
theorem Memory.wf_writeBytes {m : Memory} (h : m.wf = true) (a : Nat) (bs : List Byte) :
    (m.writeBytes a bs).wf = true := by
  induction bs generalizing m a with
  | nil => exact h
  | cons b bs ih => exact ih (Memory.wf_write h a b) (a + 1)

theorem Memory.read_of_wfFrom {m : Memory} {k a : Nat} (h : Memory.wfFrom k m = true) (ha : a < k) :
    m.read a = unlistedByte := by
  induction m generalizing k with
  | nil => rfl
  | cons c rest ih =>
    obtain ⟨x, y⟩ := c
    simp only [Memory.wfFrom, Bool.and_eq_true, decide_eq_true_eq] at h
    have hx : a ≠ x := by omega
    simp only [Memory.read, hx, if_false]
    exact ih h.2 (by omega)

theorem Memory.read_put_other (m : Memory) {a x : Nat} (b : Byte) (hx : x ≠ a) : (m.put a b).read x = m.read x := by
  induction m with
  | nil =>
    unfold Memory.put
    split <;> simp [Memory.read, hx]
  | cons c rest ih =>
    obtain ⟨k, y⟩ := c
    unfold Memory.put
    by_cases h1 : a < k
    · by_cases hb : b = unlistedByte <;> simp [h1, hb, Memory.read, hx]
    · by_cases h2 : a = k
      · subst h2
        by_cases hb : b = unlistedByte <;> simp [hb, Memory.read, hx]
      · simp [h1, h2, Memory.read, ih]

theorem Memory.read_put_same {m : Memory} {k a : Nat} {b : Byte} (h : Memory.wfFrom k m = true) :
    (m.put a b).read a = b := by
  induction m generalizing k with
  | nil =>
    unfold Memory.put
    by_cases hb : b = unlistedByte <;> simp [hb, Memory.read]
  | cons c rest ih =>
    obtain ⟨x, y⟩ := c
    simp only [Memory.wfFrom, Bool.and_eq_true, decide_eq_true_eq] at h
    unfold Memory.put
    by_cases h1 : a < x
    · by_cases hb : b = unlistedByte
      · have hx : a ≠ x := by omega
        simp only [h1, hb, if_true, Memory.read, hx, if_false]
        exact Memory.read_of_wfFrom h.2 (by omega)
      · simp [h1, hb, Memory.read]
    · by_cases h2 : a = x
      · subst h2
        by_cases hb : b = unlistedByte
        · simp only [Nat.lt_irrefl, if_false, if_true, hb]
          exact Memory.read_of_wfFrom h.2 (by omega)
        · simp [hb, Memory.read]
      · simp only [h1, h2, if_false, Memory.read]
        exact ih h.2

/-- A byte other than the one stored reads as before. -/
theorem Memory.read_write_other (m : Memory) {a x : Nat} (b : Byte) (hx : x ≠ a) :
    (m.write a b).read x = m.read x := by
  unfold Memory.write
  split
  · exact Memory.read_put_other m b hx
  · rfl

/-- The byte stored reads back, in a memory in canonical form. -/
theorem Memory.read_write_same {m : Memory} (h : m.wf = true) {a : Nat} (ha : a < 2 ^ 32) (b : Byte) :
    (m.write a b).read a = b := by
  unfold Memory.write
  rw [if_pos ha]
  exact Memory.read_put_same h

/-- A byte outside the bytes stored reads as before. -/
theorem Memory.read_writeBytes_outside (m : Memory) {a x : Nat} (bs : List Byte)
    (hx : x < a ∨ a + bs.length ≤ x) : (m.writeBytes a bs).read x = m.read x := by
  induction bs generalizing m a with
  | nil => rfl
  | cons b bs ih =>
    simp only [List.length_cons] at hx
    rw [Memory.writeBytes, ih _ (by omega), Memory.read_write_other _ _ (by omega)]

/-- A byte among the bytes stored reads back, in a memory in canonical form. -/
theorem Memory.read_writeBytes_inside {m : Memory} (h : m.wf = true) {a : Nat} (bs : List Byte) {k : Nat}
    (hk : k < bs.length) (ha : a + bs.length ≤ 2 ^ 32) : (m.writeBytes a bs).read (a + k) = bs.getD k 0 := by
  induction bs generalizing m a k with
  | nil => simp at hk
  | cons b bs ih =>
    simp only [List.length_cons] at hk ha
    rw [Memory.writeBytes]
    cases k with
    | zero =>
      rw [Memory.read_writeBytes_outside _ _ (by omega)]
      simpa using Memory.read_write_same h (by omega) b
    | succ k =>
      have := ih (Memory.wf_write h a b) (a := a + 1) (k := k) (by omega) (by omega)
      simpa [Nat.add_assoc, Nat.add_comm 1 k] using this

@[simp] theorem Memory.length_readBytes (m : Memory) (a n : Nat) : (m.readBytes a n).length = n := by
  induction n generalizing a with
  | zero => rfl
  | succ n ih => simp [Memory.readBytes, ih]

/-- The bytes read are the bytes at the addresses, in ascending order. -/
theorem Memory.getD_readBytes (m : Memory) (a n : Nat) {k : Nat} (hk : k < n) :
    (m.readBytes a n).getD k 0 = m.read (a + k) := by
  induction n generalizing a k with
  | zero => omega
  | succ n ih =>
    cases k with
    | zero => simp [Memory.readBytes]
    | succ k =>
      have := ih (a + 1) (k := k) (by omega)
      simpa [Memory.readBytes, Nat.add_assoc, Nat.add_comm 1 k] using this

theorem Memory.eq_of_read {m m' : Memory} {k : Nat} (h : Memory.wfFrom k m = true) (h' : Memory.wfFrom k m' = true)
    (hr : ∀ a, m.read a = m'.read a) : m = m' := by
  induction m generalizing k m' with
  | nil =>
    cases m' with
    | nil => rfl
    | cons c rest =>
      obtain ⟨x, y⟩ := c
      simp only [Memory.wfFrom, Bool.and_eq_true, bne_iff_ne] at h'
      have := hr x
      simp only [Memory.read, if_true] at this
      exact absurd this.symm h'.1.2
  | cons c rest ih =>
    obtain ⟨x, y⟩ := c
    simp only [Memory.wfFrom, Bool.and_eq_true, decide_eq_true_eq, bne_iff_ne] at h
    cases m' with
    | nil =>
      have := hr x
      simp only [Memory.read, if_true] at this
      exact absurd this h.1.2
    | cons c' rest' =>
      obtain ⟨x', y'⟩ := c'
      simp only [Memory.wfFrom, Bool.and_eq_true, decide_eq_true_eq, bne_iff_ne] at h'
      have hx : x = x' := by
        rcases Nat.lt_trichotomy x x' with hlt | heq | hgt
        · have := hr x
          simp only [Memory.read, if_true, Nat.ne_of_lt hlt, if_false] at this
          rw [Memory.read_of_wfFrom h'.2 (by omega)] at this
          exact absurd this h.1.2
        · exact heq
        · have := hr x'
          simp only [Memory.read, if_true, Nat.ne_of_lt hgt, if_false] at this
          rw [Memory.read_of_wfFrom h.2 (by omega)] at this
          exact absurd this.symm h'.1.2
      subst hx
      have hy : y = y' := by
        have := hr x
        simpa only [Memory.read, if_true] using this
      subst hy
      have : rest = rest' := by
        refine ih h.2 h'.2 fun a => ?_
        by_cases ha : a = x
        · subst ha
          rw [Memory.read_of_wfFrom h.2 (by omega), Memory.read_of_wfFrom h'.2 (by omega)]
        · have := hr a
          simpa only [Memory.read, ha, if_false] using this
      rw [this]

/-- Memories in canonical form that read the same everywhere are the same data. -/
theorem Memory.ext_of_wf {m m' : Memory} (h : m.wf = true) (h' : m'.wf = true) (hr : ∀ a, m.read a = m'.read a) :
    m = m' := Memory.eq_of_read h h' hr

theorem Memory.read_reset (a : Nat) : (State.reset.target.mem).read a = unlistedByte := rfl

theorem Memory.wf_reset : Memory.wf State.reset.target.mem = true := rfl

end Sys2Proof.Machine
end

