-- ==== Sys2Proof/Laws/PerInstr.lean ====
section
/-! SUPPORT. What holds of every command as syntax, one lemma per constructor. -/

namespace Sys2Proof.Laws

open Sys2Proof Sys2Proof.Machine

/-- The header has the `op` of the command, its reserved field is zero, no `arg` bit the row leaves undefined is 1 (R110,
R112), and the operand words R110 fixes follow it. -/
def HeaderShape.Statement (i : Instr) : Prop :=
  headerOp (header i.op i.arg) = i.op ∧ headerReserved (header i.op i.arg) = 0#20
    ∧ headerArg (header i.op i.arg) = i.arg ∧ i.arg &&& ~~~(argMask i.op) = 0#8
    ∧ 4 * operandWords i.op ≤ i.tail.length

/-- The fields of a header are those it is made of. -/
theorem header_fields (op : BitVec 4) (arg : BitVec 8) :
    headerOp (header op arg) = op ∧ headerReserved (header op arg) = 0#20 ∧ headerArg (header op arg) = arg := by
  unfold headerOp headerReserved headerArg header
  refine ⟨?_, ?_, ?_⟩ <;> apply BitVec.eq_of_getLsbD_eq <;> intro i hi <;>
    rw [BitVec.getLsbD_extractLsb', BitVec.getLsbD_append, BitVec.getLsbD_append]
  · simp [hi, show ¬ 28 + i < 28 by omega]
  · simp [hi, show 8 + i < 28 by omega]
  · simp [hi, show i < 28 by omega]

/-- What is left to show of a command: its `arg` byte and its operand words. -/
theorem headerShape_of {i : Instr} (ha : i.arg &&& ~~~(argMask i.op) = 0#8) (ht : 4 * operandWords i.op ≤ i.tail.length) :
    HeaderShape.Statement i :=
  ⟨(header_fields _ _).1, (header_fields _ _).2.1, (header_fields _ _).2.2, ha, ht⟩

theorem HeaderShape.attach (variant : BitVec 2) : Statement (.attach variant) :=
  headerShape_of (by revert variant; decide) (by simp [Instr.op, operandWords])
theorem HeaderShape.detach : Statement .detach := headerShape_of (by decide) (by decide)
theorem HeaderShape.halt : Statement .halt := headerShape_of (by decide) (by decide)
theorem HeaderShape.resume (mask : Bool) : Statement (.resume mask) :=
  headerShape_of (by revert mask; decide) (by simp [Instr.op, operandWords])
theorem HeaderShape.resumeStep (mask : Bool) : Statement (.resumeStep mask) :=
  headerShape_of (by revert mask; decide) (by simp [Instr.op, operandWords])
theorem HeaderShape.reset (catchVector : Bool) : Statement (.reset catchVector) :=
  headerShape_of (by revert catchVector; decide) (by simp [Instr.op, operandWords])
theorem HeaderShape.rdreg (sel : BitVec 7) : Statement (.rdreg sel) :=
  headerShape_of (by revert sel; decide) (by simp [Instr.op, operandWords])
theorem HeaderShape.wrreg (sel : BitVec 7) (value : Word) : Statement (.wrreg sel value) :=
  headerShape_of (by show sel.setWidth 8 &&& ~~~0x7F#8 = 0#8; revert sel; decide)
    (by simp [Instr.op, Instr.tail, operandWords, bytesOfWord])
theorem HeaderShape.rdmem (hint : BitVec 2) (addr len : Word) : Statement (.rdmem hint addr len) :=
  headerShape_of (by show hint.setWidth 8 &&& ~~~0x03#8 = 0#8; revert hint; decide)
    (by simp [Instr.op, Instr.tail, operandWords, bytesOfWord])
theorem HeaderShape.wrmem (hint : BitVec 2) (code : Bool) (addr len : Word) (bytes : List Byte) :
    Statement (.wrmem hint code addr len bytes) :=
  headerShape_of (by show (BitVec.ofBool code ++ hint).setWidth 8 &&& ~~~0x07#8 = 0#8; revert hint code; decide)
    (by simp [Instr.op, Instr.tail, operandWords, bytesOfWord])
theorem HeaderShape.setbp (codeAddress : Word) : Statement (.setbp codeAddress) :=
  headerShape_of (by show 0#8 &&& ~~~0x00#8 = 0#8; decide) (by simp [Instr.op, Instr.tail, operandWords, bytesOfWord])
theorem HeaderShape.clrbp (slot : BitVec 4) : Statement (.clrbp slot) :=
  headerShape_of (by revert slot; decide) (by simp [Instr.op, operandWords])
theorem HeaderShape.setwp (size access : BitVec 2) (address : Word) : Statement (.setwp size access address) :=
  headerShape_of (by show (access ++ size).setWidth 8 &&& ~~~0x0F#8 = 0#8; revert access size; decide)
    (by simp [Instr.op, Instr.tail, operandWords, bytesOfWord])
theorem HeaderShape.clrwp (slot : BitVec 4) : Statement (.clrwp slot) :=
  headerShape_of (by revert slot; decide) (by simp [Instr.op, operandWords])
theorem HeaderShape.haltreason : Statement .haltreason := headerShape_of (by decide) (by decide)

end Sys2Proof.Laws
end

