-- ==== Sys2Proof/Laws/Target.lean ====
section
/-! SUPPORT. The target's side of the port: word accesses to the registers of the map, what each leaves unchanged, and
transactions that the port answers. -/

namespace Sys2Proof.Machine

section
variable {cfg : Config} (h : configWf cfg = true) {r : Reg} (hr : r ∈ mapRegs)
include h hr

/-- A word read at the address of a register of the map reads that register. -/
theorem Target.read_reg (t : Target) (noise : Word) :
    t.read cfg noise (r.address cfg) 4
      = (bytesOfWord (t.readReg cfg noise r).1, (t.readReg cfg noise r).2) := by
  unfold Target.read
  rw [wordAddress_address h hr, regAt_address h hr]
  show (laneBytes _ _ 4, _) = _
  rw [laneBytes_word ((configWf_addresses h).2 r hr).1]

/-- A word written at the address of a register of the map writes that register. -/
theorem Target.write_reg (t : Target) (noise v : Word) :
    t.write cfg noise (r.address cfg) (bytesOfWord v) = t.writeReg cfg noise v r := by
  unfold Target.write
  rw [wordAddress_address h hr, regAt_address h hr]
  show t.writeReg cfg noise (laneWord _ _ _) r = _
  rw [laneWord_word ((configWf_addresses h).2 r hr).1]

end

section
variable (cfg : Config) (t : Target) (noise v : Word)

/-- Reading a register changes nothing but the debug registers (R74). -/
theorem Target.readReg_keeps (r : Reg) :
    (t.readReg cfg noise r).2.mem = t.mem ∧ (t.readReg cfg noise r).2.core = t.core
    ∧ (t.readReg cfg noise r).2.icache = t.icache ∧ (t.readReg cfg noise r).2.dcache = t.dcache
    ∧ (t.readReg cfg noise r).2.resetVector = t.resetVector := by
  cases r <;> simp only [Target.readReg] <;> first | exact ⟨rfl, rfl, rfl, rfl, rfl⟩ | exact ⟨trivial, trivial, trivial, trivial, trivial⟩ | (split <;> exact ⟨rfl, rfl, rfl, rfl, rfl⟩)

/-- Writing a register leaves the core and the reset vector as they are. -/
theorem Target.writeReg_core (r : Reg) :
    (t.writeReg cfg noise v r).core = t.core ∧ (t.writeReg cfg noise v r).resetVector = t.resetVector := by
  cases r <;> simp only [Target.writeReg] <;> first | exact ⟨rfl, rfl⟩ | exact ⟨trivial, trivial⟩ | (split <;> exact ⟨rfl, rfl⟩)

/-- Writing a register other than the clean-by-address register leaves memory and the data cache as they are. -/
theorem Target.writeReg_mem {r : Reg} (hr : r ≠ .dccmvac) :
    (t.writeReg cfg noise v r).mem = t.mem ∧ (t.writeReg cfg noise v r).dcache = t.dcache := by
  cases r <;> simp only [Target.writeReg] <;>
    first | exact absurd rfl hr | exact ⟨rfl, rfl⟩ | exact ⟨trivial, trivial⟩ | (split <;> exact ⟨rfl, rfl⟩)

/-- Cleaning with nothing in the data cache changes nothing. -/
theorem cleanLine_empty {t : Target} (hd : t.dcache = []) (a : Nat) : cleanLine cfg t a = t := by
  obtain ⟨m, c, d, i, dc, rv⟩ := t
  simp only at hd
  subst hd
  rfl

end

theorem State.choice_eq (s : State) : s.choice = s.choiceAt 0 := rfl

theorem State.answersFor.head {s : State} {n : Nat} (h : s.answersFor n) (hn : 0 < n) :
    s.cfg.backendPresent = true ∧ s.choice.outcome = .answered := ⟨h.1, h.2 0 hn⟩

theorem State.quietFor.head {s : State} {n : Nat} (h : s.quietFor n) (hn : 0 < n) : s.choice.events = [] := h 0 hn

theorem State.choiceAt_afterTransaction (s : State) (t : Target) (e : TraceEntry) (k : Nat) :
    (s.afterTransaction t e).choiceAt k = s.choiceAt (k + 1) := by
  show s.env.getD (s.tick + 1 + k) (Config.freeChoice (s.tick + 1 + k)) = s.env.getD (s.tick + (k + 1)) _
  rw [show s.tick + 1 + k = s.tick + (k + 1) by omega]

theorem State.answersFor.next {s : State} {n : Nat} (h : s.answersFor (n + 1)) (t : Target) (e : TraceEntry) :
    (s.afterTransaction t e).answersFor n :=
  ⟨h.1, fun k hk => by rw [State.choiceAt_afterTransaction]; exact h.2 (k + 1) (by omega)⟩

theorem State.quietFor.next {s : State} {n : Nat} (h : s.quietFor (n + 1)) (t : Target) (e : TraceEntry) :
    (s.afterTransaction t e).quietFor n :=
  fun k hk => by rw [State.choiceAt_afterTransaction]; exact h (k + 1) (by omega)

theorem State.answersFor.mono {s : State} {m n : Nat} (h : s.answersFor n) (hm : m ≤ n) : s.answersFor m :=
  ⟨h.1, fun k hk => h.2 k (by omega)⟩

theorem State.quietFor.mono {s : State} {m n : Nat} (h : s.quietFor n) (hm : m ≤ n) : s.quietFor m :=
  fun k hk => h k (by omega)

section
variable {s : State} (hb : s.cfg.backendPresent = true) (ho : s.choice.outcome = .answered)
include hb ho

/-- A word read that the port answers. -/
theorem portRead32_answered (a : Word) :
    portRead32 a s =
      (.ok (wordOfBytes ((s.target.events s.cfg s.choice.events).read s.cfg s.choice.noise a 4).1),
        s.afterTransaction ((s.target.events s.cfg s.choice.events).read s.cfg s.choice.noise a 4).2
          (.rd32 a (.ok (wordOfBytes ((s.target.events s.cfg s.choice.events).read s.cfg s.choice.noise a 4).1)))) :=
  transact_answered hb ho

/-- A word write that the port answers. -/
theorem portWrite32_answered (a v : Word) :
    portWrite32 a v s =
      (.ok (), s.afterTransaction ((s.target.events s.cfg s.choice.events).write s.cfg s.choice.noise a (bytesOfWord v))
        (.wr32 a v (.ok ()))) :=
  transact_answered hb ho

theorem portReadBlock_answered (a : Word) (n : Nat) :
    portReadBlock a n s =
      (.ok ((s.target.events s.cfg s.choice.events).read s.cfg s.choice.noise a n).1,
        s.afterTransaction ((s.target.events s.cfg s.choice.events).read s.cfg s.choice.noise a n).2
          (.memRead a n (.ok ((s.target.events s.cfg s.choice.events).read s.cfg s.choice.noise a n).1))) :=
  transact_answered hb ho

theorem portWriteBlock_answered (a : Word) (bs : List Byte) :
    portWriteBlock a bs s =
      (.ok (), s.afterTransaction ((s.target.events s.cfg s.choice.events).write s.cfg s.choice.noise a bs)
        (.memWrite a bs (.ok ()))) :=
  transact_answered hb ho

/-- A read of a register of the map that the port answers. -/
theorem portRead32_reg (h : configWf s.cfg = true) {r : Reg} (hr : r ∈ mapRegs) :
    portRead32 (r.address s.cfg) s =
      (.ok ((s.target.events s.cfg s.choice.events).readReg s.cfg s.choice.noise r).1,
        s.afterTransaction ((s.target.events s.cfg s.choice.events).readReg s.cfg s.choice.noise r).2
          (.rd32 (r.address s.cfg) (.ok ((s.target.events s.cfg s.choice.events).readReg s.cfg s.choice.noise r).1))) := by
  rw [portRead32_answered hb ho, Target.read_reg h hr, wordOfBytes_bytesOfWord]

/-- A write of a register of the map that the port answers. -/
theorem portWrite32_reg (h : configWf s.cfg = true) {r : Reg} (hr : r ∈ mapRegs) (v : Word) :
    portWrite32 (r.address s.cfg) v s =
      (.ok (), s.afterTransaction ((s.target.events s.cfg s.choice.events).writeReg s.cfg s.choice.noise v r)
        (.wr32 (r.address s.cfg) v (.ok ()))) := by
  rw [portWrite32_answered hb ho, Target.write_reg h hr]

end

end Sys2Proof.Machine
end

