-- ==== Sys2Proof/Tests/Slice0.lean ====
section
/-! SUPPORT. The model's own tests. Expected words, traces and answers are those of 95_test_vectors.md, whose row each test
names; the last part shows, for every statement with hypotheses, a concrete state that meets them. -/

namespace Sys2Proof.Tests

open Sys2Proof Sys2Proof.Machine

/-! ### Well-formedness: one ill-formed command for each check (30_encoding.md R116, R117, R110) -/

theorem test_wf_reserved_variant : (Instr.attach 3#2).wellFormed = false ∧ (Instr.attach 2#2).wellFormed = true := by
  decide

theorem test_wf_reserved_hint_rdmem :
    (Instr.rdmem 3#2 0#32 0#32).wellFormed = false ∧ (Instr.rdmem 2#2 0#32 0#32).wellFormed = true := by decide

theorem test_wf_reserved_hint_wrmem :
    (Instr.wrmem 3#2 true 0#32 0#32 []).wellFormed = false ∧ (Instr.wrmem 0#2 true 0#32 0#32 []).wellFormed = true := by
  decide

theorem test_wf_payload_length : (Instr.wrmem 2#2 false 0#32 2#32 [1#8]).wellFormed = false
    ∧ (Instr.wrmem 2#2 false 0#32 2#32 [1#8, 2#8]).wellFormed = true := by decide

theorem test_wf_reserved_access :
    (Instr.setwp 2#2 0#2 0#32).wellFormed = false ∧ (Instr.setwp 2#2 1#2 0#32).wellFormed = true := by decide

/-! ### Decoding: the headers of V-ENC and V-WP3, written out from 30_encoding.md R110 to R117 -/

/-- A message of whole words. -/
def words (ws : List Word) : List Byte := ws.flatMap bytesOfWord

theorem test_decode_attach : decode (words [0x00000000#32]) = .ok (.attach 0#2)
    ∧ decode (words [0x00000002#32]) = .ok (.attach 2#2) ∧ decode (words [0x00000003#32]) = .ok (.attach 3#2) := by decide

theorem test_decode_detach : decode (words [0x10000000#32]) = .ok .detach := by decide

theorem test_decode_halt : decode (words [0x20000000#32]) = .ok .halt := by decide

theorem test_decode_resume : decode (words [0x30000000#32]) = .ok (.resume false)
    ∧ decode (words [0x30000002#32]) = .ok (.resume true) := by decide

theorem test_decode_resume_step : decode (words [0x30000001#32]) = .ok (.resumeStep false)
    ∧ decode (words [0x30000003#32]) = .ok (.resumeStep true) := by decide

theorem test_decode_reset : decode (words [0x40000000#32]) = .ok (.reset false)
    ∧ decode (words [0x40000001#32]) = .ok (.reset true) := by decide

theorem test_decode_rdreg : decode (words [0x5000000F#32]) = .ok (.rdreg 15#7) := by decide

theorem test_decode_wrreg : decode (words [0x60000011#32, 0x12345678#32]) = .ok (.wrreg 17#7 0x12345678#32) := by decide

theorem test_decode_rdmem : decode (words [0x70000002#32, 0x20000001#32, 0x00000008#32])
    = .ok (.rdmem 2#2 0x20000001#32 8#32) := by decide

theorem test_decode_wrmem : decode (words [0x80000006#32, 0x2000001E#32, 0x00000004#32] ++ [1#8, 2#8, 3#8, 4#8])
    = .ok (.wrmem 2#2 true 0x2000001E#32 4#32 [1#8, 2#8, 3#8, 4#8]) := by decide

theorem test_decode_setbp : decode (words [0x90000000#32, 0x08000100#32]) = .ok (.setbp 0x08000100#32) := by decide

theorem test_decode_clrbp : decode (words [0xA0000003#32]) = .ok (.clrbp 3#4) := by decide

theorem test_decode_setwp : decode (words [0xB000000A#32, 0x20000100#32]) = .ok (.setwp 2#2 2#2 0x20000100#32)
    ∧ decode (words [0xB0000004#32, 0x20000200#32]) = .ok (.setwp 0#2 1#2 0x20000200#32) := by decide

theorem test_decode_clrwp : decode (words [0xC0000001#32]) = .ok (.clrwp 1#4) := by decide

theorem test_decode_haltreason : decode (words [0xD0000000#32]) = .ok .haltreason := by decide

theorem test_decode_malformed : decode (words [0x30000004#32]) = .error .undefinedArg
    ∧ decode (words [0x50000080#32]) = .error .undefinedArg ∧ decode (words [0xD0000001#32]) = .error .undefinedArg
    ∧ decode (words [0xE0000000#32]) = .error .reservedOp ∧ decode (words [0xF0000000#32]) = .error .reservedOp
    ∧ decode (words [0x20000100#32]) = .error .reservedBits := by decide

theorem test_decode_wrong_length : decode (words [0x60000011#32]) = .error .operandCount
    ∧ decode (words [0x20000000#32, 0#32]) = .error .operandCount ∧ decode [0#8] = .error .shortHeader
    ∧ decode (words [0x80000000#32, 0#32, 2#32] ++ [1#8]) = .error .payloadLength := by decide

theorem test_decode_table_word : decodeTableWord 96 0x0000000820000001_70000002 = some (.rdmem 2#2 0x20000001#32 8#32)
    ∧ decodeTableWord 32 0x60000011 = some (.wrreg 17#7 0#32) ∧ decodeTableWord 32 0xE0000000 = none := by decide

/-! ### The words the controller writes (V-CW1 to V-CW4, V-WP2) -/

theorem test_control_words : dhcsrWord defaultConfig ⟨true, false, false, false⟩ = 0xA05F0001#32
    ∧ dhcsrWord defaultConfig ⟨true, true, false, false⟩ = 0xA05F0003#32
    ∧ dhcsrWord defaultConfig ⟨true, false, true, true⟩ = 0xA05F000D#32
    ∧ dhcsrWord defaultConfig clearWord = 0xA05F0000#32 := by decide

theorem test_register_words : selWord defaultConfig 17#7 true = 0x00010011#32
    ∧ selWord defaultConfig 127#7 true = 0x0001007F#32 ∧ selWord defaultConfig 20#7 false = 0x00000014#32
    ∧ resetWord defaultConfig = 0x05FA0004#32 ∧ fpbEnableWord defaultConfig = 3#32 ∧ fpbDisableWord defaultConfig = 2#32
    ∧ resetAll defaultConfig = 0x1F#32 := by decide

theorem test_comparator_words : bpWord defaultConfig 0x08000101#32 = 0x08000101#32 ∧ bpWord defaultConfig 0#32 = 1#32
    ∧ bpWord defaultConfig 0xFFFFFFFF#32 = 0xFFFFFFFF#32
    ∧ wpFuncV2 defaultConfig .write .word = some 0x815#32 ∧ wpFuncV2 defaultConfig .access .halfword = some 0x414#32
    ∧ wpFuncV2 defaultConfig .read .doubleword = none := by decide

/-- The layout of `SEL_SPECIAL` (the table of R36). -/
theorem test_special : resetCore.setSpecial defaultConfig 0x02013040#32
      = { resetCore with control := 2#8, faultmask := 1#8, basepri := 0x30#8, primask := 0x40#8 }
    ∧ (resetCore.setSpecial defaultConfig 0x02013040#32).special defaultConfig = 0x02013040#32 := by decide

theorem test_decompose : decompose 0x20000001 8 4 = [(0x20000001, 1), (0x20000002, 2), (0x20000004, 4), (0x20000008, 1)]
    ∧ decompose 0x20000001 6 2 = [(0x20000001, 1), (0x20000002, 2), (0x20000004, 2), (0x20000006, 1)]
    ∧ decompose 0xFFFFFFFD 3 4 = [(0xFFFFFFFD, 1), (0xFFFFFFFE, 2)] ∧ decompose 0x20000004 0 4 = [] := by decide

/-! ### Samples -/

/-- The target does nothing of its own and the port answers; every open bit is zero. -/
def quiet : Choice := ⟨[], .answered, 0#32⟩

/-- The target does the events before the transaction, which is answered. -/
def doing (events : List TargetEvent) : Choice := ⟨events, .answered, 0#32⟩

/-- The port fails and the target has not taken the access. -/
def failing : Choice := ⟨[], .failed .linkError false, 0#32⟩

/-- A target under debug, its core at 0x08000100 (program P5), its reset vector at 0x080001C0 (P3). -/
def sampleTarget (halted : Bool) : Target :=
  { resetTarget with
    core := { resetCore with pc := 0x08000100#32 }
    dbg := { resetDebug with ctl := attachCw, halted := halted, registerReady := true }
    resetVector := 0x080001C0#32 }

/-- The controller just reset, with a scripted environment. -/
def detached (env : List Choice) : State := { State.reset with env := env ++ List.replicate 30 quiet }

/-- A handle on a `v7M` target with four breakpoint and two watchpoint comparators. -/
def handle (halted : Bool) (env : List Choice) : State :=
  { State.reset with
    attached := true, variant := .v7M, cw := attachCw, nBp := 4#4, nWp := 2#4
    env := env ++ List.replicate 30 quiet, target := sampleTarget halted }

/-- The state after one step that takes the message. -/
def after (s : State) (message : List Byte) : State :=
  match step { s with commands := [message] } with
  | .next t => t
  | .fault _ => s
  | .refused _ => s

/-! ### One step of each command -/

/-- P1 step 1. -/
theorem test_attach : (after (detached [quiet, doing [.enableTakesEffect]]) (words [0x00000001#32])).trace =
    [.wr32 0xE000EDF0#32 0xA05F0001#32 (.ok ()), .rd32 0xE000EDF0#32 (.ok 1#32), .rd32 0xE0002000#32 (.ok 0x40#32),
      .rd32 0xE0001000#32 (.ok 0x20000000#32), .wr32 0xE0002008#32 0#32 (.ok ()), .wr32 0xE000200C#32 0#32 (.ok ()),
      .wr32 0xE0002010#32 0#32 (.ok ()), .wr32 0xE0002014#32 0#32 (.ok ()), .wr32 0xE0001028#32 0#32 (.ok ()),
      .wr32 0xE0001038#32 0#32 (.ok ()), .rd32 0xE000ED78#32 (.ok 0#32)] := by decide +kernel

/-- V-CORE2, with `POLL_MAX = 4`. -/
theorem test_attach_timeout : (after (detached []) (words [0x00000000#32])).responses = [.failed .protocolTimeout]
    ∧ (after (detached []) (words [0x00000000#32])).attached = false
    ∧ (after (detached []) (words [0x00000000#32])).trace.length = 5 := by decide +kernel

/-- P1 step 8. -/
theorem test_detach : (after (handle true []) (words [0x10000000#32])).trace.map TraceEntry.registerWrite =
    [some (0xE0002008#32, 0#32), some (0xE000200C#32, 0#32), some (0xE0002010#32, 0#32), some (0xE0002014#32, 0#32),
      some (0xE0001028#32, 0#32), some (0xE0001038#32, 0#32), some (0xE0002000#32, 2#32),
      some (0xE000EDF0#32, 0xA05F0000#32)] := by decide +kernel

/-- V-CORE13: a dead port. -/
theorem test_detach_dead_port :
    (after (handle true (List.replicate 8 failing)) (words [0x10000000#32])).responses = [.ok .none]
    ∧ (after (handle true (List.replicate 8 failing)) (words [0x10000000#32])).attached = false
    ∧ (after (handle true (List.replicate 8 failing)) (words [0x10000000#32])).trace.length = 8 := by decide +kernel

/-- P1 step 2: a running core that halts after one poll read. -/
theorem test_halt_running :
    let t := after (handle false [quiet, quiet, quiet, doing [.halts [.request]]]) (words [0x20000000#32])
    t.responses = [.ok .none] ∧ t.cw = ⟨true, true, false, false⟩ ∧ t.hrValid = true
      ∧ t.hr = { noReason with haltedByRequest := true } ∧ t.trace.length = 7 := by decide +kernel

/-- V-CORE7: a core that halted by itself. -/
theorem test_halt_halted :
    (after (handle false [doing [.halts [.instruction]]]) (words [0x20000000#32])).trace =
      [.rd32 0xE000EDF0#32 (.ok 0x00030001#32), .rd32 0xE000ED30#32 (.ok 2#32), .rd32 0xE000ED2C#32 (.ok 0#32),
        .wr32 0xE000ED30#32 0x1F#32 (.ok ())] := by decide +kernel

/-- V-CORE10. -/
theorem test_resume_mask :
    let t := after { handle true [] with cw := ⟨true, true, false, false⟩ } (words [0x30000002#32])
    t.trace = [.wr32 0xE000EDF0#32 0xA05F0009#32 (.ok ())] ∧ t.cw = ⟨true, false, false, true⟩ ∧ t.hrValid = false := by
  decide +kernel

/-- V-CORE10, the write fails. -/
theorem test_resume_link_error :
    let t := after { handle true [failing] with hrValid := true, cw := ⟨true, true, false, false⟩ } (words [0x30000002#32])
    t.responses = [.failed .linkError] ∧ t.cw = ⟨true, true, false, false⟩ ∧ t.hrValid = true := by decide +kernel

/-- P5 step 2: a two-byte instruction. -/
theorem test_step :
    let t := after (handle true [quiet, quiet, doing [.stepRetires (.sequential 2#32) { noFlags with halted := true } []]])
      (words [0x30000003#32])
    t.responses = [.ok .none] ∧ t.cw = ⟨true, true, false, true⟩ ∧ t.target.core.pc = 0x08000102#32
      ∧ t.hr = { noReason with haltedByRequest := true } := by decide +kernel

/-- V-CORE12, with `POLL_MAX = 4`. -/
theorem test_step_timeout :
    let t := after (handle true []) (words [0x30000001#32])
    t.responses = [.failed .protocolTimeout] ∧ t.cw = ⟨true, false, true, false⟩ ∧ t.hrValid = false := by decide +kernel

/-- P3 step 1. -/
theorem test_reset_catch :
    let t := after (handle true [quiet, quiet, quiet, quiet, doing [.systemReset .requested resetCore resetDebug, .vectorCatchHalts]])
      (words [0x40000001#32])
    t.responses = [.ok .none] ∧ t.target.dbg.dfsr = { noFlags with vcatch := true } ∧ t.target.dbg.halted = true
      ∧ t.target.core.pc = 0x080001C0#32 ∧ t.trace.length = 5 := by decide +kernel

/-- V-RST1 and V-RST3, with `POLL_MAX = 4`. -/
theorem test_reset_timeout :
    (after (handle true []) (words [0x40000000#32])).responses = [.failed .resetTimeout]
    ∧ (after (handle true []) (words [0x40000000#32])).trace.head? = some (.wr32 0xE000ED0C#32 0x05FA0004#32 (.ok ())) := by
  decide +kernel

/-- P5 step 1. -/
theorem test_rdreg :
    (after (handle true [quiet, doing [.transferCompletes 0#32 false]]) (words [0x5000000F#32])).responses
      = [.ok (.value 0x08000100#32)] := by decide +kernel

/-- V-REG3, with `POLL_MAX = 4`. -/
theorem test_rdreg_timeout : (after (handle true []) (words [0x50000000#32])).responses = [.failed .registerTimeout]
    ∧ (after (handle true []) (words [0x50000000#32])).trace.length = 5 := by decide +kernel

/-- V-REG2. -/
theorem test_wrreg :
    let t := after (handle true [quiet, quiet, doing [.transferCompletes 0#32 false]]) (words [0x6000000D#32, 0x20008000#32])
    t.trace.filterMap TraceEntry.registerWrite
        = [(0xE000EDF8#32, 0x20008000#32), (0xE000EDF4#32, 0x0001000D#32)]
      ∧ t.target.core.sp = 0x20008000#32 ∧ t.responses = [.ok .none] := by decide +kernel

/-- V-REG4. -/
theorem test_wrreg_link_error :
    (after (handle true [failing]) (words [0x60000000#32, 1#32])).responses = [.failed .linkError]
    ∧ (after (handle true [failing]) (words [0x60000000#32, 1#32])).trace.length = 1 := by decide +kernel

/-- V-MEM7: the bytes of a register. -/
theorem test_rdmem_register :
    (after { handle true [] with target :=
        { sampleTarget true with dbg := { (sampleTarget true).dbg with demcr := 0x01000001#32 } } }
      (words [0x70000002#32, 0xE000EDFC#32, 4#32])).responses = [.ok (.data [1#8, 0#8, 0#8, 1#8])] := by decide +kernel

/-- V-MEM3: a failure at the second sub-transfer. -/
theorem test_rdmem_fault :
    (after (handle true [quiet, failing]) (words [0x70000002#32, 0x20000001#32, 8#32])).responses
      = [.failed (.memoryAccessFault 0x20000002#32)]
    ∧ (after (handle true [quiet, failing]) (words [0x70000002#32, 0x20000001#32, 8#32])).trace.length = 2 := by decide +kernel

/-- P2 step 1, read back as in P2 step 2. -/
theorem test_wrmem :
    (after (after (handle true []) (words [0x80000002#32, 0x20000001#32, 7#32] ++ [0xA1, 0xA2, 0xA3, 0xA4, 0xA5, 0xA6, 0xA7]))
      (words [0x70000001#32, 0x20000001#32, 7#32])).responses
      = [.ok .none, .ok (.data [0xA1, 0xA2, 0xA3, 0xA4, 0xA5, 0xA6, 0xA7])] := by decide +kernel

/-- V-MEM5: a code write with a cache. -/
theorem test_wrmem_code :
    (after { handle true [] with cachePresent := true } (words [0x80000006#32, 0x2000001E#32, 4#32] ++ [1, 2, 3, 4])).trace =
      [.memWrite 0x2000001E#32 [1, 2] (.ok ()), .memWrite 0x20000020#32 [3, 4] (.ok ()),
        .wr32 0xE000EF50#32 0#32 (.ok ()), .wr32 0xE000EF68#32 0x20000000#32 (.ok ()),
        .wr32 0xE000EF68#32 0x20000020#32 (.ok ())] := by decide +kernel

/-- V-BP1. -/
theorem test_setbp :
    let t := after (handle true []) (words [0x90000000#32, 0x08000100#32])
    t.trace = [.wr32 0xE0002000#32 3#32 (.ok ()), .wr32 0xE0002008#32 0x08000101#32 (.ok ())]
      ∧ t.responses = [.ok (.slot 0#4)] ∧ t.fpbOn = true ∧ t.target.dbg.fpbEnabled = true := by decide +kernel

/-- V-BP9. -/
theorem test_setbp_link_error :
    let t := after (handle true [quiet, failing]) (words [0x90000000#32, 0x08000100#32])
    t.responses = [.failed .linkError] ∧ t.fpbOn = true ∧ (t.bpSlot 0).inUse = false := by decide +kernel

/-- V-BP5: the slot freed is the next one given. -/
theorem test_clrbp :
    let s := { handle true [] with fpbOn := true, bp := Vector.replicate 15 ⟨true, 0x08000200#32⟩ }
    (after (after s (words [0xA0000001#32])) (words [0x90000000#32, 0x08000500#32])).trace =
      [.wr32 0xE000200C#32 0#32 (.ok ()), .wr32 0xE000200C#32 0x08000501#32 (.ok ())] := by decide +kernel

/-- V-BP6. -/
theorem test_clrbp_refused : (after (handle true []) (words [0xA0000004#32])).responses = [.failed .refused] := by decide +kernel

/-- P4 step 1. -/
theorem test_setwp_legacy :
    let t := after (handle true []) (words [0xB000000A#32, 0x20000100#32])
    t.trace = [.wr32 0xE0001020#32 0x20000100#32 (.ok ()), .wr32 0xE0001024#32 2#32 (.ok ()),
        .wr32 0xE0001028#32 6#32 (.ok ())]
      ∧ t.responses = [.ok (.slot 0#4)] := by decide +kernel

/-- V-WP2. -/
theorem test_setwp_v2 :
    (after { handle true [] with variant := .v8M } (words [0xB000000A#32, 0x20000100#32])).trace =
      [.wr32 0xE0001020#32 0x20000100#32 (.ok ()), .wr32 0xE0001028#32 0x815#32 (.ok ())]
    ∧ (after { handle true [] with variant := .v8M } (words [0xB000000F#32, 0#32])).responses = [.failed .refused] := by decide +kernel

/-- V-WP5. -/
theorem test_clrwp :
    let t := after (after (handle true []) (words [0xB000000A#32, 0x20000100#32])) (words [0xC0000000#32])
    t.trace.getLast? = some (.wr32 0xE0001028#32 0#32 (.ok ())) ∧ (t.wpSlot 0).inUse = false
      ∧ t.target.dbg.dwtFunction.getD 0 1#32 = 0#32 := by decide +kernel

theorem test_clrwp_refused : (after (handle true []) (words [0xC0000002#32])).responses = [.failed .refused] := by decide +kernel

/-- A core halted by comparator 1, both slots in use (P4 before step 5). -/
def watched : State :=
  { handle false [doing [.halts [.watchpoint [⟨1, 0x20000200#32, false⟩]]]] with
    wp := (Vector.replicate 15 freeWp).setIfInBounds 0 ⟨true, 0x20000100#32, .word, .write⟩
      |>.setIfInBounds 1 ⟨true, 0x20000200#32, .byte, .read⟩
    target := { sampleTarget false with dbg := { (sampleTarget false).dbg with
      dwtComp := (Vector.replicate 15 0#32).setIfInBounds 0 0x20000100#32 |>.setIfInBounds 1 0x20000200#32
      dwtMask := (Vector.replicate 15 0#32).setIfInBounds 0 2#32
      dwtFunction := (Vector.replicate 15 0#32).setIfInBounds 0 6#32 |>.setIfInBounds 1 5#32 } } }

/-- P4 step 5. -/
theorem test_haltreason_watchpoint :
    (after watched (words [0xD0000000#32])).responses = [.ok (.reason 0x80001104#32)]
    ∧ (after watched (words [0xD0000000#32])).trace.map TraceEntry.answered = [true, true, true, true, true, true]
    ∧ (after watched (words [0xD0000000#32])).target.dbg.matched.getD 1 true = false := by decide +kernel

/-- V-FI5. -/
theorem test_haltreason_running :
    (after (handle false []) (words [0xD0000000#32])).responses = [.ok (.reason 0#32)]
    ∧ (after (handle false []) (words [0xD0000000#32])).trace = [.rd32 0xE000EDF0#32 (.ok 0x00010001#32)] := by decide +kernel

/-! ### Witnesses: for every statement with hypotheses, concrete values that meet them together. A statement of several
clauses has one witness for each, at the ends of its range where it has one. -/

theorem reads_of {s : State} {a v : Word} (h : (portRead32 a s).1 = .ok v) : s.reads a v (portRead32 a s).2 :=
  Prod.ext h rfl

theorem writes_of {s : State} {a v : Word} (h : (portWrite32 a v s).1 = .ok ()) : s.writes a v (portWrite32 a v s).2 :=
  Prod.ext h rfl

theorem fails_of {s : State} {a v : Word} {f : PortFailure} (h : (portWrite32 a v s).1 = .fail f) :
    portWrite32 a v s = (.fail f, (portWrite32 a v s).2) := Prod.ext h rfl

/-- Whether the read that follows `j` reads of `a` is answered, and shows the awaited bit as `b`. -/
def shows (a : Word) (pred : Word → Bool) (b : Bool) (j : Nat) (s : State) : Bool :=
  match readAfter a j s with
  | .ok v => pred v == b
  | .fail _ => false

theorem exists_of_shows {a : Word} {pred : Word → Bool} {b : Bool} {j : Nat} {s : State} (h : shows a pred b j s = true) :
    ∃ v, readAfter a j s = .ok v ∧ pred v = b := by
  unfold shows at h
  cases hr : readAfter a j s with
  | ok v => rw [hr] at h; exact ⟨v, rfl, by simpa using h⟩
  | fail f => rw [hr] at h; cases h

theorem readsWithout_of {a : Word} {pred : Word → Bool} {k : Nat} {s : State}
    (h : ∀ j, j < k → shows a pred false j s = true) : readsWithout a pred k s := fun j hj => exists_of_shows (h j hj)

theorem pollFindsAt_of {a : Word} {pred : Word → Bool} {k : Nat} {s : State}
    (h : ∀ j, j < k → shows a pred false j s = true) (hk : shows a pred true k s = true) : pollFindsAt a pred k s :=
  ⟨readsWithout_of h, exists_of_shows hk⟩

/-- `Capture` on a halt with no watchpoint in use, all answered. -/
theorem captures_of {s : State} {dfsr hfsr : Word} (hd : (portRead32 s.cfg.addrDfsr s).1 = .ok dfsr)
    (hh : (portRead32 s.cfg.addrHfsr (portRead32 s.cfg.addrDfsr s).2).1 = .ok hfsr)
    (hs : s.scannedSlots (interpret s.cfg dfsr hfsr) = [])
    (hw : (portWrite32 s.cfg.addrDfsr (resetAll s.cfg) (portRead32 s.cfg.addrHfsr (portRead32 s.cfg.addrDfsr s).2).2).1
      = .ok ()) : ∃ t, s.captures (interpret s.cfg dfsr hfsr) t :=
  ⟨_, dfsr, hfsr, [], _, _, _, reads_of hd, reads_of hh, by rw [hs]; exact ⟨rfl, rfl⟩, writes_of hw, rfl⟩

/-- Whether every write of a list is answered. -/
def allAnswered : List (Word × Word) → State → Bool
  | [], _ => true
  | (a, v) :: rest, s => (portWrite32 a v s).1 == .ok () && allAnswered rest (portWrite32 a v s).2

theorem writesAnswered_of {ws : List (Word × Word)} {s : State} (h : allAnswered ws s = true) : writesAnswered ws s := by
  induction ws generalizing s with
  | nil => trivial
  | cons w ws ih =>
    simp only [allAnswered, Bool.and_eq_true, beq_iff_eq] at h
    exact ⟨h.1, ih h.2⟩

theorem configWf_default : configWf defaultConfig = true := by decide +kernel

/-- A payload of two bytes at the top of the address space. -/
theorem witness_DecodeOfEncode : ∀ hint code addr len bytes,
    Instr.wrmem 2#2 true 0xFFFFFFFE#32 2#32 [1#8, 2#8] = .wrmem hint code addr len bytes → bytes.length = len.toNat := by
  rintro _ _ _ _ _ ⟨⟩; rfl

theorem witness_EncodeOfDecode : decode (words [0x60000011#32, 0x12345678#32]) = .ok (.wrreg 17#7 0x12345678#32) := by
  decide

/-- Each way a header can be malformed, and a header that is none. -/
theorem witness_EveryHeaderIsARowOrRefused : headerOp 0xE0000000#32 = 0xE#4 ∧ headerOp 0xF0000000#32 = 0xF#4
    ∧ headerReserved 0x20000100#32 ≠ 0 ∧ headerArg 0x30000004#32 &&& ~~~(argMask (headerOp 0x30000004#32)) ≠ 0
    ∧ ¬ (headerOp 0xD0000000#32 = 0xE#4 ∨ headerOp 0xD0000000#32 = 0xF#4 ∨ headerReserved 0xD0000000#32 ≠ 0
      ∨ headerArg 0xD0000000#32 &&& ~~~(argMask (headerOp 0xD0000000#32)) ≠ 0) := by decide

theorem witness_StepRunsTheDecodedCommand :
    let s := { handle true [] with commands := [words [0x20000000#32], words [0x10000000#32]] }
    s.busy = false ∧ s.commands = words [0x20000000#32] :: [words [0x10000000#32]]
      ∧ decode (words [0x20000000#32]) = .ok .halt := by decide +kernel

theorem witness_StepWithoutACommand :
    let s := { handle true [] with commands := [words [0xE0000000#32]] }
    State.busy { s with busy := true } = true ∧ (handle true []).busy = false ∧ (handle true []).commands = []
      ∧ s.busy = false ∧ s.commands = words [0xE0000000#32] :: [] ∧ decode (words [0xE0000000#32]) = .error .reservedOp := by
  decide +kernel

/-- A span one byte past the top of the address space, and one that ends there (V-MEM2, V-MEM1 row 11). -/
theorem witness_RefusedExactlyWhenMeaningless : (handle true []).busy = false
    ∧ refusedRequest (handle true []) (.rdmem 2#2 0xFFFFFFFD#32 4#32) = true
    ∧ refusedRequest (handle true []) (.rdmem 2#2 0xFFFFFFFD#32 3#32) = false
    ∧ refusedRequest (handle true []) (.clrbp 4#4) = true ∧ refusedRequest (handle true []) (.clrbp 3#4) = false
    ∧ refusedRequest (detached []) .halt = true ∧ refusedRequest (detached []) (.attach 2#2) = false
    ∧ State.commands { handle true [] with commands := [words [0x50000080#32]] } = words [0x50000080#32] :: []
    ∧ decode (words [0x50000080#32]) = .error .undefinedArg := by decide +kernel

theorem witness_EveryCommandIsAnsweredOnce : (handle true []).busy = false := rfl


theorem witness_TheFirstFailedTransactionEndsTheCommand :
    (∃ t, (handle true [failing]).busy = false ∧ exec .detach (handle true [failing]) = .next t
      ∧ (handle true [failing]).attached = true) ∧
    (∃ t, exec (.rdreg 15#7) (handle true [quiet, failing]) = .next t ∧ Instr.rdreg 15#7 ≠ .detach
      ∧ t.trace.length = 2) := ⟨⟨_, rfl, rfl, rfl⟩, ⟨_, rfl, by simp, by decide +kernel⟩⟩

theorem witness_FailureKindsOfEachCommand : ∃ t, (handle true [failing]).busy = false
    ∧ exec (.rdmem 2#2 0x20000000#32 4#32) (handle true [failing]) = .next t
    ∧ t.responses = (handle true [failing]).responses ++ [.failed (.memoryAccessFault 0x20000000#32)] :=
  ⟨_, rfl, rfl, by decide +kernel⟩

theorem witness_RegistersChangeOnlyAsWritten : ∃ t, exec (.rdreg 15#7) (handle true []) = .next t
    ∧ (∀ v, Instr.rdreg 15#7 ≠ .attach v) ∧ Instr.rdreg 15#7 ≠ .detach ∧ Instr.rdreg 15#7 ≠ .halt
    ∧ (∀ m, Instr.rdreg 15#7 ≠ .resume m) ∧ (∀ m, Instr.rdreg 15#7 ≠ .resumeStep m)
    ∧ (∀ c, Instr.rdreg 15#7 ≠ .reset c) ∧ Instr.rdreg 15#7 ≠ .haltreason ∧ (∀ a, Instr.rdreg 15#7 ≠ .setbp a)
    ∧ (∀ n, Instr.rdreg 15#7 ≠ .clrbp n) ∧ (∀ z k a, Instr.rdreg 15#7 ≠ .setwp z k a)
    ∧ (∀ n, Instr.rdreg 15#7 ≠ .clrwp n) := ⟨_, rfl, by simp⟩

theorem witness_AFailureLeavesTheHandle : ∃ t, (handle true [quiet, failing]).busy = false
    ∧ exec (.setbp 0x08000100#32) (handle true [quiet, failing]) = .next t
    ∧ t.responses = (handle true [quiet, failing]).responses ++ [.failed .linkError] := ⟨_, rfl, rfl, by decide +kernel⟩

/-- An answered transaction, and failed ones that did and did not reach the target. -/
theorem witness_ATransactionAnswersOrFails : defaultConfig.backendPresent = true ∧ (0xFFFFFFFC#32).toNat % 4 = 0
    ∧ [1#8, 2#8].length = 2 ∧ (0xFFFFFFFE#32).toNat % [1#8, 2#8].length = 0
    ∧ (handle true []).cfg.backendPresent = true
    ∧ State.cfg { handle true [] with cfg := { defaultConfig with backendPresent := false } }
      = { defaultConfig with backendPresent := false }
    ∧ (handle true []).choice.outcome = .answered ∧ (handle true [failing]).choice.outcome = .failed .linkError false
    ∧ (handle true [⟨[.halts [.request]], .failed .backendUnavailable true, 1#32⟩]).choice.outcome
      = .failed .backendUnavailable true := by decide +kernel

theorem witness_AttachWithoutABackend :
    let s := { detached [] with cfg := { defaultConfig with backendPresent := false } }
    s.busy = false ∧ s.attached = false ∧ (variantOf 2#2).isSome = true ∧ s.cfg.backendPresent = false := by
  decide +kernel

/-- The enable is seen at the first read, on a variant with cache registers. -/
theorem witness_AttachCompletes :
    let s := detached [quiet, doing [.enableTakesEffect]]
    ∃ s1 s3 s4 s6, s.busy = false ∧ s.attached = false ∧ variantOf 1#2 = some .v7M
      ∧ s.accept.writes s.cfg.addrDhcsr (dhcsrWord s.cfg attachCw) s1
      ∧ 0 < s.cfg.pollMax ∧ pollFindsAt s.cfg.addrDhcsr (statusDebugEnable s.cfg) 0 s1
      ∧ (afterReads s.cfg.addrDhcsr (0 + 1) s1).reads s.cfg.addrFpCtrl 0x40#32 s3
      ∧ s3.reads s.cfg.addrDwtCtrl 0x20000000#32 s4
      ∧ numCode s.cfg 0x40#32 = 4 ∧ numComp s.cfg 0x20000000#32 = 2
      ∧ writesAnswered ((List.range 4).map (fun j => (addrFpComp s.cfg j, 0#32))
          ++ (List.range 2).map (fun j => (addrDwtFunction s.cfg j, 0#32))) s4
      ∧ s.cfg.hasCacheOps.at .v7M = true
      ∧ (afterWrites ((List.range 4).map (fun j => (addrFpComp s.cfg j, 0#32))
          ++ (List.range 2).map (fun j => (addrDwtFunction s.cfg j, 0#32))) s4).reads s.cfg.addrCacheId 0#32 s6
      ∧ false = cachePresentOf s.cfg 0#32 := by
  intro s
  exact ⟨_, _, _, _, rfl, rfl, rfl, writes_of (by decide +kernel), by decide +kernel,
    pollFindsAt_of (by decide +kernel) (by decide +kernel), reads_of (by decide +kernel), reads_of (by decide +kernel),
    by decide +kernel, by decide +kernel, writesAnswered_of (by decide +kernel), by decide +kernel,
    reads_of (by decide +kernel), by decide +kernel⟩

/-- The enable is seen at the last read allowed, on a variant without cache registers. -/
theorem witness_AttachCompletes_last :
    let s := detached [quiet, quiet, quiet, quiet, doing [.enableTakesEffect]]
    ∃ s1 s3 s4, s.busy = false ∧ s.attached = false ∧ variantOf 0#2 = some .v6M
      ∧ s.accept.writes s.cfg.addrDhcsr (dhcsrWord s.cfg attachCw) s1
      ∧ 3 < s.cfg.pollMax ∧ pollFindsAt s.cfg.addrDhcsr (statusDebugEnable s.cfg) 3 s1
      ∧ (afterReads s.cfg.addrDhcsr (3 + 1) s1).reads s.cfg.addrFpCtrl 0x40#32 s3
      ∧ s3.reads s.cfg.addrDwtCtrl 0x20000000#32 s4
      ∧ writesAnswered ((List.range 4).map (fun j => (addrFpComp s.cfg j, 0#32))
          ++ (List.range 2).map (fun j => (addrDwtFunction s.cfg j, 0#32))) s4
      ∧ s.cfg.hasCacheOps.at .v6M = false := by
  intro s
  exact ⟨_, _, _, rfl, rfl, rfl, writes_of (by decide +kernel), by decide +kernel,
    pollFindsAt_of (by decide +kernel) (by decide +kernel), reads_of (by decide +kernel), reads_of (by decide +kernel),
    writesAnswered_of (by decide +kernel), by decide +kernel⟩

theorem witness_DetachAlwaysCompletes : (handle true (List.replicate 8 failing)).ready := ⟨rfl, rfl⟩

theorem witness_DetachReleasesTheTarget : (handle false []).ready ∧ configWf (handle false []).cfg = true
    ∧ (handle false []).answersFor (4 + 2 + 2) ∧ (handle false []).quietFor (4 + 2 + 2)
    ∧ 3 < (handle false []).nBp.toNat ∧ 1 < (handle false []).nWp.toNat ∧ 3 < (handle false []).cfg.fpCount := by
  unfold State.ready State.answersFor State.quietFor
  decide +kernel

theorem witness_HaltOnAHaltedCore_held :
    let s := { handle true [] with hrValid := true }
    ∃ s1, s.ready ∧ s.accept.reads s.cfg.addrDhcsr 0x00030001#32 s1 ∧ statusHalted s.cfg 0x00030001#32 = true
      ∧ s.hrValid = true := by
  intro s
  exact ⟨_, ⟨rfl, rfl⟩, reads_of (by decide +kernel), by decide +kernel, rfl⟩

theorem witness_HaltOnAHaltedCore :
    let s := handle true []
    ∃ s1 h t, s.ready ∧ s.accept.reads s.cfg.addrDhcsr 0x00030001#32 s1 ∧ statusHalted s.cfg 0x00030001#32 = true
      ∧ s.hrValid = false ∧ s1.captures h t := by
  intro s
  obtain ⟨t, ht⟩ := captures_of (s := (portRead32 s.cfg.addrDhcsr s.accept).2) (dfsr := 0#32) (hfsr := 0#32)
    (by decide +kernel) (by decide +kernel) (by decide +kernel) (by decide +kernel)
  exact ⟨_, _, t, ⟨rfl, rfl⟩, reads_of (by decide +kernel), by decide +kernel, rfl, ht⟩

/-- The first and the last poll read allowed. -/
theorem witness_HaltOnARunningCore (last : Bool) :
    let s := handle false (if last then [quiet, quiet, quiet, quiet, quiet, doing [.halts [.request]]]
      else [quiet, quiet, doing [.halts [.request]]])
    let k := if last then 3 else 0
    let cw := { s.cw with haltRequest := true }
    ∃ s1 s2 s3 h, s.ready ∧ s.accept.reads s.cfg.addrDhcsr 0x00010001#32 s1 ∧ statusHalted s.cfg 0x00010001#32 = false
      ∧ s1.dropHr.writes s.cfg.addrDhcsr (dhcsrWord s.cfg cw) s2
      ∧ k < s.cfg.pollMax ∧ pollFindsAt s.cfg.addrDhcsr (statusHalted s.cfg) k (s2.setCw cw)
      ∧ (afterReads s.cfg.addrDhcsr (k + 1) (s2.setCw cw)).captures h s3 := by
  cases last <;> intro s k cw <;>
  · let s2 := (portWrite32 s.cfg.addrDhcsr (dhcsrWord s.cfg cw) (portRead32 s.cfg.addrDhcsr s.accept).2.dropHr).2
    obtain ⟨t, ht⟩ := captures_of (s := afterReads s.cfg.addrDhcsr (k + 1) (s2.setCw cw)) (dfsr := 1#32) (hfsr := 0#32)
      (by decide +kernel) (by decide +kernel) (by decide +kernel) (by decide +kernel)
    exact ⟨_, s2, t, _, ⟨rfl, rfl⟩, reads_of (by decide +kernel), by decide +kernel, writes_of (by decide +kernel),
      by decide +kernel, pollFindsAt_of (by decide +kernel) (by decide +kernel), ht⟩

theorem witness_ResumeWritesTheControlWordOnce :
    let s := handle true []
    let r := handle true [failing]
    let cw := { s.cw with haltRequest := false, stepRequest := false, maskInterrupts := true }
    s.ready ∧ (∃ u, s.accept.writes s.cfg.addrDhcsr (dhcsrWord s.cfg cw) u) ∧ r.ready
      ∧ ∃ u, portWrite32 r.cfg.addrDhcsr (dhcsrWord r.cfg cw) r.accept = (.fail .linkError, u) := by
  intro s r cw
  exact ⟨⟨rfl, rfl⟩, ⟨_, writes_of (by decide +kernel)⟩, ⟨rfl, rfl⟩, ⟨_, fails_of (by decide +kernel)⟩⟩

/-- The first and the last poll read allowed. -/
theorem witness_StepCommandCompletes (last : Bool) :
    let retire : Choice := doing [.stepRetires (.sequential 2#32) { noFlags with halted := true } []]
    let s := handle true (if last then [quiet, quiet, quiet, quiet, retire] else [quiet, retire])
    let k := if last then 3 else 0
    let cw1 := { s.cw with haltRequest := false, stepRequest := true, maskInterrupts := true }
    let cw2 := { s.cw with haltRequest := true, stepRequest := false, maskInterrupts := true }
    ∃ s1 s2 s3 h, s.ready ∧ s.accept.writes s.cfg.addrDhcsr (dhcsrWord s.cfg cw1) s1
      ∧ k < s.cfg.pollMax ∧ pollFindsAt s.cfg.addrDhcsr (statusHalted s.cfg) k (s1.setCw cw1).dropHr
      ∧ (afterReads s.cfg.addrDhcsr (k + 1) (s1.setCw cw1).dropHr).writes s.cfg.addrDhcsr (dhcsrWord s.cfg cw2) s2
      ∧ (s2.setCw cw2).captures h s3 := by
  cases last <;> intro retire s k cw1 cw2 <;>
  · let s1 := (portWrite32 s.cfg.addrDhcsr (dhcsrWord s.cfg cw1) s.accept).2
    let s2 := (portWrite32 s.cfg.addrDhcsr (dhcsrWord s.cfg cw2)
      (afterReads s.cfg.addrDhcsr (k + 1) (s1.setCw cw1).dropHr)).2
    obtain ⟨t, ht⟩ := captures_of (s := s2.setCw cw2) (dfsr := 1#32) (hfsr := 0#32)
      (by decide +kernel) (by decide +kernel) (by decide +kernel) (by decide +kernel)
    exact ⟨s1, s2, t, _, ⟨rfl, rfl⟩, writes_of (by decide +kernel), by decide +kernel,
      pollFindsAt_of (by decide +kernel) (by decide +kernel), writes_of (by decide +kernel), ht⟩

theorem witness_ProtocolTimeouts_attach :
    let s := detached []
    ∃ s1, s.busy = false ∧ s.attached = false ∧ (variantOf 0#2).isSome = true
      ∧ s.accept.writes s.cfg.addrDhcsr (dhcsrWord s.cfg attachCw) s1
      ∧ readsWithout s.cfg.addrDhcsr (statusDebugEnable s.cfg) s.cfg.pollMax s1 := by
  intro s
  exact ⟨_, rfl, rfl, rfl, writes_of (by decide +kernel), readsWithout_of (by decide +kernel)⟩

theorem witness_ProtocolTimeouts_halt :
    let s := handle false []
    let cw := { s.cw with haltRequest := true }
    ∃ s1 s2, s.ready ∧ s.accept.reads s.cfg.addrDhcsr 0x00010001#32 s1 ∧ statusHalted s.cfg 0x00010001#32 = false
      ∧ s1.dropHr.writes s.cfg.addrDhcsr (dhcsrWord s.cfg cw) s2
      ∧ readsWithout s.cfg.addrDhcsr (statusHalted s.cfg) s.cfg.pollMax (s2.setCw cw) := by
  intro s cw
  exact ⟨_, _, ⟨rfl, rfl⟩, reads_of (by decide +kernel), by decide +kernel, writes_of (by decide +kernel),
    readsWithout_of (by decide +kernel)⟩

theorem witness_ProtocolTimeouts_step :
    let s := handle true []
    let cw := { s.cw with haltRequest := false, stepRequest := true, maskInterrupts := false }
    ∃ s1, s.ready ∧ s.accept.writes s.cfg.addrDhcsr (dhcsrWord s.cfg cw) s1
      ∧ readsWithout s.cfg.addrDhcsr (statusHalted s.cfg) s.cfg.pollMax (s1.setCw cw).dropHr := by
  intro s cw
  exact ⟨_, ⟨rfl, rfl⟩, writes_of (by decide +kernel), readsWithout_of (by decide +kernel)⟩

theorem witness_StepRequestStandsOnlyAfterAFailedStep : ∃ t, exec (.resumeStep true) (handle true []) = .next t
    ∧ t.attached = true ∧ t.cw.stepRequest = true := ⟨_, rfl, by decide +kernel⟩

/-- The first and the last poll read allowed. -/
theorem witness_RdregCompletes (last : Bool) :
    let done : Choice := doing [.transferCompletes 0#32 false]
    let s := handle true (if last then [quiet, quiet, quiet, quiet, done] else [quiet, done])
    let k := if last then 3 else 0
    ∃ s1 s2, s.ready ∧ s.accept.writes s.cfg.addrDcrsr (selWord s.cfg 15#7 false) s1
      ∧ k < s.cfg.pollMax ∧ pollFindsAt s.cfg.addrDhcsr (statusRegisterReady s.cfg) k s1
      ∧ (afterReads s.cfg.addrDhcsr (k + 1) s1).reads s.cfg.addrDcrdr 0x08000100#32 s2 := by
  cases last <;> intro done s k <;>
  exact ⟨_, _, ⟨rfl, rfl⟩, writes_of (by decide +kernel), by decide +kernel,
    pollFindsAt_of (by decide +kernel) (by decide +kernel), reads_of (by decide +kernel)⟩

/-- The first and the last poll read allowed. -/
theorem witness_WrregCompletes (last : Bool) :
    let done : Choice := doing [.transferCompletes 0#32 false]
    let s := handle true (if last then [quiet, quiet, quiet, quiet, quiet, done] else [quiet, quiet, done])
    let k := if last then 3 else 0
    ∃ s1 s2, s.ready ∧ s.accept.writes s.cfg.addrDcrdr 0x20008000#32 s1
      ∧ s1.writes s.cfg.addrDcrsr (selWord s.cfg 13#7 true) s2
      ∧ k < s.cfg.pollMax ∧ pollFindsAt s.cfg.addrDhcsr (statusRegisterReady s.cfg) k s2 := by
  cases last <;> intro done s k <;>
  exact ⟨_, _, ⟨rfl, rfl⟩, writes_of (by decide +kernel), writes_of (by decide +kernel), by decide +kernel,
    pollFindsAt_of (by decide +kernel) (by decide +kernel)⟩

theorem witness_RegisterAndResetTimeouts_registers :
    let s := handle true []
    ∃ s1 r1 r2, s.ready ∧ s.accept.writes s.cfg.addrDcrsr (selWord s.cfg 15#7 false) s1
      ∧ readsWithout s.cfg.addrDhcsr (statusRegisterReady s.cfg) s.cfg.pollMax s1
      ∧ s.accept.writes s.cfg.addrDcrdr 1#32 r1 ∧ r1.writes s.cfg.addrDcrsr (selWord s.cfg 15#7 true) r2
      ∧ readsWithout s.cfg.addrDhcsr (statusRegisterReady s.cfg) s.cfg.pollMax r2 := by
  intro s
  exact ⟨_, _, _, ⟨rfl, rfl⟩, writes_of (by decide +kernel), readsWithout_of (by decide +kernel),
    writes_of (by decide +kernel), writes_of (by decide +kernel), readsWithout_of (by decide +kernel)⟩

theorem witness_RegisterAndResetTimeouts_reset :
    let s := handle true []
    ∃ u s0 s1 r1, s.ready ∧ s.accept.reads s.cfg.addrDemcr 0#32 u
      ∧ u.writes s.cfg.addrDemcr (0#32 ||| bitAt s.cfg.bitVcCoreReset true) s0
      ∧ s0.writes s.cfg.addrAircr (resetWord s.cfg) s1
      ∧ readsWithout s.cfg.addrDhcsr (statusResetSeen s.cfg) s.cfg.pollMax s1.dropHr
      ∧ s.accept.writes s.cfg.addrAircr (resetWord s.cfg) r1
      ∧ readsWithout s.cfg.addrDhcsr (statusResetSeen s.cfg) s.cfg.pollMax r1.dropHr := by
  intro s
  exact ⟨_, _, _, _, ⟨rfl, rfl⟩, reads_of (by decide +kernel), writes_of (by decide +kernel),
    writes_of (by decide +kernel), readsWithout_of (by decide +kernel), writes_of (by decide +kernel),
    readsWithout_of (by decide +kernel)⟩

theorem witness_WrregThenRdregReadsTheValue :
    let done : Choice := doing [.transferCompletes 0#32 false]
    let s := handle true [quiet, quiet, done, quiet, done]
    s.ready ∧ configWf s.cfg = true ∧ s.answersFor 6 ∧ s.target.dbg.halted = true
      ∧ (coreRegister s.cfg s.target.core 20#7).isSome = true
      ∧ ∀ k, k < 6 → (s.choiceAt k).events = if k = 2 then [.transferCompletes 0#32 false]
        else if k = 4 then [.transferCompletes 0#32 false] else [] := by
  unfold State.ready State.answersFor
  decide +kernel

/-- A span that ends at the top of the address space, and an empty one. -/
theorem witness_RdmemCompletes : (handle true []).ready ∧ hintOf 2#2 = some .word
    ∧ (0xFFFFFFFD#32).toNat + (3#32).toNat ≤ 2 ^ 32
    ∧ (handle true []).answersFor (decompose (0xFFFFFFFD#32).toNat (3#32).toNat AlignHint.word.ceiling).length
    ∧ (handle true [failing]).ready ∧ (0xFFFFFFFF#32).toNat + (0#32).toNat ≤ 2 ^ 32
    ∧ (handle true [failing]).answersFor (decompose (0xFFFFFFFF#32).toNat (0#32).toNat AlignHint.word.ceiling).length := by
  unfold State.ready State.answersFor
  decide +kernel

/-- V-MEM5. -/
theorem witness_WrmemCompletes :
    let s := { handle true [] with cachePresent := true }
    s.ready ∧ hintOf 2#2 = some .word ∧ (0x2000001E#32).toNat + (4#32).toNat ≤ 2 ^ 32
      ∧ [1#8, 2#8, 3#8, 4#8].length = (4#32).toNat ∧ (s.maintenanceOf true 0x2000001E#32 4#32).length = 3
      ∧ s.answersFor ((decompose (0x2000001E#32).toNat (4#32).toNat AlignHint.word.ceiling).length
        + (s.maintenanceOf true 0x2000001E#32 4#32).length) := by
  unfold State.ready State.answersFor
  decide +kernel

/-- The first and the last sub-transfer (V-MEM4). -/
theorem witness_MemoryAccessFaultAtTheFirstFailure :
    let s := handle true [failing]
    let r := handle true [quiet, ⟨[], .failed .backendUnavailable true, 0#32⟩]
    s.ready ∧ r.ready ∧ hintOf 2#2 = some .word ∧ (0x20000003#32).toNat + (5#32).toNat ≤ 2 ^ 32
      ∧ [1#8, 2#8, 3#8, 4#8, 5#8].length = (5#32).toNat
      ∧ (decompose (0x20000003#32).toNat (5#32).toNat AlignHint.word.ceiling).length = 2
      ∧ s.answersFor 0 ∧ (s.choiceAt 0).outcome = .failed .linkError false
      ∧ r.answersFor 1 ∧ (r.choiceAt 1).outcome = .failed .backendUnavailable true := by
  unfold State.ready State.answersFor
  decide +kernel

theorem witness_CacheMaintenanceCoversTheSpan : configWf defaultConfig = true ∧ 0 < 1
    ∧ (0xFFFFFFFF#32).toNat + 1 ≤ 2 ^ 32 := by decide +kernel

theorem witness_WrmemStoresItsSpan :
    let s := { handle true [] with cachePresent := true }
    let n := (decompose (0xDFFFFFFE#32).toNat (2#32).toNat AlignHint.word.ceiling).length
      + (s.maintenanceOf true 0xDFFFFFFE#32 2#32).length
    s.ready ∧ configWf s.cfg = true ∧ hintOf 2#2 = some .word ∧ (0xDFFFFFFE#32).toNat + (2#32).toNat ≤ 2 ^ 32
      ∧ [0xA1#8, 0xA2#8].length = (2#32).toNat ∧ s.answersFor n ∧ s.quietFor n ∧ s.target.dcache = []
      ∧ s.target.mem.wf = true ∧ ∀ k, k < (2#32).toNat → plainAddress s.cfg (0xDFFFFFFE#32 + BitVec.ofNat 32 k) := by
  unfold State.ready State.answersFor State.quietFor plainAddress
  decide +kernel

/-- P2 steps 1 and 2. -/
theorem witness_WriteThenReadReturnsTheBytes :
    let s := handle true []
    let n := (decompose (0x20000001#32).toNat (7#32).toNat AlignHint.word.ceiling).length
      + (s.maintenanceOf false 0x20000001#32 7#32).length
      + (decompose (0x20000001#32).toNat (7#32).toNat AlignHint.halfword.ceiling).length
    s.ready ∧ configWf s.cfg = true ∧ hintOf 2#2 = some .word ∧ hintOf 1#2 = some .halfword
      ∧ (0x20000001#32).toNat + (7#32).toNat ≤ 2 ^ 32
      ∧ [0xA1#8, 0xA2#8, 0xA3#8, 0xA4#8, 0xA5#8, 0xA6#8, 0xA7#8].length = (7#32).toNat ∧ s.answersFor n ∧ s.quietFor n
      ∧ s.target.dcache = [] ∧ s.target.mem.wf = true
      ∧ ∀ k, k < (7#32).toNat → plainAddress s.cfg (0x20000001#32 + BitVec.ofNat 32 k) := by
  unfold State.ready State.answersFor State.quietFor plainAddress
  decide +kernel

/-- V-MEM4. -/
theorem witness_AFailedWrmemLeavesAPrefix :
    let s := handle true [quiet, ⟨[], .failed .linkError true, 0#32⟩]
    s.ready ∧ configWf s.cfg = true ∧ hintOf 2#2 = some .word ∧ (0x20000003#32).toNat + (5#32).toNat ≤ 2 ^ 32
      ∧ [0x11#8, 0x22#8, 0x33#8, 0x44#8, 0x55#8].length = (5#32).toNat
      ∧ 1 < (decompose (0x20000003#32).toNat (5#32).toNat AlignHint.word.ceiling).length
      ∧ s.answersFor 1 ∧ s.quietFor (1 + 1) ∧ (s.choiceAt 1).outcome = .failed .linkError true
      ∧ s.target.mem.wf = true ∧ ∀ k, k < (5#32).toNat → plainAddress s.cfg (0x20000003#32 + BitVec.ofNat 32 k) := by
  unfold State.ready State.answersFor State.quietFor plainAddress
  decide +kernel

theorem witness_MemoryAndCoreFrame : ∃ t, (∀ hint code addr len bytes, Instr.detach ≠ .wrmem hint code addr len bytes)
    ∧ configWf (handle true []).cfg = true ∧ exec .detach (handle true []) = .next t
    ∧ (handle true []).quietFor (t.tick - (handle true []).tick) ∧ (handle true []).target.dcache = [] := by
  refine ⟨_, by simp, configWf_default, rfl, ?_, rfl⟩
  unfold State.quietFor
  decide +kernel

/-- A handle with three of its four breakpoint slots in use. -/
def threeSet : State :=
  { handle true [] with
    fpbOn := true
    bp := (((Vector.replicate 15 freeBp).setIfInBounds 0 ⟨true, 0x08000200#32⟩).setIfInBounds 1
      ⟨true, 0x08000300#32⟩).setIfInBounds 2 ⟨true, 0x08000400#32⟩ }

/-- The unit not yet enabled, the first slot; and the unit enabled, the last slot, whose write fails. -/
theorem witness_SetbpOfANewAddress :
    let s := handle true []
    let r := { threeSet with env := [failing] }
    let m := maskedAddress s.cfg 0x08000101#32
    (∃ s1 u, s.ready ∧ 0 < s.nBp.toNat
      ∧ (∀ j, j < s.nBp.toNat → (s.bpSlot j).inUse = true → (s.bpSlot j).codeAddress ≠ m)
      ∧ (s.bpSlot 0).inUse = false ∧ s.fpbOn = false
      ∧ s.accept.writes s.cfg.addrFpCtrl (fpbEnableWord s.cfg) s1
      ∧ s1.setFpbOn.writes (addrFpComp s.cfg 0) (m ||| bitAt s.cfg.bitFpCompEnable true) u) ∧
    ∃ u, r.ready ∧ 3 < r.nBp.toNat
      ∧ (∀ j, j < r.nBp.toNat → (r.bpSlot j).inUse = true → (r.bpSlot j).codeAddress ≠ m)
      ∧ (∀ j, j < 3 → (r.bpSlot j).inUse = true) ∧ (r.bpSlot 3).inUse = false ∧ r.fpbOn = true
      ∧ portWrite32 (addrFpComp r.cfg 3) (m ||| bitAt r.cfg.bitFpCompEnable true) r.accept = (.fail .linkError, u) := by
  intro s r m
  exact ⟨⟨_, _, ⟨rfl, rfl⟩, by decide +kernel, by decide +kernel, by decide +kernel, rfl, writes_of (by decide +kernel),
    writes_of (by decide +kernel)⟩, ⟨_, ⟨rfl, rfl⟩, by decide +kernel, by decide +kernel, by decide +kernel,
    by decide +kernel, rfl, fails_of (by decide +kernel)⟩⟩

/-- V-BP3 and V-BP8: a full pool and an empty one; and a third triple in a full pool of two. -/
theorem witness_NoFreeSlotExactlyWhenFull :
    let s := { threeSet with nBp := 3#4 }
    ∃ t u w, s.ready ∧ exec (.setbp 0x08000500#32) s = .next t ∧ t.responses = s.responses ++ [.failed .noFreeSlot]
      ∧ State.ready { s with nBp := 0#4 } ∧ exec (.setbp 0x08000200#32) { s with nBp := 0#4 } = .next u
      ∧ u.responses = s.responses ++ [.failed .noFreeSlot]
      ∧ watched.ready ∧ accessOf 1#2 = some .read
      ∧ (watched.cfg.wpEnc.at watched.variant = .v2 → sizeClassOf 0#2 ≠ .doubleword)
      ∧ exec (.setwp 0#2 1#2 0x20000300#32) watched = .next w
      ∧ w.responses = watched.responses ++ [.failed .noFreeSlot]
      ∧ watched.cfg.wpEnc.at .v8M = .v2 ∧ sizeClassOf 2#2 ≠ .doubleword :=
  ⟨_, _, _, ⟨rfl, rfl⟩, rfl, by decide +kernel, ⟨rfl, rfl⟩, rfl, by decide +kernel, ⟨rfl, rfl⟩, rfl, by decide +kernel,
    rfl, by decide +kernel, by decide +kernel, by decide +kernel⟩

theorem breakpointsOk_threeSet : threeSet.breakpointsOk := by
  have h : ∀ i j : Fin 15, (i.val == j.val || !(threeSet.bpSlot i).inUse || !(threeSet.bpSlot j).inUse
      || (threeSet.bpSlot i).codeAddress != (threeSet.bpSlot j).codeAddress) = true := by decide +kernel
  refine ⟨by decide +kernel, fun i j hi hj hij hu hv => ?_⟩
  have := h ⟨i, hi⟩ ⟨j, hj⟩
  simpa [hij, hu, hv] using this

/-- The first and the last slot in use; a new address, given twice. -/
theorem witness_SetbpIsIdempotent : threeSet.ready ∧ threeSet.breakpointsOk ∧ 2 < threeSet.nBp.toNat
    ∧ (threeSet.bpSlot 2).inUse = true
    ∧ (threeSet.bpSlot 2).codeAddress = maskedAddress threeSet.cfg 0x08000401#32
    ∧ (threeSet.bpSlot 0).inUse = true
    ∧ (threeSet.bpSlot 0).codeAddress = maskedAddress threeSet.cfg 0x08000200#32
    ∧ maskedAddress threeSet.cfg 0x08000501#32 = maskedAddress threeSet.cfg 0x08000500#32
    ∧ ∃ t, exec (.setbp 0x08000500#32) threeSet = .next t ∧ t.responses = threeSet.responses ++ [.ok (.slot 3#4)] :=
  ⟨⟨rfl, rfl⟩, breakpointsOk_threeSet, by decide +kernel, by decide +kernel, by decide +kernel, by decide +kernel,
    by decide +kernel, by decide +kernel, _, rfl, by decide +kernel⟩

/-- The last slot, with the write answered and failed. -/
theorem witness_ClrbpFreesTheSlot :
    let r := { threeSet with env := [failing] }
    ∃ u v, threeSet.ready ∧ (3#4).toNat < threeSet.nBp.toNat
      ∧ threeSet.accept.writes (addrFpComp threeSet.cfg (3#4).toNat) 0#32 u ∧ r.ready
      ∧ portWrite32 (addrFpComp r.cfg (3#4).toNat) 0#32 r.accept = (.fail .linkError, v) := by
  intro r
  exact ⟨_, _, ⟨rfl, rfl⟩, by decide +kernel, writes_of (by decide +kernel), ⟨rfl, rfl⟩, fails_of (by decide +kernel)⟩

theorem witness_SetbpThenClrbpRestores : ∃ t, threeSet.ready ∧ configWf threeSet.cfg = true
    ∧ threeSet.bpHolding (maskedAddress threeSet.cfg 0x08000500#32) = none
    ∧ threeSet.answersFor 3 ∧ threeSet.quietFor 3
    ∧ exec (.setbp 0x08000500#32) threeSet = .next t ∧ t.responses = threeSet.responses ++ [.ok (.slot 3#4)]
    ∧ threeSet.target.dbg.fpComp.getD (3#4).toNat 0#32 = 0#32 := by
  unfold State.answersFor State.quietFor
  exact ⟨_, ⟨rfl, rfl⟩, configWf_default, by decide +kernel, by decide +kernel, by decide +kernel, rfl,
    by decide +kernel, by decide +kernel⟩

/-- The legacy encoding, first slot. -/
theorem witness_SetwpOfANewWatch_legacy :
    let s := handle true []
    s.ready ∧ accessOf 2#2 = some .write ∧ 0 < s.nWp.toNat
      ∧ (∀ j, j < s.nWp.toNat → (s.wpSlot j).inUse = true → s.wpSlot j ≠ ⟨true, 0x20000100#32, sizeClassOf 3#2, .write⟩)
      ∧ (s.wpSlot 0).inUse = false ∧ s.cfg.wpEnc.at s.variant = .legacy
      ∧ writesAnswered [(addrDwtComp s.cfg 0, 0x20000100#32), (addrDwtMask s.cfg 0, (3#2).setWidth 32),
          (addrDwtFunction s.cfg 0, wpFuncLegacy s.cfg .write)] s.accept := by
  intro s
  exact ⟨⟨rfl, rfl⟩, rfl, by decide +kernel, by decide +kernel, by decide +kernel, by decide +kernel,
    writesAnswered_of (by decide +kernel)⟩

/-- The newer encoding, last slot. -/
theorem witness_SetwpOfANewWatch_v2 :
    let s := { watched with variant := .v8M, wp := (Vector.replicate 15 freeWp).setIfInBounds 0 (watched.wpSlot 0) }
    s.ready ∧ accessOf 3#2 = some .access ∧ 1 < s.nWp.toNat
      ∧ (∀ j, j < s.nWp.toNat → (s.wpSlot j).inUse = true → s.wpSlot j ≠ ⟨true, 0x20000300#32, sizeClassOf 2#2, .access⟩)
      ∧ (∀ j, j < 1 → (s.wpSlot j).inUse = true) ∧ (s.wpSlot 1).inUse = false ∧ s.cfg.wpEnc.at s.variant = .v2
      ∧ wpLenV2 s.cfg (sizeClassOf 2#2) = some 2#32
      ∧ writesAnswered [(addrDwtComp s.cfg 1, 0x20000300#32), (addrDwtFunction s.cfg 1, wpMatchV2 s.cfg .access
          ||| s.cfg.v2ActionDebugEvent <<< s.cfg.v2ActionLo ||| 2#32 <<< s.cfg.v2LenLo)] s.accept := by
  intro s
  exact ⟨⟨rfl, rfl⟩, rfl, by decide +kernel, by decide +kernel, by decide +kernel, by decide +kernel, by decide +kernel,
    by decide +kernel, writesAnswered_of (by decide +kernel)⟩

theorem watchpointsOk_watched : watched.watchpointsOk := by
  have h : ∀ i j : Fin 15, (i.val == j.val || !(watched.wpSlot i).inUse || !(watched.wpSlot j).inUse
      || watched.wpSlot i != watched.wpSlot j) = true := by decide +kernel
  refine ⟨by decide +kernel, fun i j hi hj hij hu hv => ?_⟩
  have := h ⟨i, hi⟩ ⟨j, hj⟩
  simpa [hij, hu, hv] using this

/-- An active triple in the last slot of a full pool; a new triple, given twice. -/
theorem witness_SetwpIsIdempotent :
    let s := handle true []
    ∃ t, watched.ready ∧ accessOf 1#2 = some .read
      ∧ (watched.cfg.wpEnc.at watched.variant = .v2 → sizeClassOf 0#2 ≠ .doubleword) ∧ watched.watchpointsOk
      ∧ 1 < watched.nWp.toNat ∧ watched.wpSlot 1 = ⟨true, 0x20000200#32, sizeClassOf 0#2, .read⟩
      ∧ s.ready ∧ exec (.setwp 3#2 3#2 0x20000100#32) s = .next t ∧ t.responses = s.responses ++ [.ok (.slot 0#4)] :=
  ⟨_, ⟨rfl, rfl⟩, rfl, by decide +kernel, watchpointsOk_watched, by decide +kernel, by decide +kernel, ⟨rfl, rfl⟩, rfl,
    by decide +kernel⟩

/-- The last slot, with the write answered and failed. -/
theorem witness_ClrwpFreesTheSlot :
    let r := { watched with env := [failing] }
    ∃ u v, watched.ready ∧ (1#4).toNat < watched.nWp.toNat
      ∧ watched.accept.writes (addrDwtFunction watched.cfg (1#4).toNat) 0#32 u ∧ r.ready
      ∧ portWrite32 (addrDwtFunction r.cfg (1#4).toNat) 0#32 r.accept = (.fail .linkError, v) := by
  intro r
  exact ⟨_, _, ⟨rfl, rfl⟩, by decide +kernel, writes_of (by decide +kernel), ⟨rfl, rfl⟩, fails_of (by decide +kernel)⟩

theorem witness_SetwpThenClrwpRestores :
    let s := handle true []
    ∃ t, s.ready ∧ configWf s.cfg = true ∧ s.answersFor 4 ∧ (0#4).toNat < s.cfg.dwtCount
      ∧ exec (.setwp 3#2 3#2 0x20000100#32) s = .next t ∧ t.responses = s.responses ++ [.ok (.slot 0#4)] := by
  unfold State.answersFor
  exact ⟨_, ⟨rfl, rfl⟩, configWf_default, by decide +kernel, by decide +kernel, rfl, by decide +kernel⟩

/-- The snapshot held; a running core; a core halted by itself. -/
theorem witness_HaltreasonAnswers :
    let s := handle false []
    let r := handle false [doing [.externalHalt true]]
    State.ready { s with hrValid := true } ∧ s.ready ∧ s.hrValid = false
      ∧ (∃ s1, s.accept.reads s.cfg.addrDhcsr 0x00010001#32 s1 ∧ statusHalted s.cfg 0x00010001#32 = false)
      ∧ r.ready ∧ r.hrValid = false
      ∧ ∃ r1 h t, r.accept.reads r.cfg.addrDhcsr 0x00030001#32 r1 ∧ statusHalted r.cfg 0x00030001#32 = true
        ∧ r1.captures h t := by
  intro s r
  obtain ⟨t, ht⟩ := captures_of (s := (portRead32 r.cfg.addrDhcsr r.accept).2) (dfsr := 0x10#32) (hfsr := 0#32)
    (by decide +kernel) (by decide +kernel) (by decide +kernel) (by decide +kernel)
  exact ⟨⟨rfl, rfl⟩, ⟨rfl, rfl⟩, rfl, ⟨_, reads_of (by decide +kernel), by decide +kernel⟩, ⟨rfl, rfl⟩, rfl,
    _, _, t, reads_of (by decide +kernel), by decide +kernel, ht⟩

/-- The target of `watched` once the match has halted it, with either or both comparators matched. -/
def matchedState (matched : Vector Bool 15) : State :=
  { watched with
    env := List.replicate 30 quiet
    target := { watched.target with dbg := { watched.target.dbg with
      halted := true, dfsr := { noFlags with dwttrap := true }, matched := matched } } }

/-- The last slot alone, and the first of two. -/
theorem witness_AWatchpointHaltIsAttributed (both : Bool) :
    let s := matchedState ((Vector.replicate 15 false).setIfInBounds 1 true |>.setIfInBounds 0 both)
    let i := if both then 0 else 1
    s.ready ∧ configWf s.cfg = true ∧ s.hrValid = false ∧ s.answersFor (s.nWp.toNat + 4) ∧ s.quietFor (s.nWp.toNat + 4)
      ∧ s.nWp.toNat ≤ s.cfg.dwtCount ∧ s.target.dbg.halted = true ∧ s.target.dbg.dfsr.dwttrap = true
      ∧ i < s.nWp.toNat ∧ (s.wpSlot i).inUse = true ∧ s.target.dbg.matched.getD i false = true
      ∧ ∀ j, j < i → (s.wpSlot j).inUse = true → s.target.dbg.matched.getD j false = false := by
  unfold State.ready State.answersFor State.quietFor
  cases both <;> decide +kernel

/-- The vector catch armed and the reset seen at once; not armed, and seen at the last read. -/
theorem witness_ResetCompletes :
    let s := handle true [quiet, quiet, quiet, doing [.systemReset .requested resetCore resetDebug]]
    let r := handle true [quiet, quiet, quiet, quiet, doing [.systemReset .other resetCore resetDebug]]
    (∃ u s0 s1, s.ready ∧ s.accept.reads s.cfg.addrDemcr 0#32 u
      ∧ u.writes s.cfg.addrDemcr (0#32 ||| bitAt s.cfg.bitVcCoreReset true) s0
      ∧ s0.writes s.cfg.addrAircr (keyWord s.cfg.vectKey ||| bitAt s.cfg.bitSysResetReq true) s1
      ∧ 0 < s.cfg.pollMax ∧ pollFindsAt s.cfg.addrDhcsr (statusResetSeen s.cfg) 0 s1.dropHr) ∧
    ∃ r1, r.ready ∧ r.accept.writes r.cfg.addrAircr (keyWord r.cfg.vectKey ||| bitAt r.cfg.bitSysResetReq true) r1
      ∧ 3 < r.cfg.pollMax ∧ pollFindsAt r.cfg.addrDhcsr (statusResetSeen r.cfg) 3 r1.dropHr := by
  intro s r
  exact ⟨⟨_, _, _, ⟨rfl, rfl⟩, reads_of (by decide +kernel), writes_of (by decide +kernel), writes_of (by decide +kernel),
    by decide +kernel, pollFindsAt_of (by decide +kernel) (by decide +kernel)⟩, ⟨_, ⟨rfl, rfl⟩,
    writes_of (by decide +kernel), by decide +kernel, pollFindsAt_of (by decide +kernel) (by decide +kernel)⟩⟩

theorem witness_ResetWithCatchHaltsAtTheResetVector (settled : Bool) :
    let es := .systemReset .requested resetCore resetDebug :: (if settled then [.vectorCatchHalts] else [])
    let s := handle false [quiet, quiet, quiet, doing es]
    s.ready ∧ configWf s.cfg = true ∧ s.answersFor 4 ∧ s.target.dbg.ctl.debugEnable = true
      ∧ ∀ k, k < 4 → (s.choiceAt k).events
        = if k = 3 then .systemReset .requested resetCore resetDebug :: (if settled then [.vectorCatchHalts] else [])
          else [] := by
  unfold State.ready State.answersFor
  cases settled <;> decide +kernel

theorem witness_AStepAdvancesByOneInstruction :
    let hits : List DataAccess := [⟨0, 0x20000100#32, true⟩]
    let s := handle true [quiet, doing [.stepRetires (.sequential 2#32) noFlags hits]]
    s.ready ∧ configWf s.cfg = true ∧ s.answersFor (s.nWp.toNat + 6) ∧ s.cw.debugEnable = true
      ∧ s.target.dbg.halted = true ∧ s.target.dbg.catchPending = false
      ∧ ∀ k, k < s.nWp.toNat + 6 → (s.choiceAt k).events
        = if k = 1 then [.stepRetires (.sequential 2#32) noFlags hits] else [] := by
  unfold State.ready State.answersFor
  decide +kernel

/-- A word without the key, one with it that keeps debug enabled, and one with it that does not. -/
theorem witness_TheControlRegister : configWf defaultConfig = true ∧ upperHalf 0xA05E0001#32 ≠ defaultConfig.dbgKey
    ∧ upperHalf 0xA05F000F#32 = defaultConfig.dbgKey ∧ upperHalf 0xA05F0000#32 = defaultConfig.dbgKey
    ∧ (0xA05F0000#32).getLsbD defaultConfig.bitCDebugEn = false := by decide +kernel

theorem witness_TheDebugUnits : configWf defaultConfig = true ∧ (1#32).getLsbD defaultConfig.bitFpKey = false
    ∧ upperHalf 0x05FB0004#32 ≠ defaultConfig.vectKey ∧ dwtWorks defaultConfig (sampleTarget true).dbg = true
    ∧ 0 < 15 ∧ 1 < 15 ∧ 1 < defaultConfig.dwtCount ∧ (sampleTarget true).dbg.halted = true := by decide +kernel

/-- A core at a comparator's address, a core that stores where comparator 0 watches, and a core asked to halt. -/
theorem witness_DebugEventsHaltTheCore :
    let d := (sampleTarget false).dbg
    let t := { sampleTarget false with dbg := { d with
      fpbEnabled := true, fpComp := (Vector.replicate 15 0#32).setIfInBounds 3 0x08000101#32
      ctl := { d.ctl with haltRequest := true } } }
    t.dbg.halted = false ∧ (t.event defaultConfig (.halts [.comparator 3])).dbg.halted = true
      ∧ (t.event defaultConfig (.halts [.request])).dbg.halted = true
      ∧ configWf defaultConfig = true ∧ watched.target.dbg.halted = false ∧ 1 < 15
      ∧ (watched.target.event defaultConfig (.halts [.watchpoint [⟨1, 0x20000200#32, false⟩]])).dbg.halted = true
      ∧ (watched.target.event defaultConfig (.halts [.watchpoint [⟨0, 0x20000103#32, true⟩]])).dbg.halted = true
      ∧ (Target.event defaultConfig { t with dbg := { t.dbg with demcr := 0x400#32 } } (.halts [.vectorCatch 10])).dbg.halted
        = true
      ∧ HaltCause.holds defaultConfig t (.comparator 3) = true ∧ HaltCause.holds defaultConfig t .request = true
      ∧ (t.event defaultConfig (.halts [.comparator 3, .request])).dbg.dfsr
        = { noFlags with bkpt := true, halted := true } := by
  decide +kernel

theorem witness_CacheOperations :
    let t := { sampleTarget true with dcache := [(0x2000001F, 7#8), (0x20000020, 9#8)] }
    let cached := { defaultConfig with targetHasCache := true }
    configWf defaultConfig = true ∧ defaultConfig.targetHasCache = false ∧ configWf cached = true
      ∧ cached.targetHasCache = true ∧ t.mem.wf = true ∧ (0x2000001F, 7#8) ∈ t.dcache
      ∧ (∀ d ∈ t.dcache, d.1 = 0x2000001F → d = (0x2000001F, 7#8)) ∧ 0x2000001F < 2 ^ 32
      ∧ 0x2000001F / defaultConfig.targetLine = (0x20000000#32).toNat / defaultConfig.targetLine
      ∧ 0x20000020 / defaultConfig.targetLine ≠ (0x20000000#32).toNat / defaultConfig.targetLine := by decide +kernel

/-- A handle with breakpoints and watchpoints set and a watchpoint halt attributed to the last slot. -/
theorem witness_EveryStepKeepsTheHandle :
    let s := { threeSet with
      wp := watched.wp, hrValid := true, hr := ⟨false, false, true, false, false, true, 1#4⟩
      commands := [words [0xC0000001#32]] }
    ∃ t, s.attached = true ∧ s.handleOk ∧ step s = .next t := by
  intro s
  refine ⟨_, rfl, fun _ => ⟨rfl, breakpointsOk_threeSet, watchpointsOk_watched, fun _ => rfl, fun _ _ => ?_⟩, rfl⟩
  decide +kernel

theorem witness_EveryStepKeepsCwTheLastControlWord :
    let s := { handle true [] with
      trace := [.wr32 0xE000EDF0#32 0xA05F0001#32 (.ok ()), .rd32 0xE000EDF0#32 (.ok 1#32)]
      commands := [words [0x30000002#32]] }
    ∃ t, configWf s.cfg = true ∧ s.attached = true ∧ s.cwFollowsRegister ∧ step s = .next t := by
  intro s
  refine ⟨_, configWf_default, rfl, ?_, rfl⟩
  unfold State.cwFollowsRegister
  decide +kernel

theorem witness_EveryStepKeepsMemoryCanonical :
    let s := { handle true [doing [.storeByte 0x20000001#32 0#8]] with
      commands := [words [0x80000002#32, 0x20000000#32, 1#32] ++ [0#8]]
      target := { sampleTarget true with mem := [(0x20000000, 5#8), (0x20000001, 6#8)] } }
    ∃ t, s.target.mem.wf = true ∧ step s = .next t := by
  intro s
  exact ⟨_, by decide +kernel, rfl⟩

theorem witness_TransactionsAreKeyedAndAligned :
    ∃ t, configWf (handle true []).cfg = true ∧ exec (.rdmem 2#2 0x20000001#32 8#32) (handle true []) = .next t :=
  ⟨_, configWf_default, rfl⟩

end Sys2Proof.Tests
end

section
/-! SUPPORT. What a command can do to the controller: one relation for the transactions it makes, and one lemma per
command that says everything it can do to the registers of R20 and to the control words in the trace. -/

namespace Sys2Proof.Machine

/-! ### Relations that the shared operations keep -/

section
variable {R : State → State → Prop} (hr : ∀ s, R s s) (ht : ∀ s t u, R s t → R t u → R s u)
include hr ht

/-- A relation that every word read keeps, a poll keeps. -/
theorem poll_keeps (hrd : ∀ a, (rd32 a).Keeps R) (a : Word) (pred : Word → Bool) (n : Nat) :
    (poll a pred n).Keeps R := by
  induction n with
  | zero => exact Cmd.keeps_pure hr false
  | succ n ih =>
    refine Cmd.keeps_bind ht (hrd a) fun v => ?_
    split
    · exact Cmd.keeps_pure hr true
    · exact ih

theorem awaitStatus_keeps (hrd : ∀ a, (rd32 a).Keeps R) (pred : Config → Word → Bool) (timeout : Failure) :
    (awaitStatus pred timeout).Keeps R := by
  refine Cmd.keeps_bind ht (Cmd.keeps_get hr) fun s => ?_
  refine Cmd.keeps_bind ht (poll_keeps hr ht hrd _ _ _) fun found => ?_
  cases found
  · exact Cmd.keeps_raise hr timeout
  · exact Cmd.keeps_pure hr ()

theorem scanWatchpoints_keeps (hrd : ∀ a, (rd32 a).Keeps R) (h : HaltReason) (slots : List Nat) :
    (scanWatchpoints h slots).Keeps R := by
  induction slots generalizing h with
  | nil => exact Cmd.keeps_pure hr h
  | cons i rest ih =>
    refine Cmd.keeps_bind ht (Cmd.keeps_get hr) fun s => ?_
    split
    · refine Cmd.keeps_bind ht (hrd _) fun f => ?_
      split
      · exact ih _
      · exact ih h
    · exact ih h

theorem attributeHalt_keeps (hrd : ∀ a, (rd32 a).Keeps R) (h : HaltReason) : (attributeHalt h).Keeps R := by
  refine Cmd.keeps_bind ht (Cmd.keeps_get hr) fun s => ?_
  split
  · exact scanWatchpoints_keeps hr ht hrd h _
  · exact Cmd.keeps_pure hr h

/-- A relation that each write of a list keeps, the whole list keeps. -/
theorem writeAll_keeps {ws : List (Word × Word)} (hw : ∀ w ∈ ws, (wr32 w.1 w.2).Keeps R) : (writeAll ws).Keeps R := by
  induction ws with
  | nil => exact Cmd.keeps_pure hr ()
  | cons w rest ih =>
    exact Cmd.keeps_bind ht (hw w List.mem_cons_self) fun _ => ih fun w' h' => hw w' (List.mem_cons_of_mem w h')

theorem readTransfers_keeps (hm : ∀ a n, (memRead a n).Keeps R) (l : List (Nat × Nat)) : (readTransfers l).Keeps R := by
  induction l with
  | nil => exact Cmd.keeps_pure hr []
  | cons p rest ih =>
    exact Cmd.keeps_bind ht (hm _ _) fun _ => Cmd.keeps_bind ht ih fun _ => Cmd.keeps_pure hr _

theorem writeTransfers_keeps (hm : ∀ a bs, (memWrite a bs).Keeps R) (base : Nat) (bytes : List Byte)
    (l : List (Nat × Nat)) : (writeTransfers base bytes l).Keeps R := by
  induction l with
  | nil => exact Cmd.keeps_pure hr ()
  | cons p rest ih => exact Cmd.keeps_bind ht (hm _ _) fun _ => ih

end

/-! ### Transactions that write no control word -/

/-- The last control word of a longer trace: the new entry's, if it is an answered control-register write (R23). -/
theorem lastControlWrite_snoc (cfg : Config) (trace : List TraceEntry) (e : TraceEntry) :
    lastControlWrite cfg (trace ++ [e]) = (e.controlWrite cfg).or (lastControlWrite cfg trace) := by
  unfold lastControlWrite
  rw [List.filterMap_append]
  cases h : e.controlWrite cfg <;> simp [h]

/-- An address that is not the control register's, in a configuration that meets the constraints of G1. -/
def OffControl (cfg : Config) (a : Word) : Prop := configWf cfg = true → a ≠ cfg.addrDhcsr

/-- Every other register of the map has its own address (R72, R73). -/
theorem offControl_address (cfg : Config) {r : Reg} (hr : r ∈ mapRegs) (hne : r ≠ .dhcsr) :
    OffControl cfg (r.address cfg) :=
  fun hwf he => hne (address_injective hwf hr (q := .dhcsr) (by simp [mapRegs]) he)

theorem offControl_fpComp (cfg : Config) {i : Nat} (h : i < 15) : OffControl cfg (addrFpComp cfg i) :=
  offControl_address cfg (mem_mapRegs_fpComp h) (by simp)

theorem offControl_dwtComp (cfg : Config) {i : Nat} (h : i < 15) : OffControl cfg (addrDwtComp cfg i) :=
  offControl_address cfg (mem_mapRegs_dwtComp h) (by simp)

theorem offControl_dwtMask (cfg : Config) {i : Nat} (h : i < 15) : OffControl cfg (addrDwtMask cfg i) :=
  offControl_address cfg (mem_mapRegs_dwtMask h) (by simp)

theorem offControl_dwtFunction (cfg : Config) {i : Nat} (h : i < 15) : OffControl cfg (addrDwtFunction cfg i) :=
  offControl_address cfg (mem_mapRegs_dwtFunction h) (by simp)

theorem offControl_dcrsr (cfg : Config) : OffControl cfg cfg.addrDcrsr :=
  offControl_address cfg (r := .dcrsr) (by simp [mapRegs]) (by simp)

theorem offControl_dcrdr (cfg : Config) : OffControl cfg cfg.addrDcrdr :=
  offControl_address cfg (r := .dcrdr) (by simp [mapRegs]) (by simp)

theorem offControl_demcr (cfg : Config) : OffControl cfg cfg.addrDemcr :=
  offControl_address cfg (r := .demcr) (by simp [mapRegs]) (by simp)

theorem offControl_dfsr (cfg : Config) : OffControl cfg cfg.addrDfsr :=
  offControl_address cfg (r := .dfsr) (by simp [mapRegs]) (by simp)

theorem offControl_aircr (cfg : Config) : OffControl cfg cfg.addrAircr :=
  offControl_address cfg (r := .aircr) (by simp [mapRegs]) (by simp)

theorem offControl_iciallu (cfg : Config) : OffControl cfg cfg.addrIciallu :=
  offControl_address cfg (r := .iciallu) (by simp [mapRegs]) (by simp)

theorem offControl_dccmvac (cfg : Config) : OffControl cfg cfg.addrDccmvac :=
  offControl_address cfg (r := .dccmvac) (by simp [mapRegs]) (by simp)

theorem offControl_fpCtrl (cfg : Config) : OffControl cfg cfg.addrFpCtrl :=
  offControl_address cfg (r := .fpCtrl) (by simp [mapRegs]) (by simp)

/-- A slot below a count of four bits is a slot of the table (R25). -/
theorem slot_lt_cap {n : BitVec 4} {i : Nat} (h : i < n.toNat) : i < 15 := by
  have := n.isLt
  omega

theorem offControl_sweepWrites (cfg : Config) (nBp nWp : BitVec 4) :
    ∀ w ∈ sweepWrites cfg nBp.toNat nWp.toNat, OffControl cfg w.1 := by
  intro w hw
  simp only [sweepWrites, List.mem_append, List.mem_map, List.mem_range] at hw
  rcases hw with ⟨i, hi, rfl⟩ | ⟨i, hi, rfl⟩
  · exact offControl_fpComp cfg (slot_lt_cap hi)
  · exact offControl_dwtFunction cfg (slot_lt_cap hi)

theorem offControl_cacheWrites (cfg : Config) (addr : Word) (len : Nat) :
    ∀ w ∈ cacheWrites cfg addr len, OffControl cfg w.1 := by
  intro w hw
  simp only [cacheWrites, List.mem_cons, List.mem_map] at hw
  rcases hw with rfl | ⟨l, _, rfl⟩
  · exact offControl_iciallu cfg
  · exact offControl_dccmvac cfg

/-- The writes of a watchpoint go to its own comparator (R222). -/
theorem offControl_armWrites {cfg : Config} {encoding : WpEncoding} {i : Nat} {size : SizeClass} {kind : AccessType}
    {ws : List (Word × Word)} (hi : i < 15) (h : armWrites cfg encoding i size kind = some ws) :
    ∀ w ∈ ws, OffControl cfg w.1 := by
  cases encoding with
  | legacy =>
    cases h
    intro w hw
    rcases List.mem_pair.mp hw with rfl | rfl
    · exact offControl_dwtMask cfg hi
    · exact offControl_dwtFunction cfg hi
  | v2 =>
    obtain ⟨f, _, rfl⟩ := Option.map_eq_some_iff.mp h
    intro w hw
    cases List.mem_singleton.mp hw
    exact offControl_dwtFunction cfg hi

/-- `t` differs from `s` only by transactions, none of which writes a control word with success (R23). -/
def Accesses (cfg : Config) (s t : State) : Prop :=
  PortOnly s t ∧ (configWf cfg = true → lastControlWrite cfg t.trace = lastControlWrite cfg s.trace)

section
variable (cfg : Config)

theorem accesses_refl (s : State) : Accesses cfg s s := ⟨PortOnly.refl s, fun _ => rfl⟩

theorem accesses_trans (s t u : State) (h : Accesses cfg s t) (h' : Accesses cfg t u) : Accesses cfg s u :=
  ⟨h.1.trans h'.1, fun hwf => (h'.2 hwf).trans (h.2 hwf)⟩

theorem accesses_afterTransaction (s : State) (target : Target) {e : TraceEntry}
    (he : configWf cfg = true → e.controlWrite cfg = none) : Accesses cfg s (s.afterTransaction target e) :=
  ⟨PortOnly.afterTransaction s target e, fun hwf => by
    rw [State.afterTransaction_trace, lastControlWrite_snoc, he hwf, Option.none_or]⟩

theorem rd32_accesses (a : Word) : (rd32 a).Keeps (Accesses cfg) := by
  intro s
  have h : Accesses cfg s (portRead32 a s).2 := by
    obtain ⟨target, ht⟩ := portRead32_spec a s
    rw [ht]
    exact accesses_afterTransaction cfg s target fun _ => rfl
  rw [rd32_run]
  cases (portRead32 a s).1 <;> exact h

/-- A write of another register is no control word (R151: `WriteCW` is the one way). -/
theorem wr32_accesses {a : Word} (v : Word) (ha : OffControl cfg a) : (wr32 a v).Keeps (Accesses cfg) := by
  intro s
  have h : Accesses cfg s (portWrite32 a v s).2 := by
    obtain ⟨target, ht⟩ := portWrite32_spec a v s
    rw [ht]
    refine accesses_afterTransaction cfg s target fun hwf => ?_
    cases (portWrite32 a v s).1 with
    | ok _ => exact if_neg (ha hwf)
    | fail _ => rfl
  rw [wr32_run]
  cases (portWrite32 a v s).1 <;> exact h

theorem memRead_accesses (a : Word) (n : Nat) : (memRead a n).Keeps (Accesses cfg) := by
  intro s
  have h : Accesses cfg s (portReadBlock a n s).2 := by
    obtain ⟨target, ht⟩ := portReadBlock_spec a n s
    rw [ht]
    exact accesses_afterTransaction cfg s target fun _ => rfl
  rw [memRead_run]
  cases (portReadBlock a n s).1 <;> exact h

/-- A block write is a sub-transfer of WRMEM's, not a control word of the controller's (R23, R197). -/
theorem memWrite_accesses (a : Word) (bs : List Byte) : (memWrite a bs).Keeps (Accesses cfg) := by
  intro s
  have h : Accesses cfg s (portWriteBlock a bs s).2 := by
    obtain ⟨target, ht⟩ := portWriteBlock_spec a bs s
    rw [ht]
    exact accesses_afterTransaction cfg s target fun _ => rfl
  rw [memWrite_run]
  cases (portWriteBlock a bs s).1 <;> exact h

theorem awaitStatus_accesses (pred : Config → Word → Bool) (timeout : Failure) :
    (awaitStatus pred timeout).Keeps (Accesses cfg) :=
  awaitStatus_keeps (accesses_refl cfg) (accesses_trans cfg) (rd32_accesses cfg) pred timeout

theorem writeAll_accesses {ws : List (Word × Word)} (h : ∀ w ∈ ws, OffControl cfg w.1) :
    (writeAll ws).Keeps (Accesses cfg) :=
  writeAll_keeps (accesses_refl cfg) (accesses_trans cfg) fun w hw => wr32_accesses cfg w.2 (h w hw)

theorem sampleCache_accesses (variant : Variant) : (sampleCache variant).Keeps (Accesses cfg) := by
  refine Cmd.keeps_bind (accesses_trans cfg) (Cmd.keeps_get (accesses_refl cfg)) fun s => ?_
  dsimp only
  split
  · exact Cmd.keeps_bind (accesses_trans cfg) (rd32_accesses cfg _) fun _ => Cmd.keeps_pure (accesses_refl cfg) _
  · exact Cmd.keeps_pure (accesses_refl cfg) _

end

end Sys2Proof.Machine
end

section
/-! SUPPORT. Everything each command can do (R112, R20): `CommandOutcome`, and one lemma per command. -/

namespace Sys2Proof.Machine

/-! ### Where a command in progress has got to -/

/-- A change of the controller's registers: it commutes with transactions and leaves configuration, trace and tick. -/
def RegisterUpdate (f : State → State) : Prop :=
  ∀ (s : State) (target : Target) (trace : List TraceEntry) (tick : Nat),
    f { s with target := target, trace := trace, tick := tick }
      = { f s with target := target, trace := trace, tick := tick }
    ∧ (f s).cfg = s.cfg ∧ (f s).trace = s.trace ∧ (f s).tick = s.tick

theorem registerUpdate_setCw (cw : ControlWord) : RegisterUpdate (·.setCw cw) := fun _ _ _ _ => ⟨rfl, rfl, rfl, rfl⟩
theorem registerUpdate_setFpbOn : RegisterUpdate State.setFpbOn := fun _ _ _ _ => ⟨rfl, rfl, rfl, rfl⟩
theorem registerUpdate_setBp (i : Nat) (slot : BpSlot) : RegisterUpdate (·.setBp i slot) :=
  fun _ _ _ _ => ⟨rfl, rfl, rfl, rfl⟩
theorem registerUpdate_setWp (i : Nat) (slot : WpSlot) : RegisterUpdate (·.setWp i slot) :=
  fun _ _ _ _ => ⟨rfl, rfl, rfl, rfl⟩
theorem registerUpdate_setHr (h : HaltReason) : RegisterUpdate (·.setHr h) := fun _ _ _ _ => ⟨rfl, rfl, rfl, rfl⟩
theorem registerUpdate_dropHr : RegisterUpdate State.dropHr := fun _ _ _ _ => ⟨rfl, rfl, rfl, rfl⟩
theorem registerUpdate_commitAttach (variant : Variant) (cw : ControlWord) (nBp nWp : BitVec 4) (cachePresent : Bool) :
    RegisterUpdate (·.commitAttach variant cw nBp nWp cachePresent) := fun _ _ _ _ => ⟨rfl, rfl, rfl, rfl⟩
theorem registerUpdate_dropHandle : RegisterUpdate State.dropHandle := fun _ _ _ _ => ⟨rfl, rfl, rfl, rfl⟩

theorem PortOnly.update {f : State → State} (hf : RegisterUpdate f) {s t : State} (h : PortOnly s t) :
    PortOnly (f s) (f t) := by
  obtain ⟨target, entries, rfl⟩ := h
  obtain ⟨hcomm, _, htrace, htick⟩ := hf s target (s.trace ++ entries) (s.tick + entries.length)
  exact ⟨target, entries, by rw [hcomm, htrace, htick]⟩

/-- `t` is `b` after transactions, and the last control word written with success is then `w` (R23). -/
def Reached (b : State) (w : Option ControlWord) (t : State) : Prop :=
  PortOnly b t ∧ (configWf b.cfg = true → lastControlWrite b.cfg t.trace = w)

/-- Where a command starts. -/
theorem reached_start (s : State) : Reached s (lastControlWrite s.cfg s.trace) s := ⟨PortOnly.refl s, fun _ => rfl⟩

section
variable {b s t : State} {w : Option ControlWord}

theorem Reached.accesses (h : Reached b w s) (h' : Accesses b.cfg s t) : Reached b w t :=
  ⟨h.1.trans h'.1, fun hwf => (h'.2 hwf).trans (h.2 hwf)⟩

theorem Reached.update {f : State → State} (hf : RegisterUpdate f) (h : Reached b w s) : Reached (f b) w (f s) := by
  obtain ⟨_, hcfg, _, _⟩ := hf b b.target b.trace b.tick
  obtain ⟨_, _, htrace, _⟩ := hf s s.target s.trace s.tick
  exact ⟨h.1.update hf, fun hwf => by rw [hcfg] at hwf ⊢; rw [htrace]; exact h.2 hwf⟩

/-- A control word written with success is the last one then (R151, R121). -/
theorem Reached.controlWrite_ok (h : Reached b w s) {cw : ControlWord} {u : Unit}
    (ha : (portWrite32 b.cfg.addrDhcsr (dhcsrWord b.cfg cw) s).1 = .ok u) :
    Reached b (some cw) (portWrite32 b.cfg.addrDhcsr (dhcsrWord b.cfg cw) s).2 := by
  refine ⟨h.1.trans (portWrite32_portOnly _ _ s), fun hwf => ?_⟩
  obtain ⟨target, ht⟩ := portWrite32_spec b.cfg.addrDhcsr (dhcsrWord b.cfg cw) s
  have he : (TraceEntry.wr32 b.cfg.addrDhcsr (dhcsrWord b.cfg cw) (.ok u)).controlWrite b.cfg = some cw := by
    simp [TraceEntry.controlWrite, controlBits_dhcsrWord hwf cw]
  rw [ht, ha, State.afterTransaction_trace, lastControlWrite_snoc, he, Option.some_or]

/-- A control word whose write fails leaves the last one as it was (R151). -/
theorem Reached.controlWrite_fail (h : Reached b w s) {cw : ControlWord} {f : PortFailure}
    (ha : (portWrite32 b.cfg.addrDhcsr (dhcsrWord b.cfg cw) s).1 = .fail f) :
    Reached b w (portWrite32 b.cfg.addrDhcsr (dhcsrWord b.cfg cw) s).2 := by
  obtain ⟨target, ht⟩ := portWrite32_spec b.cfg.addrDhcsr (dhcsrWord b.cfg cw) s
  rw [ht, ha]
  exact h.accesses (accesses_afterTransaction b.cfg s target fun _ => rfl)

end

/-! ### What holds where a command in progress ends -/

/-- The command ends from `s` with a value and a state that meet `Q`, or with a failure and a state that meet `E`. -/
def Cmd.Ends {α : Type} (c : Cmd α) (s : State) (Q : α → State → Prop) (E : Failure → State → Prop) : Prop :=
  match c s with
  | .ok a t => Q a t
  | .error f t => E f t

section
variable {α β : Type} {s : State} {Q : β → State → Prop} {E : Failure → State → Prop}

theorem Cmd.Ends.of_ok {c : Cmd β} {b : β} {t : State} (h : c s = .ok b t) (hq : Q b t) : c.Ends s Q E := by
  unfold Cmd.Ends; rw [h]; exact hq

theorem Cmd.Ends.of_error {c : Cmd β} {f : Failure} {t : State} (h : c s = .error f t) (he : E f t) :
    c.Ends s Q E := by
  unfold Cmd.Ends; rw [h]; exact he

theorem Cmd.ends_congr {c c' : Cmd β} (h : c s = c' s) (h' : c'.Ends s Q E) : c.Ends s Q E := by
  unfold Cmd.Ends at h' ⊢; rwa [h]

theorem Cmd.Keeps.ends {R : State → State → Prop} {c : Cmd β} (h : c.Keeps R) (s : State) :
    c.Ends s (fun _ t => R s t) (fun _ t => R s t) := by
  have hs := h s
  cases hc : c s with
  | ok a t => rw [hc] at hs; exact .of_ok hc hs
  | error f t => rw [hc] at hs; exact .of_error hc hs

theorem Cmd.ends_pure {b : β} (h : Q b s) : (pure b : Cmd β).Ends s Q E := h

theorem Cmd.ends_raise {f : Failure} (h : E f s) : (raise f : Cmd β).Ends s Q E := h

theorem Cmd.ends_get {f : State → Cmd β} (h : (f s).Ends s Q E) : (get >>= f).Ends s Q E := h

theorem Cmd.ends_refuseIf {b : Bool} {f : Unit → Cmd β} (he : E .refused s) (hf : b = false → (f ()).Ends s Q E) :
    (refuseIf b >>= f).Ends s Q E := by
  cases b with
  | true => exact he
  | false => exact hf rfl

theorem Cmd.ends_orRefuse {o : Option α} {f : α → Cmd β} (he : E .refused s)
    (hf : ∀ a, o = some a → (f a).Ends s Q E) : (orRefuse o >>= f).Ends s Q E := by
  cases o with
  | none => exact he
  | some a => exact hf a rfl

theorem Cmd.ends_requireAttached {f : Unit → Cmd β} (he : E .refused s)
    (hf : s.attached = true → (f ()).Ends s Q E) : (requireAttached >>= f).Ends s Q E := by
  unfold Cmd.Ends
  rw [Cmd.bind_run, requireAttached_run]
  by_cases h : s.attached = true
  · rw [if_pos h]; exact hf h
  · rw [if_neg h]; exact he

theorem Cmd.ends_bind_ok {x : Cmd α} {f : α → Cmd β} {a : α} {t : State} (hx : x s = .ok a t)
    (hf : (f a).Ends t Q E) : (x >>= f).Ends s Q E := by
  unfold Cmd.Ends; rw [Cmd.bind_of_ok f hx]; exact hf

variable {b : State} {w : Option ControlWord}

/-- A step that runs like another. -/
theorem Cmd.ends_bind_congr {x y : Cmd α} {f : α → Cmd β} (hx : x s = y s) (hf : (y >>= f).Ends s Q E) :
    (x >>= f).Ends s Q E :=
  Cmd.ends_congr (by rw [Cmd.bind_run, Cmd.bind_run, hx]) hf

theorem Cmd.ends_bind_assoc {γ : Type} {x : Cmd γ} {y : γ → Cmd α} {f : α → Cmd β}
    (h : (x >>= fun a => y a >>= f).Ends s Q E) : ((x >>= y) >>= f).Ends s Q E := by
  refine Cmd.ends_congr ?_ h
  rw [Cmd.bind_run, Cmd.bind_run, Cmd.bind_run]
  cases x s with
  | ok a t => exact (Cmd.bind_run t (y a) f).symm
  | error e t => rfl

/-- A step that only makes transactions, and writes no control word. -/
theorem Cmd.ends_access {x : Cmd α} {f : α → Cmd β} (hs : Reached b w s) (hx : x.Keeps (Accesses b.cfg))
    (he : ∀ e t, Reached b w t → E e t) (hf : ∀ a t, Reached b w t → (f a).Ends t Q E) : (x >>= f).Ends s Q E := by
  have h := hx s
  cases hxs : x s with
  | ok a t => rw [hxs] at h; exact Cmd.ends_bind_ok hxs (hf a t (hs.accesses h))
  | error e t => rw [hxs] at h; exact .of_error (Cmd.bind_of_error f hxs) (he e t (hs.accesses h))

theorem Cmd.ends_modify {g : State → State} {f : Unit → Cmd β} (hs : Reached b w s) (hg : RegisterUpdate g)
    (hf : ∀ t, Reached (g b) w t → (f ()).Ends t Q E) : (modify g >>= f).Ends s Q E :=
  Cmd.ends_bind_ok (Cmd.modify_run s g) (hf _ (hs.update hg))

/-- The control register written without `CW` (R152 step 1). -/
theorem Cmd.ends_controlWrite {cw : ControlWord} {f : Unit → Cmd β} (hs : Reached b w s)
    (he : ∀ e t, Reached b w t → E e t) (hf : ∀ t, Reached b (some cw) t → (f ()).Ends t Q E) :
    (wr32 b.cfg.addrDhcsr (dhcsrWord b.cfg cw) >>= f).Ends s Q E := by
  have hrun := wr32_run b.cfg.addrDhcsr (dhcsrWord b.cfg cw) s
  cases ha : (portWrite32 b.cfg.addrDhcsr (dhcsrWord b.cfg cw) s).1 with
  | ok u => rw [ha] at hrun; exact Cmd.ends_bind_ok hrun (hf _ (hs.controlWrite_ok ha))
  | fail g => rw [ha] at hrun; exact .of_error (Cmd.bind_of_error f hrun) (he _ _ (hs.controlWrite_fail ha))

/-- `WriteCW` (R151): `CW` and the last control word written stay together. -/
theorem Cmd.ends_writeCw {cw : ControlWord} {f : Unit → Cmd β} (hs : Reached b w s)
    (he : ∀ e t, Reached b w t → E e t) (hf : ∀ t, Reached (b.setCw cw) (some cw) t → (f ()).Ends t Q E) :
    (writeCw cw >>= f).Ends s Q E := by
  have hrun := writeCw_run cw s
  rw [hs.1.cfg] at hrun
  cases ha : (portWrite32 b.cfg.addrDhcsr (dhcsrWord b.cfg cw) s).1 with
  | ok u =>
    rw [ha] at hrun
    exact Cmd.ends_bind_ok hrun (hf _ ((hs.controlWrite_ok ha).update (registerUpdate_setCw cw)))
  | fail g => rw [ha] at hrun; exact .of_error (Cmd.bind_of_error f hrun) (he _ _ (hs.controlWrite_fail ha))

end

/-! ### The shared operations that change registers -/

open Cmd

/-- A halt attributed to a slot is a watchpoint's, and the slot is one of the `n` there are (R239). -/
def HaltReason.attributedBelow (h : HaltReason) (n : BitVec 4) : Prop :=
  h.wpSlotValid = true → h.watchpointHit = true ∧ h.wpSlot.toNat < n.toNat

/-- The last control word written is the same in both. -/
def SameControl (cfg : Config) (s t : State) : Prop :=
  configWf cfg = true → lastControlWrite cfg t.trace = lastControlWrite cfg s.trace

theorem Cmd.Keeps.sameControl {α : Type} {cfg : Config} {c : Cmd α} (h : c.Keeps (Accesses cfg)) :
    c.Keeps (SameControl cfg) := by
  intro s
  have hs := h s
  cases hc : c s with
  | ok a t => rw [hc] at hs; exact hs.2
  | error f t => rw [hc] at hs; exact hs.2

/-- `Capture` writes no control word (R238). -/
theorem capture_sameControl (s : State) :
    capture.Ends s (fun _ t => SameControl s.cfg s t) (fun _ t => SameControl s.cfg s t) := by
  have hr : ∀ t, SameControl s.cfg t t := fun _ _ => rfl
  have ht : ∀ t u v, SameControl s.cfg t u → SameControl s.cfg u v → SameControl s.cfg t v :=
    fun _ _ _ h h' hwf => (h' hwf).trans (h hwf)
  have hread := fun a => (rd32_accesses s.cfg a).sameControl
  have hwrite := (wr32_accesses s.cfg (resetAll s.cfg) (offControl_dfsr s.cfg)).sameControl
  refine Cmd.ends_congr (capture_run s) (Cmd.Keeps.ends ?_ s)
  refine Cmd.keeps_bind ht (hread _) fun dfsr => Cmd.keeps_bind ht (hread _) fun hfsr => ?_
  refine Cmd.keeps_bind ht (attributeHalt_keeps hr ht hread _) fun h => ?_
  exact Cmd.keeps_bind ht hwrite fun _ => Cmd.keeps_modify fun _ _ => rfl

section
variable {β : Type} {s b : State} {w : Option ControlWord} {Q : β → State → Prop} {E : Failure → State → Prop}

/-- `Capture` stores a snapshot, or fails and leaves every register as it was (R238). -/
theorem Cmd.ends_capture {f : Unit → Cmd β} (hs : Reached b w s) (he : ∀ e t, Reached b w t → E e t)
    (hf : ∀ h t, HaltReason.attributedBelow h b.nWp → Reached (b.setHr h) w t → (f ()).Ends t Q E) :
    (capture >>= f).Ends s Q E := by
  have hsame := capture_sameControl s
  unfold Cmd.Ends at hsame
  rw [hs.1.cfg] at hsame
  rcases capture_cases s with ⟨u, h, hp, hc, hv⟩ | ⟨u, e, hp, hc⟩
  · rw [hc] at hsame
    rw [hs.1.nWp] at hv
    have hu : Reached b w u := hs.accesses ⟨hp, hsame⟩
    exact Cmd.ends_bind_ok hc (hf h _ hv (hu.update (registerUpdate_setHr h)))
  · rw [hc] at hsame
    exact .of_error (Cmd.bind_of_error f hc) (he e u (hs.accesses ⟨hp, hsame⟩))

/-- `FPB_ON` set where it is 1 already. -/
theorem setFpbOn_of_on {s : State} (h : s.fpbOn = true) : s.setFpbOn = s := by
  unfold State.setFpbOn; rw [← h]

/-- The enable of a unit that is off, whatever the port answers (R214). -/
theorem enableFpb_run_off {s : State} (h : ¬ s.fpbOn = true) :
    enableFpb s = (wr32 s.cfg.addrFpCtrl (fpbEnableWord s.cfg) >>= fun _ => modify State.setFpbOn) s := by
  unfold enableFpb
  refine (Cmd.bind_of_ok _ (Cmd.get_run s)).trans ?_
  rw [if_neg h]

/-- The lazy enable leaves the unit on, or fails with the registers as they were (R213 step 3, R214). -/
theorem Cmd.ends_enableFpb {f : Unit → Cmd β} (hs : Reached b w s) (he : ∀ e t, Reached b w t → E e t)
    (hf : ∀ t, Reached b.setFpbOn w t → (f ()).Ends t Q E) : (enableFpb >>= f).Ends s Q E := by
  by_cases hon : s.fpbOn = true
  · refine Cmd.ends_bind_ok (enableFpb_on hon) (hf s ?_)
    rwa [setFpbOn_of_on (hs.1.fpbOn ▸ hon)]
  · have hrun := enableFpb_run_off hon
    rw [hs.1.cfg] at hrun
    refine ends_bind_congr hrun (ends_bind_assoc ?_)
    exact ends_access hs (wr32_accesses _ _ (offControl_fpCtrl _)) he fun _ t ht =>
      ends_modify ht registerUpdate_setFpbOn hf

/-- Arming the vector catch changes no register (R252 step 1). -/
theorem Cmd.ends_armVectorCatch {f : Unit → Cmd β} (hs : Reached b w s) (he : ∀ e t, Reached b w t → E e t)
    (hf : ∀ t, Reached b w t → (f ()).Ends t Q E) : (armVectorCatch >>= f).Ends s Q E := by
  have hrun : armVectorCatch s =
      (rd32 s.cfg.addrDemcr >>= fun v => wr32 s.cfg.addrDemcr (armWord s.cfg v)) s := rfl
  rw [hs.1.cfg] at hrun
  refine ends_bind_congr hrun (ends_bind_assoc ?_)
  refine ends_access hs (rd32_accesses _ _) he fun v t1 h1 => ?_
  exact ends_access h1 (wr32_accesses _ _ (offControl_demcr _)) he fun _ t2 h2 => hf t2 h2

end

/-! ### Everything a command can do -/

/-- The control words a command leaves when it has written one (R160, R163, R165): what `old` becomes under a command that
is answered so. A step request stands only in the answer of a RESUME.STEP that failed. -/
inductive Commanded (old : ControlWord) : Instr → Response → ControlWord → Prop where
  | halt {r} : Commanded old .halt r { old with haltRequest := true }
  | resume {m r} : Commanded old (.resume m) r { old with haltRequest := false, stepRequest := false, maskInterrupts := m }
  | stepStarted {m f} : Commanded old (.resumeStep m) (.failed f)
      { old with haltRequest := false, stepRequest := true, maskInterrupts := m }
  | stepEnded {m r} : Commanded old (.resumeStep m) r
      { old with haltRequest := true, stepRequest := false, maskInterrupts := m }

/-- Everything a command accepted in `s` can do before its answer `r` is delivered: which registers of R20 it changes, how,
and which control word is then the last one written with success. -/
inductive CommandOutcome : Instr → State → Response → State → Prop where
  /-- No register changes: the command is refused, fails early or changes none. -/
  | unchanged {i s r t} : Reached s (lastControlWrite s.cfg s.trace) t → CommandOutcome i s r t
  | attachFailed {code s f t} : s.attached = false → PortOnly s t → CommandOutcome (.attach code) s (.failed f) t
  | attached {code variant nBp nWp cachePresent s r t} :
      Reached (s.commitAttach variant attachCw nBp nWp cachePresent) (some attachCw) t →
      CommandOutcome (.attach code) s r t
  | detached {s r t} : PortOnly s.dropHandle t → CommandOutcome .detach s r t
  | captured {i s r t} (h : HaltReason) : i = .halt ∨ i = .haltreason → h.attributedBelow s.nWp →
      Reached (s.setHr h) (lastControlWrite s.cfg s.trace) t → CommandOutcome i s r t
  | dropped {i s r t} : i = .halt ∨ (∃ c, i = .reset c) →
      Reached s.dropHr (lastControlWrite s.cfg s.trace) t → CommandOutcome i s r t
  | wrote {i s r t} (cw : ControlWord) : Commanded s.cw i r cw →
      Reached (s.setCw cw).dropHr (some cw) t → CommandOutcome i s r t
  | wroteAndCaptured {i s r t} (cw : ControlWord) (h : HaltReason) : Commanded s.cw i r cw →
      i = .halt ∨ (∃ m, i = .resumeStep m) → h.attributedBelow s.nWp →
      Reached ((s.setCw cw).setHr h) (some cw) t → CommandOutcome i s r t
  | unitEnabled {a s r t} : Reached s.setFpbOn (lastControlWrite s.cfg s.trace) t → CommandOutcome (.setbp a) s r t
  | breakpointSet {a s r t} (n : Nat) : s.bpHolding (maskedAddress s.cfg a) = none → s.bpFree = some n →
      Reached (s.setFpbOn.setBp n ⟨true, maskedAddress s.cfg a⟩) (lastControlWrite s.cfg s.trace) t →
      CommandOutcome (.setbp a) s r t
  | breakpointCleared {slot s r t} :
      Reached (s.setBp slot.toNat { s.bpSlot slot.toNat with inUse := false }) (lastControlWrite s.cfg s.trace) t →
      CommandOutcome (.clrbp slot) s r t
  | watchpointSet {size access a s r t} (n : Nat) (watch : WpSlot) : watch.inUse = true → s.wpHolding watch = none →
      s.wpFree = some n → Reached (s.setWp n watch) (lastControlWrite s.cfg s.trace) t →
      CommandOutcome (.setwp size access a) s r t
  | watchpointCleared {slot s r t} :
      Reached (s.setWp slot.toNat { s.wpSlot slot.toNat with inUse := false }) (lastControlWrite s.cfg s.trace) t →
      CommandOutcome (.clrwp slot) s r t

/-- Command `i`, accepted in `s0` and now in `s`, does one of the things it can do. -/
abbrev Outcomes (i : Instr) (s0 : State) (c : Cmd Result) (s : State) : Prop :=
  c.Ends s (fun r t => CommandOutcome i s0 (.ok r) t) (fun f t => CommandOutcome i s0 (.failed f) t)

/-- The free slot SETBP takes is below `N_BP` (R213 step 2). -/
theorem State.bpFree_lt {s : State} {n : Nat} (h : s.bpFree = some n) : n < s.nBp.toNat :=
  List.mem_range.mp (List.mem_of_find?_eq_some h)

/-- The free slot SETWP takes is below `N_WP` (R222 step 2). -/
theorem State.wpFree_lt {s : State} {n : Nat} (h : s.wpFree = some n) : n < s.nWp.toNat :=
  List.mem_range.mp (List.mem_of_find?_eq_some h)

/-- A request that is refused changes nothing (R268). -/
theorem outcome_refused (i : Instr) (r : Response) (s : State) : CommandOutcome i s r s := .unchanged (reached_start s)

section
variable (s : State)

theorem attach_outcomes (code : BitVec 2) : Outcomes (.attach code) s (cmdAttach code) s := by
  unfold cmdAttach
  refine ends_get <| ends_refuseIf (outcome_refused _ _ s) fun hdet => ?_
  refine ends_orRefuse (outcome_refused _ _ s) fun variant _ => ?_
  have failed : ∀ f t, Reached s (some attachCw) t → CommandOutcome (.attach code) s (.failed f) t :=
    fun f t ht => .attachFailed hdet ht.1
  refine ends_controlWrite (reached_start s) (fun _ _ => .unchanged) fun t1 h1 => ?_
  refine ends_access h1 (awaitStatus_accesses _ _ _) failed fun _ t2 h2 => ?_
  refine ends_access h2 (rd32_accesses _ _) failed fun fpCtrl t3 h3 => ?_
  refine ends_access h3 (rd32_accesses _ _) failed fun dwtCtrl t4 h4 => ?_
  refine ends_access h4 (writeAll_accesses _ (offControl_sweepWrites _ _ _)) failed fun _ t5 h5 => ?_
  refine ends_access h5 (sampleCache_accesses _ variant) failed fun cachePresent t6 h6 => ?_
  exact ends_modify h6 (registerUpdate_commitAttach _ _ _ _ _) fun t7 h7 => ends_pure (.attached h7)

theorem detach_outcomes : Outcomes .detach s cmdDetach s := by
  unfold cmdDetach
  refine ends_requireAttached (outcome_refused _ _ s) fun _ => ends_get ?_
  refine ends_bind_ok (attemptAll_run _ s) <| ends_bind_ok (modify_run _ _) <| ends_pure (.detached ?_)
  exact (afterWrites_portOnly _ s).update registerUpdate_dropHandle

theorem halt_outcomes : Outcomes .halt s cmdHalt s := by
  unfold cmdHalt
  refine ends_requireAttached (outcome_refused _ _ s) fun _ => ends_get ?_
  refine ends_access (reached_start s) (rd32_accesses _ _) (fun _ _ => .unchanged) fun status t1 h1 => ?_
  split
  · have hrun := captureOnce_run t1
    split at hrun
    · exact ends_bind_ok hrun (ends_pure (.unchanged h1))
    · refine ends_bind_congr hrun (ends_capture h1 (fun _ _ => .unchanged) fun h t2 hv h2 => ?_)
      exact ends_pure (.captured h (.inl rfl) hv h2)
  · refine ends_modify h1 registerUpdate_dropHr fun t2 h2 => ?_
    refine ends_writeCw h2 (fun _ _ => .dropped (.inl rfl)) fun t3 h3 => ?_
    refine ends_access h3 (awaitStatus_accesses _ _ _) (fun _ _ => .wrote _ .halt) fun _ t4 h4 => ?_
    refine ends_capture h4 (fun _ _ => .wrote _ .halt) fun h t5 hv h5 => ?_
    exact ends_pure (.wroteAndCaptured _ h .halt (.inl rfl) hv h5)

theorem resume_outcomes (mask : Bool) : Outcomes (.resume mask) s (cmdResume mask) s := by
  unfold cmdResume
  refine ends_requireAttached (outcome_refused _ _ s) fun _ => ends_get ?_
  refine ends_writeCw (reached_start s) (fun _ _ => .unchanged) fun t1 h1 => ?_
  exact ends_modify h1 registerUpdate_dropHr fun t2 h2 => ends_pure (.wrote _ .resume h2)

theorem resumeStep_outcomes (mask : Bool) : Outcomes (.resumeStep mask) s (cmdResumeStep mask) s := by
  unfold cmdResumeStep
  refine ends_requireAttached (outcome_refused _ _ s) fun _ => ends_get ?_
  refine ends_writeCw (reached_start s) (fun _ _ => .unchanged) fun t1 h1 => ?_
  refine ends_modify h1 registerUpdate_dropHr fun t2 h2 => ?_
  refine ends_access h2 (awaitStatus_accesses _ _ _) (fun _ _ => .wrote _ .stepStarted) fun _ t3 h3 => ends_get ?_
  rw [h3.1.cw]
  let held : ControlWord := { s.cw with haltRequest := true, stepRequest := false, maskInterrupts := mask }
  refine ends_writeCw (cw := held) h3 (fun _ _ => .wrote _ .stepStarted) fun t4 h4 => ?_
  have h4 : Reached (s.setCw held).dropHr (some held) t4 := h4
  refine ends_capture h4 (fun _ _ => .wrote held .stepEnded) fun h t5 hv h5 => ?_
  exact ends_pure (.wroteAndCaptured held h .stepEnded (.inr ⟨mask, rfl⟩) hv h5)

theorem reset_outcomes (catchVector : Bool) : Outcomes (.reset catchVector) s (cmdReset catchVector) s := by
  have requested : ∀ t, Reached s (lastControlWrite s.cfg s.trace) t → Outcomes (.reset catchVector) s
      (do wr32 s.cfg.addrAircr (resetWord s.cfg)
          modify State.dropHr
          awaitStatus statusResetSeen .resetTimeout
          pure .none) t := by
    intro t ht
    refine ends_access ht (wr32_accesses _ _ (offControl_aircr _)) (fun _ _ => .unchanged) fun _ t1 h1 => ?_
    refine ends_modify h1 registerUpdate_dropHr fun t2 h2 => ?_
    refine ends_access h2 (awaitStatus_accesses _ _ _) (fun _ _ => .dropped (.inr ⟨_, rfl⟩)) fun _ t3 h3 => ?_
    exact ends_pure (.dropped (.inr ⟨_, rfl⟩) h3)
  unfold cmdReset
  refine ends_requireAttached (outcome_refused _ _ s) fun _ => ends_get ?_
  cases catchVector with
  | false => exact requested s (reached_start s)
  | true => exact ends_armVectorCatch (reached_start s) (fun _ _ => .unchanged) requested

theorem rdreg_outcomes (sel : BitVec 7) : Outcomes (.rdreg sel) s (cmdRdreg sel) s := by
  unfold cmdRdreg
  refine ends_requireAttached (outcome_refused _ _ s) fun _ => ends_get ?_
  refine ends_access (reached_start s) (wr32_accesses _ _ (offControl_dcrsr _)) (fun _ _ => .unchanged) fun _ t1 h1 => ?_
  refine ends_access h1 (awaitStatus_accesses _ _ _) (fun _ _ => .unchanged) fun _ t2 h2 => ?_
  exact ends_access h2 (rd32_accesses _ _) (fun _ _ => .unchanged) fun _ t3 h3 => ends_pure (.unchanged h3)

theorem wrreg_outcomes (sel : BitVec 7) (value : Word) : Outcomes (.wrreg sel value) s (cmdWrreg sel value) s := by
  unfold cmdWrreg
  refine ends_requireAttached (outcome_refused _ _ s) fun _ => ends_get ?_
  refine ends_access (reached_start s) (wr32_accesses _ _ (offControl_dcrdr _)) (fun _ _ => .unchanged) fun _ t1 h1 => ?_
  refine ends_access h1 (wr32_accesses _ _ (offControl_dcrsr _)) (fun _ _ => .unchanged) fun _ t2 h2 => ?_
  exact ends_access h2 (awaitStatus_accesses _ _ _) (fun _ _ => .unchanged) fun _ t3 h3 => ends_pure (.unchanged h3)

theorem rdmem_outcomes (hint : BitVec 2) (addr len : Word) :
    Outcomes (.rdmem hint addr len) s (cmdRdmem hint addr len) s := by
  unfold cmdRdmem
  refine ends_requireAttached (outcome_refused _ _ s) fun _ => ?_
  refine ends_orRefuse (outcome_refused _ _ s) fun ceiling _ => ?_
  refine ends_refuseIf (outcome_refused _ _ s) fun _ => ?_
  refine ends_access (reached_start s) ?_ (fun _ _ => .unchanged) fun _ t1 h1 => ends_pure (.unchanged h1)
  exact readTransfers_keeps (accesses_refl _) (accesses_trans _) (memRead_accesses _) _

theorem wrmem_outcomes (hint : BitVec 2) (code : Bool) (addr len : Word) (bytes : List Byte) :
    Outcomes (.wrmem hint code addr len bytes) s (cmdWrmem hint code addr len bytes) s := by
  unfold cmdWrmem
  refine ends_requireAttached (outcome_refused _ _ s) fun _ => ?_
  refine ends_orRefuse (outcome_refused _ _ s) fun ceiling _ => ?_
  refine ends_refuseIf (outcome_refused _ _ s) fun _ => ends_refuseIf (outcome_refused _ _ s) fun _ => ?_
  refine ends_access (reached_start s) ?_ (fun _ _ => .unchanged) fun _ t1 h1 => ends_get ?_
  · exact writeTransfers_keeps (accesses_refl _) (accesses_trans _) (memWrite_accesses _) _ _ _
  · split
    · rw [h1.1.cfg]
      exact ends_access h1 (writeAll_accesses _ (offControl_cacheWrites _ _ _)) (fun _ _ => .unchanged)
        fun _ t2 h2 => ends_pure (.unchanged h2)
    · exact ends_pure (.unchanged h1)

theorem setbp_outcomes (a : Word) : Outcomes (.setbp a) s (cmdSetbp a) s := by
  unfold cmdSetbp
  refine ends_requireAttached (outcome_refused _ _ s) fun _ => ends_get ?_
  dsimp only
  split
  · exact ends_pure (outcome_refused _ _ s)
  next hheld =>
    split
    · exact ends_raise (outcome_refused _ _ s)
    next n hfree =>
      have hn : n < 15 := slot_lt_cap (State.bpFree_lt hfree)
      refine ends_enableFpb (reached_start s) (fun _ _ => .unchanged) fun t1 h1 => ?_
      refine ends_access h1 (wr32_accesses _ _ (offControl_fpComp _ hn)) (fun _ _ => .unitEnabled) fun _ t2 h2 => ?_
      exact ends_modify h2 (registerUpdate_setBp n _) fun t3 h3 => ends_pure (.breakpointSet n hheld hfree h3)

theorem clrbp_outcomes (slot : BitVec 4) : Outcomes (.clrbp slot) s (cmdClrbp slot) s := by
  unfold cmdClrbp
  refine ends_requireAttached (outcome_refused _ _ s) fun _ => ends_get ?_
  refine ends_refuseIf (outcome_refused _ _ s) fun hslot => ?_
  have hn : slot.toNat < s.nBp.toNat := by simpa using hslot
  refine ends_access (reached_start s) (wr32_accesses _ _ (offControl_fpComp _ (slot_lt_cap hn))) (fun _ _ => .unchanged)
    fun _ t1 h1 => ?_
  exact ends_modify h1 (registerUpdate_setBp _ _) fun t2 h2 => ends_pure (.breakpointCleared h2)

theorem setwp_outcomes (size access : BitVec 2) (a : Word) :
    Outcomes (.setwp size access a) s (cmdSetwp size access a) s := by
  unfold cmdSetwp
  refine ends_requireAttached (outcome_refused _ _ s) fun _ => ends_get ?_
  refine ends_orRefuse (outcome_refused _ _ s) fun kind _ => ends_refuseIf (outcome_refused _ _ s) fun _ => ?_
  dsimp only
  split
  · exact ends_pure (outcome_refused _ _ s)
  next hheld =>
    split
    · exact ends_raise (outcome_refused _ _ s)
    next n hfree =>
      have hn : n < 15 := slot_lt_cap (State.wpFree_lt hfree)
      refine ends_orRefuse (outcome_refused _ _ s) fun arming harm => ?_
      refine ends_access (reached_start s) (writeAll_accesses _ ?_) (fun _ _ => .unchanged) fun _ t1 h1 => ?_
      · exact List.forall_mem_cons.mpr ⟨offControl_dwtComp _ hn, offControl_armWrites hn harm⟩
      · exact ends_modify h1 (registerUpdate_setWp n _) fun t2 h2 =>
          ends_pure (.watchpointSet n _ rfl hheld hfree h2)

theorem clrwp_outcomes (slot : BitVec 4) : Outcomes (.clrwp slot) s (cmdClrwp slot) s := by
  unfold cmdClrwp
  refine ends_requireAttached (outcome_refused _ _ s) fun _ => ends_get ?_
  refine ends_refuseIf (outcome_refused _ _ s) fun hslot => ?_
  have hn : slot.toNat < s.nWp.toNat := by simpa using hslot
  refine ends_access (reached_start s) (wr32_accesses _ _ (offControl_dwtFunction _ (slot_lt_cap hn)))
    (fun _ _ => .unchanged) fun _ t1 h1 => ?_
  exact ends_modify h1 (registerUpdate_setWp _ _) fun t2 h2 => ends_pure (.watchpointCleared h2)

theorem haltreason_outcomes : Outcomes .haltreason s cmdHaltreason s := by
  unfold cmdHaltreason
  refine ends_requireAttached (outcome_refused _ _ s) fun _ => ends_get ?_
  split
  · exact ends_pure (outcome_refused _ _ s)
  · refine ends_access (reached_start s) (rd32_accesses _ _) (fun _ _ => .unchanged) fun status t1 h1 => ?_
    split
    · refine ends_capture h1 (fun _ _ => .unchanged) fun h t2 hv h2 => ends_get ?_
      exact ends_pure (.captured h (.inr rfl) hv h2)
    · exact ends_pure (.unchanged h1)

end

end Sys2Proof.Machine
end

section
/-! SUPPORT. Commands and steps as a whole: what `exec` and `step` can answer, and what they keep (R20, R23, R26, R27, R32,
R40, R52). -/

namespace Sys2Proof.Machine

/-! ### exec and step -/

/-- What each command does once it is accepted (R112). -/
def commandBody : Instr → Cmd Result
  | .attach variant => cmdAttach variant
  | .detach => cmdDetach
  | .halt => cmdHalt
  | .resume mask => cmdResume mask
  | .resumeStep mask => cmdResumeStep mask
  | .reset catchVector => cmdReset catchVector
  | .rdreg sel => cmdRdreg sel
  | .wrreg sel value => cmdWrreg sel value
  | .rdmem hint addr len => cmdRdmem hint addr len
  | .wrmem hint code addr len bytes => cmdWrmem hint code addr len bytes
  | .setbp codeAddress => cmdSetbp codeAddress
  | .clrbp slot => cmdClrbp slot
  | .setwp size access address => cmdSetwp size access address
  | .clrwp slot => cmdClrwp slot
  | .haltreason => cmdHaltreason

theorem exec_eq_runCommand (i : Instr) (s : State) : exec i s = .next (runCommand (commandBody i) s) := by
  cases i <;> rfl

theorem commandBody_outcomes (i : Instr) (s : State) : Outcomes i s (commandBody i) s := by
  cases i with
  | attach variant => exact attach_outcomes s variant
  | detach => exact detach_outcomes s
  | halt => exact halt_outcomes s
  | resume mask => exact resume_outcomes s mask
  | resumeStep mask => exact resumeStep_outcomes s mask
  | reset catchVector => exact reset_outcomes s catchVector
  | rdreg sel => exact rdreg_outcomes s sel
  | wrreg sel value => exact wrreg_outcomes s sel value
  | rdmem hint addr len => exact rdmem_outcomes s hint addr len
  | wrmem hint code addr len bytes => exact wrmem_outcomes s hint code addr len bytes
  | setbp codeAddress => exact setbp_outcomes s codeAddress
  | clrbp slot => exact clrbp_outcomes s slot
  | setwp size access address => exact setwp_outcomes s size access address
  | clrwp slot => exact clrwp_outcomes s slot
  | haltreason => exact haltreason_outcomes s

/-- While `BUSY = 1` no command is accepted (R281). -/
theorem exec_busy {s : State} (h : s.busy = true) (i : Instr) : exec i s = .next s := by
  rw [exec_eq_runCommand, runCommand_busy h]

/-- Everything a command presented in `s` can do (R32): it is not accepted, or it is accepted, has its outcome, and is
answered. -/
theorem exec_cases {i : Instr} {s t : State} (h : exec i s = .next t) :
    (s.busy = true ∧ t = s) ∨ (s.busy = false ∧ ∃ r u, CommandOutcome i s.accept r u ∧ t = u.deliver r) := by
  cases hb : s.busy with
  | true => rw [exec_busy hb] at h; cases h; exact .inl ⟨rfl, rfl⟩
  | false =>
    rw [exec_eq_runCommand] at h
    have ho := commandBody_outcomes i s.accept
    unfold Outcomes Cmd.Ends at ho
    refine .inr ⟨rfl, ?_⟩
    cases hc : commandBody i s.accept with
    | ok r u => rw [hc] at ho; rw [runCommand_ok hb hc] at h; cases h; exact ⟨_, u, ho, rfl⟩
    | error f u => rw [hc] at ho; rw [runCommand_error hb hc] at h; cases h; exact ⟨_, u, ho, rfl⟩

/-- A message that is no command is answered `Refused`, and nothing else happens (R117, R268 (a)). -/
theorem refuseMessage_idle {s : State} (h : s.busy = false) : refuseMessage s = s.deliver (.failed .refused) := by
  unfold refuseMessage
  rw [runCommand_error h (Cmd.refuse_run s.accept)]
  cases s
  cases h
  rfl

section
variable {s : State}

theorem step_busy (h : s.busy = true) : step s = .next s := if_pos h

theorem step_nothing (h : s.busy = false) (hc : s.commands = []) : step s = .next s := by
  unfold step fetchCommand; simp [h, hc]

theorem step_malformed {m : List Byte} {rest : List (List Byte)} {e : DecodeError} (h : s.busy = false)
    (hc : s.commands = m :: rest) (hd : decode m = .error e) :
    step s = .next ((s.presenting rest).deliver (.failed .refused)) := by
  unfold step fetchCommand
  simp only [h, hc, hd, Bool.false_eq_true, if_false]
  rw [refuseMessage_idle (s := s.presenting rest) h]

theorem step_command {m : List Byte} {rest : List (List Byte)} {i : Instr} (h : s.busy = false)
    (hc : s.commands = m :: rest) (hd : decode m = .ok i) : step s = exec i (s.presenting rest) := by
  unfold step fetchCommand; simp [h, hc, hd]

/-- A property of the state that presenting, accepting and answering do not touch, and that every outcome of every command
keeps, every step keeps. -/
theorem step_preserves {P : State → Prop} (hp : ∀ s c, P s → P (s.presenting c)) (ha : ∀ s, P s → P s.accept)
    (hd : ∀ s r, P s → P (s.deliver r)) (hc : ∀ {i s r t}, CommandOutcome i s r t → P s → P t) {t : State}
    (hs : P s) (h : step s = .next t) : P t := by
  cases hb : s.busy with
  | true => rw [step_busy hb] at h; cases h; exact hs
  | false =>
    cases hm : s.commands with
    | nil => rw [step_nothing hb hm] at h; cases h; exact hs
    | cons m rest =>
      have hrest := hp s rest hs
      cases hdec : decode m with
      | error e => rw [step_malformed hb hm hdec] at h; cases h; exact hd _ _ hrest
      | ok i =>
        rw [step_command hb hm hdec] at h
        rcases exec_cases h with ⟨_, rfl⟩ | ⟨_, r, u, ho, rfl⟩
        · exact hrest
        · exact hd _ _ (hc ho (ha _ hrest))

end

/-- Settles O5: with no command in progress, `step` is `exec` of the decoded command. -/
theorem stepRunsTheDecodedCommand : Obligations.StepRunsTheDecodedCommand := by
  intro s m rest i hb hc hd
  exact ⟨step_command hb hc hd, rfl, rfl, hb⟩

/-- Settles O6, one clause for each way a step can be without a command. -/
theorem stepWithoutACommand : Obligations.StepWithoutACommand := by
  intro s
  exact ⟨fun hb => ⟨step_busy hb, exec_busy hb⟩, step_nothing, fun _ _ _ => step_malformed⟩

/-! ### Which registers a command changes (R20) -/

/-- Settles O11: the frame of each outcome is that of its register update. -/
theorem registersChangeOnlyAsWritten : Obligations.RegistersChangeOnlyAsWritten := by
  intro i s t h
  rcases exec_cases h with ⟨_, rfl⟩ | ⟨_, r, u, ho, rfl⟩
  · simp
  cases ho with
  | attachFailed _ h => obtain ⟨_, _, rfl⟩ := h; simp
  | detached h => obtain ⟨_, _, rfl⟩ := h; simp
  | captured _ hi _ h => obtain ⟨⟨_, _, rfl⟩, _⟩ := h; rcases hi with rfl | rfl <;> simp
  | dropped hi h => obtain ⟨⟨_, _, rfl⟩, _⟩ := h; rcases hi with rfl | ⟨_, rfl⟩ <;> simp
  | wrote _ hcw h => obtain ⟨⟨_, _, rfl⟩, _⟩ := h; cases hcw <;> simp
  | wroteAndCaptured _ _ _ hi _ h => obtain ⟨⟨_, _, rfl⟩, _⟩ := h; rcases hi with rfl | ⟨_, rfl⟩ <;> simp
  | unchanged h | attached h | unitEnabled h | breakpointSet _ _ _ h | breakpointCleared h | watchpointSet _ _ _ _ _ h
  | watchpointCleared h => obtain ⟨⟨_, _, rfl⟩, _⟩ := h; simp

/-! ### The control word (R23, R52) -/

section
variable {i : Instr} {s t : State} {r : Response}

/-- A command answers only when it is done: the response port is as it was (R32). -/
theorem CommandOutcome.responses (ho : CommandOutcome i s r t) : t.responses = s.responses := by
  cases ho with
  | attachFailed _ h => exact h.responses
  | detached h => exact h.responses
  | unchanged h | attached h | captured _ _ _ h | dropped _ h | wrote _ _ h | wroteAndCaptured _ _ _ _ _ h
  | unitEnabled h | breakpointSet _ _ _ h | breakpointCleared h | watchpointSet _ _ _ _ _ h | watchpointCleared h =>
    exact h.1.responses

/-- What `CW` can be after a command that leaves a handle. -/
theorem CommandOutcome.cw_cases (ho : CommandOutcome i s r t) (ha : t.attached = true) :
    t.cw = s.cw ∨ t.cw = attachCw ∨ Commanded s.cw i r t.cw := by
  cases ho with
  | attachFailed _ h => exact .inl h.cw
  | detached h => rw [h.attached] at ha; cases ha
  | attached h => exact .inr (.inl h.1.cw)
  | wrote cw hcw h => exact .inr (.inr (h.1.cw ▸ hcw))
  | wroteAndCaptured cw _ hcw _ _ h => exact .inr (.inr (h.1.cw ▸ hcw))
  | unchanged h | captured _ _ _ h | dropped _ h | unitEnabled h | breakpointSet _ _ _ h | breakpointCleared h
  | watchpointSet _ _ _ _ _ h | watchpointCleared h => exact .inl h.1.cw

/-- `CW` follows the register where the last control word written is that of the registers reached. -/
theorem Reached.cwFollowsRegister {b : State} {w : Option ControlWord} (h : Reached b w t) (hwf : configWf b.cfg = true)
    (hw : b.attached = true → w = some b.cw) : t.cwFollowsRegister := by
  intro ha
  rw [h.1.cfg, h.2 hwf, h.1.cw]
  exact hw (h.1.attached ▸ ha)

/-- Every outcome keeps R23; a command that leaves no handle keeps it trivially. -/
theorem CommandOutcome.cwFollowsRegister (ho : CommandOutcome i s r t) (hwf : configWf s.cfg = true)
    (hs : s.cwFollowsRegister) : t.cwFollowsRegister := by
  cases ho with
  | attachFailed hdet h => intro ha; rw [h.attached, hdet] at ha; cases ha
  | detached h => intro ha; rw [h.attached] at ha; cases ha
  | attached h => exact h.cwFollowsRegister hwf fun _ => rfl
  | wrote cw _ h => exact h.cwFollowsRegister hwf fun _ => rfl
  | wroteAndCaptured cw _ _ _ _ h => exact h.cwFollowsRegister hwf fun _ => rfl
  | unchanged h | captured _ _ _ h | dropped _ h | unitEnabled h | breakpointSet _ _ _ h | breakpointCleared h
  | watchpointSet _ _ _ _ _ h | watchpointCleared h => exact h.cwFollowsRegister hwf hs

theorem CommandOutcome.cfg (ho : CommandOutcome i s r t) : t.cfg = s.cfg := by
  cases ho with
  | attachFailed _ h => exact h.cfg
  | detached h => exact h.cfg
  | unchanged h | attached h | captured _ _ _ h | dropped _ h | wrote _ _ h | wroteAndCaptured _ _ _ _ _ h
  | unitEnabled h | breakpointSet _ _ _ h | breakpointCleared h | watchpointSet _ _ _ _ _ h | watchpointCleared h =>
    exact h.1.cfg

end

/-- Settles O23: of the control words a command can leave, only that of a RESUME.STEP that failed has the step request
set newly. -/
theorem stepRequestStandsOnlyAfterAFailedStep : Obligations.StepRequestStandsOnlyAfterAFailedStep := by
  intro i s t h hatt hstep
  rcases exec_cases h with ⟨_, rfl⟩ | ⟨_, r, u, ho, rfl⟩
  · exact .inl hstep
  have hu : u.attached = true := hatt
  rw [State.deliver_cw] at hstep ⊢
  rcases ho.cw_cases hu with hcw | hcw | hcw
  · rw [hcw] at hstep; exact .inl hstep
  · rw [hcw] at hstep; cases hstep
  · have hresp := ho.responses
    generalize u.cw = cw at hcw hstep
    cases hcw with
    | halt => exact .inl hstep
    | resume => cases hstep
    | stepEnded => cases hstep
    | stepStarted => exact .inr ⟨_, _, rfl, by rw [State.deliver_responses, hresp, State.accept_responses], rfl⟩

/-- Settles O57: `CW` and the last control word are written together, and no other transaction is a control word. -/
theorem everyStepKeepsCwTheLastControlWord : Obligations.EveryStepKeepsCwTheLastControlWord := by
  intro s t hwf hs h
  have kept : configWf t.cfg = true ∧ t.cwFollowsRegister :=
    step_preserves (P := fun u => configWf u.cfg = true ∧ u.cwFollowsRegister) (fun _ _ hu => hu) (fun _ hu => hu)
      (fun _ _ hu => hu) (fun ho hu => ⟨ho.cfg ▸ hu.1, ho.cwFollowsRegister hu.1 hu.2⟩) ⟨hwf, hs⟩ h
  exact kept.2

/-! ### The slot tables (R26, R27) -/

/-- BPI1 and BPI2, WPI1 and WPI2 for any table of slots: a slot in use is below the count, and no two in use hold the same
`key` (R26, R27). -/
def TableOk {α κ : Type} (used : α → Bool) (key : α → κ) (count : Nat) (slot : Nat → α) : Prop :=
  (∀ i, i < 15 → used (slot i) = true → i < count) ∧
  ∀ i j, i < 15 → j < 15 → i ≠ j → used (slot i) = true → used (slot j) = true → key (slot i) ≠ key (slot j)

theorem breakpointsOk_iff (s : State) :
    s.breakpointsOk ↔ TableOk BpSlot.inUse BpSlot.codeAddress s.nBp.toNat s.bpSlot := Iff.rfl

theorem watchpointsOk_iff (s : State) : s.watchpointsOk ↔ TableOk WpSlot.inUse id s.nWp.toNat s.wpSlot := Iff.rfl

section
variable {α κ : Type} {used : α → Bool} {key : α → κ} {count : Nat} {slot slot' : Nat → α}

theorem tableOk_of_free (h : ∀ i, used (slot i) = false) : TableOk used key count slot :=
  ⟨fun i _ hi => by simp [h i] at hi, fun i _ _ _ _ hi => by simp [h i] at hi⟩

/-- A sound table stays sound under a write of one entry, if an entry that is then in use is below the count and its key is
in no other slot in use. -/
theorem TableOk.write (h : TableOk used key count slot) {k : Nat} {x : α}
    (hw : ∀ j, slot' j = if k = j ∧ j < 15 then x else slot j)
    (hx : used x = true → k < count ∧ ∀ j, j < 15 → j ≠ k → used (slot j) = true → key (slot j) ≠ key x) :
    TableOk used key count slot' := by
  obtain ⟨hbelow, hdistinct⟩ := h
  have same : ∀ j, j < 15 → k = j → slot' j = x := fun j hj hk => by rw [hw, if_pos ⟨hk, hj⟩]
  have other : ∀ j, k ≠ j → slot' j = slot j := fun j hk => by rw [hw, if_neg fun hj => hk hj.1]
  refine ⟨fun i hi hu => ?_, fun i j hi hj hij hui huj => ?_⟩
  · by_cases hk : k = i
    · rw [same i hi hk] at hu; exact hk ▸ (hx hu).1
    · rw [other i hk] at hu; exact hbelow i hi hu
  · by_cases hki : k = i
    · have hkj : k ≠ j := fun hkj => hij (hki.symm.trans hkj)
      rw [same i hi hki] at hui ⊢
      rw [other j hkj] at huj ⊢
      exact ((hx hui).2 j hj (Ne.symm hkj) huj).symm
    · rw [other i hki] at hui ⊢
      by_cases hkj : k = j
      · rw [same j hj hkj] at huj ⊢
        exact (hx huj).2 i hi (Ne.symm hki) hui
      · rw [other j hkj] at huj ⊢
        exact hdistinct i j hi hj hij hui huj

/-- A slot that is freed keeps the table sound (R216, R228). -/
theorem TableOk.free (h : TableOk used key count slot) {k : Nat} {x : α}
    (hw : ∀ j, slot' j = if k = j ∧ j < 15 then x else slot j) (hx : used x = false) : TableOk used key count slot' :=
  h.write hw fun hu => by simp [hx] at hu

end

section
variable (s : State)

theorem State.bpSlot_setBp (k : Nat) (slot : BpSlot) (j : Nat) :
    (s.setBp k slot).bpSlot j = if k = j ∧ j < 15 then slot else s.bpSlot j := getD_setIfInBounds s.bp k j slot freeBp

theorem State.wpSlot_setWp (k : Nat) (slot : WpSlot) (j : Nat) :
    (s.setWp k slot).wpSlot j = if k = j ∧ j < 15 then slot else s.wpSlot j := getD_setIfInBounds s.wp k j slot freeWp

/-- ATTACH clears `in_use` of every breakpoint slot (R152 step 6). -/
theorem State.bpSlot_commitAttach_inUse (variant : Variant) (cw : ControlWord) (nBp nWp : BitVec 4) (cachePresent : Bool)
    (i : Nat) : ((s.commitAttach variant cw nBp nWp cachePresent).bpSlot i).inUse = false := by
  show ((s.bp.map fun slot => { slot with inUse := false }).getD i freeBp).inUse = false
  by_cases h : i < 15 <;> simp [Vector.getD, h, freeBp]

/-- ATTACH clears `in_use` of every watchpoint slot (R152 step 6). -/
theorem State.wpSlot_commitAttach_inUse (variant : Variant) (cw : ControlWord) (nBp nWp : BitVec 4) (cachePresent : Bool)
    (i : Nat) : ((s.commitAttach variant cw nBp nWp cachePresent).wpSlot i).inUse = false := by
  show ((s.wp.map fun slot => { slot with inUse := false }).getD i freeWp).inUse = false
  by_cases h : i < 15 <;> simp [Vector.getD, h, freeWp]

variable {s}

/-- Where no slot holds a masked address, no slot in use has it (R213 step 1). -/
theorem State.codeAddress_ne_of_bpHolding {m : Word} (h : s.bpHolding m = none) {j : Nat} (hj : j < s.nBp.toNat)
    (hu : (s.bpSlot j).inUse = true) : (s.bpSlot j).codeAddress ≠ m := by
  have := List.find?_eq_none.mp h j (List.mem_range.mpr hj)
  simpa [hu] using this

/-- Where no slot holds a triple, no slot in use is that slot (R222 step 1). -/
theorem State.wpSlot_ne_of_wpHolding {watch : WpSlot} (hw : watch.inUse = true) (h : s.wpHolding watch = none) {j : Nat}
    (hj : j < s.nWp.toNat) (hu : (s.wpSlot j).inUse = true) : s.wpSlot j ≠ watch := by
  have := List.find?_eq_none.mp h j (List.mem_range.mpr hj)
  rw [show ({ watch with inUse := true } : WpSlot) = watch by rw [← hw]] at this
  simpa [hu] using this

/-- SETBP takes a free slot for an address no slot holds (R26, R213). -/
theorem breakpointsOk_setBp {n : Nat} {m : Word} (h : s.breakpointsOk) (hheld : s.bpHolding m = none)
    (hfree : s.bpFree = some n) : (s.setBp n ⟨true, m⟩).breakpointsOk :=
  (breakpointsOk_iff _).mpr <| ((breakpointsOk_iff s).mp h).write (s.bpSlot_setBp n _) fun _ =>
    ⟨State.bpFree_lt (s := s) hfree, fun j hj _ hu => State.codeAddress_ne_of_bpHolding hheld (h.1 j hj hu) hu⟩

/-- SETWP takes a free slot for a triple no slot holds (R27, R222). -/
theorem watchpointsOk_setWp {n : Nat} {watch : WpSlot} (h : s.watchpointsOk) (hw : watch.inUse = true)
    (hheld : s.wpHolding watch = none) (hfree : s.wpFree = some n) : (s.setWp n watch).watchpointsOk :=
  (watchpointsOk_iff _).mpr <| ((watchpointsOk_iff s).mp h).write (s.wpSlot_setWp n _) fun _ =>
    ⟨State.wpFree_lt (s := s) hfree, fun j hj _ hu => State.wpSlot_ne_of_wpHolding hw hheld (h.1 j hj hu) hu⟩

/-- CLRBP frees a slot (R216). -/
theorem breakpointsOk_freeBp (h : s.breakpointsOk) (n : Nat) :
    (s.setBp n { s.bpSlot n with inUse := false }).breakpointsOk :=
  (breakpointsOk_iff _).mpr <| ((breakpointsOk_iff s).mp h).free (s.bpSlot_setBp n _) rfl

/-- CLRWP frees a slot (R228). -/
theorem watchpointsOk_freeWp (h : s.watchpointsOk) (n : Nat) :
    (s.setWp n { s.wpSlot n with inUse := false }).watchpointsOk :=
  (watchpointsOk_iff _).mpr <| ((watchpointsOk_iff s).mp h).free (s.wpSlot_setWp n _) rfl

end

/-! ### What holds of a handle between commands (R52) -/

section
variable {s t : State}

theorem PortOnly.handleOk (h : PortOnly s t) (hs : s.handleOk) : t.handleOk := by
  obtain ⟨_, _, rfl⟩ := h
  exact hs

theorem handleOk_of_detached (h : s.attached = false) : s.handleOk := fun ha => by rw [h] at ha; cases ha

/-- A fresh handle has debug enabled, no slot in use and no snapshot (R152, R153). -/
theorem handleOk_commitAttach (variant : Variant) (nBp nWp : BitVec 4) (cachePresent : Bool) :
    (s.commitAttach variant attachCw nBp nWp cachePresent).handleOk := by
  have hbp := s.bpSlot_commitAttach_inUse variant attachCw nBp nWp cachePresent
  have hwp := s.wpSlot_commitAttach_inUse variant attachCw nBp nWp cachePresent
  refine fun _ => ⟨rfl, (breakpointsOk_iff _).mpr (tableOk_of_free hbp), (watchpointsOk_iff _).mpr (tableOk_of_free hwp), ?_,
    fun hv => by cases hv⟩
  rintro ⟨i, _, hu⟩
  rw [hbp i] at hu
  cases hu

variable (h : s.handleOk)
include h

/-- No control word of a command turns debug off (R160, R163, R165). -/
theorem handleOk_setCw {cw : ControlWord} (hcw : cw.debugEnable = s.cw.debugEnable) : (s.setCw cw).handleOk := by
  intro ha
  obtain ⟨hde, hslots⟩ := h ha
  exact ⟨hcw.trans hde, hslots⟩

theorem handleOk_dropHr : s.dropHr.handleOk := by
  intro ha
  obtain ⟨hde, hbp, hwp, hfpb, _⟩ := h ha
  exact ⟨hde, hbp, hwp, hfpb, fun hv => by cases hv⟩

theorem handleOk_setHr {r : HaltReason} (hr : r.attributedBelow s.nWp) : (s.setHr r).handleOk := by
  intro ha
  obtain ⟨hde, hbp, hwp, hfpb, _⟩ := h ha
  exact ⟨hde, hbp, hwp, hfpb, fun _ => hr⟩

theorem handleOk_setFpbOn : s.setFpbOn.handleOk := by
  intro ha
  obtain ⟨hde, hbp, hwp, _, hhr⟩ := h ha
  exact ⟨hde, hbp, hwp, fun _ => rfl, hhr⟩

/-- A breakpoint is set in a unit that is on (R29, R213). -/
theorem handleOk_setBp {n : Nat} {m : Word} (hon : s.fpbOn = true) (hheld : s.bpHolding m = none)
    (hfree : s.bpFree = some n) : (s.setBp n ⟨true, m⟩).handleOk := by
  intro ha
  obtain ⟨hde, hbp, hwp, _, hhr⟩ := h ha
  exact ⟨hde, breakpointsOk_setBp hbp hheld hfree, hwp, fun _ => hon, hhr⟩

/-- Freeing a breakpoint slot leaves no breakpoint in use that was not (R216). -/
theorem handleOk_freeBp (n : Nat) : (s.setBp n { s.bpSlot n with inUse := false }).handleOk := by
  intro ha
  obtain ⟨hde, hbp, hwp, hfpb, hhr⟩ := h ha
  refine ⟨hde, breakpointsOk_freeBp hbp n, hwp, ?_, hhr⟩
  rintro ⟨i, hi, hu⟩
  refine hfpb ⟨i, hi, ?_⟩
  rw [State.bpSlot_setBp] at hu
  split at hu
  · cases hu
  · exact hu

theorem handleOk_setWp {n : Nat} {watch : WpSlot} (hw : watch.inUse = true) (hheld : s.wpHolding watch = none)
    (hfree : s.wpFree = some n) : (s.setWp n watch).handleOk := by
  intro ha
  obtain ⟨hde, hbp, hwp, hfpb, hhr⟩ := h ha
  exact ⟨hde, hbp, watchpointsOk_setWp hwp hw hheld hfree, hfpb, hhr⟩

theorem handleOk_freeWp (n : Nat) : (s.setWp n { s.wpSlot n with inUse := false }).handleOk := by
  intro ha
  obtain ⟨hde, hbp, hwp, hfpb, hhr⟩ := h ha
  exact ⟨hde, hbp, watchpointsOk_freeWp hwp n, hfpb, hhr⟩

end

/-- No command but ATTACH and DETACH changes `debug_enable` in `CW`. -/
theorem Commanded.debugEnable {old cw : ControlWord} {i : Instr} {r : Response} (h : Commanded old i r cw) :
    cw.debugEnable = old.debugEnable := by
  cases h <;> rfl

/-- Every outcome of every command keeps what holds of a handle. -/
theorem CommandOutcome.handleOk {i : Instr} {s t : State} {r : Response} (ho : CommandOutcome i s r t)
    (hs : s.handleOk) : t.handleOk := by
  cases ho with
  | unchanged h => exact h.1.handleOk hs
  | attachFailed hdet h => exact h.handleOk hs
  | attached h => exact h.1.handleOk (handleOk_commitAttach _ _ _ _)
  | detached h => exact h.handleOk (handleOk_of_detached rfl)
  | captured _ _ hv h => exact h.1.handleOk (handleOk_setHr hs hv)
  | dropped _ h => exact h.1.handleOk (handleOk_dropHr hs)
  | wrote _ hcw h => exact h.1.handleOk (handleOk_dropHr (handleOk_setCw hs hcw.debugEnable))
  | wroteAndCaptured _ _ hcw _ hv h => exact h.1.handleOk (handleOk_setHr (handleOk_setCw hs hcw.debugEnable) hv)
  | unitEnabled h => exact h.1.handleOk (handleOk_setFpbOn hs)
  | breakpointSet n hheld hfree h => exact h.1.handleOk (handleOk_setBp (handleOk_setFpbOn hs) rfl hheld hfree)
  | breakpointCleared h => exact h.1.handleOk (handleOk_freeBp hs _)
  | watchpointSet n watch hw hheld hfree h => exact h.1.handleOk (handleOk_setWp hs hw hheld hfree)
  | watchpointCleared h => exact h.1.handleOk (handleOk_freeWp hs _)

/-- Settles O56: every outcome is a register update that keeps the handle sound, followed by transactions. -/
theorem everyStepKeepsTheHandle : Obligations.EveryStepKeepsTheHandle := by
  intro s t hs h
  exact step_preserves (P := State.handleOk) (fun _ _ hu => hu) (fun _ hu => hu) (fun _ _ hu => hu)
    CommandOutcome.handleOk hs h

end Sys2Proof.Machine
end

section
/-! SUPPORT. One transaction (20_memory.md R66 to R68, R81): the target it can leave, the bytes it can answer with, and what a
transaction that fails does. -/

namespace Sys2Proof.Machine

section
variable {α : Type} {access : Target → Word → α × Target} {entry : Answer α → TraceEntry} {s : State}

/-- A transaction that fails at a present backend delivers no value; the target took it only if it was reached (R68, U2). -/
theorem transact_failed {f : PortFailure} {reached : Bool} (hb : s.cfg.backendPresent = true)
    (ho : s.choice.outcome = .failed f reached) :
    transact access entry s =
      (.fail f, s.afterTransaction
        (if reached then (access (s.target.events s.cfg s.choice.events) s.choice.noise).2
          else s.target.events s.cfg s.choice.events) (entry (.fail f))) := by
  unfold transact
  rw [if_pos hb, ho]

/-- Without a backend no transaction reaches the target (R267). -/
theorem transact_absent (hb : s.cfg.backendPresent = false) :
    transact access entry s =
      (.fail .backendUnavailable, s.afterTransaction (s.target.events s.cfg s.choice.events)
        (entry (.fail .backendUnavailable))) := by
  unfold transact
  rw [if_neg (by simp [hb])]

/-- The target a transaction leaves: the one its own steps led to, or that one after the access (R68, R81). -/
theorem transact_cases (access : Target → Word → α × Target) (entry : Answer α → TraceEntry) (s : State) :
    ∃ target e, (transact access entry s).2 = s.afterTransaction target e ∧
      (target = s.target.events s.cfg s.choice.events
        ∨ target = (access (s.target.events s.cfg s.choice.events) s.choice.noise).2) := by
  cases hb : s.cfg.backendPresent with
  | false => rw [transact_absent hb]; exact ⟨_, _, rfl, .inl rfl⟩
  | true =>
    cases ho : s.choice.outcome with
    | answered => rw [transact_answered hb ho]; exact ⟨_, _, rfl, .inr rfl⟩
    | failed f reached =>
      rw [transact_failed hb ho]
      cases reached with
      | false => exact ⟨_, _, rfl, .inl rfl⟩
      | true => exact ⟨_, _, rfl, .inr rfl⟩

end

/-- A naturally aligned read delivers as many bytes as it asks for (R66, R67, R79). -/
theorem Target.length_read (cfg : Config) (t : Target) (noise : Word) {a : Word} {n : Nat} (hn : n = 1 ∨ n = 2 ∨ n = 4)
    (ha : a.toNat % n = 0) : (t.read cfg noise a n).1.length = n := by
  unfold Target.read
  split
  · exact length_laneBytes hn ha _
  · split
    · exact length_laneBytes hn ha _
    · exact Memory.length_readBytes _ _ _

/-- Settles O13, one clause for each way a transaction can go. -/
theorem aTransactionAnswersOrFails : Obligations.ATransactionAnswersOrFails := by
  intro s a v x bytes ha hn hx
  refine ⟨fun hb ho => ⟨?_, portWrite32_answered hb ho a v, portReadBlock_answered hb ho x _,
    Target.length_read _ _ _ hn hx, portWriteBlock_answered hb ho x bytes⟩, fun f reached hb ho => ?_, fun hb => ?_⟩
  · exact ⟨_, portRead32_answered hb ho a,
      bytesOfWord_wordOfBytes (Target.length_read _ _ _ (.inr (.inr rfl)) ha)⟩
  · exact ⟨transact_failed hb ho, transact_failed hb ho, transact_failed hb ho, transact_failed hb ho⟩
  · exact ⟨transact_absent hb, transact_absent hb, transact_absent hb, transact_absent hb⟩

end Sys2Proof.Machine
end

section
/-! SUPPORT. The target's registers behind the port (20_memory.md R86 to R102): what a write of each does to the debug state, and
what a read of each shows. -/

namespace Sys2Proof.Machine

/-! ### The control register (R86 to R89) -/

section
variable {cfg : Config} (t : Target) (noise : Word) {v : Word}

/-- A control write without the key is ignored (R86). -/
theorem Target.writeReg_dhcsr_of_ne (h : upperHalf v ≠ cfg.dbgKey) : t.writeReg cfg noise v .dhcsr = t := if_neg h

/-- A control write with the key sets the writable bits (R86). -/
theorem Target.writeReg_dhcsr_of_key (h : upperHalf v = cfg.dbgKey) :
    t.writeReg cfg noise v .dhcsr = t.setDbg (t.dbg.keyedControl cfg (controlBits cfg v)) := if_pos h

/-- A control write that does not ask for debug leaves it neither enabled nor about to be (R89). -/
theorem Target.powerLocked_keyedControl {new : ControlWord} (h : new.debugEnable = false) :
    (t.setDbg (t.dbg.keyedControl cfg new)).powerLocked = false := by
  obtain ⟨hctl, hpending, _⟩ := t.dbg.keyedControl_facts cfg new
  show ((t.dbg.keyedControl cfg new).ctl.debugEnable || (t.dbg.keyedControl cfg new).enablePending) = false
  rw [hctl, hpending]
  simp [h]

end

/-- Settles O52: a word access to the control register is an access to `Reg.dhcsr`, whose write and read have the lemmas above
and `statusWord_bits`. -/
theorem theControlRegister : Obligations.TheControlRegister := by
  intro cfg t noise v hwf
  have hr : Reg.dhcsr ∈ mapRegs := by simp [mapRegs]
  have hwrite := Target.write_reg hwf hr t noise v
  have hread := Target.read_reg hwf hr t noise
  rw [show Reg.dhcsr.address cfg = cfg.addrDhcsr from rfl] at hwrite hread
  rw [hwrite, hread]
  dsimp only
  rw [wordOfBytes_bytesOfWord]
  obtain ⟨hctl, hhalted, hready, hsleeping, hlockup, hreset, _⟩ := statusWord_bits hwf t.dbg noise
  refine ⟨t.writeReg_dhcsr_of_ne noise, fun hkey => ?_, hctl, hhalted, hready, hsleeping, hlockup, hreset, rfl⟩
  rw [t.writeReg_dhcsr_of_key noise hkey]
  exact ⟨rfl, rfl, rfl, fun hde => t.powerLocked_keyedControl hde, rfl, rfl⟩

/-! ### The fault status, the reset control, the debug units and the core-register transfer (R96 to R102) -/

section
variable {cfg : Config} (h : configWf cfg = true) (t : Target) (noise : Word)
include h

/-- Writing the fault status clears the bits written as 1, and a read then shows the others (R98). -/
theorem faultFlags_read_write (noise' v : Word) :
    faultFlags cfg ((t.writeReg cfg noise v .dfsr).readReg cfg noise' .dfsr).1 = t.dbg.dfsr.minus (faultFlags cfg v) :=
  faultFlags_faultWord h _ noise'

/-- The word SETBP writes enables the unit (R96, R131). -/
theorem fpbEnableWord_bits :
    (fpbEnableWord cfg).getLsbD cfg.bitFpKey = true ∧ (fpbEnableWord cfg).getLsbD cfg.bitFpEnable = true := by
  obtain ⟨_, henable, hkey⟩ := configWf_fpBits h
  simp [fpbEnableWord, getLsbD_bitAt, henable, hkey]

/-- The reset word carries its key and its request bit (R101, R128). -/
theorem resetWord_fields :
    upperHalf (resetWord cfg) = cfg.vectKey ∧ (resetWord cfg).getLsbD cfg.bitSysResetReq = true := by
  obtain ⟨_, _, _, ⟨_, _, _, _, hreq⟩, _⟩ := configWf_facts h
  constructor
  · apply BitVec.eq_of_getLsbD_eq
    intro i hi
    rw [getLsbD_upperHalf _ hi]
    simp [resetWord, BitVec.getLsbD_or, getLsbD_keyWord, getLsbD_bitAt, show 16 + i ≠ cfg.bitSysResetReq by omega]
  · simp [resetWord, getLsbD_bitAt, show cfg.bitSysResetReq < 32 by omega]

/-- The reset word makes a reset pending and changes nothing else (R101). -/
theorem Target.writeReg_aircr_resetWord :
    t.writeReg cfg noise (resetWord cfg) .aircr = t.setDbg { t.dbg with resetPending := true } :=
  if_pos (resetWord_fields h)

/-- The conditions of `configWf` on the two count fields, and that the breakpoint unit's enable bit is outside its own (G1). -/
theorem configWf_counts :
    cfg.fpNumCodeLo ≤ cfg.fpNumCodeHi ∧ cfg.fpNumCodeHi < 32
    ∧ (cfg.bitFpEnable < cfg.fpNumCodeLo ∨ cfg.fpNumCodeHi < cfg.bitFpEnable)
    ∧ cfg.dwtNumCompLo ≤ cfg.dwtNumCompHi ∧ cfg.dwtNumCompHi < 32 := by
  simp only [configWf, Bool.and_eq_true, and_assoc, decide_eq_true_eq] at h
  obtain ⟨_, _, _, _, _, _, _, _, hfp, hfp', henable, hdwt, hdwt', _⟩ := h
  exact ⟨hfp, hfp', henable, hdwt, hdwt'⟩

end

/-- A field does not see a bit outside it. -/
theorem getField_putBit (w : Word) {hi lo n : Nat} (b : Bool) (hn : n < lo ∨ hi < n) :
    getField (putBit w n b) hi lo = getField w hi lo := by
  apply Nat.eq_of_testBit_eq
  intro i
  unfold getField
  rw [Nat.testBit_mod_two_pow, Nat.testBit_mod_two_pow, Nat.testBit_shiftRight, Nat.testBit_shiftRight]
  by_cases hi' : i < hi + 1 - lo
  · congr 1
    exact getLsbD_putBit_other w b (by omega)
  · simp [hi']

section
variable {cfg : Config} (h : configWf cfg = true) (t : Target) (noise : Word)
include h

/-- The breakpoint unit's count reads as the target's constant (R102, R131). -/
theorem numCode_readReg :
    numCode cfg (t.readReg cfg noise .fpCtrl).1 = cfg.fpCount % 2 ^ (cfg.fpNumCodeHi + 1 - cfg.fpNumCodeLo) := by
  obtain ⟨hle, hlt, henable, _⟩ := configWf_counts h
  show getField (putBit _ _ _) _ _ = _
  rw [getField_putBit _ _ henable, getField_putField _ _ hle hlt]

/-- The watchpoint unit's count reads as the target's constant while the unit works (R102, R133, R320). -/
theorem numComp_readReg (hw : dwtWorks cfg t.dbg = true) :
    numComp cfg (t.readReg cfg noise .dwtCtrl).1 = cfg.dwtCount % 2 ^ (cfg.dwtNumCompHi + 1 - cfg.dwtNumCompLo) := by
  obtain ⟨_, _, _, hle, hlt⟩ := configWf_counts h
  show getField (putField _ _ _ (if dwtWorks cfg t.dbg || _ then _ else _)) _ _ = _
  rw [hw, Bool.true_or, if_pos rfl, getField_putField _ _ hle hlt]

omit h in
/-- A read of a watchpoint function register the target has: the word with its matched bit, which it clears (R97, R137). -/
theorem Target.readReg_dwtFunction {i : Nat} (hi : i < cfg.dwtCount) :
    t.readReg cfg noise (.dwtFunction i) =
      (putBit (t.dbg.dwtFunction.getD i 0#32) cfg.bitDwtMatched (t.dbg.matched.getD i false),
        t.setDbg { t.dbg with matched := t.dbg.matched.setIfInBounds i false }) := if_pos hi

/-- The selector word of a register write starts a transfer of what the data register holds (R99, R321). -/
theorem Target.writeReg_dcrsr_selWord (sel : BitVec 7) (write : Bool) :
    t.writeReg cfg noise (selWord cfg sel write) .dcrsr = t.setDbg { t.dbg with
      transfer := some { sel := sel, write := write, data := t.dbg.dcrdr, steady := t.dbg.halted }
      registerReady := t.dbg.registerReady && !cfg.selectorClearsReady } := by
  obtain ⟨hsel, hdir⟩ := selWord_fields h sel write
  show t.setDbg { t.dbg with
    transfer := some (Transfer.mk ((selWord cfg sel write).extractLsb' 0 7) ((selWord cfg sel write).getLsbD cfg.bitRegWnR) _ _)
    registerReady := _ } = _
  rw [hsel, hdir]

end

/-- A write transfer that was steady to its end gives the register what it carries (R99, R321). -/
theorem Target.completeTransfer_write (cfg : Config) (t : Target) {x : Transfer} (hw : x.write = true)
    (hs : (x.steady && t.dbg.halted) = true) (value : Word) (lost : Bool) :
    t.completeTransfer cfg x value lost =
      { t with
        core := setCoreRegister cfg t.core x.sel x.data
        dbg := { t.dbg with transfer := none, registerReady := true } } := by
  unfold Target.completeTransfer
  simp [hw, hs]

/-- A write of the core's registers transfers what the data register held at the selector write (R99, R321). -/
theorem Target.registerWrite_transfers {cfg : Config} (h : configWf cfg = true) (t : Target) (noise : Word)
    (hhalted : t.dbg.halted = true) (sel : BitVec 7) (v value : Word) (lost : Bool) :
    let w := ((t.writeReg cfg noise (selWord cfg sel true) .dcrsr).writeReg cfg noise v .dcrdr).event cfg
      (.transferCompletes value lost)
    w.core = setCoreRegister cfg t.core sel t.dbg.dcrdr ∧ w.dbg.dcrdr = v := by
  rw [Target.writeReg_dcrsr_selWord h]
  show (Target.completeTransfer cfg _ _ value lost).core = _ ∧ (Target.completeTransfer cfg _ _ value lost).dbg.dcrdr = v
  rw [Target.completeTransfer_write cfg _ rfl (by show (t.dbg.halted && t.dbg.halted) = true; simp [hhalted])]
  exact ⟨rfl, rfl⟩

/-- Settles O53: each clause is the lemma about the register it names. -/
theorem theDebugUnits : Obligations.TheDebugUnits := by
  intro cfg t noise noise' v i sel hwf
  have hwrite : ∀ {r : Reg}, r ∈ mapRegs → ∀ (t : Target) v,
      t.write cfg noise (r.address cfg) (bytesOfWord v) = t.writeReg cfg noise v r :=
    fun hr t v => Target.write_reg hwf hr t noise v
  have hword : ∀ {r : Reg}, r ∈ mapRegs → ∀ t : Target,
      wordOfBytes (t.read cfg noise' (r.address cfg) 4).1 = (t.readReg cfg noise' r).1 :=
    fun hr t => by rw [Target.read_reg hwf hr]; exact wordOfBytes_bytesOfWord _
  have hdfsr : Reg.dfsr ∈ mapRegs := by simp [mapRegs]
  have hfpCtrl : Reg.fpCtrl ∈ mapRegs := by simp [mapRegs]
  have haircr : Reg.aircr ∈ mapRegs := by simp [mapRegs]
  have hdwtCtrl : Reg.dwtCtrl ∈ mapRegs := by simp [mapRegs]
  have hcacheId : Reg.cacheId ∈ mapRegs := by simp [mapRegs]
  have hdcrsr : Reg.dcrsr ∈ mapRegs := by simp [mapRegs]
  have hdcrdr : Reg.dcrdr ∈ mapRegs := by simp [mapRegs]
  refine ⟨?_, fun hkey => ?_, ?_, fun hkey => ?_, ?_, ⟨?_, ?_⟩, ⟨hwrite hdwtCtrl t v, fun hw => ?_⟩,
    ⟨hwrite hcacheId t v, hword hcacheId t⟩, fun hi hcount => ?_, fun hhalted value lost => ?_⟩
  · show faultFlags cfg (wordOfBytes
      (Target.read cfg (t.write cfg noise (Reg.dfsr.address cfg) _) noise' (Reg.dfsr.address cfg) 4).1) = _
    rw [hword hdfsr, hwrite hdfsr]
    exact faultFlags_read_write hwf t noise noise' v
  · exact (hwrite hfpCtrl t v).trans (if_neg (by simp [hkey]))
  · obtain ⟨hk, he⟩ := fpbEnableWord_bits hwf
    refine (congrArg (fun u => u.dbg.fpbEnabled) (hwrite hfpCtrl t _)).trans ?_
    show (if _ then _ else _ : Target).dbg.fpbEnabled = true
    rw [if_pos hk]
    exact he
  · exact (hwrite haircr t v).trans (if_neg fun hv => hkey hv.1)
  · exact (congrArg (fun u => u.dbg.resetPending) ((hwrite haircr t _).trans (t.writeReg_aircr_resetWord hwf noise)))
  · exact (congrArg _ (hword hfpCtrl _)).trans (numCode_readReg hwf _ noise')
  · exact (congrArg _ (hword hfpCtrl _)).trans (numCode_readReg hwf _ noise')
  · exact (congrArg _ (hword hdwtCtrl _)).trans (numComp_readReg hwf _ noise' hw)
  · have hread := Target.read_reg hwf (mem_mapRegs_dwtFunction hi) t noise
    rw [Target.readReg_dwtFunction t noise hcount] at hread
    rw [show addrDwtFunction cfg i = (Reg.dwtFunction i).address cfg from rfl, hread]
    dsimp only
    refine ⟨?_, ?_, fun j hj => ?_, rfl⟩
    · obtain ⟨_, _, _, hmatched⟩ := configWf_singleBits hwf
      rw [wordOfBytes_bytesOfWord]
      exact getLsbD_putBit_same _ _ hmatched
    · exact (getD_setIfInBounds _ _ _ _ _).trans (if_pos ⟨rfl, hi⟩)
    · exact (getD_setIfInBounds _ _ _ _ _).trans (if_neg fun hij => hj hij.1.symm)
  · have htransfer := t.registerWrite_transfers hwf noise hhalted sel v value lost
    rw [← hwrite hdcrsr, ← hwrite hdcrdr] at htransfer
    exact htransfer

end Sys2Proof.Machine
end

section
/-! SUPPORT. The debug events that halt the core (20_memory.md R90, R96, R97, R98, R293, R277): when each halts it, and what
it sets. -/

namespace Sys2Proof.Machine

/-! ### What a halt event does -/

section
variable {cfg : Config} {t : Target} (hrun : t.dbg.halted = false)
include hrun

/-- A running core halts at a list of events exactly if debug is enabled and one of them is there (R90, R96, R97). -/
theorem Target.event_halts_halted (causes : List HaltCause) :
    (t.event cfg (.halts causes)).dbg.halted = true ↔
      t.dbg.ctl.debugEnable = true ∧ ∃ c ∈ causes, c.holds cfg t = true := by
  have hnow : (!(causes.filter (HaltCause.holds cfg t)).isEmpty) = true ↔ ∃ c ∈ causes, c.holds cfg t = true := by
    simp
  rw [← hnow]
  simp only [Target.event, hrun, Bool.not_false, Bool.true_and]
  by_cases h : (t.dbg.ctl.debugEnable && !(causes.filter (HaltCause.holds cfg t)).isEmpty) = true
  · rw [if_pos h]
    exact ⟨fun _ => by simpa using h, fun _ => rfl⟩
  · rw [if_neg h, hrun]
    exact ⟨Bool.noConfusion, fun hd => absurd (by simpa using hd) h⟩

/-- The state a halt leaves is that of the events that are there (R98, R277). -/
theorem Target.event_halts_dbg {causes : List HaltCause} {c : HaltCause} (hc : c ∈ causes) (hholds : c.holds cfg t = true)
    (hde : t.dbg.ctl.debugEnable = true) :
    (t.event cfg (.halts causes)).dbg = t.dbg.haltAt cfg (causes.filter (HaltCause.holds cfg t)) := by
  have hne : (causes.filter (HaltCause.holds cfg t)).isEmpty = false := by
    rw [List.isEmpty_eq_false_iff]
    exact List.ne_nil_of_mem (List.mem_filter.mpr ⟨hc, hholds⟩)
  simp [Target.event, hrun, hde, hne, Target.setDbg]

/-- One event halts a running core exactly if debug is enabled and it is there. -/
theorem Target.event_halt_halted (c : HaltCause) :
    (t.event cfg (.halts [c])).dbg.halted = true ↔ t.dbg.ctl.debugEnable = true ∧ c.holds cfg t = true := by
  rw [Target.event_halts_halted hrun]; simp

/-- A core that one event halts has its bit and no other set newly, and the matched bits of its data accesses. -/
theorem Target.event_halt_dbg {c : HaltCause} (hhalt : (t.event cfg (.halts [c])).dbg.halted = true) :
    (t.event cfg (.halts [c])).dbg.dfsr = t.dbg.dfsr.union c.flag
    ∧ (t.event cfg (.halts [c])).dbg.matched = markMatched cfg t.dbg c.accesses := by
  obtain ⟨hde, hc⟩ := (Target.event_halt_halted hrun c).mp hhalt
  rw [Target.event_halts_dbg hrun (List.mem_singleton_self c) hc hde]
  have hnow : [c].filter (HaltCause.holds cfg t) = [c] := by simp [hc]
  obtain ⟨_, hdfsr, hmatched, _⟩ := t.dbg.haltAt_halted cfg [c]
  rw [hnow, hdfsr, hmatched]
  exact ⟨by simp [FaultFlags.union, noFlags], by simp⟩

/-- Of several events that come together each one's bit is set (R277). -/
theorem Target.event_halts_flag {causes : List HaltCause} {c : HaltCause} (hc : c ∈ causes) (hholds : c.holds cfg t = true)
    (hde : t.dbg.ctl.debugEnable = true) :
    (t.event cfg (.halts causes)).dbg.dfsr.union c.flag = (t.event cfg (.halts causes)).dbg.dfsr := by
  rw [Target.event_halts_dbg hrun hc hholds hde]
  have hflags := flag_mem_causes _ noFlags (List.mem_filter.mpr ⟨hc, hholds⟩)
  show (t.dbg.dfsr.union _).union c.flag = t.dbg.dfsr.union _
  conv_rhs => rw [← hflags]
  simp [FaultFlags.union, Bool.or_assoc]

end

/-! ### When the comparators match -/

section
variable {cfg : Config}

/-- When a breakpoint comparator matches (R96, R132). -/
theorem breakpointMatches_iff (t : Target) (i : Nat) :
    breakpointMatches cfg t i = true ↔ t.dbg.fpbEnabled = true ∧ i < cfg.fpCount
      ∧ (t.dbg.fpComp.getD i 0#32).getLsbD cfg.bitFpCompEnable = true
      ∧ maskedAddress cfg (t.dbg.fpComp.getD i 0#32) = maskedAddress cfg t.core.pc := by
  simp [breakpointMatches, disabledWord, and_assoc]

/-- When a function word of the legacy encoding covers an access (R135). -/
theorem legacyCovers_iff (f : Word) (x : DataAccess) :
    legacyCovers cfg f x = true ↔ ∃ kind, f = wpFuncLegacy cfg kind ∧ kind.covers x.write = true := by
  have hall : ∀ kind : AccessType, kind ∈ [AccessType.read, .write, .access] := fun kind => by cases kind <;> simp
  simp only [legacyCovers, List.any_eq_true, Bool.and_eq_true, beq_iff_eq]
  exact ⟨fun ⟨kind, _, hk⟩ => ⟨kind, hk⟩, fun ⟨kind, hk⟩ => ⟨kind, hall kind, hk⟩⟩

/-- When an access lies within a length from the address register on; an unaligned one may match any (R97, U11). -/
theorem SizeClass.reaches_iff (size : SizeClass) (comp addr : Word) :
    size.reaches comp addr = true ↔ (comp.toNat % size.bytes = 0 →
      comp.toNat ≤ addr.toNat ∧ addr.toNat < comp.toNat + size.bytes) := by
  simp only [SizeClass.reaches, Bool.or_eq_true, Bool.and_eq_true, bne_iff_ne, decide_eq_true_eq]
  exact (Decidable.imp_iff_not_or).symm

/-- When a function word of the newer encoding covers an access (R136). -/
theorem v2Covers_iff (f comp : Word) (x : DataAccess) :
    v2Covers cfg f comp x = true ↔ ∃ kind size, wpFuncV2 cfg kind size = some f ∧ kind.covers x.write = true
      ∧ (comp.toNat % size.bytes = 0 → comp.toNat ≤ x.addr.toNat ∧ x.addr.toNat < comp.toNat + size.bytes) := by
  have hkinds : ∀ kind : AccessType, kind ∈ [AccessType.read, .write, .access] := fun kind => by cases kind <;> simp
  have hsizes : ∀ size : SizeClass, size ∈ [SizeClass.byte, .halfword, .word, .doubleword] :=
    fun size => by cases size <;> simp
  simp only [v2Covers, List.any_eq_true, Bool.and_eq_true, beq_iff_eq, SizeClass.reaches_iff]
  constructor
  · rintro ⟨kind, _, hcovers, size, _, hfunc, hreach⟩
    exact ⟨kind, size, hfunc, hcovers, hreach⟩
  · rintro ⟨kind, size, hfunc, hcovers, hreach⟩
    exact ⟨kind, hkinds kind, hcovers, size, hsizes size, hfunc, hreach⟩

/-- When a watchpoint comparator matches (R97), for either encoding. -/
theorem watchpointMatches_iff (d : DebugRegs) (x : DataAccess) :
    watchpointMatches cfg d x = true ↔ dwtWorks cfg d = true ∧ x.slot < cfg.dwtCount ∧
      ((cfg.wpEnc.at cfg.targetVariant = .legacy
          ∧ x.addr >>> (d.dwtMask.getD x.slot 0#32).toNat = d.dwtComp.getD x.slot 0#32 >>> (d.dwtMask.getD x.slot 0#32).toNat
          ∧ ∃ kind, d.dwtFunction.getD x.slot 0#32 = wpFuncLegacy cfg kind ∧ kind.covers x.write = true) ∨
        (cfg.wpEnc.at cfg.targetVariant = .v2 ∧ ∃ kind size,
          wpFuncV2 cfg kind size = some (d.dwtFunction.getD x.slot 0#32) ∧ kind.covers x.write = true
          ∧ ((d.dwtComp.getD x.slot 0#32).toNat % size.bytes = 0 → (d.dwtComp.getD x.slot 0#32).toNat ≤ x.addr.toNat
            ∧ x.addr.toNat < (d.dwtComp.getD x.slot 0#32).toNat + size.bytes))) := by
  rw [← legacyCovers_iff, ← v2Covers_iff]
  unfold watchpointMatches disabledWord
  cases cfg.wpEnc.at cfg.targetVariant with
  | legacy => simp [and_assoc, and_comm (a := legacyCovers cfg _ x = true)]
  | v2 => simp [and_assoc]

variable (h : configWf cfg = true)
include h

/-- No function code of either encoding is the disabled word (R137, G1). -/
theorem wpFuncLegacy_ne_zero (kind : AccessType) : wpFuncLegacy cfg kind ≠ 0#32 := by
  obtain ⟨_, _, _, _, _, _, hcodes⟩ := configWf_facts h
  cases kind <;> exact (hcodes _ (by simp [wpFuncLegacy])).1

theorem wpFuncV2_ne_zero {kind : AccessType} {size : SizeClass} {f : Word} (hf : wpFuncV2 cfg kind size = some f) :
    f ≠ 0#32 := by
  obtain ⟨_, _, _, _, _, _, hcodes⟩ := configWf_facts h
  have hmatch : wpMatchV2 cfg kind ≠ 0#32 := by cases kind <;> exact (hcodes _ (by simp [wpMatchV2])).1
  unfold wpFuncV2 at hf
  split at hf
  · cases hf
    exact fun hz => hmatch (BitVec.or_eq_zero_iff.mp (BitVec.or_eq_zero_iff.mp hz).1).1
  · cases hf

/-- A disabled watchpoint comparator matches nothing (R137). -/
theorem dwtFunction_ne_zero {d : DebugRegs} {x : DataAccess} (hm : watchpointMatches cfg d x = true) :
    d.dwtFunction.getD x.slot 0#32 ≠ 0#32 := by
  obtain ⟨_, _, ⟨_, _, kind, hf, _⟩ | ⟨_, kind, size, hf, _⟩⟩ := (watchpointMatches_iff d x).mp hm
  · exact hf ▸ wpFuncLegacy_ne_zero h kind
  · exact wpFuncV2_ne_zero h hf

end

/-! ### The events, one by one -/

section
variable {cfg : Config} {t : Target} (hrun : t.dbg.halted = false)
include hrun

/-- A breakpoint comparator halts the core while it matches, and is then no disabled word (R96). -/
theorem comparator_halts (i : Nat) :
    ((t.event cfg (.halts [.comparator i])).dbg.halted = true ↔ t.dbg.ctl.debugEnable = true ∧ t.dbg.fpbEnabled = true
      ∧ i < cfg.fpCount ∧ (t.dbg.fpComp.getD i 0#32).getLsbD cfg.bitFpCompEnable = true
      ∧ maskedAddress cfg (t.dbg.fpComp.getD i 0#32) = maskedAddress cfg t.core.pc)
    ∧ ((t.event cfg (.halts [.comparator i])).dbg.halted = true → t.dbg.fpComp.getD i 0#32 ≠ 0#32
      ∧ (t.event cfg (.halts [.comparator i])).dbg.dfsr = { t.dbg.dfsr with bkpt := true }) := by
  have hiff := (Target.event_halt_halted hrun (.comparator i)).trans (and_congr_right' (breakpointMatches_iff (cfg := cfg) t i))
  refine ⟨hiff, fun hhalt => ⟨fun hz => ?_, ?_⟩⟩
  · obtain ⟨_, _, _, henabled, _⟩ := hiff.mp hhalt
    rw [hz] at henabled
    simp at henabled
  · rw [(Target.event_halt_dbg hrun hhalt).1]
    simp [FaultFlags.union, HaltCause.flag, noFlags]

/-- A watchpoint comparator halts the core while it matches; it then sets its own matched bit alone (R97). -/
theorem watchpoint_halts (h : configWf cfg = true) {x : DataAccess} (hx : x.slot < 15) :
    ((t.event cfg (.halts [.watchpoint [x]])).dbg.halted = true ↔
      t.dbg.ctl.debugEnable = true ∧ watchpointMatches cfg t.dbg x = true)
    ∧ ((t.event cfg (.halts [.watchpoint [x]])).dbg.halted = true → t.dbg.dwtFunction.getD x.slot 0#32 ≠ 0#32
      ∧ (t.event cfg (.halts [.watchpoint [x]])).dbg.dfsr = { t.dbg.dfsr with dwttrap := true }
      ∧ (t.event cfg (.halts [.watchpoint [x]])).dbg.matched.getD x.slot false = true
      ∧ ∀ j, j ≠ x.slot →
        (t.event cfg (.halts [.watchpoint [x]])).dbg.matched.getD j false = t.dbg.matched.getD j false) := by
  have hiff : (t.event cfg (.halts [.watchpoint [x]])).dbg.halted = true ↔
      t.dbg.ctl.debugEnable = true ∧ watchpointMatches cfg t.dbg x = true :=
    (Target.event_halt_halted hrun _).trans (and_congr_right' (by simp [HaltCause.holds]))
  refine ⟨hiff, fun hhalt => ?_⟩
  obtain ⟨_, hm⟩ := hiff.mp hhalt
  obtain ⟨hdfsr, hmatched⟩ := Target.event_halt_dbg hrun hhalt
  have hmark : markMatched cfg t.dbg [x] = t.dbg.matched.setIfInBounds x.slot true := if_pos hm
  rw [show HaltCause.accesses (.watchpoint [x]) = [x] from rfl, hmark] at hmatched
  refine ⟨dwtFunction_ne_zero h hm, ?_, ?_, fun j hj => ?_⟩
  · rw [hdfsr]
    simp [FaultFlags.union, HaltCause.flag, noFlags]
  · rw [hmatched, getD_setIfInBounds, if_pos ⟨rfl, hx⟩]
  · rw [hmatched, getD_setIfInBounds, if_neg fun he => hj he.1.symm]

/-- A halt request halts the core while it stands (R90). -/
theorem request_halts :
    ((t.event cfg (.halts [.request])).dbg.halted = true ↔ t.dbg.ctl.debugEnable = true ∧ t.dbg.ctl.haltRequest = true)
    ∧ ((t.event cfg (.halts [.request])).dbg.halted = true →
      (t.event cfg (.halts [.request])).dbg.dfsr = { t.dbg.dfsr with halted := true }) := by
  refine ⟨Target.event_halt_halted hrun .request, fun hhalt => ?_⟩
  rw [(Target.event_halt_dbg hrun hhalt).1]
  simp [FaultFlags.union, HaltCause.flag, noFlags]

/-- A breakpoint instruction halts the core under debug (R293). -/
theorem instruction_halts :
    ((t.event cfg (.halts [.instruction])).dbg.halted = true ↔ t.dbg.ctl.debugEnable = true)
    ∧ ((t.event cfg (.halts [.instruction])).dbg.halted = true →
      (t.event cfg (.halts [.instruction])).dbg.dfsr = { t.dbg.dfsr with bkpt := true }) := by
  refine ⟨(Target.event_halt_halted hrun .instruction).trans (by simp [HaltCause.holds]), fun hhalt => ?_⟩
  rw [(Target.event_halt_dbg hrun hhalt).1]
  simp [FaultFlags.union, HaltCause.flag, noFlags]

/-- A vector catch other than the core-reset one needs its bit (R100, R125; log entry 36). -/
theorem vectorCatch_halts (n : Nat) (hhalt : (t.event cfg (.halts [.vectorCatch n])).dbg.halted = true) :
    t.dbg.ctl.debugEnable = true ∧ t.dbg.demcr.getLsbD n = true ∧ n ≠ cfg.bitVcCoreReset
    ∧ (t.event cfg (.halts [.vectorCatch n])).dbg.dfsr = { t.dbg.dfsr with vcatch := true } := by
  obtain ⟨hde, hholds⟩ := (Target.event_halt_halted hrun _).mp hhalt
  simp only [HaltCause.holds, Bool.and_eq_true, bne_iff_ne] at hholds
  obtain ⟨⟨hbit, hne⟩, _⟩ := hholds
  refine ⟨hde, hbit, hne, ?_⟩
  rw [(Target.event_halt_dbg hrun hhalt).1]
  simp [FaultFlags.union, HaltCause.flag, noFlags]

end

/-- Settles O54, one lemma for each kind of event. -/
theorem debugEventsHaltTheCore : Obligations.DebugEventsHaltTheCore := by
  intro cfg t hrun
  refine ⟨comparator_halts hrun, fun x hwf hx => ?_, request_halts hrun, instruction_halts hrun, vectorCatch_halts hrun,
    fun causes c hc hholds hde => ⟨(Target.event_halts_halted hrun causes).mpr ⟨hde, c, hc, hholds⟩,
      Target.event_halts_flag hrun hc hholds hde⟩⟩
  obtain ⟨hiff, hsets⟩ := watchpoint_halts hrun hwf hx
  exact ⟨hiff.trans (and_congr_right' (watchpointMatches_iff t.dbg x)), hsets⟩

end Sys2Proof.Machine
end

section
/-! SUPPORT. The two cache operations (20_memory.md R84, R103): what invalidating and cleaning a line do to memory and to what the
caches hold. -/

namespace Sys2Proof.Machine

/-! ### Bytes written back one after the other -/

/-- The bytes a data cache line holds, written to memory one after the other (R103). -/
def Memory.writeCells (m : Memory) (cells : List Host.Cell) : Memory := cells.foldl (fun m c => m.write c.1 c.2) m

theorem Memory.writeCells_cons (m : Memory) (c : Host.Cell) (cells : List Host.Cell) :
    m.writeCells (c :: cells) = (m.write c.1 c.2).writeCells cells := rfl

theorem Memory.wf_writeCells {m : Memory} (h : m.wf = true) (cells : List Host.Cell) : (m.writeCells cells).wf = true := by
  induction cells generalizing m with
  | nil => exact h
  | cons c cells ih => exact ih (Memory.wf_write h c.1 c.2)

/-- A byte none of the cells is for reads as before. -/
theorem Memory.read_writeCells_outside (m : Memory) {cells : List Host.Cell} {a : Nat} (h : ∀ c ∈ cells, c.1 ≠ a) :
    (m.writeCells cells).read a = m.read a := by
  induction cells generalizing m with
  | nil => rfl
  | cons c cells ih =>
    obtain ⟨hc, hcells⟩ := List.forall_mem_cons.mp h
    rw [Memory.writeCells_cons, ih _ hcells, Memory.read_write_other _ _ (Ne.symm hc)]

/-- A byte that one cell alone is for reads as that cell has it. -/
theorem Memory.read_writeCells_of_unique {m : Memory} (h : m.wf = true) {cells : List Host.Cell} {c : Host.Cell}
    (hc : c ∈ cells) (hunique : ∀ d ∈ cells, d.1 = c.1 → d = c) (hlt : c.1 < 2 ^ 32) :
    (m.writeCells cells).read c.1 = c.2 := by
  induction cells generalizing m with
  | nil => cases hc
  | cons d cells ih =>
    obtain ⟨hd, hcells⟩ := List.forall_mem_cons.mp hunique
    rw [Memory.writeCells_cons]
    by_cases hlater : c ∈ cells
    · exact ih (Memory.wf_write h d.1 d.2) hlater hcells
    · obtain rfl := (List.mem_cons.mp hc).resolve_right hlater
      rw [Memory.read_writeCells_outside]
      · exact Memory.read_write_same h hlt c.2
      · exact fun e he hce => hlater (hcells e he hce ▸ he)

/-! ### Cleaning a line -/

section
variable (cfg : Config) (t : Target) (a : Nat)

theorem cleanLine_mem : (cleanLine cfg t a).mem = t.mem.writeCells (t.dcache.filter (sameLine cfg a)) := rfl

theorem mem_filter_sameLine {c : Host.Cell} :
    c ∈ t.dcache.filter (sameLine cfg a) ↔ c ∈ t.dcache ∧ c.1 / cfg.targetLine = a / cfg.targetLine := by
  simp [sameLine]

/-- What a cleaned line leaves in the data cache: the bytes of the other lines (R103). -/
theorem mem_dcache_cleanLine {c : Host.Cell} :
    c ∈ (cleanLine cfg t a).dcache ↔ c ∈ t.dcache ∧ c.1 / cfg.targetLine ≠ a / cfg.targetLine := by
  simp [cleanLine, sameLine]

/-- Cleaning a line changes no byte of another line (R103). -/
theorem read_cleanLine_other {x : Nat} (hx : x / cfg.targetLine ≠ a / cfg.targetLine) :
    (cleanLine cfg t a).mem.read x = t.mem.read x := by
  rw [cleanLine_mem]
  refine Memory.read_writeCells_outside _ fun c hc hcx => hx ?_
  rw [← hcx]
  exact ((mem_filter_sameLine cfg t a).mp hc).2

/-- Cleaning a line puts each byte that the data cache holds of it into memory (R103). -/
theorem read_cleanLine_held (h : t.mem.wf = true) {c : Host.Cell} (hc : c ∈ t.dcache)
    (hunique : ∀ d ∈ t.dcache, d.1 = c.1 → d = c) (hlt : c.1 < 2 ^ 32)
    (hline : c.1 / cfg.targetLine = a / cfg.targetLine) : (cleanLine cfg t a).mem.read c.1 = c.2 := by
  rw [cleanLine_mem]
  refine Memory.read_writeCells_of_unique h ((mem_filter_sameLine cfg t a).mpr ⟨hc, hline⟩) (fun d hd => ?_) hlt
  exact hunique d ((mem_filter_sameLine cfg t a).mp hd).1

/-- Cleaning a line keeps the canonical form of memory. -/
theorem wf_cleanLine (h : t.mem.wf = true) : (cleanLine cfg t a).mem.wf = true := Memory.wf_writeCells h _

end

/-- A core whose instruction cache is empty fetches what memory holds (R84). -/
theorem Target.fetchByte_of_icache_empty {t : Target} (h : t.icache = []) (a : Nat) : t.fetchByte a = t.mem.read a := by
  unfold Target.fetchByte
  rw [h]
  rfl

/-- Settles O55: the two operations are the writes of their registers, and without cache those change nothing. -/
theorem cacheOperations : Obligations.CacheOperations := by
  intro cfg t noise v hwf hm
  have hinvalidate := Target.write_reg hwf (show Reg.iciallu ∈ mapRegs by simp [mapRegs]) t noise v
  have hclean := Target.write_reg hwf (show Reg.dccmvac ∈ mapRegs by simp [mapRegs]) t noise v
  simp only [Reg.address] at hinvalidate hclean
  rw [hinvalidate, hclean]
  refine ⟨fun hcache => ?_, fun hcache => ?_⟩
  · simp [Target.writeReg, hcache]
  · have hi : t.writeReg cfg noise v .iciallu = { t with icache := [] } := if_pos hcache
    have hu : t.writeReg cfg noise v .dccmvac = cleanLine cfg t v.toNat := if_pos hcache
    rw [hi, hu]
    exact ⟨Target.fetchByte_of_icache_empty rfl, rfl,
      fun c hc hunique hlt hline => read_cleanLine_held cfg t v.toNat hm hc hunique hlt hline,
      fun a ha => read_cleanLine_other cfg t v.toNat ha, fun c hc => (mem_dcache_cleanLine cfg t v.toNat).mp hc⟩

end Sys2Proof.Machine
end

section
/-! SUPPORT. What every command keeps: a relation between states that each single transaction keeps, and that the controller's own
registers do not matter to, holds between the two ends of a command (00_scope.md R14, R15; 30_encoding.md R112). -/

namespace Sys2Proof.Machine

/-! ### Which registers the controller writes (20_memory.md R61) -/

/-- A register write goes to a register of the map (R61: "the fixed register addresses"). -/
def ToMap (cfg : Config) (w : Word × Word) : Prop := ∃ r ∈ mapRegs, w.1 = r.address cfg

section
variable (cfg : Config)

theorem toMap_sweepWrites (nBp nWp : BitVec 4) : ∀ w ∈ sweepWrites cfg nBp.toNat nWp.toNat, ToMap cfg w := by
  intro w hw
  simp only [sweepWrites, List.mem_append, List.mem_map, List.mem_range] at hw
  rcases hw with ⟨i, hi, rfl⟩ | ⟨i, hi, rfl⟩
  · exact ⟨_, mem_mapRegs_fpComp (slot_lt_cap hi), rfl⟩
  · exact ⟨_, mem_mapRegs_dwtFunction (slot_lt_cap hi), rfl⟩

theorem toMap_cacheWrites (addr : Word) (len : Nat) : ∀ w ∈ cacheWrites cfg addr len, ToMap cfg w := by
  intro w hw
  simp only [cacheWrites, List.mem_cons, List.mem_map] at hw
  rcases hw with rfl | ⟨l, _, rfl⟩
  · exact ⟨.iciallu, by simp [mapRegs], rfl⟩
  · exact ⟨.dccmvac, by simp [mapRegs], rfl⟩

theorem toMap_armWrites {encoding : WpEncoding} {i : Nat} {size : SizeClass} {kind : AccessType} {ws : List (Word × Word)}
    (hi : i < 15) (h : armWrites cfg encoding i size kind = some ws) : ∀ w ∈ ws, ToMap cfg w := by
  cases encoding with
  | legacy =>
    cases h
    intro w hw
    rcases List.mem_pair.mp hw with rfl | rfl
    · exact ⟨_, mem_mapRegs_dwtMask hi, rfl⟩
    · exact ⟨_, mem_mapRegs_dwtFunction hi, rfl⟩
  | v2 =>
    obtain ⟨f, _, rfl⟩ := Option.map_eq_some_iff.mp h
    intro w hw
    cases List.mem_singleton.mp hw
    exact ⟨_, mem_mapRegs_dwtFunction hi, rfl⟩

/-- The writes of DETACH: the sweep, the breakpoint unit's disable and the cleared control word (R158). -/
theorem toMap_detachWrites (nBp nWp : BitVec 4) (v v' : Word) :
    ∀ w ∈ sweepWrites cfg nBp.toNat nWp.toNat ++ [(cfg.addrFpCtrl, v), (cfg.addrDhcsr, v')], ToMap cfg w := by
  intro w hw
  rcases List.mem_append.mp hw with hw | hw
  · exact toMap_sweepWrites cfg nBp nWp w hw
  · rcases List.mem_pair.mp hw with rfl | rfl
    · exact ⟨.fpCtrl, by simp [mapRegs], rfl⟩
    · exact ⟨.dhcsr, by simp [mapRegs], rfl⟩

end

/-! ### Relations that transactions keep -/

/-- The two states have the same target, configuration, script and count of transactions: only the controller's registers or its
two message ports differ. -/
structure SameTarget (s t : State) : Prop where
  cfg : t.cfg = s.cfg
  target : t.target = s.target
  env : t.env = s.env
  tick : t.tick = s.tick

/-- `R` does not depend on the controller's registers, can be chained, and holds across every transaction that a command makes in
the configuration `cfg`, but for the block writes, which WRMEM alone makes. -/
structure TransactionRules (cfg : Config) (R : State → State → Prop) : Prop where
  same : ∀ {s t}, SameTarget s t → R s t
  trans : ∀ {s t u}, R s t → R t u → R s u
  read32 : ∀ a s, s.cfg = cfg → R s (portRead32 a s).2
  write32 : ∀ {r}, r ∈ mapRegs → ∀ v s, s.cfg = cfg → R s (portWrite32 (r.address cfg) v s).2
  readBlock : ∀ a n s, s.cfg = cfg → R s (portReadBlock a n s).2

/-- `R` from every state with the configuration `cfg`, which stays. -/
def InConfig (cfg : Config) (R : State → State → Prop) (s t : State) : Prop := s.cfg = cfg → t.cfg = cfg ∧ R s t

section
variable {cfg : Config} {R : State → State → Prop} (hR : TransactionRules cfg R)
include hR

theorem inConfig_of_same {s t : State} (h : SameTarget s t) : InConfig cfg R s t := fun hs => ⟨h.cfg.trans hs, hR.same h⟩

theorem inConfig_refl (s : State) : InConfig cfg R s s := inConfig_of_same hR ⟨rfl, rfl, rfl, rfl⟩

theorem inConfig_trans (s t u : State) (h : InConfig cfg R s t) (h' : InConfig cfg R t u) : InConfig cfg R s u := fun hs => by
  obtain ⟨ht, hst⟩ := h hs
  obtain ⟨hu, htu⟩ := h' ht
  exact ⟨hu, hR.trans hst htu⟩

theorem keeps_seq {α β : Type} {x : Cmd α} {f : α → Cmd β} (hx : x.Keeps (InConfig cfg R))
    (hf : ∀ a, (f a).Keeps (InConfig cfg R)) : (x >>= f).Keeps (InConfig cfg R) :=
  Cmd.keeps_bind (inConfig_trans hR) hx hf

omit hR in
/-- What follows a `get` may use that the state has the configuration. -/
theorem keeps_get_seq {β : Type} {f : State → Cmd β} (hf : ∀ s, s.cfg = cfg → (f s).Keeps (InConfig cfg R)) :
    (get >>= f).Keeps (InConfig cfg R) := by
  intro s
  rw [Cmd.bind_of_ok f (Cmd.get_run s)]
  by_cases hs : s.cfg = cfg
  · exact hf s hs s
  · cases f s s with
    | ok _ _ => exact fun h => absurd h hs
    | error _ _ => exact fun h => absurd h hs

theorem keeps_update {f : State → State} (hf : ∀ s, SameTarget s (f s)) : (modify f : Cmd Unit).Keeps (InConfig cfg R) :=
  Cmd.keeps_modify fun s => inConfig_of_same hR (hf s)

/-! #### The shared operations -/

omit hR in
/-- A transaction that keeps `R` keeps it as a step of a command, whether its failure ends the command as it is (R261) or as a
memory access fault (R265). -/
theorem orRaise_orMemoryFault_inConfig {α : Type} {call : State → Answer α × State} (hport : ∀ s, PortOnly s (call s).2)
    (h : ∀ s, s.cfg = cfg → R s (call s).2) (a : Word) :
    (orRaise call).Keeps (InConfig cfg R) ∧ (orMemoryFault a call).Keeps (InConfig cfg R) := by
  have hkept : ∀ s, InConfig cfg R s (call s).2 := fun s hs => ⟨(hport s).cfg.trans hs, h s hs⟩
  refine ⟨fun s => ?_, fun s => ?_⟩
  · have hs := hkept s
    unfold orRaise
    cases hc : call s with
    | mk answer t => rw [hc] at hs; cases answer <;> exact hs
  · have hs := hkept s
    unfold orMemoryFault
    cases hc : call s with
    | mk answer t => rw [hc] at hs; cases answer <;> exact hs

theorem rd32_inConfig (a : Word) : (rd32 a).Keeps (InConfig cfg R) :=
  (orRaise_orMemoryFault_inConfig (portRead32_portOnly a) (hR.read32 a) a).1

theorem wr32_inConfig {r : Reg} (hr : r ∈ mapRegs) (v : Word) : (wr32 (r.address cfg) v).Keeps (InConfig cfg R) :=
  (orRaise_orMemoryFault_inConfig (portWrite32_portOnly _ v) (hR.write32 hr v) 0#32).1

theorem memRead_inConfig (a : Word) (n : Nat) : (memRead a n).Keeps (InConfig cfg R) :=
  (orRaise_orMemoryFault_inConfig (portReadBlock_portOnly a n) (hR.readBlock a n) a).2

omit hR in
theorem memWrite_inConfig (hw : ∀ a bs s, s.cfg = cfg → R s (portWriteBlock a bs s).2) (a : Word) (bs : List Byte) :
    (memWrite a bs).Keeps (InConfig cfg R) :=
  (orRaise_orMemoryFault_inConfig (portWriteBlock_portOnly a bs) (hw a bs) a).2

theorem writeAll_inConfig {ws : List (Word × Word)} (h : ∀ w ∈ ws, ToMap cfg w) : (writeAll ws).Keeps (InConfig cfg R) := by
  refine writeAll_keeps (inConfig_refl hR) (inConfig_trans hR) fun w hw => ?_
  obtain ⟨r, hr, ha⟩ := h w hw
  rw [ha]
  exact wr32_inConfig hR hr w.2

theorem attemptAll_inConfig {ws : List (Word × Word)} (h : ∀ w ∈ ws, ToMap cfg w) :
    (attemptAll ws).Keeps (InConfig cfg R) := by
  have hafter : ∀ (ws : List (Word × Word)) (s : State), (∀ w ∈ ws, ToMap cfg w) →
      InConfig cfg R s (afterWrites ws s) := by
    intro ws
    induction ws with
    | nil => exact fun s _ => inConfig_refl hR s
    | cons w rest ih =>
      intro s hws
      obtain ⟨⟨r, hr, ha⟩, hrest⟩ := List.forall_mem_cons.mp hws
      refine inConfig_trans hR _ _ _ (fun hs => ?_) (ih (portWrite32 w.1 w.2 s).2 hrest)
      exact ⟨(portWrite32_portOnly _ _ s).cfg.trans hs, ha ▸ hR.write32 hr w.2 s hs⟩
  intro s
  rw [attemptAll_run]
  exact hafter ws s h

theorem awaitStatus_inConfig (pred : Config → Word → Bool) (timeout : Failure) :
    (awaitStatus pred timeout).Keeps (InConfig cfg R) :=
  awaitStatus_keeps (inConfig_refl hR) (inConfig_trans hR) (rd32_inConfig hR) pred timeout

theorem writeCw_inConfig (cw : ControlWord) : (writeCw cw).Keeps (InConfig cfg R) := by
  refine keeps_get_seq fun s hs => ?_
  subst hs
  exact keeps_seq hR (wr32_inConfig hR (r := .dhcsr) (by simp [mapRegs]) _) fun _ =>
    keeps_update hR fun _ => ⟨rfl, rfl, rfl, rfl⟩

theorem capture_inConfig : capture.Keeps (InConfig cfg R) := by
  refine keeps_get_seq fun s hs => ?_
  subst hs
  refine keeps_seq hR (rd32_inConfig hR _) fun dfsr => keeps_seq hR (rd32_inConfig hR _) fun hfsr => ?_
  refine keeps_seq hR (attributeHalt_keeps (inConfig_refl hR) (inConfig_trans hR) (rd32_inConfig hR) _) fun h => ?_
  exact keeps_seq hR (wr32_inConfig hR (r := .dfsr) (by simp [mapRegs]) _) fun _ =>
    keeps_update hR fun _ => ⟨rfl, rfl, rfl, rfl⟩

theorem captureOnce_inConfig : captureOnce.Keeps (InConfig cfg R) := by
  refine keeps_get_seq fun s _ => ?_
  split
  · exact Cmd.keeps_pure (inConfig_refl hR) ()
  · exact capture_inConfig hR

theorem enableFpb_inConfig : enableFpb.Keeps (InConfig cfg R) := by
  refine keeps_get_seq fun s hs => ?_
  subst hs
  split
  · exact Cmd.keeps_pure (inConfig_refl hR) ()
  · exact keeps_seq hR (wr32_inConfig hR (r := .fpCtrl) (by simp [mapRegs]) _) fun _ =>
      keeps_update hR fun _ => ⟨rfl, rfl, rfl, rfl⟩

theorem armVectorCatch_inConfig : armVectorCatch.Keeps (InConfig cfg R) := by
  refine keeps_get_seq fun s hs => ?_
  subst hs
  exact keeps_seq hR (rd32_inConfig hR _) fun v => wr32_inConfig hR (r := .demcr) (by simp [mapRegs]) _

theorem sampleCache_inConfig (variant : Variant) : (sampleCache variant).Keeps (InConfig cfg R) := by
  refine keeps_get_seq fun s _ => ?_
  dsimp only
  split
  · exact keeps_seq hR (rd32_inConfig hR _) fun _ => Cmd.keeps_pure (inConfig_refl hR) _
  · exact Cmd.keeps_pure (inConfig_refl hR) _

/-! #### The commands -/

theorem keeps_attached_seq {β : Type} {f : Unit → Cmd β} (hf : (f ()).Keeps (InConfig cfg R)) :
    (requireAttached >>= f).Keeps (InConfig cfg R) :=
  keeps_seq hR (Cmd.keeps_requireAttached (inConfig_refl hR)) fun _ => hf

theorem keeps_refuseIf_seq {β : Type} {b : Bool} {f : Unit → Cmd β} (hf : b = false → (f ()).Keeps (InConfig cfg R)) :
    (refuseIf b >>= f).Keeps (InConfig cfg R) := by
  cases b with
  | true => exact inConfig_refl hR
  | false => exact hf rfl

theorem keeps_orRefuse_seq {α β : Type} {o : Option α} {f : α → Cmd β}
    (hf : ∀ a, o = some a → (f a).Keeps (InConfig cfg R)) :
    (orRefuse o >>= f).Keeps (InConfig cfg R) := by
  cases o with
  | none => exact inConfig_refl hR
  | some a => exact hf a rfl

theorem keeps_answer (r : Result) : (pure r : Cmd Result).Keeps (InConfig cfg R) := Cmd.keeps_pure (inConfig_refl hR) r

theorem cmdAttach_inConfig (code : BitVec 2) : (cmdAttach code).Keeps (InConfig cfg R) := by
  refine keeps_get_seq fun s hs => ?_
  subst hs
  refine keeps_refuseIf_seq hR fun _ => keeps_orRefuse_seq hR fun variant _ => ?_
  refine keeps_seq hR (wr32_inConfig hR (r := .dhcsr) (by simp [mapRegs]) _) fun _ => ?_
  refine keeps_seq hR (awaitStatus_inConfig hR _ _) fun _ => ?_
  refine keeps_seq hR (rd32_inConfig hR _) fun fpCtrl => keeps_seq hR (rd32_inConfig hR _) fun dwtCtrl => ?_
  refine keeps_seq hR (writeAll_inConfig hR (toMap_sweepWrites _ _ _)) fun _ => ?_
  refine keeps_seq hR (sampleCache_inConfig hR variant) fun _ => ?_
  exact keeps_seq hR (keeps_update hR fun _ => ⟨rfl, rfl, rfl, rfl⟩) fun _ => keeps_answer hR _

theorem cmdDetach_inConfig : cmdDetach.Keeps (InConfig cfg R) := by
  refine keeps_attached_seq hR <| keeps_get_seq fun s hs => ?_
  subst hs
  refine keeps_seq hR (attemptAll_inConfig hR (toMap_detachWrites _ _ _ _ _)) fun _ => ?_
  exact keeps_seq hR (keeps_update hR fun _ => ⟨rfl, rfl, rfl, rfl⟩) fun _ => keeps_answer hR _

theorem cmdHalt_inConfig : cmdHalt.Keeps (InConfig cfg R) := by
  refine keeps_attached_seq hR <| keeps_get_seq fun s _ => ?_
  refine keeps_seq hR (rd32_inConfig hR _) fun status => ?_
  split
  · exact keeps_seq hR (captureOnce_inConfig hR) fun _ => keeps_answer hR _
  · refine keeps_seq hR (keeps_update hR fun _ => ⟨rfl, rfl, rfl, rfl⟩) fun _ => ?_
    refine keeps_seq hR (writeCw_inConfig hR _) fun _ => keeps_seq hR (awaitStatus_inConfig hR _ _) fun _ => ?_
    exact keeps_seq hR (capture_inConfig hR) fun _ => keeps_answer hR _

theorem cmdResume_inConfig (mask : Bool) : (cmdResume mask).Keeps (InConfig cfg R) := by
  refine keeps_attached_seq hR <| keeps_get_seq fun s _ => keeps_seq hR (writeCw_inConfig hR _) fun _ => ?_
  exact keeps_seq hR (keeps_update hR fun _ => ⟨rfl, rfl, rfl, rfl⟩) fun _ => keeps_answer hR _

theorem cmdResumeStep_inConfig (mask : Bool) : (cmdResumeStep mask).Keeps (InConfig cfg R) := by
  refine keeps_attached_seq hR <| keeps_get_seq fun s _ => keeps_seq hR (writeCw_inConfig hR _) fun _ => ?_
  refine keeps_seq hR (keeps_update hR fun _ => ⟨rfl, rfl, rfl, rfl⟩) fun _ => ?_
  refine keeps_seq hR (awaitStatus_inConfig hR _ _) fun _ => keeps_get_seq fun u _ => ?_
  refine keeps_seq hR (writeCw_inConfig hR _) fun _ => ?_
  exact keeps_seq hR (capture_inConfig hR) fun _ => keeps_answer hR _

theorem cmdReset_inConfig (catchVector : Bool) : (cmdReset catchVector).Keeps (InConfig cfg R) := by
  refine keeps_attached_seq hR <| keeps_get_seq fun s hs => ?_
  subst hs
  have requested : ∀ _ : Unit, (do
      wr32 s.cfg.addrAircr (resetWord s.cfg)
      modify State.dropHr
      awaitStatus statusResetSeen .resetTimeout
      pure .none : Cmd Result).Keeps (InConfig s.cfg R) := fun _ => by
    refine keeps_seq hR (wr32_inConfig hR (r := .aircr) (by simp [mapRegs]) _) fun _ => ?_
    refine keeps_seq hR (keeps_update hR fun _ => ⟨rfl, rfl, rfl, rfl⟩) fun _ => ?_
    exact keeps_seq hR (awaitStatus_inConfig hR _ _) fun _ => keeps_answer hR _
  cases catchVector with
  | false => exact requested ()
  | true => exact keeps_seq hR (armVectorCatch_inConfig hR) requested

theorem cmdRdreg_inConfig (sel : BitVec 7) : (cmdRdreg sel).Keeps (InConfig cfg R) := by
  refine keeps_attached_seq hR <| keeps_get_seq fun s hs => ?_
  subst hs
  refine keeps_seq hR (wr32_inConfig hR (r := .dcrsr) (by simp [mapRegs]) _) fun _ => ?_
  refine keeps_seq hR (awaitStatus_inConfig hR _ _) fun _ => ?_
  exact keeps_seq hR (rd32_inConfig hR _) fun _ => keeps_answer hR _

theorem cmdWrreg_inConfig (sel : BitVec 7) (value : Word) : (cmdWrreg sel value).Keeps (InConfig cfg R) := by
  refine keeps_attached_seq hR <| keeps_get_seq fun s hs => ?_
  subst hs
  refine keeps_seq hR (wr32_inConfig hR (r := .dcrdr) (by simp [mapRegs]) _) fun _ => ?_
  refine keeps_seq hR (wr32_inConfig hR (r := .dcrsr) (by simp [mapRegs]) _) fun _ => ?_
  exact keeps_seq hR (awaitStatus_inConfig hR _ _) fun _ => keeps_answer hR _

theorem cmdRdmem_inConfig (hint : BitVec 2) (addr len : Word) : (cmdRdmem hint addr len).Keeps (InConfig cfg R) := by
  refine keeps_attached_seq hR <| keeps_orRefuse_seq hR fun ceiling _ => keeps_refuseIf_seq hR fun _ => ?_
  refine keeps_seq hR ?_ fun _ => keeps_answer hR _
  exact readTransfers_keeps (inConfig_refl hR) (inConfig_trans hR) (memRead_inConfig hR) _

/-- The one command with block writes (R61, R197). -/
theorem cmdWrmem_inConfig (hw : ∀ a bs s, s.cfg = cfg → R s (portWriteBlock a bs s).2) (hint : BitVec 2) (code : Bool)
    (addr len : Word) (bytes : List Byte) : (cmdWrmem hint code addr len bytes).Keeps (InConfig cfg R) := by
  refine keeps_attached_seq hR <| keeps_orRefuse_seq hR fun ceiling _ => ?_
  refine keeps_refuseIf_seq hR fun _ => keeps_refuseIf_seq hR fun _ => ?_
  refine keeps_seq hR ?_ fun _ => keeps_get_seq fun s hs => ?_
  · exact writeTransfers_keeps (inConfig_refl hR) (inConfig_trans hR) (memWrite_inConfig hw) _ _ _
  · subst hs
    split
    · exact keeps_seq hR (writeAll_inConfig hR (toMap_cacheWrites _ _ _)) fun _ => keeps_answer hR _
    · exact keeps_answer hR _

theorem cmdSetbp_inConfig (a : Word) : (cmdSetbp a).Keeps (InConfig cfg R) := by
  refine keeps_attached_seq hR <| keeps_get_seq fun s hs => ?_
  subst hs
  dsimp only
  split
  · exact keeps_answer hR _
  · split
    · exact Cmd.keeps_raise (inConfig_refl hR) _
    next n hfree =>
      refine keeps_seq hR (enableFpb_inConfig hR) fun _ => ?_
      refine keeps_seq hR (wr32_inConfig hR (mem_mapRegs_fpComp (slot_lt_cap (State.bpFree_lt hfree))) _) fun _ => ?_
      exact keeps_seq hR (keeps_update hR fun _ => ⟨rfl, rfl, rfl, rfl⟩) fun _ => keeps_answer hR _

theorem cmdClrbp_inConfig (slot : BitVec 4) : (cmdClrbp slot).Keeps (InConfig cfg R) := by
  refine keeps_attached_seq hR <| keeps_get_seq fun s hs => keeps_refuseIf_seq hR fun hslot => ?_
  subst hs
  have hn : slot.toNat < s.nBp.toNat := by simpa using hslot
  refine keeps_seq hR (wr32_inConfig hR (mem_mapRegs_fpComp (slot_lt_cap hn)) _) fun _ => ?_
  exact keeps_seq hR (keeps_update hR fun _ => ⟨rfl, rfl, rfl, rfl⟩) fun _ => keeps_answer hR _

theorem cmdSetwp_inConfig (size access : BitVec 2) (a : Word) : (cmdSetwp size access a).Keeps (InConfig cfg R) := by
  refine keeps_attached_seq hR <| keeps_get_seq fun s hs => ?_
  subst hs
  refine keeps_orRefuse_seq hR fun kind _ => keeps_refuseIf_seq hR fun _ => ?_
  dsimp only
  split
  · exact keeps_answer hR _
  · split
    · exact Cmd.keeps_raise (inConfig_refl hR) _
    next n hfree =>
      have hn : n < 15 := slot_lt_cap (State.wpFree_lt hfree)
      refine keeps_orRefuse_seq hR fun arming harm => keeps_seq hR (writeAll_inConfig hR ?_) fun _ => ?_
      · exact List.forall_mem_cons.mpr ⟨⟨_, mem_mapRegs_dwtComp hn, rfl⟩, toMap_armWrites _ hn harm⟩
      · exact keeps_seq hR (keeps_update hR fun _ => ⟨rfl, rfl, rfl, rfl⟩) fun _ => keeps_answer hR _

theorem cmdClrwp_inConfig (slot : BitVec 4) : (cmdClrwp slot).Keeps (InConfig cfg R) := by
  refine keeps_attached_seq hR <| keeps_get_seq fun s hs => keeps_refuseIf_seq hR fun hslot => ?_
  subst hs
  have hn : slot.toNat < s.nWp.toNat := by simpa using hslot
  refine keeps_seq hR (wr32_inConfig hR (mem_mapRegs_dwtFunction (slot_lt_cap hn)) _) fun _ => ?_
  exact keeps_seq hR (keeps_update hR fun _ => ⟨rfl, rfl, rfl, rfl⟩) fun _ => keeps_answer hR _

theorem cmdHaltreason_inConfig : cmdHaltreason.Keeps (InConfig cfg R) := by
  refine keeps_attached_seq hR <| keeps_get_seq fun s _ => ?_
  split
  · exact keeps_answer hR _
  · refine keeps_seq hR (rd32_inConfig hR _) fun status => ?_
    split
    · exact keeps_seq hR (capture_inConfig hR) fun _ => keeps_get_seq fun u _ => keeps_answer hR _
    · exact keeps_answer hR _

/-- Every command keeps what its transactions keep; WRMEM needs its block writes to keep it too. -/
theorem commandBody_inConfig {i : Instr} (hw : (∃ hint code addr len bytes, i = .wrmem hint code addr len bytes) →
    ∀ a bs s, s.cfg = cfg → R s (portWriteBlock a bs s).2) : (commandBody i).Keeps (InConfig cfg R) := by
  cases i with
  | attach variant => exact cmdAttach_inConfig hR variant
  | detach => exact cmdDetach_inConfig hR
  | halt => exact cmdHalt_inConfig hR
  | resume mask => exact cmdResume_inConfig hR mask
  | resumeStep mask => exact cmdResumeStep_inConfig hR mask
  | reset catchVector => exact cmdReset_inConfig hR catchVector
  | rdreg sel => exact cmdRdreg_inConfig hR sel
  | wrreg sel value => exact cmdWrreg_inConfig hR sel value
  | rdmem hint addr len => exact cmdRdmem_inConfig hR hint addr len
  | wrmem hint code addr len bytes => exact cmdWrmem_inConfig hR (hw ⟨_, _, _, _, _, rfl⟩) hint code addr len bytes
  | setbp codeAddress => exact cmdSetbp_inConfig hR codeAddress
  | clrbp slot => exact cmdClrbp_inConfig hR slot
  | setwp size access address => exact cmdSetwp_inConfig hR size access address
  | clrwp slot => exact cmdClrwp_inConfig hR slot
  | haltreason => exact cmdHaltreason_inConfig hR

end

section
variable {R : State → State → Prop} {s t : State} (hR : TransactionRules s.cfg R)
include hR

/-- A command as a whole keeps what its transactions keep. -/
theorem exec_keeps {i : Instr} (hw : (∃ hint code addr len bytes, i = .wrmem hint code addr len bytes) →
    ∀ a bs u, u.cfg = s.cfg → R u (portWriteBlock a bs u).2) (h : exec i s = .next t) : R s t := by
  rw [exec_eq_runCommand] at h
  cases h
  have hkept := runCommand_keeps (inConfig_refl hR) (inConfig_trans hR) (fun _ => inConfig_of_same hR ⟨rfl, rfl, rfl, rfl⟩)
    (fun _ _ => inConfig_of_same hR ⟨rfl, rfl, rfl, rfl⟩) (commandBody_inConfig hR hw) s
  exact (hkept rfl).2

/-- A step as a whole keeps what the transactions of every command keep. -/
theorem step_keeps (hw : ∀ a bs u, u.cfg = s.cfg → R u (portWriteBlock a bs u).2) (h : step s = .next t) : R s t := by
  have hidle : R s s := hR.same ⟨rfl, rfl, rfl, rfl⟩
  cases hb : s.busy with
  | true => rw [step_busy hb] at h; cases h; exact hidle
  | false =>
    cases hm : s.commands with
    | nil => rw [step_nothing hb hm] at h; cases h; exact hidle
    | cons m rest =>
      cases hdec : decode m with
      | error e => rw [step_malformed hb hm hdec] at h; cases h; exact hR.same ⟨rfl, rfl, rfl, rfl⟩
      | ok i =>
        rw [step_command hb hm hdec] at h
        have hpresented : R s (s.presenting rest) := hR.same ⟨rfl, rfl, rfl, rfl⟩
        exact hR.trans hpresented (exec_keeps (s := s.presenting rest) hR (fun _ => hw) h)

end

end Sys2Proof.Machine
end

section
/-! SUPPORT. Memory and core under the target's own events, under accesses, and so under commands and steps
(20_memory.md R60, R61, R81). -/

namespace Sys2Proof.Machine

/-! ### The canonical form of memory -/

/-- The end of a core-register transfer touches no memory (R99). -/
theorem Target.completeTransfer_mem (cfg : Config) (t : Target) (x : Transfer) (value : Word) (lost : Bool) :
    (t.completeTransfer cfg x value lost).mem = t.mem := by
  unfold Target.completeTransfer
  dsimp only
  split
  · split <;> rfl
  · rfl

/-- Every event of the target keeps the canonical form: those that store bytes, and all others, which leave memory as it is. -/
theorem Target.wf_event (cfg : Config) {t : Target} (h : t.mem.wf = true) (e : TargetEvent) :
    (t.event cfg e).mem.wf = true := by
  cases e with
  | storeByte a b => exact Memory.wf_write h _ _
  | cachedStore a b =>
    simp only [Target.event]
    split
    · exact h
    · exact Memory.wf_write h _ _
  | writeBack a => exact wf_cleanLine cfg t a.toNat h
  | transferCompletes value lost =>
    simp only [Target.event]
    split
    · rw [Target.completeTransfer_mem]; exact h
    · exact h
  | systemReset cause core dbg =>
    cases cause with
    | requested => simp only [Target.event]; split <;> exact h
    | other => exact h
  | dropLine | coreChanges | controlChanges | sleepLockup | hfsrChanges | dcrdrChanges | demcrChanges | resetVectorChanges
  | comparatorsChange => exact h
  | enableTakesEffect | halts | resumes | stepLeavesHalt | stepRetires | stepRequestStands | retires | externalHalt
  | vectorCatchHalts | powerDown | fetchFill | unlisted => simp only [Target.event]; split <;> exact h

theorem Target.wf_events (cfg : Config) {t : Target} (h : t.mem.wf = true) (es : List TargetEvent) :
    (t.events cfg es).mem.wf = true := by
  induction es generalizing t with
  | nil => exact h
  | cons e es ih => exact ih (Target.wf_event cfg h e)

/-- What an access of the port leaves unchanged when it reads: all but the debug registers (R74). -/
theorem Target.read_keeps (cfg : Config) (t : Target) (noise a : Word) (n : Nat) :
    (t.read cfg noise a n).2.mem = t.mem ∧ (t.read cfg noise a n).2.core = t.core
    ∧ (t.read cfg noise a n).2.dcache = t.dcache ∧ (t.read cfg noise a n).2.resetVector = t.resetVector := by
  unfold Target.read
  split
  next r _ =>
    obtain ⟨hmem, hcore, _, hdcache, hvector⟩ := t.readReg_keeps cfg noise r
    exact ⟨hmem, hcore, hdcache, hvector⟩
  · split <;> exact ⟨rfl, rfl, rfl, rfl⟩

theorem Target.wf_writeReg (cfg : Config) {t : Target} (h : t.mem.wf = true) (noise v : Word) (r : Reg) :
    (t.writeReg cfg noise v r).mem.wf = true := by
  by_cases hr : r = .dccmvac
  · subst hr
    unfold Target.writeReg
    dsimp only
    split
    · exact wf_cleanLine cfg t v.toNat h
    · exact h
  · rw [(t.writeReg_mem cfg noise v hr).1]; exact h

theorem Target.wf_write (cfg : Config) {t : Target} (h : t.mem.wf = true) (noise a : Word) (bs : List Byte) :
    (t.write cfg noise a bs).mem.wf = true := by
  unfold Target.write
  split
  · exact Target.wf_writeReg cfg h _ _ _
  · split
    · exact h
    · exact Memory.wf_writeBytes h _ _

/-- A transaction keeps the canonical form if its access does: the target's own steps keep it already (R81). -/
theorem transact_wf {α : Type} (access : Target → Word → α × Target) (entry : Answer α → TraceEntry) {s : State}
    (h : s.target.mem.wf = true) (ha : ∀ u noise, u.mem.wf = true → (access u noise).2.mem.wf = true) :
    (transact access entry s).2.target.mem.wf = true := by
  obtain ⟨target, e, he, hcases⟩ := transact_cases access entry s
  have hu := Target.wf_events s.cfg h s.choice.events
  rw [he]
  rcases hcases with rfl | rfl
  · exact hu
  · exact ha _ _ hu

/-- The canonical form, where it was there before. -/
def CanonicalKept (s t : State) : Prop := s.target.mem.wf = true → t.target.mem.wf = true

theorem canonicalKept_writeBlock (a : Word) (bs : List Byte) (s : State) : CanonicalKept s (portWriteBlock a bs s).2 :=
  fun h => transact_wf _ _ h fun _ _ hu => Target.wf_write s.cfg hu _ _ _

theorem canonicalKept_rules (cfg : Config) : TransactionRules cfg CanonicalKept where
  same hst := fun h => by rw [hst.target]; exact h
  trans hst htu := fun h => htu (hst h)
  read32 a s _ := fun h => transact_wf _ _ h fun u noise hu => (u.read_keeps s.cfg noise a 4).1 ▸ hu
  write32 _ v s _ := fun h => transact_wf _ _ h fun _ _ hu => Target.wf_write s.cfg hu _ _ _
  readBlock a n s _ := fun h => transact_wf _ _ h fun u noise hu => (u.read_keeps s.cfg noise a n).1 ▸ hu

/-- Settles O58: every event and every access keeps the canonical form, so every transaction, every command and every step does. -/
theorem everyStepKeepsMemoryCanonical : Obligations.EveryStepKeepsMemoryCanonical := fun _ _ hwf h =>
  step_keeps (canonicalKept_rules _) (fun a bs u _ => canonicalKept_writeBlock a bs u) h hwf

/-! ### The frame of the commands that store nothing -/

/-- The two targets agree in memory, in what waits in the data cache, in the core's registers and in the reset vector. -/
structure SamePlatform (t u : Target) : Prop where
  mem : u.mem = t.mem
  core : u.core = t.core
  dcache : u.dcache = t.dcache
  resetVector : u.resetVector = t.resetVector

theorem SamePlatform.trans {t u v : Target} (h : SamePlatform t u) (h' : SamePlatform u v) : SamePlatform t v :=
  ⟨h'.mem.trans h.mem, h'.core.trans h.core, h'.dcache.trans h.dcache, h'.resetVector.trans h.resetVector⟩

/-- Reading through the port changes debug registers at most. -/
theorem samePlatform_read (cfg : Config) (t : Target) (noise a : Word) (n : Nat) :
    SamePlatform t (t.read cfg noise a n).2 := by
  obtain ⟨hmem, hcore, hdcache, hvector⟩ := t.read_keeps cfg noise a n
  exact ⟨hmem, hcore, hdcache, hvector⟩

/-- Writing a register changes no memory where the data cache has nothing to give it (R61, R103). -/
theorem samePlatform_writeReg (cfg : Config) {t : Target} (hd : t.dcache = []) (noise v : Word) (r : Reg) :
    SamePlatform t (t.writeReg cfg noise v r) := by
  obtain ⟨hcore, hvector⟩ := t.writeReg_core cfg noise v r
  by_cases hr : r = .dccmvac
  · subst hr
    have hsame : t.writeReg cfg noise v .dccmvac = t := by
      unfold Target.writeReg
      dsimp only
      rw [cleanLine_empty cfg hd]
      exact ite_self t
    rw [hsame]
    exact ⟨rfl, rfl, rfl, rfl⟩
  · obtain ⟨hmem, hdcache⟩ := t.writeReg_mem cfg noise v hr
    exact ⟨hmem, hcore, hdcache, hvector⟩

/-- A transaction before which the target does nothing leaves the target, or the target after the access (R81). -/
theorem transact_samePlatform {α : Type} (access : Target → Word → α × Target) (entry : Answer α → TraceEntry) {s : State}
    (hq : s.quietFor 1) (ha : ∀ noise, SamePlatform s.target (access s.target noise).2) :
    SamePlatform s.target (transact access entry s).2.target := by
  obtain ⟨target, e, he, hcases⟩ := transact_cases access entry s
  rw [show s.choice.events = [] from hq 0 Nat.one_pos] at hcases
  rw [he]
  rcases hcases with rfl | rfl
  · exact ⟨rfl, rfl, rfl, rfl⟩
  · exact ha _

/-- From `s` to `t` the script and the configuration stay, the count of transactions does not fall, and if the target did nothing on
its own and nothing waited in its data cache, the platform is the same. -/
structure FrameKept (s t : State) : Prop where
  cfg : t.cfg = s.cfg
  env : t.env = s.env
  tick_le : s.tick ≤ t.tick
  platform : s.quietFor (t.tick - s.tick) → s.target.dcache = [] → SamePlatform s.target t.target

/-- What the script promised from `s` on, it promises from a later state on. -/
theorem quietFor_of_later {s t : State} {n : Nat} (henv : t.env = s.env) (htick : s.tick ≤ t.tick)
    (h : s.quietFor (t.tick - s.tick + n)) : t.quietFor n := fun k hk => by
  have hs := h (t.tick - s.tick + k) (by omega)
  unfold State.choiceAt at hs ⊢
  rwa [henv, show t.tick + k = s.tick + (t.tick - s.tick + k) by omega]

theorem FrameKept.trans {s t u : State} (h : FrameKept s t) (h' : FrameKept t u) : FrameKept s u where
  cfg := h'.cfg.trans h.cfg
  env := h'.env.trans h.env
  tick_le := h.tick_le.trans h'.tick_le
  platform hq hd := by
    have hst := h.tick_le
    have htu := h'.tick_le
    have hfirst := h.platform (hq.mono (by omega)) hd
    have hrest : t.quietFor (u.tick - t.tick) :=
      quietFor_of_later h.env hst (by rwa [show t.tick - s.tick + (u.tick - t.tick) = u.tick - s.tick by omega])
    exact hfirst.trans (h'.platform hrest (hfirst.dcache.trans hd))

/-- One transaction whose access leaves the platform of a quiet target as it is. -/
theorem frameKept_transact {α : Type} (access : Target → Word → α × Target) (entry : Answer α → TraceEntry) (s : State)
    (ha : s.target.dcache = [] → ∀ noise, SamePlatform s.target (access s.target noise).2) :
    FrameKept s (transact access entry s).2 := by
  obtain ⟨target, he⟩ := transact_spec access entry s
  refine ⟨by rw [he]; rfl, by rw [he]; rfl, by rw [he]; exact Nat.le_succ _, fun hq hd => ?_⟩
  have hone : (transact access entry s).2.tick - s.tick = 1 := by rw [he]; exact Nat.add_sub_cancel_left _ 1
  exact transact_samePlatform access entry (hone ▸ hq) (ha hd)

theorem frameKept_rules {cfg : Config} (hwf : configWf cfg = true) : TransactionRules cfg FrameKept where
  same hst := ⟨hst.cfg, hst.env, Nat.le_of_eq hst.tick.symm, fun _ _ => by rw [hst.target]; exact ⟨rfl, rfl, rfl, rfl⟩⟩
  trans := FrameKept.trans
  read32 a s _ := frameKept_transact _ _ s fun _ noise => samePlatform_read s.cfg s.target noise a 4
  write32 {r} hr v s hs := frameKept_transact _ _ s fun hd noise => by
    show SamePlatform s.target (s.target.write s.cfg noise (r.address cfg) (bytesOfWord v))
    rw [hs, Target.write_reg hwf hr]
    exact samePlatform_writeReg cfg hd noise v r
  readBlock a n s _ := frameKept_transact _ _ s fun _ noise => samePlatform_read s.cfg s.target noise a n

/-- Settles O36: the other commands read, or write registers of the map, and neither changes the platform of a quiet target. -/
theorem memoryAndCoreFrame : Obligations.MemoryAndCoreFrame := by
  intro i s t hi hwf h hq hd
  have hframe : FrameKept s t := exec_keeps (frameKept_rules hwf)
    (fun ⟨hint, code, addr, len, bytes, he⟩ => absurd he (hi hint code addr len bytes)) h
  have hsame := hframe.platform hq hd
  exact ⟨fun a => by rw [hsame.mem], hsame.core, hsame.resetVector⟩

end Sys2Proof.Machine
end

section
/-! SUPPORT. Transactions one after the other that the port answers: how far a state is from an earlier one, and which state an
answered access to a register of the map leaves (20_memory.md R66, R81). -/

namespace Sys2Proof.Machine

/-! ### Where the script has got to -/

/-- `t` comes `k` transactions after `s`, with the configuration and the script of `s`. -/
structure Later (k : Nat) (s t : State) : Prop where
  cfg : t.cfg = s.cfg
  env : t.env = s.env
  tick : t.tick = s.tick + k

section
variable {s t u : State} {k : Nat} (h : Later k s t)
include h

theorem Later.trans {m : Nat} (h' : Later m t u) : Later (k + m) s u :=
  ⟨h'.cfg.trans h.cfg, h'.env.trans h.env, by rw [h'.tick, h.tick]; omega⟩

theorem Later.choiceAt (j : Nat) : t.choiceAt j = s.choiceAt (k + j) := by
  unfold State.choiceAt
  rw [h.env, h.tick, Nat.add_assoc]

theorem Later.choice : t.choice = s.choiceAt k := h.choiceAt 0

theorem Later.answersFor {n : Nat} (ha : s.answersFor (k + n)) : t.answersFor n :=
  ⟨by rw [h.cfg]; exact ha.1, fun j hj => by rw [h.choiceAt]; exact ha.2 _ (by omega)⟩

theorem Later.quietFor {n : Nat} (hq : s.quietFor (k + n)) : t.quietFor n := fun j hj => by
  rw [h.choiceAt]; exact hq _ (by omega)

end

theorem later_afterTransaction (s : State) (target : Target) (e : TraceEntry) : Later 1 s (s.afterTransaction target e) :=
  ⟨rfl, rfl, rfl⟩

/-! ### Answered accesses to registers of the map -/

section
variable {s : State} (hwf : configWf s.cfg = true) (ha : s.answersFor 1) {r : Reg} (hr : r ∈ mapRegs)
include hwf ha hr

/-- An answered read of a register: its value and the target it leaves are those of `readReg`, after the target's own steps. -/
theorem exists_reads : ∃ t noise, s.reads (r.address s.cfg)
      ((s.target.events s.cfg s.choice.events).readReg s.cfg noise r).1 t
    ∧ t.target = ((s.target.events s.cfg s.choice.events).readReg s.cfg noise r).2 ∧ Later 1 s t := by
  obtain ⟨hb, ho⟩ := ha.head Nat.one_pos
  exact ⟨_, _, portRead32_reg hb ho hwf hr, rfl, later_afterTransaction _ _ _⟩

/-- An answered write of a register leaves the target of `writeReg`, after the target's own steps. -/
theorem exists_writes (v : Word) : ∃ t noise, s.writes (r.address s.cfg) v t
    ∧ t.target = (s.target.events s.cfg s.choice.events).writeReg s.cfg noise v r ∧ Later 1 s t := by
  obtain ⟨hb, ho⟩ := ha.head Nat.one_pos
  exact ⟨_, _, portWrite32_reg hb ho hwf hr v, rfl, later_afterTransaction _ _ _⟩

variable (hq : s.quietFor 1)
include hq

theorem exists_quiet_reads : ∃ t noise, s.reads (r.address s.cfg) (s.target.readReg s.cfg noise r).1 t
    ∧ t.target = (s.target.readReg s.cfg noise r).2 ∧ Later 1 s t := by
  have h := exists_reads hwf ha hr
  rwa [hq.head Nat.one_pos] at h

theorem exists_quiet_writes (v : Word) : ∃ t noise, s.writes (r.address s.cfg) v t
    ∧ t.target = s.target.writeReg s.cfg noise v r ∧ Later 1 s t := by
  have h := exists_writes hwf ha hr v
  rwa [hq.head Nat.one_pos] at h

end

/-- A control word that the port answers takes effect as R86 to R92 say (R121, R151). -/
theorem exists_controlWrite {s : State} (hwf : configWf s.cfg = true) (ha : s.answersFor 1) (hq : s.quietFor 1)
    (cw : ControlWord) : ∃ t, s.writes s.cfg.addrDhcsr (dhcsrWord s.cfg cw) t
      ∧ t.target = s.target.setDbg (s.target.dbg.keyedControl s.cfg cw) ∧ Later 1 s t := by
  obtain ⟨t, noise, hw, htarget, hlater⟩ :=
    exists_quiet_writes hwf ha (r := .dhcsr) (by simp [mapRegs]) hq (dhcsrWord s.cfg cw)
  refine ⟨t, hw, ?_, hlater⟩
  rw [htarget, Target.writeReg_dhcsr_of_key _ _ (upperHalf_dhcsrWord hwf cw), controlBits_dhcsrWord hwf cw]

/-- A poll that finds its bit at the first read (R15). -/
theorem pollFindsAt_zero {s t : State} {a v : Word} {pred : Word → Bool} (h : s.reads a v t) (hp : pred v = true) :
    pollFindsAt a pred 0 s ∧ afterReads a 1 s = t := by
  have hread : portRead32 a s = (.ok v, t) := h
  refine ⟨⟨fun j hj => absurd hj (Nat.not_lt_zero j), v, ?_, hp⟩, ?_⟩
  · exact congrArg Prod.fst hread
  · exact congrArg Prod.snd hread

/-! ### Capture -/

/-- The two targets agree in the core's registers, in memory and in whether the core is halted. -/
structure SameHalt (t u : Target) : Prop where
  core : u.core = t.core
  mem : u.mem = t.mem
  halted : u.dbg.halted = t.dbg.halted

theorem SameHalt.trans {t u v : Target} (h : SameHalt t u) (h' : SameHalt u v) : SameHalt t v :=
  ⟨h'.core.trans h.core, h'.mem.trans h.mem, h'.halted.trans h.halted⟩

/-- A read of a register does not set the core going (R74). -/
theorem sameHalt_readReg (cfg : Config) (t : Target) (noise : Word) (r : Reg) : SameHalt t (t.readReg cfg noise r).2 := by
  obtain ⟨hmem, hcore, _⟩ := t.readReg_keeps cfg noise r
  refine ⟨hcore, hmem, ?_⟩
  cases r with
  | fpComp i | dwtComp i | dwtMask i | dwtFunction i => simp only [Target.readReg]; split <;> rfl
  | dhcsr | dcrsr | dcrdr | demcr | dfsr | hfsr | aircr | cacheId | iciallu | dccmvac | fpCtrl | dwtCtrl => rfl

/-- The reads of the function registers of a list of slots, all answered by a quiet target (R239). -/
theorem exists_readsSlots {s : State} (hwf : configWf s.cfg = true) {slots : List Nat} (hlt : ∀ i ∈ slots, i < 15)
    (ha : s.answersFor slots.length) (hq : s.quietFor slots.length) :
    ∃ words t, s.readsSlots slots words t ∧ SameHalt s.target t.target ∧ Later slots.length s t := by
  induction slots generalizing s with
  | nil => exact ⟨[], s, ⟨rfl, rfl⟩, ⟨rfl, rfl, rfl⟩, ⟨rfl, rfl, rfl⟩⟩
  | cons i rest ih =>
    obtain ⟨hi, hrest⟩ := List.forall_mem_cons.mp hlt
    rw [List.length_cons, Nat.add_comm] at ha hq ⊢
    obtain ⟨u, noise, hread, htarget, hlater⟩ := exists_quiet_reads hwf (ha.mono (Nat.le_add_right 1 _))
      (mem_mapRegs_dwtFunction hi) (hq.mono (Nat.le_add_right 1 _))
    have hsame : SameHalt s.target u.target := by rw [htarget]; exact sameHalt_readReg _ _ _ _
    obtain ⟨words, t, hreads, hsame', hlater'⟩ :=
      ih (hlater.cfg ▸ hwf) hrest (hlater.answersFor ha) (hlater.quietFor hq)
    exact ⟨_, t, ⟨_, u, words, hread, rfl, hreads⟩, hsame.trans hsame', hlater.trans hlater'⟩

/-- The scan reads at most one register per watchpoint slot, of slots that exist (R239). -/
theorem scannedSlots_bounds (s : State) (h : HaltReason) :
    (s.scannedSlots h).length ≤ s.nWp.toNat ∧ ∀ i ∈ s.scannedSlots h, i < 15 := by
  unfold State.scannedSlots
  split
  · refine ⟨(List.length_filter_le _ _).trans (List.length_range).le, fun i hi => ?_⟩
    exact slot_lt_cap (List.mem_range.mp (List.mem_filter.mp hi).1)
  · exact ⟨Nat.zero_le _, fun i hi => by cases hi⟩

/-- Transactions change no slot, so the scan is the same (R239). -/
theorem PortOnly.scannedSlots {s t : State} (h : PortOnly s t) (reason : HaltReason) :
    t.scannedSlots reason = s.scannedSlots reason := by
  unfold State.scannedSlots State.wpSlot
  rw [h.nWp, h.wp]

/-- Attributing a halt to a slot leaves the flags as they are (R239). -/
theorem attributed_haltedByRequest (cfg : Config) (h : HaltReason) (words : List (Nat × Word)) :
    (attributed cfg h words).haltedByRequest = h.haltedByRequest := by
  unfold attributed
  split <;> rfl

/-- Capture on a quiet target that answers: it finishes, the core stays as it is, and the snapshot shows the fault status
there was (R238). -/
theorem exists_captures {s : State} (hwf : configWf s.cfg = true) (ha : s.answersFor (s.nWp.toNat + 3))
    (hq : s.quietFor (s.nWp.toNat + 3)) :
    ∃ h t, s.captures h t ∧ SameHalt s.target t.target ∧ h.haltedByRequest = s.target.dbg.dfsr.halted := by
  have hdfsr : Reg.dfsr ∈ mapRegs := by simp [mapRegs]
  obtain ⟨s1, n1, hread1, ht1, hl1⟩ := exists_quiet_reads hwf (ha.mono (by omega)) hdfsr (hq.mono (by omega))
  obtain ⟨s2, n2, hread2, ht2, hl2⟩ := exists_quiet_reads (hl1.cfg ▸ hwf) (hl1.answersFor (ha.mono (by omega)))
    (r := .hfsr) (by simp [mapRegs]) (hl1.quietFor (hq.mono (by omega)))
  rw [hl1.cfg] at hread2
  have hl12 := hl1.trans hl2
  have hports := hread1.portOnly.trans hread2.portOnly
  generalize hh : interpret s.cfg (s.target.readReg s.cfg n1 .dfsr).1 (s1.target.readReg s.cfg n2 .hfsr).1 = h0
  obtain ⟨hlen, hlt⟩ := scannedSlots_bounds s h0
  rw [← hports.scannedSlots] at hlen hlt
  obtain ⟨words, s3, hreads, hsame3, hl3⟩ := exists_readsSlots (hl12.cfg ▸ hwf) hlt (hl12.answersFor (ha.mono (by omega)))
    (hl12.quietFor (hq.mono (by omega)))
  have hl13 := hl12.trans hl3
  obtain ⟨t, n4, hwrite, ht4, _⟩ := exists_quiet_writes (hl13.cfg ▸ hwf) (hl13.answersFor (ha.mono (by omega)))
    hdfsr (hl13.quietFor (hq.mono (by omega))) (resetAll s.cfg)
  rw [hl13.cfg] at hwrite
  refine ⟨_, t, ⟨_, _, words, s1, s2, s3, hread1, hread2, ?_, hwrite, rfl⟩, ?_, ?_⟩
  · rw [hh, ← hports.scannedSlots]; exact hreads
  · have hsame12 : SameHalt s.target s2.target := by
      rw [ht2, ht1]
      exact (sameHalt_readReg _ _ _ _).trans (sameHalt_readReg _ _ _ _)
    have hsame4 : SameHalt s3.target t.target := by rw [ht4]; exact ⟨rfl, rfl, rfl⟩
    exact (hsame12.trans hsame3).trans hsame4
  · rw [attributed_haltedByRequest]
    exact congrArg FaultFlags.halted (faultFlags_faultWord hwf s.target.dbg.dfsr n1)

end Sys2Proof.Machine
end

section
/-! SUPPORT. RESET and RESUME.STEP as a whole, and together with the target (40_core_control.md R165, R166; 46_reset_sequencer.md
R252; 20_memory.md R92, R93, R100, R101). -/

namespace Sys2Proof.Machine

/-! ### RESET -/

/-- RESET completes: the vector catch armed if it is asked for, the reset request written, the reset seen (R252). -/
theorem exec_reset_completes {catchVector : Bool} {s s0 s1 : State} {k : Nat} (hready : s.ready)
    (harm : (if catchVector then armVectorCatch else pure ()) s.accept = .ok () s0)
    (hrequest : s0.writes s.cfg.addrAircr (resetWord s.cfg) s1) (hcfg : s1.cfg = s.cfg) (hk : k < s.cfg.pollMax)
    (hseen : pollFindsAt s.cfg.addrDhcsr (statusResetSeen s.cfg) k s1.dropHr) :
    exec (.reset catchVector) s = .next ((afterReads s.cfg.addrDhcsr (k + 1) s1.dropHr).deliver (.ok .none)) := by
  have hwait : awaitStatus statusResetSeen .resetTimeout s1.dropHr
      = .ok () (afterReads s.cfg.addrDhcsr (k + 1) s1.dropHr) := by
    rw [← hcfg] at hk hseen ⊢
    exact awaitStatus_found hk hseen
  have hrest : (do
      wr32 s.cfg.addrAircr (resetWord s.cfg)
      modify State.dropHr
      awaitStatus statusResetSeen .resetTimeout
      pure .none : Cmd Result) s0 = .ok .none (afterReads s.cfg.addrDhcsr (k + 1) s1.dropHr) := by
    refine (Cmd.bind_of_ok _ (wr32_of_writes hrequest)).trans ?_
    refine (Cmd.bind_of_ok _ (Cmd.modify_run s1 State.dropHr)).trans ?_
    exact (Cmd.bind_of_ok _ hwait).trans rfl
  rw [exec_eq_runCommand, commandBody]
  refine congrArg _ (runCommand_ok hready.2 ?_)
  unfold cmdReset
  refine (Cmd.bind_of_ok _ (requireAttached_of_ready hready)).trans ?_
  refine (Cmd.bind_of_ok _ (Cmd.get_run s.accept)).trans ?_
  cases catchVector with
  | true => exact (Cmd.bind_of_ok _ harm).trans hrest
  | false =>
    have hsame : EStateM.Result.ok () s.accept = .ok () s0 := harm
    cases hsame
    exact hrest

/-- The word that arms the vector catch has its bit set (R125). -/
theorem armWord_bit {cfg : Config} (h : configWf cfg = true) (v : Word) :
    (armWord cfg v).getLsbD cfg.bitVcCoreReset = true := by
  simp [armWord, getLsbD_bitAt, (configWf_singleBits h).1]

/-- A target with the core-reset vector catch armed under debug, and a reset requested (R100, R101). -/
structure ArmedForReset (cfg : Config) (t : Target) : Prop where
  requested : t.dbg.resetPending = true
  debugEnable : t.dbg.ctl.debugEnable = true
  armed : t.dbg.demcr.getLsbD cfg.bitVcCoreReset = true

/-- A core at `pc` that a reset caught, its halt complete (`settled`) or still to come (R101, R257). -/
structure CaughtAt (pc : Word) (settled : Bool) (t : Target) : Prop where
  halted : t.dbg.halted = settled
  pending : t.dbg.catchPending = !settled
  vcatch : settled = true → t.dbg.dfsr.vcatch = true
  pc : t.core.pc = pc

section
variable {cfg : Config} {t : Target} {pc : Word}

/-- The reset catches the core at the reset vector and can be seen (R101). -/
theorem ArmedForReset.reset (h : ArmedForReset cfg t) (core : CoreRegs) (dbg : DebugRegs) :
    CaughtAt t.resetVector false (t.event cfg (.systemReset .requested core dbg))
    ∧ (t.event cfg (.systemReset .requested core dbg)).dbg.resetSeen = true := by
  have hevent : t.event cfg (.systemReset .requested core dbg) = t.reset cfg core dbg := if_pos h.requested
  rw [hevent]
  refine ⟨⟨rfl, ?_, Bool.noConfusion, rfl⟩, rfl⟩
  show (t.dbg.demcr.getLsbD cfg.bitVcCoreReset && t.dbg.ctl.debugEnable) = true
  rw [h.armed, h.debugEnable]
  rfl

/-- The halt that was still to come completes: the core is halted where it is, with `VCATCH` (R100, R101). -/
theorem CaughtAt.halts (h : CaughtAt pc false t) :
    CaughtAt pc true (t.event cfg .vectorCatchHalts)
    ∧ (t.event cfg .vectorCatchHalts).dbg.resetSeen = t.dbg.resetSeen := by
  have hevent : t.event cfg .vectorCatchHalts
      = t.setDbg { t.dbg.enterHalt { noFlags with vcatch := true } with catchPending := false } := if_pos h.pending
  rw [hevent]
  exact ⟨⟨rfl, rfl, fun _ => Bool.or_true _, h.pc⟩, rfl⟩

/-- The reset, and the completion of the halt where it comes at once. -/
theorem ArmedForReset.events (h : ArmedForReset cfg t) (core : CoreRegs) (dbg : DebugRegs) (settled : Bool) :
    let u := t.events cfg (.systemReset .requested core dbg :: (if settled then [.vectorCatchHalts] else []))
    CaughtAt t.resetVector settled u ∧ u.dbg.resetSeen = true := by
  obtain ⟨hcaught, hseen⟩ := h.reset core dbg
  cases settled with
  | false => exact ⟨hcaught, hseen⟩
  | true =>
    obtain ⟨hhalted, hsame⟩ := hcaught.halts (cfg := cfg)
    exact ⟨hhalted, hsame.trans hseen⟩

/-- Until its halt is complete a caught core runs nothing (R100; log entry 33). -/
theorem CaughtAt.retires (h : CaughtAt pc false t) (next : NextPc) : t.event cfg (.retires next) = t :=
  if_neg (by simp [h.pending])

end

/-- Reading the status consumes `reset_since_last_read` and leaves a caught core caught (R87, R88). -/
theorem CaughtAt.readStatus {cfg : Config} {t : Target} {pc : Word} {settled : Bool} (h : CaughtAt pc settled t)
    (noise : Word) : CaughtAt pc settled (t.readReg cfg noise .dhcsr).2 := ⟨h.halted, h.pending, h.vcatch, h.pc⟩

/-- The three transactions of a RESET with `catch = 1` before its poll, on a quiet target that answers: they arm it (R252). -/
theorem exists_armedForReset {s : State} (hwf : configWf s.cfg = true) (ha : s.answersFor 3) (hq : s.quietFor 3)
    (hde : s.target.dbg.ctl.debugEnable = true) :
    ∃ s0 s1, armVectorCatch s = .ok () s0 ∧ s0.writes s.cfg.addrAircr (resetWord s.cfg) s1 ∧ Later 3 s s1 ∧ PortOnly s s1
      ∧ ArmedForReset s.cfg s1.target ∧ s1.target.resetVector = s.target.resetVector := by
  have hdemcr : Reg.demcr ∈ mapRegs := by simp [mapRegs]
  obtain ⟨u, n1, hread, htu, hlu⟩ := exists_quiet_reads hwf (ha.mono (by omega)) hdemcr (hq.mono (by omega))
  obtain ⟨s0, n2, harm, ht0, hl0⟩ := exists_quiet_writes (hlu.cfg ▸ hwf) (hlu.answersFor (ha.mono (by omega)))
    hdemcr (hlu.quietFor (hq.mono (by omega))) (armWord s.cfg s.target.dbg.demcr)
  have hl := hlu.trans hl0
  obtain ⟨s1, n3, hrequest, ht1, hl1⟩ := exists_quiet_writes (hl.cfg ▸ hwf) (hl.answersFor (ha.mono (by omega)))
    (r := .aircr) (by simp [mapRegs]) (hl.quietFor (hq.mono (by omega))) (resetWord s.cfg)
  rw [hlu.cfg] at harm
  rw [hl.cfg] at hrequest ht1
  have htarget : s1.target = s.target.setDbg
      { s.target.dbg with demcr := armWord s.cfg s.target.dbg.demcr, resetPending := true } := by
    rw [ht1, Target.writeReg_aircr_resetWord hwf, ht0, htu]; rfl
  refine ⟨s0, s1, armVectorCatch_of hread harm, hrequest, hl.trans hl1,
    (hread.portOnly.trans harm.portOnly).trans hrequest.portOnly, ?_, ?_⟩
  · rw [htarget]; exact ⟨rfl, hde, armWord_bit hwf _⟩
  · rw [htarget]; rfl

/-- Settles O50: the transactions before the poll arm the target, its reset catches the core, and the first poll read sees the
reset. -/
theorem resetWithCatchHaltsAtTheResetVector : Obligations.ResetWithCatchHaltsAtTheResetVector := by
  intro s core dbg settled hready hwf ha hde hevents
  have hq : s.accept.quietFor 3 := fun k hk => (hevents k (by omega)).trans (if_neg (by omega))
  have ha : s.accept.answersFor 4 := ha
  obtain ⟨s0, s1, harm, hrequest, hlater, hports, harmed, hvector⟩ := 
    exists_armedForReset (s := s.accept) hwf (ha.mono (by omega)) hq hde
  have hdropped : Later 3 s.accept s1.dropHr := ⟨hlater.cfg, hlater.env, hlater.tick⟩
  obtain ⟨t, noise, hpoll, htarget, _⟩ :=
    exists_reads (hdropped.cfg ▸ hwf) (hdropped.answersFor ha) (r := .dhcsr) (by simp [mapRegs])
  have hchoice : s1.dropHr.choice.events = _ := (congrArg Choice.events hdropped.choice).trans (hevents 3 (by omega))
  rw [hchoice, if_pos rfl, hdropped.cfg] at hpoll htarget
  obtain ⟨hcaught, hseen⟩ := harmed.events core dbg settled
  rw [hvector] at hcaught
  obtain ⟨_, _, _, _, _, hstatus, _⟩ := statusWord_bits hwf
    (s1.target.events s.cfg (.systemReset .requested core dbg :: (if settled then [.vectorCatchHalts] else []))).dbg noise
  obtain ⟨hfinds, hafter⟩ := pollFindsAt_zero (pred := statusResetSeen s.cfg) hpoll (hstatus.trans hseen)
  have hexec := exec_reset_completes (catchVector := true) hready harm hrequest hlater.cfg (configWf_facts hwf).1 hfinds
  have hread : CaughtAt s.target.resetVector settled t.target := by rw [htarget]; exact hcaught.readStatus noise
  refine ⟨t.deliver (.ok .none), hexec.trans (by rw [← hafter]; rfl), ?_, hpoll.portOnly.hrValid,
    hread.halted, hread.pc, ?_, ?_, ?_⟩
  · rw [State.deliver_responses, hpoll.portOnly.responses]
    exact congrArg (· ++ _) hports.responses
  · rw [State.deliver_target, htarget]; rfl
  · rintro rfl next
    exact hread.retires next
  · have hhalted : CaughtAt s.target.resetVector true
        (if settled then t.target else t.target.event s.cfg .vectorCatchHalts) := by
      cases settled with
      | true => exact hread
      | false => exact (hread.halts (cfg := s.cfg)).1
    exact ⟨hhalted.halted, hhalted.vcatch rfl, hhalted.pc⟩

/-! ### RESUME.STEP -/

/-- The word that starts a step (R165). -/
def stepWord (cw : ControlWord) (mask : Bool) : ControlWord :=
  { cw with haltRequest := false, stepRequest := true, maskInterrupts := mask }

/-- The word that holds the core after a step (R166). -/
def heldWord (cw : ControlWord) (mask : Bool) : ControlWord :=
  { cw with haltRequest := true, stepRequest := false, maskInterrupts := mask }

/-- RESUME.STEP completes: the step word, the poll for `halted`, the word that holds the core, and Capture (R165, R166). -/
theorem exec_resumeStep_completes {mask : Bool} {s s1 s2 s3 s4 : State} {h : HaltReason} (hready : s.ready)
    (hwf : configWf s.cfg = true) (hstep : s.accept.writes s.cfg.addrDhcsr (dhcsrWord s.cfg (stepWord s.cw mask)) s1)
    {v : Word} (hread : (s1.setCw (stepWord s.cw mask)).dropHr.reads s.cfg.addrDhcsr v s2)
    (hhalted : statusHalted s.cfg v = true)
    (hhold : s2.writes s.cfg.addrDhcsr (dhcsrWord s.cfg (heldWord s.cw mask)) s3)
    (hcapture : (s3.setCw (heldWord s.cw mask)).captures h s4) :
    exec (.resumeStep mask) s = .next ((s4.setHr h).deliver (.ok .none)) := by
  have hcfg1 : s1.cfg = s.cfg := hstep.portOnly.cfg
  have hcfg2 : s2.cfg = s.cfg := hread.portOnly.cfg.trans hcfg1
  have hcw : s2.cw = stepWord s.cw mask := hread.portOnly.cw
  have hwait : awaitStatus statusHalted .protocolTimeout (s1.setCw (stepWord s.cw mask)).dropHr = .ok () s2 := by
    rw [← hcfg1] at hread hhalted
    obtain ⟨hfinds, hafter⟩ := pollFindsAt_zero hread hhalted
    rw [← hafter]
    exact awaitStatus_found (configWf_facts (hcfg1 ▸ hwf)).1 hfinds
  have hheld : writeCw { s2.cw with haltRequest := true, stepRequest := false } s2
      = .ok () (s3.setCw (heldWord s.cw mask)) := by
    rw [hcw]
    rw [← hcfg2] at hhold
    exact writeCw_of_writes hhold
  rw [exec_eq_runCommand, commandBody]
  refine congrArg _ (runCommand_ok hready.2 ?_)
  unfold cmdResumeStep
  refine (Cmd.bind_of_ok _ (requireAttached_of_ready hready)).trans ?_
  refine (Cmd.bind_of_ok _ (Cmd.get_run s.accept)).trans ?_
  refine (Cmd.bind_of_ok _ (writeCw_of_writes (cw := stepWord s.cw mask) hstep)).trans ?_
  refine (Cmd.bind_of_ok _ (Cmd.modify_run _ State.dropHr)).trans ?_
  refine (Cmd.bind_of_ok _ hwait).trans ?_
  refine (Cmd.bind_of_ok _ (Cmd.get_run s2)).trans ?_
  refine (Cmd.bind_of_ok _ hheld).trans ?_
  exact (Cmd.bind_of_ok _ (capture_of_captures hcapture)).trans rfl

/-- The step word starts a step of a halted core (R92). -/
theorem DebugRegs.keyedControl_stepWord (cfg : Config) {d : DebugRegs} {cw : ControlWord} (hde : cw.debugEnable = true)
    (hhalted : d.halted = true) (hcatch : d.catchPending = false) (mask : Bool) :
    (d.keyedControl cfg (stepWord cw mask)).stepping = true
    ∧ (d.keyedControl cfg (stepWord cw mask)).catchPending = false := by
  simp [DebugRegs.keyedControl, stepWord, hde, hhalted, hcatch]

/-- The word that holds the core starts no step: a halted core stays halted (R90). -/
theorem DebugRegs.keyedControl_heldWord (cfg : Config) (d : DebugRegs) (cw : ControlWord) (mask : Bool) :
    (d.keyedControl cfg (heldWord cw mask)).halted = d.halted := by
  simp [DebugRegs.keyedControl, heldWord]

/-- The stepped instruction, if it is no branch, advances the program counter by its length, and the core halts again (R92, R93). -/
theorem Target.event_stepRetires_sequential (cfg : Config) {t : Target} (hstepping : t.dbg.stepping = true)
    (hcatch : t.dbg.catchPending = false) (len : Word) (flags : FaultFlags) (hits : List DataAccess) :
    t.event cfg (.stepRetires (.sequential len) flags hits) =
      { t with core := { t.core with pc := t.core.pc + len }, dbg := t.dbg.endStep cfg flags hits } :=
  if_pos (by simp [hstepping, hcatch, DebugRegs.mayTake])

/-- A halted core that is one instruction of `len` bytes further than in `t`, with memory as in `t`; `flags` were set (R92, R93). -/
structure LandedFrom (t : Target) (len : Word) (flags : FaultFlags) (u : Target) : Prop where
  core : u.core = { t.core with pc := t.core.pc + len }
  mem : u.mem = t.mem
  halted : u.dbg.halted = true
  dfsr : u.dbg.dfsr.halted = (t.dbg.dfsr.halted || flags.halted)

section
variable {cfg : Config} {t u : Target} {len : Word} {flags : FaultFlags}

/-- A step started on a halted core and retired: the core has landed (R92, R93). -/
theorem landedFrom_step {cw : ControlWord} (hde : cw.debugEnable = true) (hhalted : t.dbg.halted = true)
    (hcatch : t.dbg.catchPending = false) (mask : Bool) (hits : List DataAccess) :
    LandedFrom t len flags ((t.setDbg (t.dbg.keyedControl cfg (stepWord cw mask))).event cfg
      (.stepRetires (.sequential len) flags hits)) := by
  obtain ⟨hstepping, hnocatch⟩ := DebugRegs.keyedControl_stepWord cfg hde hhalted hcatch mask
  rw [Target.event_stepRetires_sequential cfg hstepping hnocatch]
  exact ⟨rfl, rfl, rfl, rfl⟩

theorem LandedFrom.readStatus (h : LandedFrom t len flags u) (noise : Word) :
    LandedFrom t len flags (u.readReg cfg noise .dhcsr).2 := ⟨h.core, h.mem, h.halted, h.dfsr⟩

theorem LandedFrom.hold (h : LandedFrom t len flags u) (cw : ControlWord) (mask : Bool) :
    LandedFrom t len flags (u.setDbg (u.dbg.keyedControl cfg (heldWord cw mask))) :=
  ⟨h.core, h.mem, (u.dbg.keyedControl_heldWord cfg cw mask).trans h.halted, h.dfsr⟩

end

/-- Settles O51: the step word starts the step, the event retires it before the poll read, and what follows keeps the core as it
is then. -/
theorem aStepAdvancesByOneInstruction : Obligations.AStepAdvancesByOneInstruction := by
  intro mask len flags hits s hready hwf ha hde hhalted hcatch hevents
  have ha : s.accept.answersFor (3 + (s.nWp.toNat + 3)) := ha.mono (by omega)
  have hquiet : ∀ k, k < s.nWp.toNat + 6 → k ≠ 1 → (s.accept.choiceAt k).events = [] :=
    fun k hk h1 => (hevents k hk).trans (if_neg h1)
  obtain ⟨s1, hstep, ht1, hl1⟩ := exists_controlWrite (s := s.accept) hwf (ha.mono (by omega))
    (fun k hk => hquiet k (by omega) (by omega)) (stepWord s.cw mask)
  have hl1 : Later 1 s.accept (s1.setCw (stepWord s.cw mask)).dropHr := ⟨hl1.cfg, hl1.env, hl1.tick⟩
  obtain ⟨s2, noise, hread, ht2, hl2⟩ := exists_reads (hl1.cfg ▸ hwf) (hl1.answersFor (ha.mono (by omega)))
    (r := .dhcsr) (by simp [mapRegs])
  have hchoice : (s1.setCw (stepWord s.cw mask)).dropHr.choice.events = _ :=
    (congrArg Choice.events hl1.choice).trans (hevents 1 (by omega))
  rw [hchoice, if_pos rfl, hl1.cfg] at hread ht2
  have hlanded : LandedFrom s.target len flags
      (s1.target.events s.cfg [.stepRetires (.sequential len) flags hits]) := by
    rw [ht1]; exact landedFrom_step hde hhalted hcatch mask hits
  have hl2 := hl1.trans hl2
  obtain ⟨s3, hhold, ht3, hl3⟩ := exists_controlWrite (hl2.cfg ▸ hwf) (hl2.answersFor (ha.mono (by omega)))
    (fun k hk => by rw [hl2.choiceAt]; exact hquiet _ (by omega) (by omega)) (heldWord s.cw mask)
  rw [hl2.cfg] at hhold ht3
  have hl3 : Later 3 s.accept (s3.setCw (heldWord s.cw mask)) := by
    have h := hl2.trans hl3
    exact ⟨h.cfg, h.env, h.tick⟩
  have hnWp : (s3.setCw (heldWord s.cw mask)).nWp = s.nWp :=
    hhold.portOnly.nWp.trans (hread.portOnly.nWp.trans hstep.portOnly.nWp)
  obtain ⟨h, s4, hcapture, hsame, hreason⟩ := exists_captures (hl3.cfg ▸ hwf) (hnWp ▸ hl3.answersFor ha)
    (fun k hk => by rw [hl3.choiceAt]; rw [hnWp] at hk; exact hquiet _ (by omega) (by omega))
  have hheld : LandedFrom s.target len flags s3.target := by
    rw [ht3, ht2]; exact (hlanded.readStatus noise).hold s.cw mask
  obtain ⟨_, hstatus, _⟩ := statusWord_bits hwf
    (s1.target.events s.cfg [.stepRetires (.sequential len) flags hits]).dbg noise
  refine ⟨_, exec_resumeStep_completes hready hwf hstep hread (hstatus.trans hlanded.halted) hhold hcapture, ?_,
    hsame.core.trans hheld.core, hsame.halted.trans hheld.halted, hsame.mem.trans hheld.mem, hcapture.portOnly.cw, rfl,
    hreason.trans hheld.dfsr⟩
  have hports : s4.responses = s.responses := hcapture.portOnly.responses.trans
    (hhold.portOnly.responses.trans (hread.portOnly.responses.trans hstep.portOnly.responses))
  exact congrArg (· ++ _) hports

end Sys2Proof.Machine
end

section
/-! SUPPORT. The command encoding (30_encoding.md section 1): `decode` and `encode` are inverse to each other, row by row of
R112, and every header is one row or refused (R117). -/

namespace Sys2Proof.Laws

open Sys2Proof Sys2Proof.Machine

/-! ### The words after the header -/

theorem decode0_eq_ok {i j : Instr} {rest : List Byte} : decode0 i rest = .ok j ↔ rest = [] ∧ j = i := by
  cases rest with
  | nil => simp [decode0, eq_comm]
  | cons b bs => simp [decode0]

theorem decode1_eq_ok {f : Word → Instr} {j : Instr} {rest : List Byte} :
    decode1 f rest = .ok j ↔ ∃ w, rest = bytesOfWord w ∧ j = f w := by
  constructor
  · intro h
    unfold decode1 at h
    split at h
    next w hw => cases h; exact ⟨w, (takeWord_some hw).trans (List.append_nil _), rfl⟩
    next => cases h
  · rintro ⟨w, rfl, rfl⟩
    have hw := takeWord_bytesOfWord w []
    rw [List.append_nil] at hw
    simp [decode1, hw]

theorem decode2_eq_ok {f : Word → Word → List Byte → Instr} {payload : Word → Nat} {j : Instr} {rest : List Byte} :
    decode2 f payload rest = .ok j ↔ ∃ w1 w2 bytes,
      rest = bytesOfWord w1 ++ (bytesOfWord w2 ++ bytes) ∧ bytes.length = payload w2 ∧ j = f w1 w2 bytes := by
  constructor
  · intro h
    unfold decode2 at h
    split at h
    next w1 more h1 =>
      split at h
      next w2 bytes h2 =>
        split at h
        next hlen => cases h; exact ⟨w1, w2, bytes, takeWord_some h2 ▸ takeWord_some h1, hlen, rfl⟩
        next => cases h
      next => cases h
    next => cases h
  · rintro ⟨w1, w2, bytes, rfl, hlen, rfl⟩
    simp [decode2, takeWord_bytesOfWord, hlen]

/-! ### The header -/

/-- A header whose reserved field is zero is made of its `op` and its `arg` (R110). -/
theorem header_headerOp_headerArg {h : Word} (hr : headerReserved h = 0) : header (headerOp h) (headerArg h) = h := by
  have hsplit : headerOp h ++ (headerReserved h ++ headerArg h) = h := by
    unfold headerOp headerReserved headerArg
    apply BitVec.eq_of_getLsbD_eq
    intro k hk
    simp only [BitVec.getLsbD_append, BitVec.getLsbD_extractLsb']
    by_cases h8 : k < 8
    · simp [h8, show k < 28 by omega]
    · by_cases h28 : k < 28
      · simp [h8, h28, show k - 8 < 20 by omega, show 8 + (k - 8) = k by omega]
      · simp [h28, show k - 28 < 4 by omega, show 28 + (k - 28) = k by omega]
  rwa [hr] at hsplit

/-- What decodes has a header word, and the bytes after it. -/
theorem exists_header_of_decode {m : List Byte} {i : Instr} (h : decode m = .ok i) : ∃ w rest, m = bytesOfWord w ++ rest := by
  unfold decode at h
  split at h
  next => cases h
  next w rest hw => exact ⟨w, rest, takeWord_some hw⟩

/-- A message decodes exactly if its header has no reserved and no undefined bit (R117) and its `op` selects a command. -/
theorem decode_eq_ok {w : Word} {rest : List Byte} {i : Instr} : decode (bytesOfWord w ++ rest) = .ok i ↔
    headerReserved w = 0 ∧ headerArg w &&& ~~~(argMask (headerOp w)) = 0 ∧
      decodeOp (headerOp w) (headerArg w) rest = .ok i := by
  simp only [decode, takeWord_bytesOfWord]
  split
  next hr => exact ⟨nofun, fun h => absurd h.1 hr⟩
  next hr =>
    split
    next ha => exact ⟨nofun, fun h => absurd h.2.1 ha⟩
    next ha => simp [not_not.mp hr, not_not.mp ha]

/-! ### The fields of the `arg` byte -/

/-- The field at the bottom of the `arg` byte is read back. -/
theorem argField_of_setWidth {k : Nat} (hk : k ≤ 8) (x : BitVec k) : (x.setWidth 8).extractLsb' 0 k = x := by
  rw [BitVec.extractLsb'_setWidth_of_le (by omega), BitVec.extractLsb'_eq_self]

/-- An `arg` byte with no bit outside its low `k` is that field of it. -/
theorem setWidth_argField (k : Nat) {arg mask : BitVec 8} (hmask : mask.toNat = 2 ^ k - 1)
    (ha : arg &&& ~~~mask = 0) : (arg.extractLsb' 0 k).setWidth 8 = arg := by
  have hand : arg &&& mask = arg := by
    calc arg &&& mask = arg &&& mask ||| arg &&& ~~~mask := by rw [ha]; simp
      _ = arg := by ext n hn; cases h : mask[n] <;> simp [h]
  apply BitVec.eq_of_toNat_eq
  calc ((arg.extractLsb' 0 k).setWidth 8).toNat = arg.toNat % 2 ^ k := by
        simp only [BitVec.toNat_setWidth, BitVec.extractLsb'_toNat, Nat.shiftRight_zero]
        exact Nat.mod_eq_of_lt ((Nat.mod_le _ _).trans_lt arg.isLt)
    _ = (arg &&& mask).toNat := by rw [BitVec.toNat_and, hmask, Nat.and_two_pow_sub_one_eq_mod]
    _ = arg.toNat := by rw [hand]

/-- The `arg` byte of a row that defines no bit of it. -/
theorem zero_eq_arg {arg : BitVec 8} (ha : arg &&& ~~~0x00#8 = 0) : 0#8 = arg := by
  rw [← BitVec.and_allOnes (x := arg)]; exact ha.symm

/-- A flag of the `arg` byte as a field of one bit. -/
theorem ofBool_getLsbD (arg : BitVec 8) (n : Nat) : BitVec.ofBool (arg.getLsbD n) = arg.extractLsb' n 1 := by
  apply BitVec.eq_of_getLsbD_eq
  intro k hk
  obtain rfl : k = 0 := by omega
  simp

/-- Two neighbouring fields of an `arg` byte with no bit above them are the byte. -/
theorem setWidth_argFields (k m : Nat) {arg mask : BitVec 8} (hmask : mask.toNat = 2 ^ (m + k) - 1)
    (ha : arg &&& ~~~mask = 0) : (arg.extractLsb' k m ++ arg.extractLsb' 0 k).setWidth 8 = arg := by
  rw [BitVec.extractLsb'_append_extractLsb'_eq_extractLsb' (Nat.zero_add k).symm, setWidth_argField (m + k) hmask ha]

/-- The lower and the upper of two neighbouring fields are read back. -/
theorem argFields_of_append {k m : Nat} (hkm : k + m ≤ 8) (x : BitVec m) (y : BitVec k) :
    ((x ++ y).setWidth 8).extractLsb' 0 k = y ∧ ((x ++ y).setWidth 8).extractLsb' k m = x := by
  rw [BitVec.extractLsb'_setWidth_of_le (by omega), BitVec.extractLsb'_setWidth_of_le (by omega)]
  exact ⟨BitVec.extractLsb'_append_eq_right, BitVec.extractLsb'_append_eq_left⟩

/-- A flag above a field is read back. -/
theorem argFlag_of_append {k : Nat} (hk : k < 8) (b : Bool) (y : BitVec k) :
    ((BitVec.ofBool b ++ y).setWidth 8).getLsbD k = b := by
  rw [BitVec.getLsbD_setWidth, BitVec.getLsbD_append]
  simp [hk]

/-! ### The rows of the table -/

/-- The header of every command has the shape of its row (R110, R112). -/
theorem headerShape : ∀ i : Instr, HeaderShape.Statement i
  | .attach variant => HeaderShape.attach variant
  | .detach => HeaderShape.detach
  | .halt => HeaderShape.halt
  | .resume mask => HeaderShape.resume mask
  | .resumeStep mask => HeaderShape.resumeStep mask
  | .reset catchVector => HeaderShape.reset catchVector
  | .rdreg sel => HeaderShape.rdreg sel
  | .wrreg sel value => HeaderShape.wrreg sel value
  | .rdmem hint addr len => HeaderShape.rdmem hint addr len
  | .wrmem hint code addr len bytes => HeaderShape.wrmem hint code addr len bytes
  | .setbp codeAddress => HeaderShape.setbp codeAddress
  | .clrbp slot => HeaderShape.clrbp slot
  | .setwp size access address => HeaderShape.setwp size access address
  | .clrwp slot => HeaderShape.clrwp slot
  | .haltreason => HeaderShape.haltreason

/-- Row by row, the command's own fields select it (R112, R113). -/
theorem decodeOp_op_arg_tail (i : Instr)
    (hpayload : ∀ hint code addr len bytes, i = .wrmem hint code addr len bytes → bytes.length = len.toNat) :
    decodeOp i.op i.arg i.tail = .ok i := by
  cases i with
  | attach variant => exact decode0_eq_ok.mpr ⟨rfl, congrArg _ (argField_of_setWidth (by decide) variant).symm⟩
  | detach => rfl
  | halt => rfl
  | resume mask => cases mask <;> rfl
  | resumeStep mask => cases mask <;> rfl
  | reset catchVector => cases catchVector <;> rfl
  | rdreg sel => exact decode0_eq_ok.mpr ⟨rfl, congrArg _ (argField_of_setWidth (by decide) sel).symm⟩
  | wrreg sel value =>
    exact decode1_eq_ok.mpr ⟨value, rfl, congrArg (Instr.wrreg · value) (argField_of_setWidth (by decide) sel).symm⟩
  | rdmem hint addr len =>
    refine (decode2_eq_ok (f := fun w1 w2 _ => .rdmem ((hint.setWidth 8).extractLsb' 0 2) w1 w2)
      (payload := fun _ => 0)).mpr ⟨addr, len, [], rfl, rfl, ?_⟩
    exact congrArg (Instr.rdmem · addr len) (argField_of_setWidth (by decide) hint).symm
  | wrmem hint code addr len bytes =>
    refine decode2_eq_ok.mpr ⟨addr, len, bytes, rfl, hpayload _ _ _ _ _ rfl, ?_⟩
    simp only [Instr.arg, (argFields_of_append (by decide) (BitVec.ofBool code) hint).1,
      argFlag_of_append (by decide) code hint]
  | setbp codeAddress => exact decode1_eq_ok.mpr ⟨codeAddress, rfl, rfl⟩
  | clrbp slot => exact decode0_eq_ok.mpr ⟨rfl, congrArg _ (argField_of_setWidth (by decide) slot).symm⟩
  | setwp size access address =>
    obtain ⟨hsize, haccess⟩ := argFields_of_append (by decide) access size
    exact decode1_eq_ok.mpr ⟨address, rfl, congrArg₂ (Instr.setwp · · address) hsize.symm haccess.symm⟩
  | clrwp slot => exact decode0_eq_ok.mpr ⟨rfl, congrArg _ (argField_of_setWidth (by decide) slot).symm⟩
  | haltreason => rfl

/-- Row by row, the command selected has the `op`, the `arg` and the bytes that select it: no defined bit of `arg` and no
byte after the header is lost (R112, R113). -/
theorem fields_of_decodeOp {op : BitVec 4} {arg : BitVec 8} {rest : List Byte} {i : Instr}
    (ha : arg &&& ~~~(argMask op) = 0) (h : decodeOp op arg rest = .ok i) :
    i.op = op ∧ i.arg = arg ∧ i.tail = rest := by
  unfold decodeOp at h
  split at h
  · -- ATTACH
    obtain ⟨rfl, rfl⟩ := decode0_eq_ok.mp h
    exact ⟨rfl, setWidth_argField 2 rfl ha, rfl⟩
  · -- DETACH
    obtain ⟨rfl, rfl⟩ := decode0_eq_ok.mp h
    exact ⟨rfl, zero_eq_arg ha, rfl⟩
  · -- HALT
    obtain ⟨rfl, rfl⟩ := decode0_eq_ok.mp h
    exact ⟨rfl, zero_eq_arg ha, rfl⟩
  · -- RESUME/RESUME.STEP
    obtain ⟨rfl, rfl⟩ := decode0_eq_ok.mp h
    have harg := setWidth_argFields 1 1 rfl ha
    rw [← ofBool_getLsbD, ← ofBool_getLsbD] at harg
    cases hstep : arg.getLsbD 0 <;> rw [hstep] at harg <;> exact ⟨rfl, harg, rfl⟩
  · -- RESET
    obtain ⟨rfl, rfl⟩ := decode0_eq_ok.mp h
    exact ⟨rfl, (congrArg _ (ofBool_getLsbD arg 0)).trans (setWidth_argField 1 rfl ha), rfl⟩
  · -- RDREG
    obtain ⟨rfl, rfl⟩ := decode0_eq_ok.mp h
    exact ⟨rfl, setWidth_argField 7 rfl ha, rfl⟩
  · -- WRREG
    obtain ⟨w, rfl, rfl⟩ := decode1_eq_ok.mp h
    exact ⟨rfl, setWidth_argField 7 rfl ha, rfl⟩
  · -- RDMEM
    obtain ⟨w1, w2, bytes, rfl, hlen, rfl⟩ := decode2_eq_ok.mp h
    obtain rfl := List.length_eq_zero_iff.mp hlen
    exact ⟨rfl, setWidth_argField 2 rfl ha, rfl⟩
  · -- WRMEM
    obtain ⟨w1, w2, bytes, rfl, -, rfl⟩ := decode2_eq_ok.mp h
    have harg := setWidth_argFields 2 1 rfl ha
    rw [← ofBool_getLsbD] at harg
    exact ⟨rfl, harg, rfl⟩
  · -- SETBP
    obtain ⟨w, rfl, rfl⟩ := decode1_eq_ok.mp h
    exact ⟨rfl, zero_eq_arg ha, rfl⟩
  · -- CLRBP
    obtain ⟨rfl, rfl⟩ := decode0_eq_ok.mp h
    exact ⟨rfl, setWidth_argField 4 rfl ha, rfl⟩
  · -- SETWP
    obtain ⟨w, rfl, rfl⟩ := decode1_eq_ok.mp h
    exact ⟨rfl, setWidth_argFields 2 2 rfl ha, rfl⟩
  · -- CLRWP
    obtain ⟨rfl, rfl⟩ := decode0_eq_ok.mp h
    exact ⟨rfl, setWidth_argField 4 rfl ha, rfl⟩
  · -- HALTREASON
    obtain ⟨rfl, rfl⟩ := decode0_eq_ok.mp h
    exact ⟨rfl, zero_eq_arg ha, rfl⟩
  · -- the reserved values
    cases h

/-- The two reserved values of `op` select no command (R117). -/
theorem op_ne_reserved_of_decodeOp {op : BitVec 4} {arg : BitVec 8} {rest : List Byte} {i : Instr}
    (h : decodeOp op arg rest = .ok i) : op ≠ 0xE#4 ∧ op ≠ 0xF#4 := by
  constructor <;> rintro rfl <;> cases h

/-- An `op` selects a command, given the operand words it takes, unless it is one of the two reserved values (R112, R117). -/
theorem exists_decodeOp_of_op {op : BitVec 4} (he : op ≠ 0xE#4) (hf : op ≠ 0xF#4) (arg : BitVec 8) :
    ∃ i, decodeOp op arg (List.replicate (4 * operandWords op) 0) = .ok i := by
  have hrow : ∃ n : Fin 14, op = BitVec.ofNat 4 n := by revert op; decide
  obtain ⟨n, rfl⟩ := hrow
  fin_cases n <;> exact ⟨_, rfl⟩

/-! ### Settling the obligations -/

/-- Settles O1: the fields of the header are those of the command (R110), and they select it, row by row. -/
theorem decodeOfEncode : Obligations.DecodeOfEncode := by
  intro i hpayload
  obtain ⟨hop, hreserved, harg, hmask, -⟩ := headerShape i
  refine decode_eq_ok.mpr ⟨hreserved, ?_, ?_⟩
  · rw [hop, harg, hmask]; rfl
  · rw [hop, harg]; exact decodeOp_op_arg_tail i hpayload

/-- Settles O2: a command has the fields of the header and the bytes after it that select it. -/
theorem encodeOfDecode : Obligations.EncodeOfDecode := by
  intro m i h
  obtain ⟨w, rest, rfl⟩ := exists_header_of_decode h
  obtain ⟨hreserved, hmask, hop⟩ := decode_eq_ok.mp h
  obtain ⟨hiop, hiarg, hitail⟩ := fields_of_decodeOp hmask hop
  rw [encode, hiop, hiarg, hitail, header_headerOp_headerArg hreserved]

/-- Settles O3: each defect contradicts one part of what decodes; without one, the row decodes zero operand words. -/
theorem everyHeaderIsARowOrRefused : Obligations.EveryHeaderIsARowOrRefused := by
  intro w
  refine ⟨fun hbad rest => ?_, fun hgood => ?_⟩
  · cases hdec : decode (bytesOfWord w ++ rest) with
    | error e => exact ⟨e, rfl⟩
    | ok i =>
      obtain ⟨hreserved, hmask, hop⟩ := decode_eq_ok.mp hdec
      obtain ⟨he, hf⟩ := op_ne_reserved_of_decodeOp hop
      rcases hbad with h | h | h | h
      · exact absurd h he
      · exact absurd h hf
      · exact absurd hreserved h
      · exact absurd hmask h
  · simp only [not_or, ne_eq, not_not] at hgood
    obtain ⟨he, hf, hreserved, hmask⟩ := hgood
    obtain ⟨i, hop⟩ := exists_decodeOp_of_op he hf (headerArg w)
    obtain ⟨hiop, hiarg, -⟩ := fields_of_decodeOp hmask hop
    refine ⟨_, i, decode_eq_ok.mpr ⟨hreserved, hmask, hop⟩, ?_⟩
    rw [hiop, hiarg, header_headerOp_headerArg hreserved]

/-- Settles O4: the words are closed, and the decoder computes. -/
theorem decodedWords : Obligations.DecodedWords := by
  refine ⟨?_, ?_, ?_, ?_, ?_, ?_, ?_, ?_⟩ <;> decide

end Sys2Proof.Laws
end

section
/-! SUPPORT. The core control commands as whole commands (40_core_control.md): ATTACH, DETACH, HALT, RESUME and RESUME.STEP,
each from the answers its transactions get. -/

namespace Sys2Proof.Machine

/-! ### Commands and their steps in a given configuration -/

section
variable {s t : State}

/-- A command that completes is answered with its result (R32). -/
theorem exec_of_ok {i : Instr} {r : Result} (hb : s.busy = false) (h : commandBody i s.accept = .ok r t) :
    exec i s = .next (t.deliver (.ok r)) := by
  rw [exec_eq_runCommand, runCommand_ok hb h]

/-- A command that fails is answered with its failure (R272). -/
theorem exec_of_error {i : Instr} {f : Failure} (hb : s.busy = false) (h : commandBody i s.accept = .error f t) :
    exec i s = .next (t.deliver (.failed f)) := by
  rw [exec_eq_runCommand, runCommand_error hb h]

/-- The start of every command on a handle: the lifecycle check, then a look at the registers (R268 (b)). -/
theorem attached_get_run {β : Type} (h : s.ready) (f : State → Cmd β) :
    (requireAttached >>= fun _ => get >>= f) s.accept = f s.accept s.accept :=
  (Cmd.bind_of_ok _ (requireAttached_of_ready h)).trans (Cmd.bind_of_ok _ (Cmd.get_run s.accept))

variable {cfg : Config} (hcfg : s.cfg = cfg)
include hcfg

/-- `awaitStatus_found`, for a configuration known under another name. -/
theorem awaitStatus_found_in {pred : Config → Word → Bool} {timeout : Failure} {k : Nat} (hk : k < cfg.pollMax)
    (h : pollFindsAt cfg.addrDhcsr (pred cfg) k s) :
    awaitStatus pred timeout s = .ok () (afterReads cfg.addrDhcsr (k + 1) s) := by
  subst hcfg
  exact awaitStatus_found hk h

/-- `writeCw_of_writes`, for a configuration known under another name. -/
theorem writeCw_of_writes_in {cw : ControlWord} (h : s.writes cfg.addrDhcsr (dhcsrWord cfg cw) t) :
    writeCw cw s = .ok () (t.setCw cw) := by
  subst hcfg
  exact writeCw_of_writes h

end

/-! ### ATTACH (R152 to R156) -/

/-- The limit of a table is below what its four-bit count can hold (R25, R154). -/
theorem slotCount_toNat (n : Nat) : (slotCount n 15).toNat = min n 15 := by
  unfold slotCount
  rw [BitVec.toNat_ofNat]
  exact Nat.mod_eq_of_lt (by omega)

/-- The sweep of ATTACH, for the counts it has read (R154, R155). -/
theorem sweepWrites_slotCount (cfg : Config) (n m : Nat) :
    sweepWrites cfg (slotCount n BP_CAP).toNat (slotCount m WP_CAP).toNat
      = (List.range (min n 15)).map (fun j => (addrFpComp cfg j, 0#32))
        ++ (List.range (min m 15)).map (fun j => (addrDwtFunction cfg j, 0#32)) := by
  unfold sweepWrites
  rw [slotCount_toNat, slotCount_toNat]
  rfl

/-- `CACHE_PRESENT` is sampled on a variant with cache operations, and is 0 on any other (R156). -/
theorem sampleCache_of {cfg : Config} {variant : Variant} {s t : State} {cp : Bool} (hcfg : s.cfg = cfg)
    (h : if cfg.hasCacheOps.at variant = true then ∃ v, s.reads cfg.addrCacheId v t ∧ cp = cachePresentOf cfg v
      else t = s ∧ cp = false) :
    sampleCache variant s = .ok cp t ∧ PortOnly s t := by
  subst hcfg
  split at h
  next hops =>
    obtain ⟨v, hread, rfl⟩ := h
    exact ⟨sampleCache_present hops hread, hread.portOnly⟩
  next hops =>
    obtain ⟨rfl, rfl⟩ := h
    exact ⟨sampleCache_absent (by simpa using hops), PortOnly.refl t⟩

/-- Settles O15: the steps of R152 one after the other, each with the answer it is given; transactions change no register, so
the handle is what step 6 commits. -/
theorem attachCompletes : Obligations.AttachCompletes := by
  intro code variant k s s1 s3 s4 s6 fpCtrl dwtCtrl cp hb hatt hvariant hwrite hk hfinds hfp hdwt nBp nWp sweep hsweep hcache
  have hsweepEq := sweepWrites_slotCount s.cfg (numCode s.cfg fpCtrl) (numComp s.cfg dwtCtrl)
  have hports4 : PortOnly s.accept s4 :=
    hwrite.portOnly.trans <| (afterReads_portOnly _ _ s1).trans <| hfp.portOnly.trans hdwt.portOnly
  have hports5 := hports4.trans (afterWrites_portOnly sweep s4)
  obtain ⟨hsample, hports6⟩ := sampleCache_of hports5.cfg hcache
  have hports := hports5.trans hports6
  let nBp4 := slotCount (numCode s.cfg fpCtrl) BP_CAP
  let nWp4 := slotCount (numComp s.cfg dwtCtrl) WP_CAP
  let t := s6.commitAttach variant attachCw nBp4 nWp4 cp
  have hbody : cmdAttach code s.accept = .ok .none t := by
    unfold cmdAttach
    refine (Cmd.bind_of_ok _ (Cmd.get_run s.accept)).trans ?_
    rw [State.accept_attached, hatt, hvariant]
    refine (Cmd.bind_of_ok _ (refuseIf_false s.accept)).trans ?_
    refine (Cmd.bind_of_ok _ (orRefuse_some s.accept variant)).trans ?_
    refine (Cmd.bind_of_ok _ (wr32_of_writes hwrite)).trans ?_
    refine (Cmd.bind_of_ok _ (awaitStatus_found_in hwrite.portOnly.cfg hk hfinds)).trans ?_
    refine (Cmd.bind_of_ok _ (rd32_of_reads hfp)).trans ?_
    refine (Cmd.bind_of_ok _ (rd32_of_reads hdwt)).trans ?_
    rw [State.accept_cfg, hsweepEq]
    refine (Cmd.bind_of_ok _ (writeAll_answered hsweep)).trans ?_
    refine (Cmd.bind_of_ok _ hsample).trans ?_
    exact (Cmd.bind_of_ok _ (Cmd.modify_run s6 _)).trans rfl
  refine ⟨t.deliver (.ok .none), exec_of_ok hb hbody, ?_, rfl, rfl, rfl, slotCount_toNat _, slotCount_toNat _, rfl,
    ⟨fun i _ => ?_, fun i _ => ?_⟩, rfl, rfl, rfl, rfl, rfl⟩
  · exact congrArg (· ++ _) hports.responses
  · exact s6.bpSlot_commitAttach_inUse variant attachCw nBp4 nWp4 cp i
  · exact s6.wpSlot_commitAttach_inUse variant attachCw nBp4 nWp4 cp i

/-! ### DETACH (R158, R159) -/

/-- The registers DETACH writes, in order: the comparators, the breakpoint unit's control and the control register (R158). -/
def detachRegs (nBp nWp : Nat) : List Reg :=
  (List.range nBp).map Reg.fpComp ++ (List.range nWp).map Reg.dwtFunction ++ [.fpCtrl, .dhcsr]

theorem mem_detachRegs {nBp nWp : Nat} {r : Reg} : r ∈ detachRegs nBp nWp ↔
    (∃ i, i < nBp ∧ .fpComp i = r) ∨ (∃ i, i < nWp ∧ .dwtFunction i = r) ∨ r = .fpCtrl ∨ r = .dhcsr := by
  simp [detachRegs]

/-- The registers DETACH writes are in the map (R61). -/
theorem mem_mapRegs_of_mem_detachRegs {nBp nWp : BitVec 4} {r : Reg} (h : r ∈ detachRegs nBp.toNat nWp.toNat) :
    r ∈ mapRegs := by
  rcases mem_detachRegs.mp h with ⟨i, hi, rfl⟩ | ⟨i, hi, rfl⟩ | rfl | rfl
  · exact mem_mapRegs_fpComp (slot_lt_cap hi)
  · exact mem_mapRegs_dwtFunction (slot_lt_cap hi)
  · simp [mapRegs]
  · simp [mapRegs]

/-- What DETACH writes to a register: the unit's disable, the cleared control word, and else the disabled word (R158). -/
def Reg.releaseWord (cfg : Config) : Reg → Word
  | .fpCtrl => fpbDisableWord cfg
  | .dhcsr => dhcsrWord cfg clearWord
  | _ => 0#32

/-- The writes of DETACH in the order of R158. -/
def detachWrites (cfg : Config) (nBp nWp : Nat) : List (Word × Word) :=
  (detachRegs nBp nWp).map fun r => (r.address cfg, r.releaseWord cfg)

theorem detachWrites_eq (cfg : Config) (nBp nWp : Nat) : detachWrites cfg nBp nWp = sweepWrites cfg nBp nWp
    ++ [(cfg.addrFpCtrl, fpbDisableWord cfg), (cfg.addrDhcsr, dhcsrWord cfg clearWord)] := by
  simp only [detachWrites, detachRegs, sweepWrites, List.map_append, List.map_map]
  rfl

/-- The cleared control word is the key alone (R121, R158). -/
theorem dhcsrWord_clearWord (cfg : Config) : dhcsrWord cfg clearWord = keyWord cfg.dbgKey := by
  simp [dhcsrWord, clearWord, bitAt]

/-- DETACH makes its writes whatever the port answers, and drops the handle (R158, R274). -/
theorem exec_detach {s : State} (h : s.ready) : exec .detach s
    = .next ((afterWrites (detachWrites s.cfg s.nBp.toNat s.nWp.toNat) s.accept).dropHandle.deliver (.ok .none)) := by
  refine exec_of_ok h.2 ?_
  show cmdDetach s.accept = _
  rw [detachWrites_eq]
  unfold cmdDetach
  refine (attached_get_run h _).trans ?_
  refine (Cmd.bind_of_ok _ (attemptAll_run _ s.accept)).trans ?_
  exact (Cmd.bind_of_ok _ (Cmd.modify_run _ State.dropHandle)).trans rfl

/-- Writes made whatever the port answers are all in the trace, in order (R19). -/
theorem afterWrites_trace (ws : List (Word × Word)) (s : State) :
    ∃ es, (afterWrites ws s).trace = s.trace ++ es ∧ es.map TraceEntry.registerWrite = ws.map some := by
  induction ws generalizing s with
  | nil => exact ⟨[], (List.append_nil _).symm, rfl⟩
  | cons w ws ih =>
    obtain ⟨a, v⟩ := w
    obtain ⟨target, hfirst⟩ := portWrite32_spec a v s
    obtain ⟨es, htrace, hes⟩ := ih (portWrite32 a v s).2
    refine ⟨.wr32 a v (portWrite32 a v s).1 :: es, ?_, congrArg (some (a, v) :: ·) hes⟩
    rw [afterWrites, htrace, hfirst, State.afterTransaction_trace, List.append_assoc]
    rfl

/-- Dropping the handle frees every slot, as a new one does (R152 step 6, R158 step 4). -/
theorem allSlotsFree_dropHandle (s : State) : s.dropHandle.allSlotsFree :=
  ⟨fun i _ => s.bpSlot_commitAttach_inUse s.variant s.cw s.nBp s.nWp false i,
    fun i _ => s.wpSlot_commitAttach_inUse s.variant s.cw s.nBp s.nWp false i⟩

/-- Settles O16: DETACH is its writes and the dropped handle; the writes are in the trace. -/
theorem detachAlwaysCompletes : Obligations.DetachAlwaysCompletes := by
  intro s hready
  obtain ⟨es, htrace, hes⟩ := afterWrites_trace (detachWrites s.cfg s.nBp.toNat s.nWp.toNat) s.accept
  refine ⟨_, es, exec_detach hready, ?_, rfl, rfl, rfl, allSlotsFree_dropHandle _, rfl, rfl, htrace, ?_⟩
  · exact congrArg (· ++ _) (afterWrites_portOnly _ s.accept).responses
  · rw [hes, detachWrites_eq, dhcsrWord_clearWord]
    rfl

/-! #### The target after DETACH -/

/-- What DETACH is to achieve at a register: a comparator of the target is cleared, the breakpoint unit is off, debug is neither
enabled nor about to be (R86, R89, R96). -/
def Target.released (cfg : Config) (t : Target) : Reg → Prop
  | .fpComp i => i < cfg.fpCount → t.dbg.fpComp.getD i 0#32 = 0#32
  | .dwtFunction i => i < cfg.dwtCount → t.dbg.dwtFunction.getD i 0#32 = 0#32
  | .fpCtrl => t.dbg.fpbEnabled = false
  | .dhcsr => t.powerLocked = false
  | _ => True

/-- A word of zeros put into a bank clears its comparator and sets no other. -/
theorem getD_clear {v : Vector Word 15} {i j : Nat} (h : j = i ∨ v.getD j 0#32 = 0#32) :
    (v.setIfInBounds i 0#32).getD j 0#32 = 0#32 := by
  rw [getD_setIfInBounds]
  split
  · rfl
  next hne =>
    rcases h with rfl | h
    · have hj : ¬ j < 15 := fun hj => hne ⟨rfl, hj⟩
      simp [Vector.getD, hj]
    · exact h

/-- The word that turns the breakpoint unit off carries its key and no enable (R96, R131). -/
theorem fpbDisableWord_bits {cfg : Config} (h : configWf cfg = true) :
    (fpbDisableWord cfg).getLsbD cfg.bitFpKey = true ∧ (fpbDisableWord cfg).getLsbD cfg.bitFpEnable = false := by
  obtain ⟨hne, _, hkey⟩ := configWf_fpBits h
  simp [fpbDisableWord, getLsbD_bitAt, hkey, hne]

section
variable {cfg : Config} {t : Target} (noise : Word) {q : Reg}

/-- A cleared breakpoint comparator (R132): nothing else that is released is undone. -/
theorem Target.released_writeReg_fpComp {i : Nat} (h : q = .fpComp i ∨ t.released cfg q) :
    (t.writeReg cfg noise 0#32 (.fpComp i)).released cfg q := by
  simp only [Target.writeReg]
  split
  next =>
    cases q with
    | fpComp j => exact fun hj => getD_clear (h.imp Reg.fpComp.inj (· hj))
    | dwtFunction | fpCtrl | dhcsr => exact h.resolve_left Reg.noConfusion
    | _ => trivial
  next hi =>
    rcases h with rfl | h
    · exact fun hj => absurd hj hi
    · exact h

/-- A cleared watchpoint function register (R137). -/
theorem Target.released_writeReg_dwtFunction {i : Nat} (h : q = .dwtFunction i ∨ t.released cfg q) :
    (t.writeReg cfg noise 0#32 (.dwtFunction i)).released cfg q := by
  simp only [Target.writeReg, putBit_zero_false]
  split
  next =>
    cases q with
    | dwtFunction j => exact fun hj => getD_clear (h.imp Reg.dwtFunction.inj (· hj))
    | fpComp | fpCtrl | dhcsr => exact h.resolve_left Reg.noConfusion
    | _ => trivial
  next hi =>
    rcases h with rfl | h
    · exact fun hj => absurd hj hi
    · exact h

variable (hwf : configWf cfg = true)
include hwf

/-- The breakpoint unit turned off (R96). -/
theorem Target.released_writeReg_fpCtrl (h : q = .fpCtrl ∨ t.released cfg q) :
    (t.writeReg cfg noise (fpbDisableWord cfg) .fpCtrl).released cfg q := by
  obtain ⟨hkey, henable⟩ := fpbDisableWord_bits hwf
  simp only [Target.writeReg, hkey, henable, if_true]
  cases q with
  | fpCtrl => rfl
  | fpComp | dwtFunction | dhcsr => exact h.resolve_left Reg.noConfusion
  | _ => trivial

/-- The cleared control word (R86, R89). -/
theorem Target.released_writeReg_dhcsr (h : q = .dhcsr ∨ t.released cfg q) :
    (t.writeReg cfg noise (dhcsrWord cfg clearWord) .dhcsr).released cfg q := by
  rw [t.writeReg_dhcsr_of_key noise (upperHalf_dhcsrWord hwf clearWord), controlBits_dhcsrWord hwf]
  cases q with
  | dhcsr => exact t.powerLocked_keyedControl rfl
  | fpComp | dwtFunction | fpCtrl => exact h.resolve_left Reg.noConfusion
  | _ => trivial

/-- A write of DETACH releases its register, keeps what is released, and touches neither memory nor the core. -/
theorem Target.released_writeReg {nBp nWp : BitVec 4} {r : Reg} (hr : r ∈ detachRegs nBp.toNat nWp.toNat) :
    (∀ q, q = r ∨ t.released cfg q → (t.writeReg cfg noise (r.releaseWord cfg) r).released cfg q)
    ∧ (t.writeReg cfg noise (r.releaseWord cfg) r).mem = t.mem
    ∧ (t.writeReg cfg noise (r.releaseWord cfg) r).core = t.core := by
  have hcore := (t.writeReg_core cfg noise (r.releaseWord cfg) r).1
  rcases mem_detachRegs.mp hr with ⟨i, _, rfl⟩ | ⟨i, _, rfl⟩ | rfl | rfl
  · exact ⟨fun q => released_writeReg_fpComp noise, (t.writeReg_mem cfg noise _ (by simp)).1, hcore⟩
  · exact ⟨fun q => released_writeReg_dwtFunction noise, (t.writeReg_mem cfg noise _ (by simp)).1, hcore⟩
  · exact ⟨fun q => released_writeReg_fpCtrl noise hwf, (t.writeReg_mem cfg noise _ (by simp)).1, hcore⟩
  · exact ⟨fun q => released_writeReg_dhcsr noise hwf, (t.writeReg_mem cfg noise _ (by simp)).1, hcore⟩

end

/-- Writes of DETACH to a quiet target that answers release every register written, and keep what was released before. -/
theorem released_afterWrites {nBp nWp : BitVec 4} {rs : List Reg} (hrs : ∀ r ∈ rs, r ∈ detachRegs nBp.toNat nWp.toNat)
    {s : State} (hwf : configWf s.cfg = true) (ha : s.answersFor rs.length) (hq : s.quietFor rs.length) :
    let u := (afterWrites (rs.map fun r => (r.address s.cfg, r.releaseWord s.cfg)) s).target
    (∀ q, q ∈ rs ∨ s.target.released s.cfg q → u.released s.cfg q) ∧ u.mem = s.target.mem ∧ u.core = s.target.core := by
  induction rs generalizing s with
  | nil => exact ⟨fun q h => h.resolve_left List.not_mem_nil, rfl, rfl⟩
  | cons r rest ih =>
    obtain ⟨hr, hrest⟩ := List.forall_mem_cons.mp hrs
    rw [List.length_cons, Nat.add_comm] at ha hq
    obtain ⟨t, noise, hwrite, htarget, hlater⟩ := exists_quiet_writes hwf (ha.mono (Nat.le_add_right 1 _))
      (mem_mapRegs_of_mem_detachRegs hr) (hq.mono (Nat.le_add_right 1 _)) (r.releaseWord s.cfg)
    obtain ⟨hreleased, hmem, hcore⟩ := Target.released_writeReg (t := s.target) noise hwf hr
    obtain ⟨hreleased', hmem', hcore'⟩ := ih hrest (hlater.cfg ▸ hwf) (hlater.answersFor ha) (hlater.quietFor hq)
    have hstep : (portWrite32 (r.address s.cfg) (r.releaseWord s.cfg) s).2 = t := congrArg Prod.snd hwrite
    rw [List.map_cons, afterWrites, hstep]
    rw [hlater.cfg, htarget] at hreleased' hmem' hcore'
    refine ⟨fun q hq => hreleased' q ?_, hmem'.trans hmem, hcore'.trans hcore⟩
    rcases hq with hwritten | hbefore
    · exact (List.mem_cons.mp hwritten).elim (fun h => .inr (hreleased q (.inl h))) .inl
    · exact .inr (hreleased q (.inr hbefore))

/-- Settles O17: every register that DETACH writes is released at its end. -/
theorem detachReleasesTheTarget : Obligations.DetachReleasesTheTarget := by
  intro s hready hwf ha hq
  have hlen : (detachRegs s.nBp.toNat s.nWp.toNat).length = s.nBp.toNat + s.nWp.toNat + 2 := by
    simp [detachRegs, Nat.add_assoc]
  rw [← hlen] at ha hq
  obtain ⟨hreleased, hmem, hcore⟩ := released_afterWrites (s := s.accept) (fun r hr => hr) hwf ha hq
  have hwritten : ∀ r ∈ detachRegs s.nBp.toNat s.nWp.toNat,
      (afterWrites (detachWrites s.cfg s.nBp.toNat s.nWp.toNat) s.accept).target.released s.cfg r :=
    fun r hr => hreleased r (.inl hr)
  exact ⟨_, exec_detach hready, hwritten .dhcsr (by simp [mem_detachRegs]), hwritten .fpCtrl (by simp [mem_detachRegs]),
    fun j hj => hwritten (.fpComp j) (by simp [mem_detachRegs, hj]),
    fun j hj => hwritten (.dwtFunction j) (by simp [mem_detachRegs, hj]), hmem, hcore⟩

/-! ### HALT (R160, R161) -/

/-- The start of HALT: the lifecycle check and the one read of the status (R160 step 1). -/
theorem cmdHalt_of_reads {s s1 : State} {v : Word} (h : s.ready) (hread : s.accept.reads s.cfg.addrDhcsr v s1) :
    cmdHalt s.accept = (if statusHalted s.cfg v then (do captureOnce; pure .none)
      else do
        modify State.dropHr
        writeCw { s.cw with haltRequest := true }
        awaitStatus statusHalted .protocolTimeout
        capture
        pure .none : Cmd Result) s1 :=
  (attached_get_run h _).trans (Cmd.bind_of_ok _ (rd32_of_reads hread))

/-- Settles O18: the branch of R160 step 1 for a halted core, with and without a snapshot held. -/
theorem haltOnAHaltedCore : Obligations.HaltOnAHaltedCore := by
  intro s s1 v hready hread hhalted
  have hvalid : s1.hrValid = s.hrValid := hread.portOnly.hrValid
  have hrun := cmdHalt_of_reads hready hread
  rw [if_pos hhalted] at hrun
  refine ⟨fun hheld => exec_of_ok hready.2 (hrun.trans ?_), fun hfree h t hc => exec_of_ok hready.2 (hrun.trans ?_)⟩
  · refine (Cmd.bind_of_ok _ ((captureOnce_run s1).trans (if_pos (hvalid.trans hheld)))).trans rfl
  · have honce := (captureOnce_run s1).trans (if_neg (by simp [hvalid, hfree]))
    exact (Cmd.bind_of_ok _ (honce.trans (capture_of_captures hc))).trans rfl

/-- Settles O19: the branch of R160 for a running core, step by step. -/
theorem haltOnARunningCore : Obligations.HaltOnARunningCore := by
  intro s s1 s2 s3 v k h hready hread hrunning cw hwrite hk hfinds hc
  have hcfg1 : s1.dropHr.cfg = s.cfg := hread.portOnly.cfg
  have hcfg2 : (s2.setCw cw).cfg = s.cfg := hwrite.portOnly.cfg.trans hcfg1
  have hrun := cmdHalt_of_reads hready hread
  rw [if_neg (by simp [hrunning])] at hrun
  refine ⟨exec_of_ok hready.2 (hrun.trans ?_), hc.portOnly.cw.trans (afterReads_portOnly _ _ (s2.setCw cw)).cw⟩
  refine (Cmd.bind_of_ok _ (Cmd.modify_run s1 State.dropHr)).trans ?_
  refine (Cmd.bind_of_ok _ (writeCw_of_writes_in hcfg1 hwrite)).trans ?_
  refine (Cmd.bind_of_ok _ (awaitStatus_found_in hcfg2 hk hfinds)).trans ?_
  exact (Cmd.bind_of_ok _ (capture_of_captures hc)).trans rfl

/-! ### RESUME and RESUME.STEP (R163 to R166) -/

/-- Settles O20: RESUME is `WriteCW`, and what follows it only if it succeeds. -/
theorem resumeWritesTheControlWordOnce : Obligations.ResumeWritesTheControlWordOnce := by
  intro mask s hready cw
  have hrun : cmdResume mask s.accept
      = (do writeCw cw; modify State.dropHr; pure .none : Cmd Result) s.accept := attached_get_run hready _
  refine ⟨fun u hwrite => exec_of_ok hready.2 (hrun.trans ?_), fun f u hfail => ?_⟩
  · refine (Cmd.bind_of_ok _ (writeCw_of_writes (s := s.accept) hwrite)).trans ?_
    exact (Cmd.bind_of_ok _ (Cmd.modify_run _ State.dropHr)).trans rfl
  · have hports := portWrite32_portOnly s.cfg.addrDhcsr (dhcsrWord s.cfg cw) s.accept
    rw [hfail] at hports
    have hbody : cmdResume mask s.accept = .error f.raised u :=
      hrun.trans (Cmd.bind_of_error _ (writeCw_of_fail (s := s.accept) hfail))
    exact ⟨u.deliver (.failed f.raised), exec_of_error hready.2 hbody, congrArg (· ++ _) hports.responses, hports.cw,
      hports.hrValid, rfl, rfl⟩

/-- Settles O21: the steps of R165 and R166 one after the other. The second control word is made from the first one, which `CW`
still holds after the poll. -/
theorem stepCommandCompletes : Obligations.StepCommandCompletes := by
  intro mask s s1 s2 s3 k h hready cw1 cw2 hstep hk hfinds hhold hc
  let started := (s1.setCw cw1).dropHr
  let landed := afterReads s.cfg.addrDhcsr (k + 1) started
  have hpoll : PortOnly started landed := afterReads_portOnly _ _ _
  have hcfg1 : started.cfg = s.cfg := hstep.portOnly.cfg
  have hcw : landed.cw = cw1 := hpoll.cw
  have hheld : writeCw { landed.cw with haltRequest := true, stepRequest := false } landed = .ok () (s2.setCw cw2) := by
    rw [hcw]
    exact writeCw_of_writes_in (hpoll.cfg.trans hcfg1) hhold
  refine ⟨exec_of_ok hready.2 ((attached_get_run hready _).trans ?_), hc.portOnly.cw⟩
  refine (Cmd.bind_of_ok _ (writeCw_of_writes (s := s.accept) hstep)).trans ?_
  refine (Cmd.bind_of_ok _ (Cmd.modify_run _ State.dropHr)).trans ?_
  refine (Cmd.bind_of_ok _ (awaitStatus_found_in hcfg1 hk hfinds)).trans ?_
  refine (Cmd.bind_of_ok _ (Cmd.get_run landed)).trans ?_
  refine (Cmd.bind_of_ok _ hheld).trans ?_
  exact (Cmd.bind_of_ok _ (capture_of_captures hc)).trans rfl

end Sys2Proof.Machine
end

section
/-! SUPPORT. Which transactions the commands make (40_core_control.md R151, 20_memory.md R67, R105): register accesses at the
aligned addresses of the map, control words that carry their key, and naturally aligned sub-transfers. -/

namespace Sys2Proof.Machine

/-! ### Sub-transfers (R193) -/

theorem transferWidth_facts (a h : Nat) {n : Nat} (hn : n ≠ 0) :
    (transferWidth a n h = 1 ∨ transferWidth a n h = 2 ∨ transferWidth a n h = 4)
    ∧ a % transferWidth a n h = 0 ∧ transferWidth a n h ≤ n := by
  unfold transferWidth
  split
  · omega
  · split <;> omega

/-- Every sub-transfer has a width of 1, 2 or 4, is naturally aligned and lies in the span (R193). -/
theorem mem_decomposeLoop {fuel a n h x w : Nat} (hm : (x, w) ∈ decomposeLoop fuel a n h) :
    (w = 1 ∨ w = 2 ∨ w = 4) ∧ x % w = 0 ∧ a ≤ x ∧ x + w ≤ a + n := by
  induction fuel generalizing a n with
  | zero => cases hm
  | succ fuel ih =>
    unfold decomposeLoop at hm
    split at hm
    · cases hm
    next hn =>
      obtain ⟨hwidth, halign, hle⟩ := transferWidth_facts a h hn
      rcases List.mem_cons.mp hm with heq | hm
      · cases heq
        exact ⟨hwidth, halign, Nat.le_refl _, by omega⟩
      · obtain ⟨hw, hx, hlow, hhigh⟩ := ih hm
        exact ⟨hw, hx, by omega, by omega⟩

/-- An access of 1, 2 or 4 bytes at a multiple of its width (R67). -/
def NaturallyAligned (a : Word) (n : Nat) : Prop := (n = 1 ∨ n = 2 ∨ n = 4) ∧ a.toNat % n = 0

theorem naturallyAligned_of_mem_decompose {a n h x w : Nat} (hm : (x, w) ∈ decompose a n h) :
    NaturallyAligned (BitVec.ofNat 32 x) w := by
  obtain ⟨hw, hx, _, _⟩ := mem_decomposeLoop hm
  refine ⟨hw, ?_⟩
  rw [BitVec.toNat_ofNat, Nat.mod_mod_of_dvd _ (by rcases hw with rfl | rfl | rfl <;> decide)]
  exact hx

/-- The bytes a sub-transfer of a write carries are as many as it is wide (R195). -/
theorem length_transferBytes {a h x w : Nat} {bytes : List Byte} (hm : (x, w) ∈ decompose a bytes.length h) :
    ((bytes.drop (x - a)).take w).length = w := by
  obtain ⟨_, _, hlow, hhigh⟩ := mem_decomposeLoop hm
  rw [List.length_take, List.length_drop]
  omega

/-! ### Transactions that are keyed and aligned -/

/-- The transaction is naturally aligned, and carries the key if it writes the control register (R67, R105, R121). -/
def KeyedAndAligned (cfg : Config) (e : TraceEntry) : Prop := e.keyed cfg = true ∧ e.aligned = true

section
variable {cfg : Config}

theorem keyedAndAligned_rd32 (hwf : configWf cfg = true) {r : Reg} (hr : r ∈ mapRegs) (answer : Answer Word) :
    KeyedAndAligned cfg (.rd32 (r.address cfg) answer) :=
  ⟨rfl, beq_iff_eq.mpr ((configWf_addresses hwf).2 r hr).1⟩

/-- A register write, if a word for the control register carries the key (R121). -/
theorem keyedAndAligned_wr32 (hwf : configWf cfg = true) {r : Reg} {v : Word} (hr : r ∈ mapRegs)
    (hkey : r = .dhcsr → upperHalf v = cfg.dbgKey) (answer : Answer Unit) :
    KeyedAndAligned cfg (.wr32 (r.address cfg) v answer) := by
  refine ⟨?_, beq_iff_eq.mpr ((configWf_addresses hwf).2 r hr).1⟩
  by_cases hcontrol : r = .dhcsr
  · simp [TraceEntry.keyed, hkey hcontrol]
  · simp [TraceEntry.keyed, offControl_address cfg hr hcontrol hwf]

theorem keyedAndAligned_memRead {a : Word} {n : Nat} (h : NaturallyAligned a n) (answer : Answer (List Byte)) :
    KeyedAndAligned cfg (.memRead a n answer) := by
  obtain ⟨hn, ha⟩ := h
  exact ⟨rfl, by simp [TraceEntry.aligned, ha, or_assoc, hn]⟩

theorem keyedAndAligned_memWrite {a : Word} {bytes : List Byte} (h : NaturallyAligned a bytes.length) (answer : Answer Unit) :
    KeyedAndAligned cfg (.memWrite a bytes answer) := by
  obtain ⟨hn, ha⟩ := h
  exact ⟨rfl, by simp [TraceEntry.aligned, ha, or_assoc, hn]⟩

end

/-- From `s` to `t` the trace grows by transactions that are keyed and aligned. -/
def Issues (cfg : Config) (s t : State) : Prop := ∃ es, t.trace = s.trace ++ es ∧ ∀ e ∈ es, KeyedAndAligned cfg e

/-- The command issues only such transactions, from every state with the configuration. -/
abbrev Cmd.Issuing {α : Type} (cfg : Config) (c : Cmd α) : Prop := c.Keeps (InConfig cfg (Issues cfg))

section
variable {cfg : Config}

/-- A step without a transaction that leaves the configuration. -/
theorem issues_of_same {s t : State} (hcfg : t.cfg = s.cfg) (htrace : t.trace = s.trace) :
    InConfig cfg (Issues cfg) s t :=
  fun hs => ⟨hcfg.trans hs, [], by rw [htrace, List.append_nil], fun _ he => absurd he List.not_mem_nil⟩

theorem issues_refl (s : State) : InConfig cfg (Issues cfg) s s := issues_of_same rfl rfl

theorem issues_trans (s t u : State) (h : InConfig cfg (Issues cfg) s t) (h' : InConfig cfg (Issues cfg) t u) :
    InConfig cfg (Issues cfg) s u := fun hs => by
  obtain ⟨ht, es, htrace, hes⟩ := h hs
  obtain ⟨hu, es', htrace', hes'⟩ := h' ht
  refine ⟨hu, es ++ es', by rw [htrace', htrace, List.append_assoc], fun e he => ?_⟩
  exact (List.mem_append.mp he).elim (hes e) (hes' e)

theorem issues_afterTransaction {s : State} (target : Target) {e : TraceEntry} (he : KeyedAndAligned cfg e) :
    Issues cfg s (s.afterTransaction target e) := ⟨[e], rfl, fun _ h => List.mem_singleton.mp h ▸ he⟩

theorem issuing_seq {α β : Type} {x : Cmd α} {f : α → Cmd β} (hx : x.Issuing cfg) (hf : ∀ a, (f a).Issuing cfg) :
    (x >>= f).Issuing cfg := Cmd.keeps_bind issues_trans hx hf

theorem issuing_pure {α : Type} (a : α) : (pure a : Cmd α).Issuing cfg := Cmd.keeps_pure issues_refl a

theorem issuing_raise {α : Type} (f : Failure) : (raise f : Cmd α).Issuing cfg := Cmd.keeps_raise issues_refl f

theorem issuing_modify {f : State → State} (hf : RegisterUpdate f) : (modify f : Cmd Unit).Issuing cfg :=
  Cmd.keeps_modify fun s => by
    obtain ⟨_, hcfg, htrace, _⟩ := hf s s.target s.trace s.tick
    exact issues_of_same hcfg htrace

theorem issuing_refuseIf {β : Type} {b : Bool} {f : Unit → Cmd β} (hf : b = false → (f ()).Issuing cfg) :
    (refuseIf b >>= f).Issuing cfg := by
  cases b with
  | true => exact issues_refl
  | false => exact hf rfl

theorem issuing_orRefuse {α β : Type} {o : Option α} {f : α → Cmd β} (hf : ∀ a, o = some a → (f a).Issuing cfg) :
    (orRefuse o >>= f).Issuing cfg := by
  cases o with
  | none => exact issues_refl
  | some a => exact hf a rfl

/-- The start of a command on a handle; what follows may use that the state has the configuration. -/
theorem issuing_attached_get {β : Type} {f : State → Cmd β} (hf : ∀ s, s.cfg = cfg → (f s).Issuing cfg) :
    (requireAttached >>= fun _ => get >>= f).Issuing cfg :=
  issuing_seq (Cmd.keeps_requireAttached issues_refl) fun _ => keeps_get_seq hf

/-! #### The shared operations -/

theorem memRead_issuing {a : Word} {n : Nat} (h : NaturallyAligned a n) : (memRead a n).Issuing cfg := by
  refine (orRaise_orMemoryFault_inConfig (portReadBlock_portOnly a n) (fun s _ => ?_) a).2
  obtain ⟨target, hspec⟩ := portReadBlock_spec a n s
  exact hspec ▸ issues_afterTransaction target (keyedAndAligned_memRead h _)

theorem memWrite_issuing {a : Word} {bytes : List Byte} (h : NaturallyAligned a bytes.length) :
    (memWrite a bytes).Issuing cfg := by
  refine (orRaise_orMemoryFault_inConfig (portWriteBlock_portOnly a bytes) (fun s _ => ?_) a).2
  obtain ⟨target, hspec⟩ := portWriteBlock_spec a bytes s
  exact hspec ▸ issues_afterTransaction target (keyedAndAligned_memWrite h _)

theorem readTransfers_issuing {l : List (Nat × Nat)} (h : ∀ p ∈ l, NaturallyAligned (BitVec.ofNat 32 p.1) p.2) :
    (readTransfers l).Issuing cfg := by
  induction l with
  | nil => exact issuing_pure []
  | cons p rest ih =>
    obtain ⟨hp, hrest⟩ := List.forall_mem_cons.mp h
    exact issuing_seq (memRead_issuing hp) fun _ => issuing_seq (ih hrest) fun _ => issuing_pure _

theorem writeTransfers_issuing {base : Nat} {bytes : List Byte} {l : List (Nat × Nat)}
    (h : ∀ p ∈ l, NaturallyAligned (BitVec.ofNat 32 p.1) ((bytes.drop (p.1 - base)).take p.2).length) :
    (writeTransfers base bytes l).Issuing cfg := by
  induction l with
  | nil => exact issuing_pure ()
  | cons p rest ih =>
    obtain ⟨hp, hrest⟩ := List.forall_mem_cons.mp h
    exact issuing_seq (memWrite_issuing hp) fun _ => ih hrest

variable (hwf : configWf cfg = true)
include hwf

theorem rd32_issuing {r : Reg} (hr : r ∈ mapRegs) : (rd32 (r.address cfg)).Issuing cfg := by
  refine (orRaise_orMemoryFault_inConfig (portRead32_portOnly _) (fun s _ => ?_) 0#32).1
  obtain ⟨target, hspec⟩ := portRead32_spec (r.address cfg) s
  exact hspec ▸ issues_afterTransaction target (keyedAndAligned_rd32 hwf hr _)

theorem portWrite32_issues {r : Reg} {v : Word} (hr : r ∈ mapRegs) (hkey : r = .dhcsr → upperHalf v = cfg.dbgKey)
    (s : State) : Issues cfg s (portWrite32 (r.address cfg) v s).2 := by
  obtain ⟨target, hspec⟩ := portWrite32_spec (r.address cfg) v s
  exact hspec ▸ issues_afterTransaction target (keyedAndAligned_wr32 hwf hr hkey _)

theorem wr32_issuing {r : Reg} {v : Word} (hr : r ∈ mapRegs) (hkey : r = .dhcsr → upperHalf v = cfg.dbgKey) :
    (wr32 (r.address cfg) v).Issuing cfg :=
  (orRaise_orMemoryFault_inConfig (portWrite32_portOnly _ v) (fun s _ => portWrite32_issues hwf hr hkey s) 0#32).1

/-- A write of another register than the control register carries any word. -/
theorem wr32_issuing_other {r : Reg} (hr : r ∈ mapRegs) (hne : r ≠ .dhcsr) (v : Word) :
    (wr32 (r.address cfg) v).Issuing cfg := wr32_issuing hwf hr fun he => absurd he hne

/-- A control word (R121). -/
theorem wr32_issuing_control (cw : ControlWord) : (wr32 cfg.addrDhcsr (dhcsrWord cfg cw)).Issuing cfg :=
  wr32_issuing hwf (r := .dhcsr) (by simp [mapRegs]) fun _ => upperHalf_dhcsrWord hwf cw

/-- Writes to registers of the map other than the control register. -/
theorem writeAll_issuing {ws : List (Word × Word)} (hmap : ∀ w ∈ ws, ToMap cfg w) (hoff : ∀ w ∈ ws, OffControl cfg w.1) :
    (writeAll ws).Issuing cfg := by
  refine writeAll_keeps issues_refl issues_trans fun w hw => ?_
  obtain ⟨r, hr, ha⟩ := hmap w hw
  rw [ha]
  refine wr32_issuing_other hwf hr (fun he => hoff w hw hwf ?_) w.2
  rw [ha, he]
  rfl

/-- The writes of DETACH, whatever the port answers (R158). -/
theorem afterWrites_issues {nBp nWp : BitVec 4} {rs : List Reg} (hrs : ∀ r ∈ rs, r ∈ detachRegs nBp.toNat nWp.toNat)
    (s : State) : InConfig cfg (Issues cfg) s (afterWrites (rs.map fun r => (r.address cfg, r.releaseWord cfg)) s) := by
  induction rs generalizing s with
  | nil => exact issues_refl s
  | cons r rest ih =>
    obtain ⟨hr, hrest⟩ := List.forall_mem_cons.mp hrs
    refine issues_trans _ _ _ (fun hs => ⟨(portWrite32_portOnly _ _ s).cfg.trans hs, ?_⟩) (ih hrest _)
    refine portWrite32_issues hwf (mem_mapRegs_of_mem_detachRegs hr) (fun he => ?_) s
    subst he
    exact upperHalf_dhcsrWord hwf clearWord

theorem poll_issuing {r : Reg} (hr : r ∈ mapRegs) (pred : Word → Bool) (n : Nat) :
    (poll (r.address cfg) pred n).Issuing cfg := by
  induction n with
  | zero => exact issuing_pure false
  | succ n ih =>
    refine issuing_seq (rd32_issuing hwf hr) fun v => ?_
    split
    · exact issuing_pure true
    · exact ih

theorem awaitStatus_issuing (pred : Config → Word → Bool) (timeout : Failure) : (awaitStatus pred timeout).Issuing cfg := by
  refine keeps_get_seq fun s hs => ?_
  subst hs
  refine issuing_seq (poll_issuing hwf (r := .dhcsr) (by simp [mapRegs]) _ _) fun found => ?_
  cases found with
  | true => exact issuing_pure ()
  | false => exact issuing_raise timeout

theorem writeCw_issuing (cw : ControlWord) : (writeCw cw).Issuing cfg := by
  refine keeps_get_seq fun s hs => ?_
  subst hs
  exact issuing_seq (wr32_issuing_control hwf cw) fun _ => issuing_modify (registerUpdate_setCw cw)

theorem scanWatchpoints_issuing (h : HaltReason) {slots : List Nat} (hlt : ∀ i ∈ slots, i < 15) :
    (scanWatchpoints h slots).Issuing cfg := by
  induction slots generalizing h with
  | nil => exact issuing_pure h
  | cons i rest ih =>
    obtain ⟨hi, hrest⟩ := List.forall_mem_cons.mp hlt
    refine keeps_get_seq fun s hs => ?_
    subst hs
    split
    · refine issuing_seq (rd32_issuing hwf (r := .dwtFunction i) (mem_mapRegs_dwtFunction hi)) fun f => ?_
      split
      · exact ih _ hrest
      · exact ih h hrest
    · exact ih h hrest

theorem capture_issuing : capture.Issuing cfg := by
  refine keeps_get_seq fun s hs => ?_
  subst hs
  have hdfsr : Reg.dfsr ∈ mapRegs := by simp [mapRegs]
  refine issuing_seq (rd32_issuing hwf (r := .dfsr) hdfsr) fun dfsr => ?_
  refine issuing_seq (rd32_issuing hwf (r := .hfsr) (by simp [mapRegs])) fun hfsr => ?_
  refine issuing_seq (keeps_get_seq fun u _ => ?_) fun h => ?_
  · split
    · exact scanWatchpoints_issuing hwf _ fun i hi => slot_lt_cap (List.mem_range.mp hi)
    · exact issuing_pure _
  · exact issuing_seq (wr32_issuing_other hwf (r := .dfsr) hdfsr (by simp) _) fun _ => issuing_modify (registerUpdate_setHr h)

theorem captureOnce_issuing : captureOnce.Issuing cfg := by
  refine keeps_get_seq fun s _ => ?_
  split
  · exact issuing_pure ()
  · exact capture_issuing hwf

theorem enableFpb_issuing : enableFpb.Issuing cfg := by
  refine keeps_get_seq fun s hs => ?_
  subst hs
  split
  · exact issuing_pure ()
  · exact issuing_seq (wr32_issuing_other hwf (r := .fpCtrl) (by simp [mapRegs]) (by simp) _) fun _ =>
      issuing_modify registerUpdate_setFpbOn

theorem armVectorCatch_issuing : armVectorCatch.Issuing cfg := by
  refine keeps_get_seq fun s hs => ?_
  subst hs
  have hdemcr : Reg.demcr ∈ mapRegs := by simp [mapRegs]
  exact issuing_seq (rd32_issuing hwf (r := .demcr) hdemcr) fun v =>
    wr32_issuing_other hwf (r := .demcr) hdemcr (by simp) _

theorem sampleCache_issuing (variant : Variant) : (sampleCache variant).Issuing cfg := by
  refine keeps_get_seq fun s hs => ?_
  subst hs
  dsimp only
  split
  · exact issuing_seq (rd32_issuing hwf (r := .cacheId) (by simp [mapRegs])) fun _ => issuing_pure _
  · exact issuing_pure _

/-! #### The commands -/

theorem cmdAttach_issuing (code : BitVec 2) : (cmdAttach code).Issuing cfg := by
  refine keeps_get_seq fun s hs => ?_
  subst hs
  refine issuing_refuseIf fun _ => issuing_orRefuse fun variant _ => ?_
  refine issuing_seq (wr32_issuing_control hwf attachCw) fun _ => issuing_seq (awaitStatus_issuing hwf _ _) fun _ => ?_
  refine issuing_seq (rd32_issuing hwf (r := .fpCtrl) (by simp [mapRegs])) fun fpCtrl => ?_
  refine issuing_seq (rd32_issuing hwf (r := .dwtCtrl) (by simp [mapRegs])) fun dwtCtrl => ?_
  refine issuing_seq (writeAll_issuing hwf (toMap_sweepWrites _ _ _) (offControl_sweepWrites _ _ _)) fun _ => ?_
  refine issuing_seq (sampleCache_issuing hwf variant) fun cp => ?_
  exact issuing_seq (issuing_modify (registerUpdate_commitAttach _ _ _ _ _)) fun _ => issuing_pure _

theorem cmdDetach_issuing : cmdDetach.Issuing cfg := by
  refine issuing_attached_get fun s hs => ?_
  subst hs
  rw [← detachWrites_eq]
  refine issuing_seq (fun u => ?_) fun _ => issuing_seq (issuing_modify registerUpdate_dropHandle) fun _ => issuing_pure _
  rw [attemptAll_run]
  exact afterWrites_issues hwf (fun r hr => hr) u

theorem cmdHalt_issuing : cmdHalt.Issuing cfg := by
  refine issuing_attached_get fun s hs => ?_
  subst hs
  refine issuing_seq (rd32_issuing hwf (r := .dhcsr) (by simp [mapRegs])) fun status => ?_
  split
  · exact issuing_seq (captureOnce_issuing hwf) fun _ => issuing_pure _
  · refine issuing_seq (issuing_modify registerUpdate_dropHr) fun _ => issuing_seq (writeCw_issuing hwf _) fun _ => ?_
    refine issuing_seq (awaitStatus_issuing hwf _ _) fun _ => ?_
    exact issuing_seq (capture_issuing hwf) fun _ => issuing_pure _

theorem cmdResume_issuing (mask : Bool) : (cmdResume mask).Issuing cfg := by
  refine issuing_attached_get fun s _ => issuing_seq (writeCw_issuing hwf _) fun _ => ?_
  exact issuing_seq (issuing_modify registerUpdate_dropHr) fun _ => issuing_pure _

theorem cmdResumeStep_issuing (mask : Bool) : (cmdResumeStep mask).Issuing cfg := by
  refine issuing_attached_get fun s _ => issuing_seq (writeCw_issuing hwf _) fun _ => ?_
  refine issuing_seq (issuing_modify registerUpdate_dropHr) fun _ => issuing_seq (awaitStatus_issuing hwf _ _) fun _ => ?_
  refine keeps_get_seq fun u _ => issuing_seq (writeCw_issuing hwf _) fun _ => ?_
  exact issuing_seq (capture_issuing hwf) fun _ => issuing_pure _

theorem cmdReset_issuing (catchVector : Bool) : (cmdReset catchVector).Issuing cfg := by
  refine issuing_attached_get fun s hs => ?_
  subst hs
  have requested : ∀ _ : Unit, (do
      wr32 s.cfg.addrAircr (resetWord s.cfg)
      modify State.dropHr
      awaitStatus statusResetSeen .resetTimeout
      pure .none : Cmd Result).Issuing s.cfg := fun _ => by
    refine issuing_seq (wr32_issuing_other hwf (r := .aircr) (by simp [mapRegs]) (by simp) _) fun _ => ?_
    refine issuing_seq (issuing_modify registerUpdate_dropHr) fun _ => ?_
    exact issuing_seq (awaitStatus_issuing hwf _ _) fun _ => issuing_pure _
  cases catchVector with
  | false => exact requested ()
  | true => exact issuing_seq (armVectorCatch_issuing hwf) requested

theorem cmdRdreg_issuing (sel : BitVec 7) : (cmdRdreg sel).Issuing cfg := by
  refine issuing_attached_get fun s hs => ?_
  subst hs
  refine issuing_seq (wr32_issuing_other hwf (r := .dcrsr) (by simp [mapRegs]) (by simp) _) fun _ => ?_
  refine issuing_seq (awaitStatus_issuing hwf _ _) fun _ => ?_
  exact issuing_seq (rd32_issuing hwf (r := .dcrdr) (by simp [mapRegs])) fun _ => issuing_pure _

theorem cmdWrreg_issuing (sel : BitVec 7) (value : Word) : (cmdWrreg sel value).Issuing cfg := by
  refine issuing_attached_get fun s hs => ?_
  subst hs
  refine issuing_seq (wr32_issuing_other hwf (r := .dcrdr) (by simp [mapRegs]) (by simp) _) fun _ => ?_
  refine issuing_seq (wr32_issuing_other hwf (r := .dcrsr) (by simp [mapRegs]) (by simp) _) fun _ => ?_
  exact issuing_seq (awaitStatus_issuing hwf _ _) fun _ => issuing_pure _

omit hwf in
theorem cmdRdmem_issuing (hint : BitVec 2) (addr len : Word) : (cmdRdmem hint addr len).Issuing cfg := by
  refine issuing_seq (Cmd.keeps_requireAttached issues_refl) fun _ => issuing_orRefuse fun ceiling _ => ?_
  refine issuing_refuseIf fun _ => issuing_seq (readTransfers_issuing fun p hp => ?_) fun _ => issuing_pure _
  exact naturallyAligned_of_mem_decompose hp

/-- The payload is as long as the span, so every sub-transfer of the span carries as many bytes as it is wide (R195, R197). -/
theorem cmdWrmem_issuing (hint : BitVec 2) (code : Bool) (addr len : Word) (bytes : List Byte) :
    (cmdWrmem hint code addr len bytes).Issuing cfg := by
  refine issuing_seq (Cmd.keeps_requireAttached issues_refl) fun _ => issuing_orRefuse fun ceiling _ => ?_
  refine issuing_refuseIf fun _ => issuing_refuseIf fun hlength => ?_
  have hlen : bytes.length = len.toNat := by simpa using hlength
  rw [← hlen]
  refine issuing_seq (writeTransfers_issuing fun p hp => ?_) fun _ => keeps_get_seq fun s hs => ?_
  · rw [length_transferBytes hp]
    exact naturallyAligned_of_mem_decompose hp
  · subst hs
    split
    · exact issuing_seq (writeAll_issuing hwf (toMap_cacheWrites _ _ _) (offControl_cacheWrites _ _ _)) fun _ =>
        issuing_pure _
    · exact issuing_pure _

theorem cmdSetbp_issuing (a : Word) : (cmdSetbp a).Issuing cfg := by
  refine issuing_attached_get fun s hs => ?_
  subst hs
  dsimp only
  split
  · exact issuing_pure _
  · split
    · exact issuing_raise _
    next n hfree =>
      have hn : n < 15 := slot_lt_cap (State.bpFree_lt hfree)
      refine issuing_seq (enableFpb_issuing hwf) fun _ => ?_
      refine issuing_seq (wr32_issuing_other hwf (mem_mapRegs_fpComp hn) (by simp) _) fun _ => ?_
      exact issuing_seq (issuing_modify (registerUpdate_setBp _ _)) fun _ => issuing_pure _

theorem cmdClrbp_issuing (slot : BitVec 4) : (cmdClrbp slot).Issuing cfg := by
  refine issuing_attached_get fun s hs => issuing_refuseIf fun hslot => ?_
  subst hs
  have hn : slot.toNat < s.nBp.toNat := by simpa using hslot
  refine issuing_seq (wr32_issuing_other hwf (mem_mapRegs_fpComp (slot_lt_cap hn)) (by simp) _) fun _ => ?_
  exact issuing_seq (issuing_modify (registerUpdate_setBp _ _)) fun _ => issuing_pure _

theorem cmdSetwp_issuing (size access : BitVec 2) (a : Word) : (cmdSetwp size access a).Issuing cfg := by
  refine issuing_attached_get fun s hs => ?_
  subst hs
  refine issuing_orRefuse fun kind _ => issuing_refuseIf fun _ => ?_
  dsimp only
  split
  · exact issuing_pure _
  · split
    · exact issuing_raise _
    next n hfree =>
      have hn : n < 15 := slot_lt_cap (State.wpFree_lt hfree)
      refine issuing_orRefuse fun arming harm => issuing_seq (writeAll_issuing hwf ?_ ?_) fun _ => ?_
      · exact List.forall_mem_cons.mpr ⟨⟨_, mem_mapRegs_dwtComp hn, rfl⟩, toMap_armWrites _ hn harm⟩
      · exact List.forall_mem_cons.mpr ⟨offControl_dwtComp _ hn, offControl_armWrites hn harm⟩
      · exact issuing_seq (issuing_modify (registerUpdate_setWp _ _)) fun _ => issuing_pure _

theorem cmdClrwp_issuing (slot : BitVec 4) : (cmdClrwp slot).Issuing cfg := by
  refine issuing_attached_get fun s hs => issuing_refuseIf fun hslot => ?_
  subst hs
  have hn : slot.toNat < s.nWp.toNat := by simpa using hslot
  refine issuing_seq (wr32_issuing_other hwf (mem_mapRegs_dwtFunction (slot_lt_cap hn)) (by simp) _) fun _ => ?_
  exact issuing_seq (issuing_modify (registerUpdate_setWp _ _)) fun _ => issuing_pure _

theorem cmdHaltreason_issuing : cmdHaltreason.Issuing cfg := by
  refine issuing_attached_get fun s hs => ?_
  subst hs
  split
  · exact issuing_pure _
  · refine issuing_seq (rd32_issuing hwf (r := .dhcsr) (by simp [mapRegs])) fun status => ?_
    split
    · exact issuing_seq (capture_issuing hwf) fun _ => keeps_get_seq fun u _ => issuing_pure _
    · exact issuing_pure _

theorem commandBody_issuing (i : Instr) : (commandBody i).Issuing cfg := by
  cases i with
  | attach variant => exact cmdAttach_issuing hwf variant
  | detach => exact cmdDetach_issuing hwf
  | halt => exact cmdHalt_issuing hwf
  | resume mask => exact cmdResume_issuing hwf mask
  | resumeStep mask => exact cmdResumeStep_issuing hwf mask
  | reset catchVector => exact cmdReset_issuing hwf catchVector
  | rdreg sel => exact cmdRdreg_issuing hwf sel
  | wrreg sel value => exact cmdWrreg_issuing hwf sel value
  | rdmem hint addr len => exact cmdRdmem_issuing hint addr len
  | wrmem hint code addr len bytes => exact cmdWrmem_issuing hwf hint code addr len bytes
  | setbp codeAddress => exact cmdSetbp_issuing hwf codeAddress
  | clrbp slot => exact cmdClrbp_issuing hwf slot
  | setwp size access address => exact cmdSetwp_issuing hwf size access address
  | clrwp slot => exact cmdClrwp_issuing hwf slot
  | haltreason => exact cmdHaltreason_issuing hwf

end

/-- Settles O60: every transaction of every command is one of a few kinds, each keyed and aligned; the control word reads back by
the lemmas about `dhcsrWord`. -/
theorem transactionsAreKeyedAndAligned : Obligations.TransactionsAreKeyedAndAligned := by
  intro i s t hwf h
  rw [exec_eq_runCommand] at h
  cases h
  have hissued := runCommand_keeps issues_refl issues_trans (fun _ => issues_of_same rfl rfl)
    (fun _ _ => issues_of_same rfl rfl) (commandBody_issuing hwf i) s
  obtain ⟨_, es, htrace, hes⟩ := hissued rfl
  exact ⟨es, htrace, hes, fun cw => ⟨upperHalf_dhcsrWord hwf cw, controlBits_dhcsrWord hwf cw⟩⟩

end Sys2Proof.Machine
end

section
/-! SUPPORT. The register access commands as whole commands (41_register_access.md): RDREG and WRREG from the answers their
transactions get, and on a halted core, whose transfers complete before the first poll read. -/

namespace Sys2Proof.Machine

/-! ### RDREG and WRREG (R182, R183) -/

/-- Settles O24: the steps of R182 one after the other. -/
theorem rdregCompletes : Obligations.RdregCompletes := by
  intro sel s s1 s2 k value hready hselect hk hfinds hread
  refine exec_of_ok hready.2 ((attached_get_run hready _).trans ?_)
  refine (Cmd.bind_of_ok _ (wr32_of_writes hselect)).trans ?_
  refine (Cmd.bind_of_ok _ (awaitStatus_found_in hselect.portOnly.cfg hk hfinds)).trans ?_
  exact (Cmd.bind_of_ok _ (rd32_of_reads hread)).trans rfl

/-- Settles O25: the steps of R183 one after the other. -/
theorem wrregCompletes : Obligations.WrregCompletes := by
  intro sel value s s1 s2 k hready hdata hselect hk hfinds
  have hcfg : s2.cfg = s.cfg := hselect.portOnly.cfg.trans hdata.portOnly.cfg
  refine exec_of_ok hready.2 ((attached_get_run hready _).trans ?_)
  refine (Cmd.bind_of_ok _ (wr32_of_writes hdata)).trans ?_
  refine (Cmd.bind_of_ok _ (wr32_of_writes hselect)).trans ?_
  exact (Cmd.bind_of_ok _ (awaitStatus_found_in hcfg hk hfinds)).trans rfl

/-! ### A transfer of a halted core (R99) -/

/-- A read transfer that was steady to its end delivers the register to the data register (R99). -/
theorem Target.completeTransfer_read (cfg : Config) (t : Target) {x : Transfer} (hw : x.write = false)
    (hs : (x.steady && t.dbg.halted) = true) (value : Word) (lost : Bool) :
    t.completeTransfer cfg x value lost =
      t.setDbg { t.dbg with
        transfer := none, registerReady := true, dcrdr := (coreRegister cfg t.core x.sel).getD value } := by
  unfold Target.completeTransfer
  rw [if_neg (by simp [hw])]
  simp only [hs, if_true]
  rfl

/-- A halted core, with this memory, these core registers and this content of the data register. -/
structure HaltedWith (mem : Memory) (core : CoreRegs) (data : Word) (t : Target) : Prop where
  halted : t.dbg.halted = true
  mem : t.mem = mem
  core : t.core = core
  data : t.dbg.dcrdr = data

/-- The core registers after a transfer: a write gives the register the content of the data register (R99). -/
def coreAfterTransfer (cfg : Config) (core : CoreRegs) (data : Word) (sel : BitVec 7) (write : Bool) : CoreRegs :=
  if write then setCoreRegister cfg core sel data else core

/-- The data register after a transfer: a read delivers the register there, and the environment's `value` where the code
names none (R99). -/
def dataAfterTransfer (cfg : Config) (core : CoreRegs) (data : Word) (sel : BitVec 7) (write : Bool) (value : Word) : Word :=
  if write then data else (coreRegister cfg core sel).getD value

section
variable {mem : Memory} {core : CoreRegs} {data : Word} {t : Target}

theorem HaltedWith.writeData (h : HaltedWith mem core data t) (cfg : Config) (noise v : Word) :
    HaltedWith mem core v (t.writeReg cfg noise v .dcrdr) := ⟨h.halted, h.mem, h.core, rfl⟩

theorem HaltedWith.readStatus (h : HaltedWith mem core data t) (cfg : Config) (noise : Word) :
    HaltedWith mem core data (t.readReg cfg noise .dhcsr).2 := ⟨h.halted, h.mem, h.core, h.data⟩

/-- A transfer started and completed on a halted core: it is done, and the core is still halted (R99). -/
theorem HaltedWith.transfer (h : HaltedWith mem core data t) {cfg : Config} (hwf : configWf cfg = true) (noise : Word)
    (sel : BitVec 7) (write : Bool) (value : Word) (lost : Bool) :
    let u := (t.writeReg cfg noise (selWord cfg sel write) .dcrsr).event cfg (.transferCompletes value lost)
    HaltedWith mem (coreAfterTransfer cfg core data sel write) (dataAfterTransfer cfg core data sel write value) u
    ∧ u.dbg.registerReady = true := by
  obtain ⟨hhalted, rfl, rfl, rfl⟩ := h
  have hsteady : (t.dbg.halted && t.dbg.halted) = true := by rw [hhalted]; rfl
  rw [Target.writeReg_dcrsr_selWord hwf]
  dsimp only [Target.event, Target.setDbg]
  cases write with
  | true => rw [Target.completeTransfer_write cfg _ rfl hsteady]; exact ⟨⟨hhalted, rfl, rfl, rfl⟩, rfl⟩
  | false => rw [Target.completeTransfer_read cfg _ rfl hsteady]; exact ⟨⟨hhalted, rfl, rfl, rfl⟩, rfl⟩

end

section
variable {s : State} {mem : Memory} {core : CoreRegs} {data v : Word} {lost : Bool}
  (hwf : configWf s.cfg = true) (h : HaltedWith mem core data s.target)
include hwf h

/-- The selector write, and the poll that sees the transfer complete at its first read (R182, R183). -/
theorem exists_transfer (ha : s.answersFor 2) (hq : s.quietFor 1)
    (hdone : (s.choiceAt 1).events = [.transferCompletes v lost]) (sel : BitVec 7) (write : Bool) :
    ∃ s1 s2, s.writes s.cfg.addrDcrsr (selWord s.cfg sel write) s1
      ∧ pollFindsAt s.cfg.addrDhcsr (statusRegisterReady s.cfg) 0 s1 ∧ afterReads s.cfg.addrDhcsr 1 s1 = s2
      ∧ PortOnly s s2 ∧ Later 2 s s2
      ∧ HaltedWith mem (coreAfterTransfer s.cfg core data sel write) (dataAfterTransfer s.cfg core data sel write v)
        s2.target := by
  obtain ⟨s1, n1, hselect, ht1, hl1⟩ := exists_quiet_writes hwf (ha.mono (by omega)) (r := .dcrsr) (by simp [mapRegs]) hq
    (selWord s.cfg sel write)
  obtain ⟨s2, n2, hread, ht2, hl2⟩ := exists_reads (hl1.cfg ▸ hwf) (hl1.answersFor ha) (r := .dhcsr) (by simp [mapRegs])
  rw [hl1.choice, hdone, hl1.cfg, ht1] at hread ht2
  obtain ⟨hhalted, hready⟩ := h.transfer hwf n1 sel write v lost
  obtain ⟨_, _, hstatus, _⟩ := statusWord_bits hwf
    ((s.target.writeReg s.cfg n1 (selWord s.cfg sel write) .dcrsr).event s.cfg (.transferCompletes v lost)).dbg n2
  obtain ⟨hfinds, hafter⟩ := pollFindsAt_zero hread (hstatus.trans hready)
  exact ⟨s1, s2, hselect, hfinds, hafter, hselect.portOnly.trans hread.portOnly, hl1.trans hl2,
    ht2 ▸ hhalted.readStatus s.cfg n2⟩

/-- WRREG on a halted core whose transfer completes before the first poll read: it writes the register it names (R183). -/
theorem exec_wrreg_of_halted (hready : s.ready) (ha : s.answersFor 3) (hq : s.quietFor 2)
    (hdone : (s.choiceAt 2).events = [.transferCompletes v lost]) (sel : BitVec 7) (value : Word) :
    ∃ t, exec (.wrreg sel value) s = .next t ∧ t.ready ∧ Later 3 s t ∧ t.responses = s.responses ++ [.ok .none]
      ∧ HaltedWith mem (setCoreRegister s.cfg core sel value) value t.target := by
  obtain ⟨s1, noise, hdata, ht1, hl1⟩ := exists_quiet_writes (s := s.accept) hwf (ha.mono (by omega)) (r := .dcrdr)
    (by simp [mapRegs]) (hq.mono (by omega)) value
  have hwritten : HaltedWith mem core value s1.target := ht1 ▸ h.writeData s.cfg noise value
  obtain ⟨s2, s3, hselect, hfinds, rfl, hports, hl2, hhalted⟩ := exists_transfer (hl1.cfg ▸ hwf) hwritten
    (hl1.answersFor ha) (hl1.quietFor hq) ((hl1.choiceAt 1).symm ▸ hdone) sel true
  rw [hl1.cfg] at hselect hfinds hports hl2 hhalted
  have hports := hdata.portOnly.trans hports
  have hl := hl1.trans hl2
  exact ⟨_, wrregCompletes sel value s s1 s2 0 hready hdata hselect (configWf_facts hwf).1 hfinds,
    ⟨hports.attached.trans hready.1, rfl⟩, ⟨hl.cfg, hl.env, hl.tick⟩, congrArg (· ++ _) hports.responses, hhalted⟩

/-- RDREG on a halted core whose transfer completes before the first poll read: it gives the register it names (R182). -/
theorem exec_rdreg_of_halted (hready : s.ready) (ha : s.answersFor 3) (hq : s.quietFor 1)
    (hdone : (s.choiceAt 1).events = [.transferCompletes v lost]) (hq' : (s.choiceAt 2).events = []) (sel : BitVec 7) :
    ∃ t, exec (.rdreg sel) s = .next t
      ∧ t.responses = s.responses ++ [.ok (.value ((coreRegister s.cfg core sel).getD v))]
      ∧ t.target.core = core ∧ t.target.mem = mem := by
  obtain ⟨s1, s2, hselect, hfinds, hafter, hports, hl, hhalted⟩ :=
    exists_transfer (s := s.accept) hwf h (ha.mono (by omega)) hq hdone sel false
  obtain ⟨s3, noise, hread, ht3, _⟩ := exists_quiet_reads (hl.cfg ▸ hwf) (hl.answersFor ha) (r := .dcrdr) (by simp [mapRegs])
    (fun k hk => by rw [hl.choiceAt, Nat.lt_one_iff.mp hk]; exact hq')
  have hvalue : (s2.target.readReg s2.cfg noise .dcrdr).1 = (coreRegister s.cfg core sel).getD v := hhalted.data
  have hports := hports.trans hread.portOnly
  rw [hvalue, hl.cfg, ← hafter] at hread
  exact ⟨_, rdregCompletes sel s s1 s3 0 _ hready hselect (configWf_facts hwf).1 hfinds hread,
    congrArg (· ++ _) hports.responses, (congrArg Target.core ht3).trans hhalted.core,
    (congrArg Target.mem ht3).trans hhalted.mem⟩

end

/-- Settles O27: WRREG leaves a halted core whose register holds the value, and RDREG delivers what that core's register
holds. -/
theorem wrregThenRdregReadsTheValue : Obligations.WrregThenRdregReadsTheValue := by
  intro sel value v1 v2 l1 l2 s hready hwf ha hhalted hsel hevents
  have hquiet : ∀ k, k < 6 → k ≠ 2 → k ≠ 4 → (s.choiceAt k).events = [] :=
    fun k hk h2 h4 => (hevents k hk).trans (by rw [if_neg h2, if_neg h4])
  obtain ⟨t, hwrite, hready', hlater, hresponses, hcore⟩ := exec_wrreg_of_halted hwf ⟨hhalted, rfl, rfl, rfl⟩ hready
    (ha.mono (by omega)) (fun k hk => hquiet k (by omega) (by omega) (by omega)) (hevents 2 (by omega)) sel value
  obtain ⟨u, hread, hresponses', hcore', hmem'⟩ := exec_rdreg_of_halted (hlater.cfg ▸ hwf) hcore hready'
    (hlater.answersFor ha) (fun k hk => by rw [hlater.choiceAt]; exact hquiet _ (by omega) (by omega) (by omega))
    ((hlater.choiceAt 1).symm ▸ hevents 4 (by omega))
    ((hlater.choiceAt 2).symm ▸ hquiet 5 (by omega) (by omega) (by omega)) sel
  have hsame : coreRegister s.cfg t.target.core sel = some value := by
    rw [hcore.core]; exact coreRegister_setCoreRegister_same s.cfg s.target.core sel value hwf hsel
  refine ⟨t, u, hwrite, hcore.core, hsame, fun other hne hother hsp => ?_, hcore.mem, hread, ?_, hcore'.trans hcore.core.symm,
    hmem'⟩
  · rw [hcore.core]
    exact coreRegister_setCoreRegister_other s.cfg s.target.core sel value hne hother hsp
  · rw [hresponses', hresponses, hlater.cfg, ← hcore.core, hsame, List.append_assoc]
    rfl

end Sys2Proof.Machine
end

section
/-! SUPPORT. The sub-transfers of a span (42_memory_access.md R193, R194): they follow one another from its address to its end,
and their widths rise to the ceiling, stay there and fall again. -/

namespace Sys2Proof.Machine

/-! ### The recursion of `Decompose` (R193) -/

theorem transferWidth_pos (a n h : Nat) : 0 < transferWidth a n h := by
  unfold transferWidth
  split
  · omega
  · split <;> omega

/-- More rounds than the span has bytes make no difference. -/
theorem decomposeLoop_of_le {fuel a n h : Nat} (hn : n ≤ fuel) : decomposeLoop fuel a n h = decompose a n h := by
  unfold decompose
  induction fuel using Nat.strong_induction_on generalizing a n with
  | _ fuel ih =>
    cases fuel with
    | zero => rw [Nat.le_zero.mp hn]
    | succ fuel =>
      cases n with
      | zero => rfl
      | succ n =>
        have hpos := transferWidth_pos a (n + 1) h
        simp only [decomposeLoop, Nat.succ_ne_zero, if_false]
        rw [ih fuel (Nat.lt_succ_self fuel) (by omega), ih n (by omega) (by omega)]

@[simp] theorem decompose_zero (a h : Nat) : decompose a 0 h = [] := rfl

/-- A span that is not empty: its first sub-transfer, then those of the rest. -/
theorem decompose_of_ne_zero (a h : Nat) {n : Nat} (hn : n ≠ 0) : decompose a n h
    = (a, transferWidth a n h) :: decompose (a + transferWidth a n h) (n - transferWidth a n h) h := by
  have hpos := transferWidth_pos a n h
  obtain ⟨n, rfl⟩ := Nat.exists_eq_add_one_of_ne_zero hn
  rw [← decomposeLoop_of_le (show n + 1 - transferWidth a (n + 1) h ≤ n by omega)]
  show decomposeLoop (n + 1) a (n + 1) h = _
  simp only [decomposeLoop, Nat.succ_ne_zero, if_false]

/-- A property of the sub-transfers of every span, from the empty span and from the rest of a span to the whole. -/
theorem decompose_induction {h : Nat} {P : Nat → Nat → List (Nat × Nat) → Prop} (empty : ∀ a, P a 0 [])
    (next : ∀ a n, n ≠ 0 → ∀ rest, P (a + transferWidth a n h) (n - transferWidth a n h) rest →
      P a n ((a, transferWidth a n h) :: rest)) (a n : Nat) : P a n (decompose a n h) := by
  induction n using Nat.strong_induction_on generalizing a with
  | _ n ih =>
    by_cases hn : n = 0
    · subst hn; exact empty a
    · have hpos := transferWidth_pos a n h
      rw [decompose_of_ne_zero a h hn]
      exact next a n hn _ (ih _ (by omega) _)

/-! ### Coverage (R194 (a)) -/

/-- How many bytes a list of sub-transfers moves. -/
def spanOf (l : List (Nat × Nat)) : Nat := (l.map Prod.snd).sum

@[simp] theorem spanOf_nil : spanOf [] = 0 := rfl
@[simp] theorem spanOf_cons (p : Nat × Nat) (l : List (Nat × Nat)) : spanOf (p :: l) = p.2 + spanOf l := List.sum_cons

theorem spanOf_append (l m : List (Nat × Nat)) : spanOf (l ++ m) = spanOf l + spanOf m := by
  simp [spanOf]

/-- Each sub-transfer begins where the one before it ends, the first at `a`. -/
def AdjacentFrom : Nat → List (Nat × Nat) → Prop
  | _, [] => True
  | a, p :: rest => p.1 = a ∧ AdjacentFrom (a + p.2) rest

theorem adjacentFrom_append {a : Nat} {l m : List (Nat × Nat)} :
    AdjacentFrom a (l ++ m) ↔ AdjacentFrom a l ∧ AdjacentFrom (a + spanOf l) m := by
  induction l generalizing a with
  | nil => simp [AdjacentFrom]
  | cons p l ih => simp [AdjacentFrom, ih, and_assoc, Nat.add_assoc]

/-- A list of sub-transfers about its `k`-th one, which begins where those before it end. -/
theorem AdjacentFrom.split {a : Nat} {l : List (Nat × Nat)} (h : AdjacentFrom a l) {k : Nat} (hk : k < l.length) :
    l = l.take k ++ l.getD k (0, 0) :: l.drop (k + 1)
    ∧ (l.getD k (0, 0)).1 = a + spanOf (l.take k) := by
  have hsplit : l = l.take k ++ l.getD k (0, 0) :: l.drop (k + 1) := by
    rw [List.getD_eq_getElem _ _ hk, List.getElem_cons_drop, List.take_append_drop]
  rw [hsplit, adjacentFrom_append] at h
  obtain ⟨_, hat, _⟩ := h
  exact ⟨hsplit, hat⟩

theorem adjacentFrom_decompose (a n h : Nat) : AdjacentFrom a (decompose a n h) :=
  decompose_induction (P := fun a _ l => AdjacentFrom a l) (fun _ => trivial) (fun _ _ _ _ ih => ⟨rfl, ih⟩) a n

theorem spanOf_decompose (a n h : Nat) : spanOf (decompose a n h) = n := by
  refine decompose_induction (P := fun _ n l => spanOf l = n) (fun _ => rfl) (fun a n hn rest ih => ?_) a n
  have hle := (transferWidth_facts a h hn).2.2
  rw [spanOf_cons, ih]
  exact Nat.add_sub_cancel' hle

/-! ### Widths (R194 (b), (c), (d)) -/

theorem transferWidth_le (a n : Nat) {h : Nat} (hh : 1 ≤ h) : transferWidth a n h ≤ h := by
  unfold transferWidth
  split
  · omega
  · split <;> omega

theorem le_of_mem_decompose {a n h : Nat} (hh : 1 ≤ h) : ∀ p ∈ decompose a n h, p.2 ≤ h :=
  decompose_induction (P := fun _ _ l => ∀ p ∈ l, p.2 ≤ h) (fun _ _ hp => absurd hp List.not_mem_nil)
    (fun a n _ _ ih => List.forall_mem_cons.mpr ⟨transferWidth_le a n hh, ih⟩) a n

/-- The ceilings are the powers of two up to 4 (R192). -/
theorem AlignHint.exists_ceiling_eq (hint : AlignHint) : ∃ m ≤ 2, hint.ceiling = 2 ^ m := by
  cases hint with
  | byte => exact ⟨0, by decide, rfl⟩
  | halfword => exact ⟨1, by decide, rfl⟩
  | word => exact ⟨2, by decide, rfl⟩

/-- The width is the largest power of two that the ceiling, the span and the address allow (R193): `2 ^ j`, where all three
allow it and one of them does not allow the next. -/
theorem transferWidth_eq {a n j m : Nat} (hm : m ≤ 2) (hj : j ≤ m) (ha : a % 2 ^ j = 0) (hn : 2 ^ j ≤ n)
    (hmax : j = m ∨ n < 2 ^ (j + 1) ∨ a % 2 ^ (j + 1) ≠ 0) : transferWidth a n (2 ^ m) = 2 ^ j := by
  unfold transferWidth
  interval_cases m <;> interval_cases j <;> split_ifs <;> omega

/-- The widths of the sub-transfers of a span. -/
def widths (a n h : Nat) : List Nat := (decompose a n h).map Prod.snd

theorem widths_of_ne_zero {a n h w : Nat} (hn : n ≠ 0) (hw : transferWidth a n h = w) :
    widths a n h = w :: widths (a + w) (n - w) h := by
  subst hw
  unfold widths
  rw [decompose_of_ne_zero a h hn]
  rfl

/-- Short of the next multiple of an aligned address the widths fall: at most one of each power of two below. -/
theorem widths_tail {m : Nat} (hm : m ≤ 2) {j a n : Nat} (hj : j ≤ m) (ha : a % 2 ^ j = 0) (hn : n < 2 ^ j) :
    (∀ w ∈ widths a n (2 ^ m), w < 2 ^ j) ∧ (widths a n (2 ^ m)).Pairwise (· > ·) ∧ (widths a n (2 ^ m)).length ≤ j := by
  induction j generalizing a n with
  | zero =>
    obtain rfl : n = 0 := by omega
    simp [widths]
  | succ j ih =>
    have hpow : 2 ^ (j + 1) = 2 ^ j * 2 := Nat.pow_succ 2 j
    have ha' : a % 2 ^ j = 0 := Nat.mod_eq_zero_of_dvd (Dvd.dvd.trans ⟨2, hpow⟩ (Nat.dvd_of_mod_eq_zero ha))
    by_cases hfits : 2 ^ j ≤ n
    · have hpos : 0 < 2 ^ j := Nat.two_pow_pos j
      rw [widths_of_ne_zero (by omega) (transferWidth_eq hm (by omega) ha' hfits (.inr (.inl hn)))]
      obtain ⟨hlt, hfall, hlen⟩ := ih (a := a + 2 ^ j) (n := n - 2 ^ j) (by omega) (by simpa using ha') (by omega)
      refine ⟨List.forall_mem_cons.mpr ⟨by omega, fun w hw => ?_⟩, List.pairwise_cons.mpr ⟨hlt, hfall⟩,
        by simpa using hlen⟩
      exact (hlt w hw).trans (by omega)
    · obtain ⟨hlt, hfall, hlen⟩ := ih (a := a) (n := n) (by omega) ha' (by omega)
      exact ⟨fun w hw => (hlt w hw).trans (by omega), hfall, by omega⟩

/-- From an address aligned to the ceiling on, the ceiling's width is taken as often as it fits. -/
theorem widths_run {m : Nat} (hm : m ≤ 2) (q r : Nat) {a : Nat} (ha : a % 2 ^ m = 0) :
    widths a (2 ^ m * q + r) (2 ^ m) = List.replicate q (2 ^ m) ++ widths (a + 2 ^ m * q) r (2 ^ m) := by
  have hpos : 0 < 2 ^ m := Nat.two_pow_pos m
  induction q generalizing a with
  | zero => simp
  | succ q ih =>
    have hspan : 2 ^ m * (q + 1) + r = 2 ^ m + (2 ^ m * q + r) := by rw [Nat.mul_succ]; omega
    rw [hspan, widths_of_ne_zero (by omega) (transferWidth_eq hm le_rfl ha (by omega) (.inl rfl)), Nat.add_sub_cancel_left,
      ih (by simpa using ha), List.replicate_succ, Nat.mul_succ, Nat.add_assoc, Nat.add_comm (2 ^ m) (2 ^ m * q)]
    rfl

/-- The form R194 (c) gives the widths of a span under the ceiling `2 ^ m`, for a lead that begins at `2 ^ j` or above. -/
structure LeadRunTail (m j : Nat) (ws lead run tail : List Nat) : Prop where
  eq : ws = lead ++ run ++ tail
  lead_range : ∀ w ∈ lead, 2 ^ j ≤ w ∧ w < 2 ^ m
  lead_grows : lead.Pairwise (· < ·)
  lead_length : lead.length + j ≤ m
  run_eq : ∀ w ∈ run, w = 2 ^ m
  tail_lt : ∀ w ∈ tail, w < 2 ^ m
  tail_shrinks : tail.Pairwise (· > ·)
  tail_length : tail.length ≤ m

/-- Past a transfer of a width, an address aligned to that width only is aligned to twice the width. -/
theorem add_mod_double {a j : Nat} (h : a % 2 ^ j = 0) (h' : a % 2 ^ (j + 1) ≠ 0) : (a + 2 ^ j) % 2 ^ (j + 1) = 0 := by
  obtain ⟨q, rfl⟩ := Nat.dvd_of_mod_eq_zero h
  rw [Nat.pow_succ, Nat.mul_mod_mul_left] at h'
  have hq : (q + 1) % 2 = 0 := by
    have hodd : q % 2 ≠ 0 := fun h0 => h' (by rw [h0, Nat.mul_zero])
    omega
  rw [Nat.pow_succ, ← Nat.mul_succ, Nat.mul_mod_mul_left, Nat.succ_eq_add_one, hq, Nat.mul_zero]

/-- From an address aligned to `2 ^ j` on: the lead aligns it further until the ceiling is reached or the span ends. -/
theorem exists_leadRunTail {m : Nat} (hm : m ≤ 2) {j a n : Nat} (hj : j ≤ m) (ha : a % 2 ^ j = 0) :
    ∃ lead run tail, LeadRunTail m j (widths a n (2 ^ m)) lead run tail := by
  induction hd : m - j generalizing j a n with
  | zero =>
    obtain rfl : j = m := by omega
    have hrun := widths_run hm (n / 2 ^ j) (n % 2 ^ j) ha
    obtain ⟨hlt, hfall, hlen⟩ := widths_tail hm (a := a + 2 ^ j * (n / 2 ^ j)) le_rfl (by simpa using ha)
      (Nat.mod_lt n (Nat.two_pow_pos j))
    rw [Nat.div_add_mod] at hrun
    exact ⟨[], _, _, hrun, by simp, .nil, by simp, fun w hw => List.eq_of_mem_replicate hw, hlt, hfall, hlen⟩
  | succ d ih =>
    have hpow : 2 ^ (j + 1) = 2 ^ j * 2 := Nat.pow_succ 2 j
    have hpos : 0 < 2 ^ j := Nat.two_pow_pos j
    by_cases halign : a % 2 ^ (j + 1) = 0
    · obtain ⟨lead, run, tail, h⟩ := ih (n := n) (by omega) halign (by omega)
      exact ⟨lead, run, tail, { h with
        lead_range := fun w hw => ⟨(by omega : 2 ^ j ≤ 2 ^ (j + 1)).trans (h.lead_range w hw).1, (h.lead_range w hw).2⟩
        lead_length := (by omega : lead.length + j ≤ lead.length + (j + 1)).trans h.lead_length }⟩
    · by_cases hfits : 2 ^ j ≤ n
      · have hnext : (a + 2 ^ j) % 2 ^ (j + 1) = 0 := add_mod_double ha halign
        obtain ⟨lead, run, tail, h⟩ := ih (n := n - 2 ^ j) (by omega) hnext (by omega)
        have hbelow : 2 ^ (j + 1) ≤ 2 ^ m := Nat.pow_le_pow_right (by decide) (by omega)
        refine ⟨2 ^ j :: lead, run, tail, { h with eq := ?_, lead_range := ?_, lead_grows := ?_, lead_length := ?_ }⟩
        · rw [widths_of_ne_zero (by omega) (transferWidth_eq hm hj ha hfits (.inr (.inr halign))), h.eq]
          rfl
        · refine List.forall_mem_cons.mpr ⟨⟨le_rfl, by omega⟩, fun w hw => ?_⟩
          obtain ⟨hlow, hhigh⟩ := h.lead_range w hw
          exact ⟨by omega, hhigh⟩
        · refine List.pairwise_cons.mpr ⟨fun w hw => ?_, h.lead_grows⟩
          obtain ⟨hlow, _⟩ := h.lead_range w hw
          show 2 ^ j < w
          omega
        · have := h.lead_length
          simp only [List.length_cons]
          omega
      · obtain ⟨hlt, hfall, hlen⟩ := widths_tail hm hj ha (by omega : n < 2 ^ j)
        have hbelow : 2 ^ j ≤ 2 ^ m := Nat.pow_le_pow_right (by decide) hj
        exact ⟨[], [], _, rfl, by simp, .nil, by simpa using hj, by simp, fun w hw => (hlt w hw).trans_le hbelow, hfall,
          hlen.trans hj⟩

/-- The run is no longer than the span allows, and lead and tail no longer than there are widths below the ceiling (R194 (d)). -/
theorem LeadRunTail.length_le {m j : Nat} {ws lead run tail : List Nat} (h : LeadRunTail m j ws lead run tail) :
    ws.length ≤ ws.sum / 2 ^ m + 2 * m := by
  have hrun : run.length * 2 ^ m ≤ ws.sum := by
    rw [h.eq, List.eq_replicate_of_mem h.run_eq]
    simp only [List.sum_append, List.sum_replicate, List.length_replicate, smul_eq_mul]
    omega
  have hrun := (Nat.le_div_iff_mul_le (Nat.two_pow_pos m)).mpr hrun
  have hlead := h.lead_length
  have htail := h.tail_length
  rw [h.eq]
  rw [h.eq] at hrun
  simp only [List.length_append]
  omega

/-- The number of sub-transfers of a span (R194 (d)). -/
theorem length_decompose_le {m : Nat} (hm : m ≤ 2) (a n : Nat) : (decompose a n (2 ^ m)).length ≤ n / 2 ^ m + 2 * m := by
  obtain ⟨_, _, _, hform⟩ := exists_leadRunTail hm (a := a) (n := n) (Nat.zero_le m) (Nat.mod_one a)
  have hcount := hform.length_le
  rwa [show (widths a n (2 ^ m)).sum = n from spanOf_decompose a n _, widths, List.length_map] at hcount

/-- Under the ceiling of one byte there is a sub-transfer for every byte. -/
theorem length_decompose_one (a n : Nat) : (decompose a n 1).length = n := by
  refine decompose_induction (P := fun _ n l => l.length = n) (fun _ => rfl) (fun a n hn rest ih => ?_) a n
  have hwidth : transferWidth a n 1 = 1 := transferWidth_eq (m := 0) (by omega) le_rfl (Nat.mod_one a) (by omega) (.inl rfl)
  rw [hwidth] at ih
  rw [List.length_cons, ih]
  omega

/-- Settles O28: the span is covered as `AdjacentFrom` and `spanOf` say, and the form of the widths bounds their number. -/
theorem decomposeProperties : Obligations.DecomposeProperties := by
  intro a n hint h l
  have hmem : ∀ p ∈ l, (p.2 = 1 ∨ p.2 = 2 ∨ p.2 = 4) ∧ p.1 % p.2 = 0 ∧ p.2 ≤ h := fun p hp => by
    obtain ⟨hwidth, halign, _⟩ := mem_decomposeLoop hp
    exact ⟨hwidth, halign, le_of_mem_decompose (by cases hint <;> decide) p hp⟩
  obtain ⟨m, hm, hceiling⟩ := hint.exists_ceiling_eq
  obtain ⟨lead, run, tail, hform⟩ := exists_leadRunTail hm (a := a) (n := n) (Nat.zero_le m) (Nat.mod_one a)
  have hlead : ∀ w ∈ lead, w < 2 ^ m := fun w hw => (hform.lead_range w hw).2
  have hrun := hform.run_eq
  have htail := hform.tail_lt
  have hwidths := hform.eq
  rw [← hceiling] at hlead hrun htail hwidths
  refine ⟨spanOf_decompose a n h, fun k hk => ((adjacentFrom_decompose a n h).split hk).2, hmem,
    ⟨lead, run, tail, hwidths, hlead, hrun, htail, hform.lead_grows, hform.tail_shrinks⟩, fun h4 => ?_, fun h2 => ?_,
    fun h1 => ?_⟩
  · show (decompose a n h).length ≤ n / 4 + 4
    rw [h4]
    exact length_decompose_le le_rfl a n
  · show (decompose a n h).length ≤ n / 2 + 2
    rw [h2]
    exact length_decompose_le (m := 1) (by decide) a n
  · show (decompose a n h).length = n
    rw [h1]
    exact length_decompose_one a n

end Sys2Proof.Machine
end

section
/-! SUPPORT. The lines that cache maintenance cleans (42_memory_access.md R199). -/

namespace Sys2Proof.Machine

/-- Clearing the low bits of an address takes it down to the multiple of a power of two at or below it. -/
theorem toNat_and_not_lowBits (a : Word) (k : Nat) :
    (a &&& ~~~(BitVec.ofNat 32 (2 ^ k - 1))).toNat = a.toNat / 2 ^ k * 2 ^ k := by
  have hbits : a &&& ~~~(BitVec.ofNat 32 (2 ^ k - 1)) = (a >>> k) <<< k := by
    apply BitVec.eq_of_getLsbD_eq
    intro i hi
    simp only [BitVec.getLsbD_and, BitVec.getLsbD_not, BitVec.getLsbD_ofNat, Nat.testBit_two_pow_sub_one, hi, decide_true,
      Bool.true_and, BitVec.getLsbD_shiftLeft, BitVec.getLsbD_ushiftRight]
    by_cases hik : i < k
    · simp [hik]
    · simp [hik, Nat.add_sub_cancel' (Nat.le_of_not_lt hik)]
  have hle : a.toNat / 2 ^ k * 2 ^ k < 2 ^ 32 := (Nat.div_mul_le_self _ _).trans_lt a.isLt
  rw [hbits, BitVec.toNat_shiftLeft, BitVec.toNat_ushiftRight, Nat.shiftRight_eq_div_pow, Nat.shiftLeft_eq,
    Nat.mod_eq_of_lt hle]

section
variable {line : Nat}

/-- The loop's lines: those a whole number of lines above the first, while below the end (R199 step 2). -/
theorem mem_cleanLoop (hline : 0 < line) {fuel first stop l : Nat} (hfuel : stop ≤ first + fuel) :
    l ∈ cleanLoop line fuel first stop ↔ l < stop ∧ ∃ k, l = first + line * k := by
  induction fuel generalizing first with
  | zero =>
    refine ⟨fun h => absurd h List.not_mem_nil, ?_⟩
    rintro ⟨hlt, k, rfl⟩
    omega
  | succ fuel ih =>
    unfold cleanLoop
    split
    next hlt =>
      rw [List.mem_cons, ih (by omega)]
      constructor
      · rintro (rfl | ⟨hl, k, rfl⟩)
        · exact ⟨hlt, 0, rfl⟩
        · exact ⟨hl, k + 1, by rw [Nat.mul_succ]; omega⟩
      · rintro ⟨hl, k, rfl⟩
        cases k with
        | zero => exact .inl rfl
        | succ k => exact .inr ⟨hl, k, by rw [Nat.mul_succ]; omega⟩
    next hge =>
      refine ⟨fun h => absurd h List.not_mem_nil, ?_⟩
      rintro ⟨hlt, k, rfl⟩
      omega

/-- Each line of the loop comes one line after the one before it (R199 step 2). -/
theorem isChain_cleanLoop (fuel first stop : Nat) :
    (cleanLoop line fuel first stop).IsChain fun l m => m = l + line := by
  induction fuel generalizing first with
  | zero => exact .nil
  | succ fuel ih =>
    unfold cleanLoop
    split
    next =>
      refine List.isChain_cons.mpr ⟨fun m hm => ?_, ih (first + line)⟩
      cases fuel with
      | zero => cases hm
      | succ fuel =>
        unfold cleanLoop at hm
        split at hm <;> cases hm
        rfl
    next => exact .nil

end

/-- The lines cleaned are the multiples of the line from the one at or below the address up to the end of the span (R199). -/
theorem mem_cleanLines {cfg : Config} (hwf : configWf cfg = true) {addr : Word} {len l : Nat} :
    l ∈ cleanLines cfg addr len ↔
      l % cfg.dcacheLine = 0 ∧ addr.toNat / cfg.dcacheLine * cfg.dcacheLine ≤ l ∧ l < addr.toNat + len := by
  obtain ⟨_, ⟨k, _, hline⟩, _⟩ := configWf_facts hwf
  have hpos : 0 < 2 ^ k := Nat.two_pow_pos k
  unfold cleanLines
  rw [hline, toNat_and_not_lowBits]
  dsimp only
  rw [mem_cleanLoop hpos (by omega)]
  constructor
  · rintro ⟨hlt, j, rfl⟩
    refine ⟨?_, Nat.le_add_right _ _, hlt⟩
    rw [Nat.add_mul_mod_self_left, Nat.mul_mod_left]
  · rintro ⟨hmod, hle, hlt⟩
    refine ⟨hlt, l / 2 ^ k - addr.toNat / 2 ^ k, ?_⟩
    rw [Nat.mul_comm _ (2 ^ k)] at hle ⊢
    rw [Nat.mul_sub, Nat.mul_div_cancel' (Nat.dvd_of_mod_eq_zero hmod)]
    omega

/-- Settles O32: the lines are those of `mem_cleanLines`, and a line holds a byte of the span if it is one of them. -/
theorem cacheMaintenanceCoversTheSpan : Obligations.CacheMaintenanceCoversTheSpan := by
  intro cfg addr len hwf hlen hspan
  obtain ⟨_, ⟨k, _, hline⟩, _⟩ := configWf_facts hwf
  have hpos : 0 < cfg.dcacheLine := hline ▸ Nat.two_pow_pos k
  refine ⟨rfl, fun l hl => ?_, isChain_cleanLoop _ _ _, fun b hlow hhigh => ?_⟩
  · obtain ⟨hmod, hle, hlt⟩ := (mem_cleanLines hwf).mp hl
    have hbelow := Nat.lt_div_mul_add (a := addr.toNat) hpos
    exact ⟨hmod, by omega, hlt⟩
  · have hbelow := Nat.div_mul_le_self b cfg.dcacheLine
    exact (mem_cleanLines hwf).mpr ⟨Nat.mul_mod_left _ _,
      Nat.mul_le_mul_right _ (Nat.div_le_div_right hlow), by omega⟩

end Sys2Proof.Machine
end

section
/-! SUPPORT. RDMEM and WRMEM whose transactions the port answers (42_memory_access.md R195 to R199): their entries in the trace,
and what they read from and leave in plain memory where the target does nothing on its own. -/

namespace Sys2Proof.Machine

/-! ### The state after transactions -/

/-- Transactions have been issued and answered: the target they left, and their entries of the trace (R19). -/
def State.afterEntries (s : State) (target : Target) (es : List TraceEntry) : State :=
  { s with target := target, trace := s.trace ++ es, tick := s.tick + es.length }

section
variable (s : State) (t u : Target) (es fs : List TraceEntry)

theorem State.afterEntries_nil : s.afterEntries s.target [] = s := by simp [State.afterEntries]

theorem State.afterEntries_cons (e : TraceEntry) :
    (s.afterTransaction t e).afterEntries u es = s.afterEntries u (e :: es) := by
  simp only [State.afterEntries, State.afterTransaction, List.append_assoc, List.singleton_append, List.length_cons,
    Nat.add_assoc, Nat.add_comm 1]

theorem State.afterEntries_append : (s.afterEntries t es).afterEntries u fs = s.afterEntries u (es ++ fs) := by
  simp [State.afterEntries, Nat.add_assoc]

theorem later_afterEntries {k : Nat} (hk : es.length = k) : Later k s (s.afterEntries t es) := ⟨rfl, rfl, congrArg _ hk⟩

end

/-! ### Plain memory through the port (R60, R104) -/

section
variable {cfg : Config} {a : Word} (h : plainAddress cfg a) (t : Target) (noise : Word)
include h

theorem Target.read_plain (n : Nat) : t.read cfg noise a n = (t.mem.readBytes a.toNat n, t) := by
  obtain ⟨hmap, hwindow⟩ := h
  simp [Target.read, hmap, hwindow]

theorem Target.write_plain (bs : List Byte) : t.write cfg noise a bs = { t with mem := t.mem.writeBytes a.toNat bs } := by
  obtain ⟨hmap, hwindow⟩ := h
  simp [Target.write, hmap, hwindow]

end

/-- Every sub-transfer begins at an address of plain memory. -/
def PlainTransfers (cfg : Config) (l : List (Nat × Nat)) : Prop :=
  ∀ p ∈ l, p.1 < 2 ^ 32 ∧ plainAddress cfg (BitVec.ofNat 32 p.1)

/-- The sub-transfers of a span of plain memory. -/
theorem plainTransfers_decompose {cfg : Config} {addr : Word} {n : Nat} (hspan : addr.toNat + n ≤ 2 ^ 32)
    (hplain : ∀ k, k < n → plainAddress cfg (addr + BitVec.ofNat 32 k)) (h : Nat) :
    PlainTransfers cfg (decompose addr.toNat n h) := by
  intro p hp
  obtain ⟨hwidth, _, hlow, hhigh⟩ := mem_decomposeLoop hp
  have haddr : addr + BitVec.ofNat 32 (p.1 - addr.toNat) = BitVec.ofNat 32 p.1 := by
    apply BitVec.eq_of_toNat_eq
    rw [BitVec.toNat_add, BitVec.toNat_ofNat, BitVec.toNat_ofNat, Nat.add_mod_mod, Nat.add_sub_cancel' hlow]
  exact ⟨by omega, haddr ▸ hplain (p.1 - addr.toNat) (by omega)⟩

/-! ### Spans in memory -/

theorem Memory.writeBytes_append (m : Memory) (a : Nat) (bs cs : List Byte) :
    m.writeBytes a (bs ++ cs) = (m.writeBytes a bs).writeBytes (a + bs.length) cs := by
  induction bs generalizing m a with
  | nil => rfl
  | cons b bs ih =>
    rw [List.cons_append, Memory.writeBytes, ih, Memory.writeBytes, List.length_cons, Nat.add_assoc, Nat.add_comm 1]

theorem Memory.readBytes_add (m : Memory) (a n k : Nat) :
    m.readBytes a (n + k) = m.readBytes a n ++ m.readBytes (a + n) k := by
  induction n generalizing a with
  | zero => simp [Memory.readBytes]
  | succ n ih => rw [Nat.succ_add, Memory.readBytes, ih, Memory.readBytes, List.cons_append, Nat.add_assoc, Nat.add_comm 1]

/-- Bytes stored read back (R200 (g)). -/
theorem Memory.readBytes_writeBytes {m : Memory} (hm : m.wf = true) {a : Nat} {bs : List Byte}
    (ha : a + bs.length ≤ 2 ^ 32) : (m.writeBytes a bs).readBytes a bs.length = bs := by
  refine List.ext_getElem (Memory.length_readBytes _ _ _) fun k hk hk' => ?_
  have hread := (Memory.getD_readBytes (m.writeBytes a bs) a bs.length hk').trans
    (Memory.read_writeBytes_inside hm bs hk' ha)
  rwa [List.getD_eq_getElem _ _ hk, List.getD_eq_getElem _ _ hk'] at hread

/-- The memory after the sub-transfers of a write, `(x, w)` with the span bytes `x - base .. x - base + w - 1` (R195). -/
def Memory.storeTransfers (base : Nat) (bytes : List Byte) (m : Memory) (l : List (Nat × Nat)) : Memory :=
  l.foldl (fun m p => m.writeBytes p.1 ((bytes.drop (p.1 - base)).take p.2)) m

/-- Adjacent sub-transfers store the bytes of the span from the first address on. -/
theorem Memory.storeTransfers_of_adjacent (m : Memory) {base a : Nat} {bytes : List Byte} {l : List (Nat × Nat)}
    (h : AdjacentFrom a l) (hbase : base ≤ a) (hlen : a - base + spanOf l ≤ bytes.length) :
    m.storeTransfers base bytes l = m.writeBytes a ((bytes.drop (a - base)).take (spanOf l)) := by
  induction l generalizing m a with
  | nil => rfl
  | cons p l ih =>
    obtain ⟨x, w⟩ := p
    obtain ⟨rfl, hl⟩ := h
    simp only [spanOf_cons] at hlen ⊢
    have htake : ((bytes.drop (x - base)).take w).length = w := by
      rw [List.length_take, List.length_drop]; omega
    rw [List.take_add, Memory.writeBytes_append, htake, List.drop_drop, ← Nat.sub_add_comm hbase]
    exact ih _ hl (by omega) (by omega)

/-- The first sub-transfers of a span store the bytes up to where the next one begins. -/
theorem Memory.storeTransfers_of_append (m : Memory) {a n h : Nat} {bytes : List Byte} {l rest : List (Nat × Nat)}
    (hbytes : bytes.length = n) (hl : decompose a n h = l ++ rest) :
    m.storeTransfers a bytes l = m.writeBytes a (bytes.take (spanOf l)) := by
  have hadjacent := adjacentFrom_decompose a n h
  have hspan := spanOf_decompose a n h
  rw [hl, adjacentFrom_append] at hadjacent
  rw [hl, spanOf_append] at hspan
  rw [Memory.storeTransfers_of_adjacent m hadjacent.1 le_rfl (by omega), Nat.sub_self, List.drop_zero]

/-- The bytes that the sub-transfers of a read deliver, joined (R196). -/
def Memory.loadTransfers (m : Memory) (l : List (Nat × Nat)) : List Byte := l.flatMap fun p => m.readBytes p.1 p.2

/-- Adjacent sub-transfers deliver the bytes of the span. -/
theorem Memory.loadTransfers_of_adjacent (m : Memory) {a : Nat} {l : List (Nat × Nat)} (h : AdjacentFrom a l) :
    m.loadTransfers l = m.readBytes a (spanOf l) := by
  induction l generalizing a with
  | nil => rfl
  | cons p l ih =>
    obtain ⟨rfl, hl⟩ := h
    rw [spanOf_cons, Memory.readBytes_add, ← ih hl]
    rfl

/-! ### Sub-transfers that the port answers -/

section
variable {s : State} (hb : s.cfg.backendPresent = true) (ho : s.choice.outcome = .answered) (a : Word)
include hb ho

theorem memRead_answered (n : Nat) :
    memRead a n s = .ok ((s.target.events s.cfg s.choice.events).read s.cfg s.choice.noise a n).1
      (s.afterTransaction ((s.target.events s.cfg s.choice.events).read s.cfg s.choice.noise a n).2
        (.memRead a n (.ok ((s.target.events s.cfg s.choice.events).read s.cfg s.choice.noise a n).1))) := by
  rw [memRead_run, portReadBlock_answered hb ho]

theorem memWrite_answered (bs : List Byte) :
    memWrite a bs s = .ok () (s.afterTransaction
      ((s.target.events s.cfg s.choice.events).write s.cfg s.choice.noise a bs) (.memWrite a bs (.ok ()))) := by
  rw [memWrite_run, portWriteBlock_answered hb ho]

omit ho in
/-- A sub-transfer that fails may have been taken by the target all the same (R68, R198, U2). -/
theorem memWrite_failed {f : PortFailure} {reached : Bool} (ho : s.choice.outcome = .failed f reached) (bs : List Byte) :
    memWrite a bs s = .error (.memoryAccessFault a) (s.afterTransaction
      (if reached then (s.target.events s.cfg s.choice.events).write s.cfg s.choice.noise a bs
        else s.target.events s.cfg s.choice.events) (.memWrite a bs (.fail f))) := by
  rw [memWrite_run, show portWriteBlock a bs s = _ from transact_failed hb ho]

theorem wr32_answered (v : Word) :
    wr32 a v s = .ok () (s.afterTransaction
      ((s.target.events s.cfg s.choice.events).write s.cfg s.choice.noise a (bytesOfWord v)) (.wr32 a v (.ok ()))) := by
  rw [wr32_run, portWrite32_answered hb ho]

end

/-- Sub-transfers of a read that are all answered: each is in the trace with its bytes, and on a quiet target they are those of
memory, which stays (R196). -/
theorem readTransfers_answered {l : List (Nat × Nat)} {s : State} (ha : s.answersFor l.length)
    (hl : ∀ p ∈ l, NaturallyAligned (BitVec.ofNat 32 p.1) p.2) :
    ∃ target es, readTransfers l s = .ok (es.flatMap TraceEntry.dataRead) (s.afterEntries target es)
      ∧ es.map TraceEntry.transfer = l.map (fun p => some (BitVec.ofNat 32 p.1, p.2))
      ∧ (es.flatMap TraceEntry.dataRead).length = spanOf l
      ∧ (s.quietFor l.length → PlainTransfers s.cfg l →
        target = s.target ∧ es.flatMap TraceEntry.dataRead = s.target.mem.loadTransfers l) := by
  induction l generalizing s with
  | nil => exact ⟨s.target, [], by rw [State.afterEntries_nil]; rfl, rfl, rfl, fun _ _ => ⟨rfl, rfl⟩⟩
  | cons p l ih =>
    obtain ⟨x, w⟩ := p
    obtain ⟨hfirst, hrest⟩ := List.forall_mem_cons.mp hl
    obtain ⟨hb, ho⟩ := ha.head (Nat.succ_pos _)
    have hread := memRead_answered hb ho (BitVec.ofNat 32 x) w
    have hlength : ((s.target.events s.cfg s.choice.events).read s.cfg s.choice.noise (BitVec.ofNat 32 x) w).1.length = w :=
      Target.length_read _ _ _ hfirst.1 hfirst.2
    have hquiet : s.quietFor (l.length + 1) → PlainTransfers s.cfg ((x, w) :: l) →
        (s.target.events s.cfg s.choice.events).read s.cfg s.choice.noise (BitVec.ofNat 32 x) w
          = (s.target.mem.readBytes x w, s.target) := fun hq hp => by
      obtain ⟨hx, hplain⟩ := hp (x, w) List.mem_cons_self
      rw [hq.head (Nat.succ_pos _), Target.read_plain hplain, BitVec.toNat_ofNat, Nat.mod_eq_of_lt hx]
      rfl
    generalize (s.target.events s.cfg s.choice.events).read s.cfg s.choice.noise (BitVec.ofNat 32 x) w = r at *
    obtain ⟨bs, t⟩ := r
    obtain ⟨target, es, hrun, hes, hlen, hmem⟩ := ih (ha.next t (.memRead (BitVec.ofNat 32 x) w (.ok bs))) hrest
    refine ⟨target, .memRead (BitVec.ofNat 32 x) w (.ok bs) :: es, ?_, ?_, ?_, fun hq hp => ?_⟩
    · rw [readTransfers_cons, hread]
      dsimp only
      rw [hrun, State.afterEntries_cons]
      rfl
    · exact congrArg (some (BitVec.ofNat 32 x, w) :: ·) hes
    · rw [List.flatMap_cons, List.length_append, hlen, spanOf_cons]
      exact congrArg (· + spanOf l) hlength
    · obtain ⟨rfl, rfl⟩ := Prod.mk.inj (hquiet hq hp)
      obtain ⟨rfl, hdata⟩ := hmem (hq.next _ _) fun q hq' => hp q (List.mem_cons_of_mem _ hq')
      exact ⟨rfl, congrArg (_ ++ ·) hdata⟩

/-- Sub-transfers of a write that are all answered: each is in the trace with its bytes, and on a quiet target memory has them
(R195, R197). -/
theorem writeTransfers_answered (base : Nat) (bytes : List Byte) {l : List (Nat × Nat)} {s : State}
    (ha : s.answersFor l.length) :
    ∃ target, writeTransfers base bytes l s = .ok () (s.afterEntries target (storeEntries base bytes l))
      ∧ (s.quietFor l.length → PlainTransfers s.cfg l →
        target = { s.target with mem := s.target.mem.storeTransfers base bytes l }) := by
  induction l generalizing s with
  | nil => exact ⟨s.target, by rw [show storeEntries base bytes [] = [] from rfl, State.afterEntries_nil]; rfl,
      fun _ _ => rfl⟩
  | cons p l ih =>
    obtain ⟨x, w⟩ := p
    obtain ⟨hb, ho⟩ := ha.head (Nat.succ_pos _)
    obtain ⟨target, hrun, hmem⟩ := ih (ha.next _ _)
    refine ⟨target, ?_, fun hq hp => ?_⟩
    · rw [writeTransfers_cons, memWrite_answered hb ho]
      exact hrun.trans (congrArg _ (State.afterEntries_cons ..))
    · obtain ⟨hx, hplain⟩ := hp (x, w) List.mem_cons_self
      have hstored := hmem (hq.next _ _) fun q hq' => hp q (List.mem_cons_of_mem _ hq')
      rw [hstored, State.afterTransaction_target, hq.head (Nat.succ_pos _), Target.write_plain hplain, BitVec.toNat_ofNat,
        Nat.mod_eq_of_lt hx]
      rfl

theorem writeTransfers_append (base : Nat) (bytes : List Byte) (l rest : List (Nat × Nat)) (s : State) :
    writeTransfers base bytes (l ++ rest) s
      = (writeTransfers base bytes l >>= fun _ => writeTransfers base bytes rest) s := by
  rw [Cmd.bind_run]
  induction l generalizing s with
  | nil => rfl
  | cons p l ih =>
    rw [List.cons_append, writeTransfers_cons, writeTransfers_cons]
    cases memWrite (BitVec.ofNat 32 p.1) ((bytes.drop (p.1 - base)).take p.2) s with
    | ok _ t => exact ih t
    | error e t => rfl

/-- Sub-transfers of a write to plain memory of a quiet target, of which the one after `l` fails: outside its own
bytes memory is as those in `l` leave it (R198, U2). -/
theorem writeTransfers_failed (base : Nat) (bytes : List Byte) {transfers l rest : List (Nat × Nat)} {p : Nat × Nat} {s : State}
    {f : PortFailure} {reached : Bool} (hsplit : transfers = l ++ p :: rest) (ha : s.answersFor l.length)
    (hq : s.quietFor (l.length + 1)) (ho : (s.choiceAt l.length).outcome = .failed f reached)
    (hp : PlainTransfers s.cfg transfers) :
    ∃ u, writeTransfers base bytes transfers s = .error (.memoryAccessFault (BitVec.ofNat 32 p.1)) u
      ∧ ∀ y, (y < p.1 ∨ p.1 + p.2 ≤ y) → u.target.mem.read y = (s.target.mem.storeTransfers base bytes l).read y := by
  subst hsplit
  obtain ⟨x, w⟩ := p
  obtain ⟨target, hrun, hmem⟩ := writeTransfers_answered base bytes ha
  have htarget := hmem (hq.mono (Nat.le_succ _)) fun p hp' => hp p (List.mem_append_left _ hp')
  have hlater := later_afterEntries s target (storeEntries base bytes l) (List.length_map _)
  have hall := (writeTransfers_append base bytes l ((x, w) :: rest) s).trans (Cmd.bind_of_ok _ hrun)
  generalize ht : s.afterEntries target (storeEntries base bytes l) = t at hlater hall
  have hfail := memWrite_failed (s := t) (hlater.cfg ▸ ha.1) (BitVec.ofNat 32 x) (hlater.choice.symm ▸ ho)
    ((bytes.drop (x - base)).take w)
  obtain ⟨(hx : x < 2 ^ 32), (hplain : plainAddress s.cfg (BitVec.ofNat 32 x))⟩ :=
    hp (x, w) (List.mem_append_right _ List.mem_cons_self)
  rw [(hlater.quietFor hq).head Nat.one_pos, hlater.cfg, Target.write_plain hplain, BitVec.toNat_ofNat,
    Nat.mod_eq_of_lt hx] at hfail
  rw [writeTransfers_cons, hfail] at hall
  refine ⟨_, hall, fun y hy => ?_⟩
  subst ht htarget
  cases reached with
  | false => rfl
  | true =>
    refine Memory.read_writeBytes_outside _ _ (hy.imp_right fun hy => ?_)
    exact (Nat.add_le_add_left (List.length_take_le w _) x).trans hy

/-! ### Cache maintenance that the port answers (R199) -/

/-- A write of one of the two cache operations (R84). -/
def CacheOperation (cfg : Config) (w : Word × Word) : Prop := w.1 = cfg.addrIciallu ∨ w.1 = cfg.addrDccmvac

theorem cacheOperation_of_mem_maintenanceOf {s : State} {code : Bool} {addr len : Word} :
    ∀ w ∈ s.maintenanceOf code addr len, CacheOperation s.cfg w := by
  intro w hw
  unfold State.maintenanceOf cacheWrites at hw
  split at hw
  · rcases List.mem_cons.mp hw with rfl | hw
    · exact .inl rfl
    · obtain ⟨l, _, rfl⟩ := List.mem_map.mp hw
      exact .inr rfl
  · cases hw

/-- A cache operation changes nothing but the instruction cache where nothing waits in the data cache (R103). -/
theorem exists_write_cacheOperation {cfg : Config} (hwf : configWf cfg = true) {t : Target} (hd : t.dcache = [])
    {w : Word × Word} (hw : CacheOperation cfg w) (noise v : Word) :
    ∃ held, t.write cfg noise w.1 (bytesOfWord v) = { t with icache := held } := by
  rcases hw with hw | hw
  · have hwrite := Target.write_reg hwf (show Reg.iciallu ∈ mapRegs by simp [mapRegs]) t noise v
    rw [hw, show cfg.addrIciallu = Reg.iciallu.address cfg from rfl, hwrite]
    simp only [Target.writeReg]
    split
    · exact ⟨[], rfl⟩
    · exact ⟨t.icache, rfl⟩
  · have hwrite := Target.write_reg hwf (show Reg.dccmvac ∈ mapRegs by simp [mapRegs]) t noise v
    rw [hw, show cfg.addrDccmvac = Reg.dccmvac.address cfg from rfl, hwrite]
    simp only [Target.writeReg, cleanLine_empty cfg hd, ite_self]
    exact ⟨t.icache, rfl⟩

/-- Register writes that are all answered are in the trace, and cache operations on a quiet target whose data cache holds
nothing change at most its instruction cache (R103, R199). -/
theorem writeAll_of_answersFor {ws : List (Word × Word)} {s : State} (ha : s.answersFor ws.length) :
    ∃ target, writeAll ws s = .ok () (s.afterEntries target (writeEntries ws))
      ∧ (s.quietFor ws.length → configWf s.cfg = true → s.target.dcache = [] → (∀ w ∈ ws, CacheOperation s.cfg w) →
        ∃ held, target = { s.target with icache := held }) := by
  induction ws generalizing s with
  | nil => exact ⟨s.target, by rw [show writeEntries [] = [] from rfl, State.afterEntries_nil]; rfl,
      fun _ _ _ _ => ⟨_, rfl⟩⟩
  | cons w ws ih =>
    obtain ⟨a, v⟩ := w
    obtain ⟨hb, ho⟩ := ha.head (Nat.succ_pos _)
    obtain ⟨target, hrun, hcache⟩ := ih (ha.next _ _)
    refine ⟨target, ?_, fun hq hwf hd hops => ?_⟩
    · refine (Cmd.bind_of_ok _ (wr32_answered hb ho a v)).trans ?_
      exact hrun.trans (congrArg _ (State.afterEntries_cons ..))
    · obtain ⟨hop, hrest⟩ := List.forall_mem_cons.mp hops
      obtain ⟨held, hfirst⟩ := exists_write_cacheOperation hwf hd hop s.choice.noise v
      have htarget : (s.target.events s.cfg s.choice.events).write s.cfg s.choice.noise a (bytesOfWord v)
          = { s.target with icache := held } := by rw [hq.head (Nat.succ_pos _)]; exact hfirst
      rw [htarget] at hcache
      exact hcache (hq.next _ _) hwf hd hrest

end Sys2Proof.Machine
end

section
/-! SUPPORT. RDMEM and WRMEM as whole commands (42_memory_access.md R195 to R200): answered, read back, and failed on the way. -/

namespace Sys2Proof.Machine

section
variable {hint : BitVec 2} {h : AlignHint} {addr len : Word} {s : State} (hready : s.ready) (hhint : hintOf hint = some h)
  (hspan : addr.toNat + len.toNat ≤ 2 ^ 32)
include hready hhint hspan

/-! ### RDMEM (R196) -/

/-- A RDMEM that is not refused makes the reads of its decomposition (R196, R268). -/
theorem cmdRdmem_run : cmdRdmem hint addr len s.accept
    = (readTransfers (decompose addr.toNat len.toNat h.ceiling) >>= fun data => pure (.data data) : Cmd Result) s.accept := by
  unfold cmdRdmem
  refine (Cmd.bind_of_ok _ (requireAttached_of_ready hready)).trans ?_
  rw [hhint, show spanTooLong addr len = false from decide_eq_false (Nat.not_lt.mpr hspan)]
  exact (Cmd.bind_of_ok _ (orRefuse_some _ h)).trans (Cmd.bind_of_ok _ (refuseIf_false _))

/-- A RDMEM whose sub-transfers are all answered (R196); on a quiet target it delivers the bytes of a plain span. -/
theorem exec_rdmem_answered (ha : s.answersFor (decompose addr.toNat len.toNat h.ceiling).length) :
    ∃ target es, exec (.rdmem hint addr len) s
        = .next ((s.accept.afterEntries target es).deliver (.ok (.data (es.flatMap TraceEntry.dataRead))))
      ∧ es.map TraceEntry.transfer = (subTransfers addr len h).map some
      ∧ (es.flatMap TraceEntry.dataRead).length = len.toNat
      ∧ (s.quietFor (decompose addr.toNat len.toNat h.ceiling).length →
        (∀ k, k < len.toNat → plainAddress s.cfg (addr + BitVec.ofNat 32 k)) →
        es.flatMap TraceEntry.dataRead = s.target.mem.readBytes addr.toNat len.toNat) := by
  obtain ⟨target, es, hrun, hes, hlen, hdata⟩ := readTransfers_answered (s := s.accept) ha
    fun p hp => naturallyAligned_of_mem_decompose hp
  refine ⟨target, es, exec_of_ok hready.2 ((cmdRdmem_run hready hhint hspan).trans (Cmd.bind_of_ok _ hrun)), ?_, ?_,
    fun hq hplain => ?_⟩
  · rw [hes, subTransfers, List.map_map]
    rfl
  · rw [hlen, spanOf_decompose]
  · rw [(hdata hq (plainTransfers_decompose hspan hplain _)).2,
      Memory.loadTransfers_of_adjacent _ (adjacentFrom_decompose _ _ _), spanOf_decompose]
    rfl

/-! ### WRMEM (R197, R199) -/

variable {code : Bool} {bytes : List Byte} (hbytes : bytes.length = len.toNat)
include hbytes

/-- A WRMEM that is not refused makes the writes of its decomposition, then those of cache maintenance (R197, R268). -/
theorem cmdWrmem_run : cmdWrmem hint code addr len bytes s.accept
    = (writeTransfers addr.toNat bytes (decompose addr.toNat len.toNat h.ceiling) >>= fun _ => get >>= fun u =>
      writeAll (u.maintenanceOf code addr len) >>= fun _ => pure .none : Cmd Result) s.accept := by
  have hrest : (fun u : State => if code && u.cachePresent && decide (0 < len.toNat) then
        (writeAll (cacheWrites u.cfg addr len.toNat) >>= fun _ => pure .none : Cmd Result)
      else pure .none) = fun u => writeAll (u.maintenanceOf code addr len) >>= fun _ => pure .none := by
    funext u
    unfold State.maintenanceOf
    split <;> rfl
  unfold cmdWrmem
  refine (Cmd.bind_of_ok _ (requireAttached_of_ready hready)).trans ?_
  rw [hhint, show spanTooLong addr len = false from decide_eq_false (Nat.not_lt.mpr hspan),
    show (bytes.length != len.toNat) = false from bne_eq_false_iff_eq.mpr hbytes]
  refine (Cmd.bind_of_ok _ (orRefuse_some _ h)).trans ?_
  refine (Cmd.bind_of_ok _ (refuseIf_false _)).trans ?_
  refine (Cmd.bind_of_ok _ (refuseIf_false _)).trans ?_
  rw [← hrest]

/-- A WRMEM whose transactions are all answered (R197, R199); on a quiet target it stores its bytes in a plain span, and else
changes at most what the instruction cache holds. -/
theorem exec_wrmem_answered (ha : s.answersFor
      ((decompose addr.toNat len.toNat h.ceiling).length + (s.maintenanceOf code addr len).length)) :
    ∃ target, exec (.wrmem hint code addr len bytes) s
        = .next ((s.accept.afterEntries target (storeEntries addr.toNat bytes (decompose addr.toNat len.toNat h.ceiling)
          ++ writeEntries (s.maintenanceOf code addr len))).deliver (.ok .none))
      ∧ (s.quietFor ((decompose addr.toNat len.toNat h.ceiling).length + (s.maintenanceOf code addr len).length) →
        configWf s.cfg = true → s.target.dcache = [] →
        (∀ k, k < len.toNat → plainAddress s.cfg (addr + BitVec.ofNat 32 k)) →
        ∃ held, target = { s.target with mem := s.target.mem.writeBytes addr.toNat bytes, icache := held }) := by
  obtain ⟨stored, hstore, hmem⟩ := writeTransfers_answered addr.toNat bytes (s := s.accept)
    (l := decompose addr.toNat len.toNat h.ceiling) (ha.mono (Nat.le_add_right _ _))
  have hlater := later_afterEntries s.accept stored
    (storeEntries addr.toNat bytes (decompose addr.toNat len.toNat h.ceiling)) (List.length_map _)
  obtain ⟨target, hmaintain, hcache⟩ := writeAll_of_answersFor (hlater.answersFor ha)
  refine ⟨target, exec_of_ok hready.2 ((cmdWrmem_run hready hhint hspan hbytes).trans ?_), fun hq hwf hd hplain => ?_⟩
  · refine (Cmd.bind_of_ok _ hstore).trans ((Cmd.bind_of_ok _ (Cmd.get_run _)).trans ?_)
    refine (Cmd.bind_of_ok _ hmaintain).trans ?_
    rw [State.afterEntries_append]
    rfl
  · have hstored := hmem (hq.mono (Nat.le_add_right _ _)) (plainTransfers_decompose hspan hplain _)
    rw [Memory.storeTransfers_of_append _ hbytes (List.append_nil _).symm, spanOf_decompose, ← hbytes,
      List.take_length] at hstored
    subst hstored
    exact hcache (hlater.quietFor hq) hwf hd cacheOperation_of_mem_maintenanceOf

/-- An answered WRMEM to a plain span of a quiet target: a ready state with the bytes stored, as many transactions later. -/
theorem exec_wrmem_quiet {n : Nat}
    (hn : (decompose addr.toNat len.toNat h.ceiling).length + (s.maintenanceOf code addr len).length = n)
    (ha : s.answersFor n) (hq : s.quietFor n) (hwf : configWf s.cfg = true) (hd : s.target.dcache = [])
    (hplain : ∀ k, k < len.toNat → plainAddress s.cfg (addr + BitVec.ofNat 32 k)) :
    ∃ t held, exec (.wrmem hint code addr len bytes) s = .next t ∧ t.responses = s.responses ++ [.ok .none] ∧ t.ready
      ∧ Later n s t ∧ t.target = { s.target with mem := s.target.mem.writeBytes addr.toNat bytes, icache := held } := by
  subst hn
  obtain ⟨_, hexec, htarget⟩ := exec_wrmem_answered hready hhint hspan hbytes ha
  obtain ⟨held, rfl⟩ := htarget hq hwf hd hplain
  refine ⟨_, held, hexec, rfl, ⟨hready.1, rfl⟩, ⟨rfl, rfl, congrArg (s.tick + ·) ?_⟩, rfl⟩
  simp [storeEntries, writeEntries]

end

/-- Settles O29: the clauses of `exec_rdmem_answered` that hold whatever the target does. -/
theorem rdmemCompletes : Obligations.RdmemCompletes := by
  intro hint h addr len s hready hhint hspan ha
  obtain ⟨target, es, hexec, hes, hlen, _⟩ := exec_rdmem_answered hready hhint hspan ha
  exact ⟨_, es, hexec, rfl, hes, rfl, hlen⟩

/-- The entries of a write's sub-transfers show the addresses and widths of the decomposition (R193, R195). -/
theorem transfer_storeEntries {addr len : Word} {bytes : List Byte} (hbytes : bytes.length = len.toNat) (h : AlignHint) :
    (storeEntries addr.toNat bytes (decompose addr.toNat len.toNat h.ceiling)).map TraceEntry.transfer
      = (subTransfers addr len h).map some := by
  unfold storeEntries subTransfers
  rw [List.map_map, List.map_map, ← hbytes]
  refine List.map_congr_left fun p hp => ?_
  show some (_, ((bytes.drop (p.1 - addr.toNat)).take p.2).length) = _
  rw [length_transferBytes hp]
  rfl

/-- Settles O30: the trace of `exec_wrmem_answered`, whose first entries are the sub-transfers. -/
theorem wrmemCompletes : Obligations.WrmemCompletes := by
  intro hint h code addr len bytes s hready hhint hspan hbytes transfers ha
  obtain ⟨target, hexec, _⟩ := exec_wrmem_answered hready hhint hspan hbytes ha
  exact ⟨_, hexec, rfl, (List.append_assoc _ _ _).symm, transfer_storeEntries hbytes h⟩

/-- Settles O33: the bytes stored read back, all others stay. -/
theorem wrmemStoresItsSpan : Obligations.WrmemStoresItsSpan := by
  intro hint h code addr len bytes s hready hwf hhint hspan hbytes n ha hq hd hm hplain
  obtain ⟨t, held, hexec, hresponses, _, _, htarget⟩ :=
    exec_wrmem_quiet hready hhint hspan hbytes rfl ha hq hwf hd hplain
  rw [← hbytes] at hspan ⊢
  refine ⟨t, hexec, hresponses, ?_⟩
  rw [htarget]
  exact ⟨fun k hk => Memory.read_writeBytes_inside hm bytes hk hspan,
    fun a ha => Memory.read_writeBytes_outside _ bytes ha, rfl, rfl⟩

/-- Settles O34: RDMEM delivers the bytes that WRMEM stored. -/
theorem writeThenReadReturnsTheBytes : Obligations.WriteThenReadReturnsTheBytes := by
  intro hint hint' h h' code addr len bytes s hready hwf hhint hhint' hspan hbytes n ha hq hd hm hplain
  obtain ⟨t, held, hwrite, hresponses, hready', hlater, htarget⟩ := exec_wrmem_quiet hready hhint hspan hbytes rfl
    (ha.mono (Nat.le_add_right _ _)) (hq.mono (Nat.le_add_right _ _)) hwf hd hplain
  obtain ⟨_, es, hread, _, _, hdata⟩ := exec_rdmem_answered hready' hhint' hspan (hlater.answersFor ha)
  have hstored : es.flatMap TraceEntry.dataRead = bytes := by
    rw [hdata (hlater.quietFor hq) (hlater.cfg ▸ hplain), htarget, ← hbytes]
    exact Memory.readBytes_writeBytes hm (hbytes ▸ hspan)
  refine ⟨t, _, hwrite, hread, ?_⟩
  rw [hstored, State.deliver_responses]
  show t.responses ++ _ = _
  rw [hresponses, List.append_assoc]
  rfl

/-- Settles O35: the sub-transfers before the failing one store the bytes up to it, and it reaches no further than its own. -/
theorem aFailedWrmemLeavesAPrefix : Obligations.AFailedWrmemLeavesAPrefix := by
  intro hint h code addr len bytes s n f reached hready _ hhint hspan hbytes hn ha hq ho hm hplain x w
  obtain ⟨hsplit, hx⟩ := (adjacentFrom_decompose addr.toNat len.toNat h.ceiling).split hn
  have hlen : ((decompose addr.toNat len.toNat h.ceiling).take n).length = n := List.length_take_of_le hn.le
  have hcover := congrArg spanOf hsplit
  rw [spanOf_decompose, spanOf_append, spanOf_cons] at hcover
  obtain ⟨u, hrun, hmem⟩ := writeTransfers_failed addr.toNat bytes (s := s.accept) hsplit (hlen.symm ▸ ha)
    (hlen.symm ▸ hq) (hlen.symm ▸ ho) (plainTransfers_decompose hspan hplain h.ceiling)
  have hexec : exec (.wrmem hint code addr len bytes) s = _ :=
    exec_of_error hready.2 ((cmdWrmem_run hready hhint hspan hbytes).trans (Cmd.bind_of_error _ hrun))
  rw [Memory.storeTransfers_of_append _ hbytes hsplit, State.accept_target] at hmem
  have htake := List.length_take_of_le (by omega : spanOf ((decompose addr.toNat len.toNat h.ceiling).take n) ≤ bytes.length)
  refine ⟨_, hexec, fun k hk => ?_, fun a ha => ?_⟩
  · have hkd : k < spanOf ((decompose addr.toNat len.toNat h.ceiling).take n) := by omega
    rw [State.deliver_target, hmem _ (.inl hk), Memory.read_writeBytes_inside hm _ (by omega) (by omega),
      List.getD_eq_getElem?_getD, List.getElem?_take_of_lt hkd, List.getD_eq_getElem?_getD]
  · rw [State.deliver_target, hmem a (by omega)]
    exact Memory.read_writeBytes_outside _ _ (by omega)

end Sys2Proof.Machine
end

section
/-! SUPPORT. The breakpoint manager's commands as whole commands (43_breakpoints.md): the two searches of the slot table,
the lazy enable, and everything SETBP and CLRBP end with. -/

namespace Sys2Proof.Machine

/-! ### Steps and commands that complete -/

/-- `Wr32` completes exactly where the port answers the write (R14). -/
theorem wr32_eq_ok_iff {a v : Word} {s t : State} : wr32 a v s = .ok () t ↔ s.writes a v t := by
  refine ⟨fun h => ?_, wr32_of_writes⟩
  cases hport : portWrite32 a v s with
  | mk answer u =>
    cases answer with
    | ok x => exact EStateM.Result.ok.inj ((wr32_of_writes hport).symm.trans h) |>.2 ▸ hport
    | fail f => exact nomatch (wr32_of_fail hport).symm.trans h

/-- A command answered with a result has completed with it (R32). -/
theorem exec_ok_inv {i : Instr} {s t : State} {r : Result} (hb : s.busy = false) (h : exec i s = .next t)
    (hr : t.responses = s.responses ++ [.ok r]) : ∃ u, commandBody i s.accept = .ok r u ∧ t = u.deliver (.ok r) := by
  have hlast : ∀ {u : State} {p : Response}, CommandOutcome i s.accept p u → t = u.deliver p → p = .ok r := by
    rintro u p ho rfl
    rw [State.deliver_responses, ho.responses] at hr
    simpa using hr
  have ho := commandBody_outcomes i s.accept
  unfold Outcomes Cmd.Ends at ho
  cases hc : commandBody i s.accept with
  | ok p u =>
    rw [hc] at ho
    have ht := Host.Outcome.next.inj (h.symm.trans (exec_of_ok hb hc))
    obtain rfl := Response.ok.inj (hlast ho ht)
    exact ⟨u, rfl, ht⟩
  | error f u =>
    rw [hc] at ho
    exact nomatch hlast ho (Host.Outcome.next.inj (h.symm.trans (exec_of_error hb hc)))

/-- An answered write of a register on a quiet target leaves the target of `writeReg` (R66, R81). -/
theorem State.writes.quiet {s t : State} {r : Reg} {v : Word} (h : s.writes (r.address s.cfg) v t)
    (hwf : configWf s.cfg = true) (ha : s.answersFor 1) (hr : r ∈ mapRegs) (hq : s.quietFor 1) :
    ∃ noise, t.target = s.target.writeReg s.cfg noise v r ∧ Later 1 s t := by
  obtain ⟨u, noise, hu, htarget, hlater⟩ := exists_quiet_writes hwf ha hr hq v
  obtain rfl : t = u := congrArg Prod.snd (Eq.trans (Eq.symm h) hu)
  exact ⟨noise, htarget, hlater⟩

/-! ### The slot table -/

section
variable {s t : State} {m : Word} {i : Nat}

theorem PortOnly.bpSlot (h : PortOnly s t) (j : Nat) : t.bpSlot j = s.bpSlot j := by
  unfold State.bpSlot; rw [h.bp]

theorem PortOnly.bpHolding (h : PortOnly s t) (m : Word) : t.bpHolding m = s.bpHolding m := by
  unfold State.bpHolding State.bpSlot; rw [h.nBp, h.bp]

theorem PortOnly.breakpointsInUse (h : PortOnly s t) : t.breakpointsInUse = s.breakpointsInUse := by
  unfold State.breakpointsInUse State.bpSlot; rw [h.nBp, h.bp]

/-- An address that no slot in use below the count has is held by none (R213 step 1). -/
theorem State.bpHolding_eq_none
    (h : ∀ j, j < s.nBp.toNat → (s.bpSlot j).inUse = true → (s.bpSlot j).codeAddress ≠ m) : s.bpHolding m = none :=
  List.find?_eq_none.mpr fun j hj => by simpa using h j (List.mem_range.mp hj)

/-- In a sound table the slot in use that has an address is the one that holds it (R26, R213 step 1). -/
theorem State.bpHolding_eq_some (hok : s.breakpointsOk) (hi : i < s.nBp.toNat) (hu : (s.bpSlot i).inUse = true)
    (hm : (s.bpSlot i).codeAddress = m) : s.bpHolding m = some i := by
  refine find_least hi (by simp [hu, hm]) fun j hj => ?_
  have hdistinct := hok.2 j i (slot_lt_cap (hj.trans hi)) (slot_lt_cap hi) hj.ne
  by_cases hused : (s.bpSlot j).inUse = true
  · simpa [hused, hm] using hdistinct hused hu
  · simp [hused]

/-- The least free slot below the count is the one SETBP finds (R213 step 2). -/
theorem State.bpFree_eq_some (hi : i < s.nBp.toNat) (hbelow : ∀ j, j < i → (s.bpSlot j).inUse = true)
    (hfree : (s.bpSlot i).inUse = false) : s.bpFree = some i :=
  find_least hi (by simp [hfree]) fun j hj => by simp [hbelow j hj]

theorem State.inUse_of_bpFree (h : s.bpFree = some i) : (s.bpSlot i).inUse = false := by
  simpa using List.find?_some h

/-- A slot marked with an address that none held is the one that holds it then (R213 step 5). -/
theorem State.bpHolding_setBp (hheld : s.bpHolding m = none) (hi : i < s.nBp.toNat) :
    (s.setBp i ⟨true, m⟩).bpHolding m = some i := by
  refine find_least hi (by simp [State.bpSlot_setBp, slot_lt_cap hi]) fun j hj => ?_
  rw [State.bpSlot_setBp, if_neg fun h => hj.ne' h.1]
  simpa using List.find?_eq_none.mp hheld j (List.mem_range.mpr (hj.trans hi))

/-- A slot written adds at most itself to those in use (R218). -/
theorem State.breakpointsInUse_setBp_le (s : State) (i : Nat) (slot : BpSlot) :
    (s.setBp i slot).breakpointsInUse ≤ s.breakpointsInUse + 1 := by
  have hsub : ((List.range s.nBp.toNat).filter fun j => ((s.setBp i slot).bpSlot j).inUse)
      ⊆ i :: (List.range s.nBp.toNat).filter fun j => (s.bpSlot j).inUse := by
    intro j hj
    obtain ⟨hlt, hused⟩ := List.mem_filter.mp hj
    rw [State.bpSlot_setBp] at hused
    by_cases hij : i = j
    · exact hij ▸ List.mem_cons_self
    · rw [if_neg fun h => hij h.1] at hused
      exact List.mem_cons_of_mem i (List.mem_filter.mpr ⟨hlt, hused⟩)
  exact ((List.nodup_range.filter _).subperm hsub).length_le

end

/-! ### The lazy enable (R213 step 3, R214) -/

section
variable {s t : State}

/-- The lazy enable completes with no transaction where the unit is on, and after its one write where it is off. -/
theorem enableFpb_eq_ok_iff : enableFpb s = .ok () t ↔
    if s.fpbOn = true then t = s else ∃ u, s.writes s.cfg.addrFpCtrl (fpbEnableWord s.cfg) u ∧ t = u.setFpbOn := by
  by_cases hon : s.fpbOn = true
  · rw [if_pos hon, enableFpb_on hon]
    exact ⟨fun h => (EStateM.Result.ok.inj h).2.symm, fun h => h ▸ rfl⟩
  · rw [if_neg hon]
    refine ⟨fun h => ?_, fun ⟨u, hw, ht⟩ => ht ▸ enableFpb_off (by simpa using hon) hw⟩
    rw [enableFpb_run_off hon] at h
    obtain ⟨_, u, hw, h⟩ := Cmd.bind_ok_inv h
    exact ⟨u, wr32_eq_ok_iff.mp hw, (EStateM.Result.ok.inj h).2.symm⟩

/-- After the lazy enable the unit is on, and nothing else of the controller has changed. -/
theorem portOnly_of_enableFpb (h : enableFpb s = .ok () t) : PortOnly s.setFpbOn t := by
  have h' := enableFpb_eq_ok_iff.mp h
  split at h'
  next hon => rw [h', setFpbOn_of_on hon]; exact PortOnly.refl s
  next =>
    obtain ⟨u, hw, rfl⟩ := h'
    exact hw.portOnly.update registerUpdate_setFpbOn

/-- On a quiet target the lazy enable leaves the comparators, with at most one transaction. -/
theorem fpComp_of_enableFpb (h : enableFpb s = .ok () t) (hwf : configWf s.cfg = true) (ha : s.answersFor 1)
    (hq : s.quietFor 1) : t.target.dbg.fpComp = s.target.dbg.fpComp ∧ ∃ k, k ≤ 1 ∧ Later k s t := by
  have h' := enableFpb_eq_ok_iff.mp h
  split at h'
  next => exact h' ▸ ⟨rfl, 0, Nat.zero_le 1, rfl, rfl, rfl⟩
  next =>
    obtain ⟨u, hw, rfl⟩ := h'
    obtain ⟨noise, htarget, hlater⟩ := State.writes.quiet (r := .fpCtrl) hw hwf ha (by simp [mapRegs]) hq
    refine ⟨?_, 1, le_rfl, hlater.cfg, hlater.env, hlater.tick⟩
    rw [State.setFpbOn_target, htarget, Target.writeReg]
    split <;> rfl

end

/-! ### SETBP (R213) -/

theorem bpWord_maskedAddress (cfg : Config) (a : Word) :
    bpWord cfg (maskedAddress cfg a) = maskedAddress cfg a ||| bitAt cfg.bitFpCompEnable true := by
  unfold bpWord maskedAddress
  rw [BitVec.and_assoc, BitVec.and_self]

section
variable {a : Word} {s t : State} {i : Nat} (hready : s.ready)
include hready

/-- An address that is held is answered at once (R213 step 1). -/
theorem exec_setbp_held {j : Nat} (hheld : s.bpHolding (maskedAddress s.cfg a) = some j) :
    exec (.setbp a) s = .next (s.deliver (.ok (.slot (BitVec.ofNat 4 j)))) := by
  have hrun : cmdSetbp a s.accept = .ok (.slot (BitVec.ofNat 4 j)) s.accept := by
    refine (attached_get_run hready _).trans ?_
    rw [show s.accept.bpHolding (maskedAddress s.accept.cfg a) = some j from hheld]
    rfl
  exact exec_of_ok (t := s.accept) hready.2 hrun

variable (hheld : s.bpHolding (maskedAddress s.cfg a) = none)
include hheld

/-- A new address in a full table fails at once (R213 step 2). -/
theorem cmdSetbp_full (hfree : s.bpFree = none) : cmdSetbp a s.accept = .error .noFreeSlot s.accept := by
  refine (attached_get_run hready _).trans ?_
  rw [show s.accept.bpHolding (maskedAddress s.accept.cfg a) = none from hheld, show s.accept.bpFree = none from hfree]
  rfl

variable (hfree : s.bpFree = some i)
include hfree

/-- What SETBP does once it has a slot for a new address (R213 steps 3 to 5). -/
theorem cmdSetbp_new : cmdSetbp a s.accept = (do
    enableFpb
    wr32 (addrFpComp s.cfg i) (maskedAddress s.cfg a ||| bitAt s.cfg.bitFpCompEnable true)
    modify (·.setBp i ⟨true, maskedAddress s.cfg a⟩)
    pure (.slot (BitVec.ofNat 4 i)) : Cmd Result) s.accept := by
  refine (attached_get_run hready _).trans ?_
  rw [show s.accept.bpHolding (maskedAddress s.accept.cfg a) = none from hheld, show s.accept.bpFree = some i from hfree]
  simp only [State.accept_cfg, bpWord_maskedAddress]

variable {s0 u : State} (henable : enableFpb s.accept = .ok () s0)
include henable

theorem exec_setbp_answered
    (hw : s0.writes (addrFpComp s.cfg i) (maskedAddress s.cfg a ||| bitAt s.cfg.bitFpCompEnable true) u) :
    exec (.setbp a) s
      = .next ((u.setBp i ⟨true, maskedAddress s.cfg a⟩).deliver (.ok (.slot (BitVec.ofNat 4 i)))) := by
  refine exec_of_ok hready.2 ((cmdSetbp_new hready hheld hfree).trans ?_)
  exact (Cmd.bind_of_ok _ henable).trans ((Cmd.bind_of_ok _ (wr32_of_writes hw)).trans rfl)

theorem exec_setbp_failed {f : PortFailure}
    (hw : portWrite32 (addrFpComp s.cfg i) (maskedAddress s.cfg a ||| bitAt s.cfg.bitFpCompEnable true) s0 = (.fail f, u)) :
    exec (.setbp a) s = .next (u.deliver (.failed f.raised)) := by
  refine exec_of_error hready.2 ((cmdSetbp_new hready hheld hfree).trans ?_)
  exact (Cmd.bind_of_ok _ henable).trans (Cmd.bind_of_error _ (wr32_of_fail hw))

end

/-- SETBP of an address that is held, right after another command has been answered (R213 step 1, R32). -/
theorem exec_setbp_again {a : Word} {s : State} {j : Nat} (r : Response) (hattached : s.attached = true)
    (hheld : s.bpHolding (maskedAddress s.cfg a) = some j) :
    exec (.setbp a) (s.deliver r) = .next ((s.deliver r).deliver (.ok (.slot (BitVec.ofNat 4 j)))) :=
  exec_setbp_held (s := s.deliver r) ⟨hattached, rfl⟩ hheld

/-- Everything a SETBP that succeeds can have done: it found the slot that holds the address, or it enabled the unit, wrote
the comparator of the least free slot and marked the slot (R213). -/
theorem exec_setbp_ok_cases {a : Word} {s t : State} {r : Result} (hready : s.ready) (h : exec (.setbp a) s = .next t)
    (hr : t.responses = s.responses ++ [.ok r]) :
    (∃ j, s.bpHolding (maskedAddress s.cfg a) = some j ∧ r = .slot (BitVec.ofNat 4 j) ∧ t = s.deliver (.ok r)) ∨
    (∃ i s0 u, s.bpHolding (maskedAddress s.cfg a) = none ∧ s.bpFree = some i ∧ r = .slot (BitVec.ofNat 4 i) ∧
      enableFpb s.accept = .ok () s0 ∧
      s0.writes (addrFpComp s.cfg i) (maskedAddress s.cfg a ||| bitAt s.cfg.bitFpCompEnable true) u ∧
      t = (u.setBp i ⟨true, maskedAddress s.cfg a⟩).deliver (.ok r)) := by
  obtain ⟨v, hbody, rfl⟩ := exec_ok_inv hready.2 h hr
  change cmdSetbp a s.accept = _ at hbody
  cases hheld : s.bpHolding (maskedAddress s.cfg a) with
  | some j =>
    have ht := Host.Outcome.next.inj (h.symm.trans (exec_setbp_held hready hheld))
    have hres : r = .slot (BitVec.ofNat 4 j) := by simpa [ht] using hr.symm
    exact .inl ⟨j, rfl, hres, hres ▸ ht⟩
  | none =>
    cases hfree : s.bpFree with
    | none => exact nomatch hbody.symm.trans (cmdSetbp_full hready hheld hfree)
    | some i =>
      rw [cmdSetbp_new hready hheld hfree] at hbody
      obtain ⟨_, s0, henable, hbody⟩ := Cmd.bind_ok_inv hbody
      obtain ⟨_, u, hwrite, hbody⟩ := Cmd.bind_ok_inv hbody
      obtain ⟨hres, hv⟩ := EStateM.Result.ok.inj hbody
      exact .inr ⟨i, s0, u, rfl, rfl, hres.symm, henable, wr32_eq_ok_iff.mp hwrite, hv ▸ rfl⟩

/-- Settles O37: the slot found is the least free one; the enable and the comparator's write leave the slot table to the last
step. -/
theorem setbpOfANewAddress : Obligations.SetbpOfANewAddress := by
  intro a s s0 i hready hi m hnew hbelow hunused hlazy
  have hheld : s.bpHolding m = none := State.bpHolding_eq_none hnew
  have hfree : s.bpFree = some i := State.bpFree_eq_some hi hbelow hunused
  have henable : enableFpb s.accept = .ok () s0 := enableFpb_eq_ok_iff.mpr hlazy
  have henabled : PortOnly s.accept.setFpbOn s0 := portOnly_of_enableFpb henable
  refine ⟨fun u hw => ?_, fun f u hw => ?_⟩
  · have hports : PortOnly s.accept.setFpbOn u := henabled.trans hw.portOnly
    refine ⟨_, exec_setbp_answered hready hheld hfree henable hw, congrArg (· ++ _) hports.responses, ?_, fun j hj => ?_,
      hports.fpbOn, rfl, rfl⟩
    · exact (State.bpSlot_setBp u i _ i).trans (if_pos ⟨rfl, slot_lt_cap hi⟩)
    · exact (State.bpSlot_setBp u i _ j).trans ((if_neg fun h => hj h.1.symm).trans (hports.bpSlot j))
  · have hwrite := portWrite32_portOnly (addrFpComp s.cfg i) (m ||| bitAt s.cfg.bitFpCompEnable true) s0
    rw [hw] at hwrite
    have hports : PortOnly s.accept.setFpbOn u := henabled.trans hwrite
    exact ⟨_, exec_setbp_failed hready hheld hfree henable hw, congrArg (· ++ _) hports.responses, hports.bp,
      hports.fpbOn⟩

/-- Settles O39: the slot that SETBP has found or marked is the one that holds the address for the next SETBP. -/
theorem setbpIsIdempotent : Obligations.SetbpIsIdempotent := by
  refine ⟨fun a s j hready hok hj hu hm => exec_setbp_held hready (State.bpHolding_eq_some hok hj hu hm),
    fun a a' s t r hready hsame h hr => ?_⟩
  rcases exec_setbp_ok_cases hready h hr with ⟨j, hheld, rfl, rfl⟩ | ⟨i, s0, u, hheld, hfree, rfl, henable, hw, rfl⟩
  · exact ⟨exec_setbp_again _ hready.1 (hsame ▸ hheld), Nat.le_succ _⟩
  · have hports : PortOnly s.accept.setFpbOn u := (portOnly_of_enableFpb henable).trans hw.portOnly
    have hi : i < u.nBp.toNat := hports.nBp ▸ State.bpFree_lt hfree
    have hheld' : u.bpHolding (maskedAddress s.cfg a) = none := hports.bpHolding _ ▸ hheld
    have hholds : (u.setBp i ⟨true, maskedAddress s.cfg a⟩).bpHolding (maskedAddress u.cfg a') = some i := by
      rw [show u.cfg = s.cfg from hports.cfg, hsame]
      exact State.bpHolding_setBp hheld' hi
    refine ⟨exec_setbp_again _ (hports.attached.trans hready.1) hholds, ?_⟩
    exact hports.breakpointsInUse ▸ State.breakpointsInUse_setBp_le u i _

/-! ### CLRBP (R216, R217) -/

section
variable {slot : BitVec 4} {s u : State} (hready : s.ready) (hslot : slot.toNat < s.nBp.toNat)
include hready hslot

/-- What CLRBP does with a slot below the count (R216 steps 1 and 2). -/
theorem cmdClrbp_run : cmdClrbp slot s.accept = (do
    wr32 (addrFpComp s.cfg slot.toNat) 0#32
    modify (·.setBp slot.toNat { s.bpSlot slot.toNat with inUse := false })
    pure .none : Cmd Result) s.accept := by
  refine (attached_get_run hready _).trans ?_
  have hbelow : decide (s.accept.nBp.toNat ≤ slot.toNat) = false := decide_eq_false (Nat.not_le.mpr hslot)
  rw [hbelow]
  rfl

theorem exec_clrbp_answered (hw : s.accept.writes (addrFpComp s.cfg slot.toNat) 0#32 u) :
    exec (.clrbp slot) s
      = .next ((u.setBp slot.toNat { s.bpSlot slot.toNat with inUse := false }).deliver (.ok .none)) :=
  exec_of_ok hready.2 ((cmdClrbp_run hready hslot).trans ((Cmd.bind_of_ok _ (wr32_of_writes hw)).trans rfl))

theorem exec_clrbp_failed {f : PortFailure} (hw : portWrite32 (addrFpComp s.cfg slot.toNat) 0#32 s.accept = (.fail f, u)) :
    exec (.clrbp slot) s = .next (u.deliver (.failed f.raised)) :=
  exec_of_error hready.2 ((cmdClrbp_run hready hslot).trans (Cmd.bind_of_error _ (wr32_of_fail hw)))

end

/-- Settles O40: the slot is marked free only after its comparator has been written. -/
theorem clrbpFreesTheSlot : Obligations.ClrbpFreesTheSlot := by
  intro slot s hready hslot
  refine ⟨fun u hw => ?_, fun f u hw => exec_clrbp_failed hready hslot hw⟩
  have hports : PortOnly s.accept u := hw.portOnly
  refine ⟨_, exec_clrbp_answered hready hslot hw, congrArg (· ++ _) hports.responses, ?_, fun j hj => ?_, hports.fpbOn,
    rfl, rfl⟩
  · exact congrArg BpSlot.inUse ((State.bpSlot_setBp u _ _ _).trans (if_pos ⟨rfl, slot_lt_cap hslot⟩))
  · exact (State.bpSlot_setBp u _ _ j).trans ((if_neg fun h => hj h.1.symm).trans (hports.bpSlot j))

/-! ### SETBP, then CLRBP (R217 (d)) -/

/-- An entry that held zeros holds them again after a word and then zeros were put into it. -/
theorem setIfInBounds_clear {v : Vector Word 15} {i : Nat} (x : Word) (h : v.getD i 0#32 = 0#32) :
    (v.setIfInBounds i x).setIfInBounds i 0#32 = v := by
  refine Vector.ext fun j hj => ?_
  have hget : ∀ w : Vector Word 15, w[j] = w.getD j 0#32 := fun w => by simp [Vector.getD, hj]
  rw [hget, hget, getD_setIfInBounds, getD_setIfInBounds]
  by_cases hij : i = j
  · rw [if_pos ⟨hij, hj⟩, ← hij, h]
  · rw [if_neg fun h => hij h.1, if_neg fun h => hij h.1]

/-- A comparator write puts its word where the target has the comparator, and nowhere else (R96, R102). -/
theorem Target.fpComp_writeReg (cfg : Config) (t : Target) (noise v : Word) (i : Nat) :
    (t.writeReg cfg noise v (.fpComp i)).dbg.fpComp
      = if i < cfg.fpCount then t.dbg.fpComp.setIfInBounds i v else t.dbg.fpComp := by
  simp only [Target.writeReg]
  split <;> rfl

/-- The breakpoints are those from before where a slot that was free is marked and freed again (R26). -/
theorem sameBreakpoints_of_freed {s t : State} {i : Nat} (hunused : (s.bpSlot i).inUse = false)
    (hfreed : (t.bpSlot i).inUse = false) (hother : ∀ j, j ≠ i → t.bpSlot j = s.bpSlot j) : s.sameBreakpoints t := by
  intro j
  by_cases hj : j = i
  · subst hj
    exact ⟨hfreed.trans hunused.symm, fun hu => by simp [hunused] at hu⟩
  · exact ⟨congrArg _ (hother j hj), fun _ => hother j hj⟩

/-- What SETBP of a new address leaves in `t` where two transactions are answered by a quiet target: slot `i`, free in `s`,
is marked, its comparator is written, and the controller is ready for the next command (R213). -/
structure NewBreakpoint (s : State) (i : Nat) (t : State) : Prop where
  below : i < s.nBp.toNat
  unused : (s.bpSlot i).inUse = false
  ready : t.ready
  cfg : t.cfg = s.cfg
  nBp : t.nBp = s.nBp
  other : ∀ j, j ≠ i → t.bpSlot j = s.bpSlot j
  tick : ∃ k, k ≤ 2 ∧ Later k s t
  comparators : ∃ v, t.target.dbg.fpComp
    = if i < s.cfg.fpCount then s.target.dbg.fpComp.setIfInBounds i v else s.target.dbg.fpComp

theorem newBreakpoint_of_setbp {a : Word} {s t : State} {slot : BitVec 4} (hready : s.ready) (hwf : configWf s.cfg = true)
    (hnew : s.bpHolding (maskedAddress s.cfg a) = none) (ha : s.answersFor 2) (hq : s.quietFor 2)
    (hset : exec (.setbp a) s = .next t) (hr : t.responses = s.responses ++ [.ok (.slot slot)]) :
    NewBreakpoint s slot.toNat t := by
  obtain ⟨j, hheld, _⟩ | ⟨i, s0, u, _, hfree, hslot, henable, hw, rfl⟩ := exec_setbp_ok_cases hready hset hr
  · exact nomatch hnew.symm.trans hheld
  have hi : i < 15 := slot_lt_cap (State.bpFree_lt hfree)
  obtain rfl : slot.toNat = i := by
    rw [Result.slot.inj hslot, BitVec.toNat_ofNat]
    exact Nat.mod_eq_of_lt (by omega)
  have henabled : PortOnly s.accept.setFpbOn s0 := portOnly_of_enableFpb henable
  have hports : PortOnly s.accept.setFpbOn u := henabled.trans hw.portOnly
  obtain ⟨hcomp, k, hk, hlater⟩ :=
    fpComp_of_enableFpb (s := s.accept) henable hwf (ha.mono (by omega)) (hq.mono (by omega))
  have hcfg : s0.cfg = s.cfg := henabled.cfg
  obtain ⟨noise, hmarked, hlater1⟩ := State.writes.quiet (r := .fpComp slot.toNat) (hcfg ▸ hw) (hcfg ▸ hwf)
    (hlater.answersFor (s := s.accept) (ha.mono (by omega))) (mem_mapRegs_fpComp hi)
    (hlater.quietFor (s := s.accept) (hq.mono (by omega)))
  obtain ⟨hcfg', henv, htick⟩ := hlater.trans hlater1
  exact {
    below := State.bpFree_lt hfree
    unused := State.inUse_of_bpFree hfree
    ready := ⟨hports.attached.trans hready.1, rfl⟩
    cfg := hcfg'
    nBp := hports.nBp
    other := fun j hj =>
      (State.bpSlot_setBp u _ _ j).trans ((if_neg fun h => hj h.1.symm).trans (hports.bpSlot j))
    tick := ⟨k + 1, by omega, hcfg', henv, htick⟩
    comparators := ⟨_, by
      show u.target.dbg.fpComp = _
      rw [hmarked, Target.fpComp_writeReg, hcfg, hcomp]
      rfl⟩ }

/-- Settles O41: the slot that SETBP marks is the one that CLRBP frees, and the comparator is written twice, with nothing in
between. -/
theorem setbpThenClrbpRestores : Obligations.SetbpThenClrbpRestores := by
  intro a s t slot hready hwf hnew ha hq hset hr
  have hn : NewBreakpoint s slot.toNat t :=
    newBreakpoint_of_setbp hready hwf hnew (ha.mono (by omega)) (hq.mono (by omega)) hset hr
  obtain ⟨k, hk, hlater⟩ := hn.tick
  obtain ⟨v, hcomp⟩ := hn.comparators
  obtain ⟨w, noise, hwrite, htarget, -⟩ := exists_quiet_writes (s := t.accept) (r := .fpComp slot.toNat) (hn.cfg ▸ hwf)
    (hlater.answersFor (ha.mono (by omega))) (mem_mapRegs_fpComp (slot_lt_cap hn.below))
    (hlater.quietFor (hq.mono (by omega))) 0#32
  obtain ⟨u, hexec, hresponses, hfreed, hother, -, -, hu⟩ :=
    (clrbpFreesTheSlot slot t hn.ready (hn.nBp ▸ hn.below)).1 w hwrite
  refine ⟨u, hexec, hresponses, sameBreakpoints_of_freed hn.unused hfreed fun j hj => (hother j hj).trans (hn.other j hj),
    fun hzero => ?_⟩
  rw [hu, htarget, Target.fpComp_writeReg, State.accept_target, State.accept_cfg, hn.cfg, hcomp]
  split
  · exact setIfInBounds_clear v hzero
  · rfl

end Sys2Proof.Machine
end

section
/-! SUPPORT. The watchpoint manager's commands as whole commands (44_watchpoints.md): the two searches of the slot table, the
words that arm a comparator, and everything SETWP and CLRWP end with. -/

namespace Sys2Proof.Machine

/-! ### The slot table -/

theorem PortOnly.wpSlot {s t : State} (h : PortOnly s t) (j : Nat) : t.wpSlot j = s.wpSlot j := by
  unfold State.wpSlot; rw [h.wp]

theorem PortOnly.wpHolding {s t : State} (h : PortOnly s t) (watch : WpSlot) : t.wpHolding watch = s.wpHolding watch := by
  unfold State.wpHolding State.wpSlot; rw [h.nWp, h.wp]

/-- The number of a slot below a count of four bits fits the response's slot field (R25, R114). -/
theorem toNat_ofNat_of_slot_lt {n : BitVec 4} {i : Nat} (h : i < n.toNat) : (BitVec.ofNat 4 i).toNat = i :=
  (BitVec.toNat_ofNat i 4).trans (Nat.mod_eq_of_lt (h.trans n.isLt))

/-- The least free slot below the count is the one SETWP finds (R222 step 2). -/
theorem State.wpFree_eq_some {s : State} {i : Nat} (hi : i < s.nWp.toNat)
    (hbelow : ∀ j, j < i → (s.wpSlot j).inUse = true) (hfree : (s.wpSlot i).inUse = false) : s.wpFree = some i :=
  find_least hi (by simp [hfree]) fun j hj => by simp [hbelow j hj]

section
variable {s : State} {watch : WpSlot} {i : Nat} (hw : watch.inUse = true)
include hw

/-- The slot that holds a triple is the least one below the count that equals it, mark included (R222 step 1). -/
theorem State.wpHolding_of_inUse (s : State) :
    s.wpHolding watch = (List.range s.nWp.toNat).find? fun j => decide (s.wpSlot j = watch) := by
  unfold State.wpHolding
  rw [show ({ watch with inUse := true } : WpSlot) = watch by rw [← hw]]
  refine congrArg (List.find? · _) (funext fun j => ?_)
  by_cases h : s.wpSlot j = watch
  · simp [h, hw]
  · simp [h]

/-- A triple that no slot in use below the count is, is held by none (R222 step 1). -/
theorem State.wpHolding_eq_none (h : ∀ j, j < s.nWp.toNat → (s.wpSlot j).inUse = true → s.wpSlot j ≠ watch) :
    s.wpHolding watch = none := by
  rw [State.wpHolding_of_inUse hw, List.find?_eq_none]
  intro j hj hsame
  have heq : s.wpSlot j = watch := of_decide_eq_true hsame
  exact h j (List.mem_range.mp hj) (heq ▸ hw) heq

/-- In a sound table the slot that is a triple is the one that holds it (R27, R222 step 1). -/
theorem State.wpHolding_eq_some (hok : s.watchpointsOk) (hi : i < s.nWp.toNat) (hsame : s.wpSlot i = watch) :
    s.wpHolding watch = some i := by
  rw [State.wpHolding_of_inUse hw]
  refine find_least hi (decide_eq_true hsame) fun j hj => decide_eq_false fun hj' => ?_
  exact hok.2 j i (slot_lt_cap (hj.trans hi)) (slot_lt_cap hi) hj.ne (hj' ▸ hw) (hsame ▸ hw) (hj'.trans hsame.symm)

/-- A slot marked with a triple that none held is the one that holds it then (R222 step 6). -/
theorem State.wpHolding_setWp (hheld : s.wpHolding watch = none) (hi : i < s.nWp.toNat) :
    (s.setWp i watch).wpHolding watch = some i := by
  rw [State.wpHolding_of_inUse hw] at hheld ⊢
  refine find_least hi (by simp [State.wpSlot_setWp, slot_lt_cap hi]) fun j hj => ?_
  rw [State.wpSlot_setWp, if_neg fun h => hj.ne' h.1]
  simpa using List.find?_eq_none.mp hheld j (List.mem_range.mpr (hj.trans hi))

end

/-! ### The words that arm a comparator (R134 to R136, R222 steps 4 and 5) -/

section
variable {cfg : Config} {i : Nat} {size : BitVec 2} {kind : AccessType}

/-- The mask of a size class is its code (R116, R134). -/
theorem sizeMask_sizeClassOf (size : BitVec 2) : sizeMask (sizeClassOf size) = size.setWidth 32 := by
  revert size; decide

theorem armWrites_legacy : armWrites cfg .legacy i (sizeClassOf size) kind
    = some [(addrDwtMask cfg i, size.setWidth 32), (addrDwtFunction cfg i, wpFuncLegacy cfg kind)] := by
  rw [← sizeMask_sizeClassOf]
  rfl

theorem armWrites_v2 {len : Word} (hlen : wpLenV2 cfg (sizeClassOf size) = some len) :
    armWrites cfg .v2 i (sizeClassOf size) kind
      = some [(addrDwtFunction cfg i,
          wpMatchV2 cfg kind ||| cfg.v2ActionDebugEvent <<< cfg.v2ActionLo ||| len <<< cfg.v2LenLo)] := by
  simp [armWrites, wpFuncV2, hlen]

theorem length_armWrites_le {encoding : WpEncoding} {size : SizeClass} {arming : List (Word × Word)}
    (h : armWrites cfg encoding i size kind = some arming) : arming.length ≤ 2 := by
  cases encoding with
  | legacy => cases h; exact le_rfl
  | v2 =>
    obtain ⟨f, _, rfl⟩ := Option.map_eq_some_iff.mp h
    exact Nat.le_succ 1

/-- The newer encoding has no word for a doubleword (R136, R225). -/
theorem ne_doubleword_of_armWrites {encoding : WpEncoding} {size : SizeClass} {arming : List (Word × Word)}
    (h : armWrites cfg encoding i size kind = some arming) (henc : encoding = .v2) : size ≠ .doubleword := by
  rintro rfl
  subst henc
  exact nomatch h

end

/-- Writes that the port answers take one transaction each (R66). -/
theorem later_of_writeAll {ws : List (Word × Word)} {s t : State} (ha : s.answersFor ws.length)
    (h : writeAll ws s = .ok () t) : Later ws.length s t := by
  obtain ⟨target, hrun, -⟩ := writeAll_of_answersFor ha
  obtain rfl : s.afterEntries target (writeEntries ws) = t := (EStateM.Result.ok.inj (hrun.symm.trans h)).2
  exact later_afterEntries s target _ (List.length_map _)

theorem portOnly_of_writeAll {ws : List (Word × Word)} {s t : State} (h : writeAll ws s = .ok () t) : PortOnly s t := by
  have hkeeps := writeAll_portOnly ws s
  rwa [h] at hkeeps

/-! ### SETWP (R222) -/

/-- SETWP is not refused with these operands: they name a kind of access, and the variant's encoding has the size (R225,
R268). -/
structure State.TakesWatch (s : State) (size access : BitVec 2) (kind : AccessType) : Prop where
  kind : accessOf access = some kind
  size : s.cfg.wpEnc.at s.variant = .v2 → sizeClassOf size ≠ .doubleword

/-- Everything a SETWP that completes can have done: it found the slot that holds the triple, or it wrote the comparator of
the least free slot and marked the slot (R222). -/
inductive WatchSet (s : State) (size access : BitVec 2) (address : Word) : Result → State → Prop where
  | held {kind : AccessType} {j : Nat} : s.TakesWatch size access kind →
      s.wpHolding ⟨true, address, sizeClassOf size, kind⟩ = some j →
      WatchSet s size access address (.slot (BitVec.ofNat 4 j)) s
  | new {kind : AccessType} {i : Nat} {arming : List (Word × Word)} {u : State} : s.TakesWatch size access kind →
      s.wpHolding ⟨true, address, sizeClassOf size, kind⟩ = none → s.wpFree = some i →
      armWrites s.cfg (s.cfg.wpEnc.at s.variant) i (sizeClassOf size) kind = some arming →
      writeAll ((addrDwtComp s.cfg i, address) :: arming) s = .ok () u →
      WatchSet s size access address (.slot (BitVec.ofNat 4 i)) (u.setWp i ⟨true, address, sizeClassOf size, kind⟩)

section
variable {size access : BitVec 2} {address : Word} {s : State}

/-- SETWP walked from its checks to its answer (R222). -/
theorem cmdSetwp_ends (size access : BitVec 2) (address : Word) (s : State) :
    (cmdSetwp size access address).Ends s (WatchSet s size access address) fun _ _ => True := by
  unfold cmdSetwp
  refine Cmd.ends_requireAttached trivial fun _ => Cmd.ends_get ?_
  refine Cmd.ends_orRefuse trivial fun kind hkind => Cmd.ends_refuseIf trivial fun hsize => ?_
  have htakes : s.TakesWatch size access kind := ⟨hkind, by simpa using hsize⟩
  dsimp only
  split
  next hheld => exact Cmd.ends_pure (.held htakes hheld)
  next hheld =>
    split
    · exact Cmd.ends_raise trivial
    next i hfree =>
      refine Cmd.ends_orRefuse trivial fun arming harm => ?_
      cases hrun : writeAll ((addrDwtComp s.cfg i, address) :: arming) s with
      | error f u => exact .of_error (Cmd.bind_of_error _ hrun) trivial
      | ok x u =>
        exact Cmd.ends_bind_ok hrun (Cmd.ends_bind_ok (Cmd.modify_run u _) (.new htakes hheld hfree harm hrun))

/-- What a SETWP answered with a result has done (R32, R222). -/
theorem exec_setwp_ok_inv {t : State} {r : Result} (hready : s.ready) (h : exec (.setwp size access address) s = .next t)
    (hr : t.responses = s.responses ++ [.ok r]) :
    ∃ v, WatchSet s.accept size access address r v ∧ t = v.deliver (.ok r) := by
  obtain ⟨v, hbody, ht⟩ := exec_ok_inv hready.2 h hr
  have hends := cmdSetwp_ends size access address s.accept
  unfold Cmd.Ends at hends
  rw [show cmdSetwp size access address s.accept = .ok r v from hbody] at hends
  exact ⟨v, hends, ht⟩

section
variable {kind : AccessType} (hready : s.ready) (htakes : s.TakesWatch size access kind)
include hready htakes

/-- The start of a SETWP that is not refused (R222, R268). -/
theorem setwp_checks_run {β : Type} (f : State → AccessType → Cmd β) :
    (requireAttached >>= fun _ => get >>= fun s => orRefuse (accessOf access) >>= fun kind =>
      refuseIf (s.cfg.wpEnc.at s.variant == .v2 && sizeClassOf size == .doubleword) >>= fun _ => f s kind) s.accept
      = f s.accept kind s.accept := by
  obtain ⟨hkind, hsize⟩ := htakes
  have hfits : (s.cfg.wpEnc.at s.variant == .v2 && sizeClassOf size == .doubleword) = false := by simpa using hsize
  refine (attached_get_run hready _).trans ?_
  rw [hkind, State.accept_cfg, State.accept_variant, hfits]
  rfl

/-- A triple that is held is answered at once (R222 step 1). -/
theorem exec_setwp_held {j : Nat} (hheld : s.wpHolding ⟨true, address, sizeClassOf size, kind⟩ = some j) :
    exec (.setwp size access address) s = .next (s.deliver (.ok (.slot (BitVec.ofNat 4 j)))) := by
  have hrun : cmdSetwp size access address s.accept = .ok (.slot (BitVec.ofNat 4 j)) s.accept := by
    refine (setwp_checks_run hready htakes _).trans ?_
    rw [show s.accept.wpHolding ⟨true, address, sizeClassOf size, kind⟩ = some j from hheld]
    rfl
  exact exec_of_ok (t := s.accept) hready.2 hrun

/-- A new triple takes the least free slot once its comparator has been written (R222 steps 2 to 6). -/
theorem exec_setwp_new {i : Nat} {arming : List (Word × Word)} {u : State}
    (hheld : s.wpHolding ⟨true, address, sizeClassOf size, kind⟩ = none) (hfree : s.wpFree = some i)
    (harm : armWrites s.cfg (s.cfg.wpEnc.at s.variant) i (sizeClassOf size) kind = some arming)
    (hrun : writeAll ((addrDwtComp s.cfg i, address) :: arming) s.accept = .ok () u) :
    exec (.setwp size access address) s = .next
      ((u.setWp i ⟨true, address, sizeClassOf size, kind⟩).deliver (.ok (.slot (BitVec.ofNat 4 i)))) := by
  refine exec_of_ok hready.2 ((setwp_checks_run hready htakes _).trans ?_)
  rw [show s.accept.wpHolding ⟨true, address, sizeClassOf size, kind⟩ = none from hheld,
    show s.accept.wpFree = some i from hfree]
  dsimp only
  rw [State.accept_cfg, State.accept_variant, harm]
  exact (Cmd.bind_of_ok _ (orRefuse_some s.accept arming)).trans ((Cmd.bind_of_ok _ hrun).trans rfl)

end

section
variable {r : Result} {v : State} (h : WatchSet s size access address r v)
include h

theorem WatchSet.cfg : v.cfg = s.cfg := by
  cases h with
  | held _ _ => rfl
  | new _ _ _ _ hrun => exact (portOnly_of_writeAll hrun).cfg

theorem WatchSet.attached : v.attached = s.attached := by
  cases h with
  | held _ _ => rfl
  | new _ _ _ _ hrun => exact (portOnly_of_writeAll hrun).attached

/-- After a SETWP the slot it gave is below the count and holds the triple, and the same operands are taken again
(R226 (a)). -/
theorem WatchSet.exists_holding : ∃ kind j, v.TakesWatch size access kind ∧ r = .slot (BitVec.ofNat 4 j)
    ∧ j < v.nWp.toNat ∧ v.wpHolding ⟨true, address, sizeClassOf size, kind⟩ = some j := by
  cases h with
  | @held kind j htakes hheld => exact ⟨kind, j, htakes, rfl, List.mem_range.mp (List.mem_of_find?_eq_some hheld), hheld⟩
  | @new kind i arming u htakes hheld hfree _ hrun =>
    have hports : PortOnly s u := portOnly_of_writeAll hrun
    have hi : i < u.nWp.toNat := hports.nWp ▸ State.wpFree_lt hfree
    refine ⟨kind, i, ⟨htakes.kind, fun henc => htakes.size ?_⟩, rfl, hi, ?_⟩
    · rwa [State.setWp_cfg, State.setWp_variant, hports.cfg, hports.variant] at henc
    · exact State.wpHolding_setWp rfl ((hports.wpHolding _).trans hheld) hi

/-- SETWP makes three transactions at most (R222). -/
theorem WatchSet.later (ha : s.answersFor 3) : ∃ k, k ≤ 3 ∧ Later k s v := by
  cases h with
  | held _ _ => exact ⟨0, by omega, rfl, rfl, rfl⟩
  | @new kind i arming u _ _ _ harm hrun =>
    have hlength : arming.length + 1 ≤ 3 := Nat.succ_le_succ (length_armWrites_le harm)
    obtain ⟨hcfg, henv, htick⟩ :=
      later_of_writeAll (ws := (addrDwtComp s.cfg i, address) :: arming) (ha.mono hlength) hrun
    exact ⟨_, hlength, hcfg, henv, htick⟩

end

end

/-- Settles O42: the slot found is the least free one; the writes are those of the variant's encoding, and they leave the slot
table to the last step. -/
theorem setwpOfANewWatch : Obligations.SetwpOfANewWatch := by
  intro size access kind address s u i hready hkind hi hnew hbelow hunused legacyWrites v2Writes hwrites
  have hheld : s.wpHolding ⟨true, address, sizeClassOf size, kind⟩ = none := State.wpHolding_eq_none rfl hnew
  have hfree : s.wpFree = some i := State.wpFree_eq_some hi hbelow hunused
  obtain ⟨arming, harm, hrun⟩ : ∃ arming,
      armWrites s.cfg (s.cfg.wpEnc.at s.variant) i (sizeClassOf size) kind = some arming
      ∧ writeAll ((addrDwtComp s.cfg i, address) :: arming) s.accept = .ok () u := by
    rcases hwrites with ⟨henc, hanswered, rfl⟩ | ⟨henc, len, hlen, hanswered, rfl⟩
    · exact ⟨_, henc ▸ armWrites_legacy, writeAll_answered hanswered⟩
    · exact ⟨_, henc ▸ armWrites_v2 hlen, writeAll_answered hanswered⟩
  have hports : PortOnly s.accept u := portOnly_of_writeAll hrun
  refine ⟨_, exec_setwp_new hready ⟨hkind, ne_doubleword_of_armWrites harm⟩ hheld hfree harm hrun,
    congrArg (· ++ _) hports.responses, ?_, fun j hj => ?_, rfl, rfl⟩
  · exact (State.wpSlot_setWp u i _ i).trans (if_pos ⟨rfl, slot_lt_cap hi⟩)
  · exact (State.wpSlot_setWp u i _ j).trans ((if_neg fun h => hj h.1.symm).trans (hports.wpSlot j))

/-- Settles O43: the slot that SETWP has found or marked is the one that holds the triple for the next SETWP. -/
theorem setwpIsIdempotent : Obligations.SetwpIsIdempotent := by
  refine ⟨fun size access kind address s j hready hkind hsize hok hj hsame =>
    exec_setwp_held hready ⟨hkind, hsize⟩ (State.wpHolding_eq_some rfl hok hj hsame),
    fun size access address s t r hready h hr => ?_⟩
  obtain ⟨v, hset, rfl⟩ := exec_setwp_ok_inv hready h hr
  obtain ⟨kind, j, htakes, rfl, -, hholds⟩ := hset.exists_holding
  exact exec_setwp_held (s := v.deliver _) ⟨hset.attached.trans hready.1, rfl⟩ ⟨htakes.kind, htakes.size⟩ hholds

/-! ### CLRWP (R228, R229) -/

section
variable {slot : BitVec 4} {s u : State} (hready : s.ready) (hslot : slot.toNat < s.nWp.toNat)
include hready hslot

/-- What CLRWP does with a slot below the count (R228 steps 1 and 2). -/
theorem cmdClrwp_run : cmdClrwp slot s.accept = (do
    wr32 (addrDwtFunction s.cfg slot.toNat) 0#32
    modify (·.setWp slot.toNat { s.wpSlot slot.toNat with inUse := false })
    pure .none : Cmd Result) s.accept := by
  refine (attached_get_run hready _).trans ?_
  have hbelow : decide (s.accept.nWp.toNat ≤ slot.toNat) = false := decide_eq_false (Nat.not_le.mpr hslot)
  rw [hbelow]
  rfl

theorem exec_clrwp_answered (hw : s.accept.writes (addrDwtFunction s.cfg slot.toNat) 0#32 u) :
    exec (.clrwp slot) s
      = .next ((u.setWp slot.toNat { s.wpSlot slot.toNat with inUse := false }).deliver (.ok .none)) :=
  exec_of_ok hready.2 ((cmdClrwp_run hready hslot).trans ((Cmd.bind_of_ok _ (wr32_of_writes hw)).trans rfl))

theorem exec_clrwp_failed {f : PortFailure}
    (hw : portWrite32 (addrDwtFunction s.cfg slot.toNat) 0#32 s.accept = (.fail f, u)) :
    exec (.clrwp slot) s = .next (u.deliver (.failed f.raised)) :=
  exec_of_error hready.2 ((cmdClrwp_run hready hslot).trans (Cmd.bind_of_error _ (wr32_of_fail hw)))

end

/-- Settles O44: the slot is marked free only after its function register has been written, and the halt reason is no part of
it. -/
theorem clrwpFreesTheSlot : Obligations.ClrwpFreesTheSlot := by
  intro slot s hready hslot
  refine ⟨fun u hw => ?_, fun f u hw => exec_clrwp_failed hready hslot hw⟩
  have hports : PortOnly s.accept u := hw.portOnly
  refine ⟨_, exec_clrwp_answered hready hslot hw, congrArg (· ++ _) hports.responses, ?_, fun j hj => ?_, hports.hr,
    hports.hrValid, rfl, rfl⟩
  · exact congrArg WpSlot.inUse ((State.wpSlot_setWp u _ _ _).trans (if_pos ⟨rfl, slot_lt_cap hslot⟩))
  · exact (State.wpSlot_setWp u _ _ j).trans ((if_neg fun h => hj h.1.symm).trans (hports.wpSlot j))

/-! ### SETWP, then CLRWP (R230) -/

/-- The disabled word written to a function register that the target has is what the register holds then (R137). -/
theorem Target.dwtFunction_writeReg_disabled {cfg : Config} {i : Nat} (hi : i < 15) (hcount : i < cfg.dwtCount) (t : Target)
    (noise d : Word) : (t.writeReg cfg noise 0#32 (.dwtFunction i)).dbg.dwtFunction.getD i d = 0#32 := by
  simp only [Target.writeReg, if_pos hcount, putBit_zero_false]
  exact (getD_setIfInBounds t.dbg.dwtFunction i i 0#32 d).trans (if_pos ⟨rfl, hi⟩)

/-- Settles O45: SETWP leaves the port's next transaction to CLRWP, whose one write is the last the function register sees,
whatever the target does before it. -/
theorem setwpThenClrwpRestores : Obligations.SetwpThenClrwpRestores := by
  intro size access address s t slot hready hwf ha hcount hset hr
  obtain ⟨v, hwatch, rfl⟩ := exec_setwp_ok_inv hready hset hr
  obtain ⟨kind, j, -, hj, hbelow, -⟩ := hwatch.exists_holding
  obtain ⟨k, hk, hlater⟩ := hwatch.later (ha.mono (by omega))
  have hcfg : v.cfg = s.cfg := hwatch.cfg
  have hslot : slot.toNat < v.nWp.toNat := by rwa [Result.slot.inj hj, toNat_ofNat_of_slot_lt hbelow]
  have hanswered : v.answersFor 1 := hlater.answersFor (s := s.accept) (ha.mono (by omega))
  obtain ⟨w, noise, hwrite, htarget, -⟩ := exists_writes (s := (v.deliver (.ok (.slot slot))).accept)
    (r := .dwtFunction slot.toNat) (hcfg ▸ hwf) hanswered (mem_mapRegs_dwtFunction (slot_lt_cap hslot)) 0#32
  obtain ⟨u, hexec, hresponses, hfreed, -, -, -, -, hu⟩ :=
    (clrwpFreesTheSlot slot (v.deliver (.ok (.slot slot))) ⟨hwatch.attached.trans hready.1, rfl⟩ hslot).1 w hwrite
  refine ⟨u, hexec, hresponses, hfreed, ?_⟩
  rw [hu, htarget]
  exact Target.dwtFunction_writeReg_disabled (slot_lt_cap hslot) (hcfg ▸ hcount) _ _ _

end Sys2Proof.Machine
end

section
/-! SUPPORT. The fault interpreter (45_fault_interpreter.md): the halt reason as a word, HALTREASON as a whole command, and what
Capture shows and clears on a quiet target. -/

namespace Sys2Proof.Machine

/-! ### The halt reason (R236, R114) -/

/-- A bit of a word put back at its own position is the word under the mask of that bit. -/
theorem bitAt_getLsbD (w : Word) (n : Nat) : bitAt n (w.getLsbD n) = w &&& BitVec.twoPow 32 n := by
  rw [BitVec.and_twoPow, BitVec.twoPow_eq]
  rfl

/-- With the default positions of R126 the flags stand in the response word where they stand in the fault status (V-FI1). -/
theorem reasonWord_interpret_default (dfsr hfsr : Word) :
    reasonWord (interpret defaultConfig dfsr hfsr) = 0x80000000#32 ||| (dfsr &&& 0x1F#32) := by
  have hflags : reasonWord (interpret defaultConfig dfsr hfsr)
      = bitAt 0 (dfsr.getLsbD 0) ||| bitAt 1 (dfsr.getLsbD 1) ||| bitAt 2 (dfsr.getLsbD 2) ||| bitAt 3 (dfsr.getLsbD 3)
        ||| bitAt 4 (dfsr.getLsbD 4) ||| 0#32 ||| 0#32 ||| 0x80000000#32 := rfl
  have hmask : BitVec.twoPow 32 0 ||| BitVec.twoPow 32 1 ||| BitVec.twoPow 32 2 ||| BitVec.twoPow 32 3
      ||| BitVec.twoPow 32 4 = 0x1F#32 := by decide
  rw [hflags, BitVec.or_zero, BitVec.or_zero, BitVec.or_comm]
  simp only [bitAt_getLsbD, ← BitVec.and_or_distrib_left, hmask]

/-- Settles O46: the flags are the bits by definition, and the word keeps their positions. -/
theorem interpretCopiesTheBits : Obligations.InterpretCopiesTheBits :=
  ⟨fun _ _ _ => ⟨rfl, rfl, rfl, rfl, rfl⟩, reasonWord_interpret_default⟩

/-! ### HALTREASON (R241) -/

section
variable {s s1 : State} (hready : s.ready)
include hready

/-- A held snapshot is the answer, with no transaction (R241). -/
theorem exec_haltreason_held (hheld : s.hrValid = true) :
    exec .haltreason s = .next (s.deliver (.ok (.reason (reasonWord s.hr)))) := by
  refine exec_of_ok (t := s.accept) hready.2 ((attached_get_run hready _).trans ?_)
  rw [State.accept_hrValid, hheld]
  rfl

variable (hfree : s.hrValid = false) {v : Word} (hread : s.accept.reads s.cfg.addrDhcsr v s1)
include hfree hread

/-- HALTREASON without a snapshot: the lifecycle check and the one read of the status (R241). -/
theorem cmdHaltreason_of_reads : cmdHaltreason s.accept = (if statusHalted s.cfg v then (do
      capture
      pure (.reason (reasonWord (← get).hr)))
    else pure (.reason noReasonWord) : Cmd Result) s1 := by
  refine (attached_get_run hready _).trans ?_
  rw [State.accept_hrValid, hfree]
  exact Cmd.bind_of_ok _ (rd32_of_reads hread)

/-- A running core has no halt reason (R241, R242 (c)). -/
theorem exec_haltreason_running (hrunning : statusHalted s.cfg v = false) :
    exec .haltreason s = .next (s1.deliver (.ok (.reason 0#32))) := by
  refine exec_of_ok hready.2 ((cmdHaltreason_of_reads hready hfree hread).trans ?_)
  rw [if_neg (by simp [hrunning])]
  rfl

/-- A halted core's halt reason is captured, and is the answer (R241, R242 (b)). -/
theorem exec_haltreason_captures (hhalted : statusHalted s.cfg v = true) {h : HaltReason} {t : State}
    (hc : s1.captures h t) : exec .haltreason s = .next ((t.setHr h).deliver (.ok (.reason (reasonWord h)))) := by
  refine exec_of_ok hready.2 ((cmdHaltreason_of_reads hready hfree hread).trans ?_)
  rw [if_pos hhalted]
  exact (Cmd.bind_of_ok _ (capture_of_captures hc)).trans rfl

end

/-- Settles O47, one clause for each branch of R241. -/
theorem haltreasonAnswers : Obligations.HaltreasonAnswers := fun _ hready =>
  ⟨exec_haltreason_held hready, fun hfree _ _ hread => ⟨exec_haltreason_running hready hfree hread,
    fun hhalted _ _ hc => exec_haltreason_captures hready hfree hread hhalted hc⟩⟩

/-! ### The scan on a quiet target (R239) -/

/-- An answered read of a register on a quiet target shows the value of `readReg` and leaves its target (R66, R81). -/
theorem State.reads.quiet {s t : State} {r : Reg} {v : Word} (h : s.reads (r.address s.cfg) v t)
    (hwf : configWf s.cfg = true) (ha : s.answersFor 1) (hr : r ∈ mapRegs) (hq : s.quietFor 1) :
    ∃ noise, v = (s.target.readReg s.cfg noise r).1 ∧ t.target = (s.target.readReg s.cfg noise r).2 ∧ Later 1 s t := by
  obtain ⟨u, noise, hu, htarget, hlater⟩ := exists_quiet_reads hwf ha hr hq
  obtain ⟨hv, rfl⟩ := Prod.mk.inj (Eq.trans (Eq.symm h) hu)
  exact ⟨noise, Answer.ok.inj hv, htarget, hlater⟩

/-- Whether watchpoint comparator `i` of the target has matched (R97). -/
def State.hasMatched (s : State) (i : Nat) : Bool := s.target.dbg.matched.getD i false

/-- Clearing one matched bit leaves the others (R97). -/
theorem getD_clearMatched (matched : Vector Bool 15) (i j : Nat) :
    (matched.setIfInBounds i false).getD j false = (matched.getD j false && !decide (j = i)) := by
  rw [getD_setIfInBounds]
  by_cases hij : i = j
  · subst hij
    by_cases hi : i < 15
    · simp [hi]
    · simp [hi, Vector.getD]
  · simp [hij, Ne.symm hij]

/-- The read of a function register shows the comparator's matched bit and clears it, and no other (R97, R137). -/
theorem State.reads.dwtFunction {s t : State} {i : Nat} {f : Word} (h : s.reads (addrDwtFunction s.cfg i) f t)
    (hwf : configWf s.cfg = true) (ha : s.answersFor 1) (hq : s.quietFor 1) (hi : i < 15) (hcount : i < s.cfg.dwtCount) :
    matchedBit s.cfg f = s.hasMatched i ∧ (∀ j, t.hasMatched j = (s.hasMatched j && !decide (j = i)))
    ∧ t.target.dbg.dfsr = s.target.dbg.dfsr ∧ Later 1 s t := by
  obtain ⟨noise, hf, htarget, hlater⟩ := State.reads.quiet (r := .dwtFunction i) h hwf ha (mem_mapRegs_dwtFunction hi) hq
  rw [Target.readReg_dwtFunction _ _ hcount] at hf htarget
  refine ⟨?_, fun j => ?_, by rw [htarget]; rfl, hlater⟩
  · rw [hf]
    exact getLsbD_putBit_same _ _ (configWf_singleBits hwf).2.2.2
  · unfold State.hasMatched
    rw [htarget]
    exact getD_clearMatched _ _ _

/-- The scan of a list of slots finds the first that has matched, and clears the matched bit of each (R239). -/
theorem State.readsSlots.quiet {s t : State} {slots : List Nat} {words : List (Nat × Word)}
    (h : s.readsSlots slots words t) (hwf : configWf s.cfg = true) (hlt : ∀ i ∈ slots, i < 15 ∧ i < s.cfg.dwtCount)
    (ha : s.answersFor slots.length) (hq : s.quietFor slots.length) :
    (words.find? fun p => matchedBit s.cfg p.2).map Prod.fst = slots.find? s.hasMatched
    ∧ (∀ j, t.hasMatched j = (s.hasMatched j && !decide (j ∈ slots)))
    ∧ t.target.dbg.dfsr = s.target.dbg.dfsr ∧ Later slots.length s t := by
  induction slots generalizing s words with
  | nil =>
    obtain ⟨rfl, rfl⟩ := h
    exact ⟨rfl, by simp, rfl, rfl, rfl, rfl⟩
  | cons i rest ih =>
    obtain ⟨f, u, more, hread, rfl, hmore⟩ := h
    obtain ⟨⟨hi, hcount⟩, hrest⟩ := List.forall_mem_cons.mp hlt
    rw [List.length_cons, Nat.add_comm] at ha hq ⊢
    obtain ⟨hbit, hcleared, hdfsr, hlater⟩ :=
      hread.dwtFunction hwf (ha.mono (Nat.le_add_right 1 _)) (hq.mono (Nat.le_add_right 1 _)) hi hcount
    obtain ⟨hfind, hcleared', hdfsr', hlater'⟩ :=
      ih hmore (hlater.cfg ▸ hwf) (hlater.cfg ▸ hrest) (hlater.answersFor ha) (hlater.quietFor hq)
    refine ⟨?_, fun j => ?_, hdfsr'.trans hdfsr, hlater.trans hlater'⟩
    · rw [List.find?_cons, List.find?_cons, hbit]
      cases hm : s.hasMatched i with
      | true => rfl
      | false =>
        have hsame : u.hasMatched = s.hasMatched := funext fun j => by
          rw [hcleared]
          by_cases hj : j = i
          · simp [hj, hm]
          · simp [hj]
        rwa [hlater.cfg, hsame] at hfind
    · rw [hcleared', hcleared]
      simp [Bool.and_assoc]

/-! ### Capture on a quiet target (R238) -/

/-- Attributing a halt to a slot leaves the flags as they are (R239). -/
theorem attributed_watchpointHit (cfg : Config) (h : HaltReason) (words : List (Nat × Word)) :
    (attributed cfg h words).watchpointHit = h.watchpointHit := by
  unfold attributed
  split <;> rfl

/-- A halt is attributed to the slot the scan has found (R239). -/
theorem attributed_of_find {cfg : Config} {words : List (Nat × Word)} {i : Nat}
    (hfind : (words.find? fun p => matchedBit cfg p.2).map Prod.fst = some i) (h : HaltReason) :
    attributed cfg h words = { h with wpSlotValid := true, wpSlot := BitVec.ofNat 4 i } := by
  obtain ⟨p, hp, rfl⟩ := Option.map_eq_some_iff.mp hfind
  unfold attributed
  rw [hp]

/-- Which slots are scanned depends on one flag only, which the attribution keeps (R238 step 4). -/
theorem scannedSlots_attributed (s : State) (cfg : Config) (h : HaltReason) (words : List (Nat × Word)) :
    s.scannedSlots (attributed cfg h words) = s.scannedSlots h := by
  unfold State.scannedSlots
  rw [attributed_watchpointHit]

theorem lt_nWp_of_mem_scannedSlots {s : State} {h : HaltReason} {i : Nat} (hi : i ∈ s.scannedSlots h) :
    i < s.nWp.toNat := by
  unfold State.scannedSlots at hi
  split at hi
  · exact List.mem_range.mp (List.mem_filter.mp hi).1
  · exact nomatch hi

/-- Writing every flag as 1 leaves none (R98). -/
theorem FaultFlags.minus_all (f : FaultFlags) : f.minus ⟨true, true, true, true, true⟩ = ⟨false, false, false, false, false⟩ := by
  simp [FaultFlags.minus]

/-- `RESETALL` written to the fault status clears it, and leaves the matched bits (R98, R240). -/
theorem State.writes.resetAll {s t : State} (h : s.writes s.cfg.addrDfsr (resetAll s.cfg) t) (hwf : configWf s.cfg = true)
    (ha : s.answersFor 1) (hq : s.quietFor 1) :
    t.target.dbg.dfsr = ⟨false, false, false, false, false⟩ ∧ t.hasMatched = s.hasMatched := by
  obtain ⟨noise, htarget, -⟩ := State.writes.quiet (r := .dfsr) h hwf ha (by simp [mapRegs]) hq
  unfold State.hasMatched
  rw [htarget]
  refine ⟨?_, rfl⟩
  show s.target.dbg.dfsr.minus (faultFlags s.cfg (Machine.resetAll s.cfg)) = _
  rw [faultFlags_resetAll hwf, FaultFlags.minus_all]

/-- What Capture shows and clears on a quiet target: the watchpoint flag is `DWTTRAP`, the halt is attributed to the first scanned
slot that has matched, and afterwards the fault status and the matched bits of the scanned slots are clear (R238 to R240). -/
theorem State.captures.quiet {s t : State} {h : HaltReason} (hc : s.captures h t) (hwf : configWf s.cfg = true)
    (ha : s.answersFor (s.nWp.toNat + 3)) (hq : s.quietFor (s.nWp.toNat + 3)) (hcount : s.nWp.toNat ≤ s.cfg.dwtCount) :
    h.watchpointHit = s.target.dbg.dfsr.dwttrap
    ∧ (∀ i, (s.scannedSlots h).find? s.hasMatched = some i → h.wpSlotValid = true ∧ h.wpSlot = BitVec.ofNat 4 i)
    ∧ (∀ j ∈ s.scannedSlots h, t.hasMatched j = false)
    ∧ t.target.dbg.dfsr = ⟨false, false, false, false, false⟩ := by
  obtain ⟨dfsr, hfsr, words, s1, s2, s3, hread1, hread2, hscan, hwrite, rfl⟩ := hc
  rw [scannedSlots_attributed, attributed_watchpointHit]
  generalize hh : interpret s.cfg dfsr hfsr = h0 at hscan ⊢
  obtain ⟨n1, hdfsr, ht1, hl1⟩ := State.reads.quiet (r := .dfsr) hread1 hwf (ha.mono (by omega)) (by simp [mapRegs])
    (hq.mono (by omega))
  rw [← hl1.cfg] at hread2
  obtain ⟨n2, -, ht2, hl2⟩ := State.reads.quiet (r := .hfsr) hread2 (hl1.cfg ▸ hwf) (hl1.answersFor (ha.mono (by omega)))
    (by simp [mapRegs]) (hl1.quietFor (hq.mono (by omega)))
  have hl12 := hl1.trans hl2
  have htarget : s2.target = s.target := ht2.trans ht1
  have hmatched : s2.hasMatched = s.hasMatched := by unfold State.hasMatched; rw [htarget]
  obtain ⟨hlen, hlt⟩ := scannedSlots_bounds s h0
  obtain ⟨hfind, hcleared, -, hl3⟩ := hscan.quiet (hl12.cfg ▸ hwf)
    (fun i hi => ⟨hlt i hi, hl12.cfg ▸ (lt_nWp_of_mem_scannedSlots hi).trans_le hcount⟩)
    (hl12.answersFor (ha.mono (by omega))) (hl12.quietFor (hq.mono (by omega)))
  have hl13 := hl12.trans hl3
  rw [← hl13.cfg] at hwrite
  obtain ⟨hclear, hkept⟩ := hwrite.resetAll (hl13.cfg ▸ hwf) (hl13.answersFor (ha.mono (by omega)))
    (hl13.quietFor (hq.mono (by omega)))
  rw [hl12.cfg, hmatched] at hfind
  refine ⟨?_, fun i hi => ?_, fun j hj => ?_, hclear⟩
  · rw [← hh, hdfsr]
    exact congrArg FaultFlags.dwttrap (faultFlags_faultWord hwf s.target.dbg.dfsr n1)
  · rw [attributed_of_find (hfind.trans hi)]
    exact ⟨rfl, rfl⟩
  · rw [hkept, hcleared]
    simp [hj]

/-! ### A watchpoint halt (R245) -/

/-- A watchpoint halt has every slot in use scanned, and the least of them that has matched is the first found (R239). -/
theorem find_scannedSlots {s : State} {h : HaltReason} {i : Nat} (hhit : h.watchpointHit = true) (hi : i < s.nWp.toNat)
    (hused : (s.wpSlot i).inUse = true) (hmatched : s.hasMatched i = true)
    (hleast : ∀ j, j < i → (s.wpSlot j).inUse = true → s.hasMatched j = false) :
    (s.scannedSlots h).find? s.hasMatched = some i := by
  unfold State.scannedSlots
  rw [if_pos hhit, List.find?_filter]
  refine find_least hi (by simp [hused, hmatched]) fun j hj => ?_
  simpa using hleast j hj

theorem mem_scannedSlots {s : State} {h : HaltReason} {j : Nat} (hhit : h.watchpointHit = true) (hj : j < s.nWp.toNat)
    (hused : (s.wpSlot j).inUse = true) : j ∈ s.scannedSlots h := by
  unfold State.scannedSlots
  rw [if_pos hhit]
  exact List.mem_filter.mpr ⟨List.mem_range.mpr hj, hused⟩

/-- Settles O48: the status read shows the core halted and leaves the fault status and the matched bits to Capture. -/
theorem aWatchpointHaltIsAttributed : Obligations.AWatchpointHaltIsAttributed := by
  intro s i hready hwf hfree ha hq hcount hhalted htrap hi hused hmatched hleast
  have ha' : s.accept.answersFor (1 + (s.nWp.toNat + 3)) := ha.mono (by omega)
  have hq' : s.accept.quietFor (1 + (s.nWp.toNat + 3)) := hq.mono (by omega)
  obtain ⟨s1, noise, hread, htarget, hlater⟩ := exists_quiet_reads (s := s.accept) (r := .dhcsr) hwf
    (ha'.mono (by omega)) (by simp [mapRegs]) (hq'.mono (by omega))
  have hports : PortOnly s.accept s1 := hread.portOnly
  have hnWp : s1.nWp.toNat = s.nWp.toNat := congrArg BitVec.toNat hports.nWp
  have hslot (j : Nat) : s1.wpSlot j = s.wpSlot j := hports.wpSlot j
  have hsame : s1.hasMatched = s.hasMatched := by unfold State.hasMatched; rw [htarget]; rfl
  have hcfg : s1.cfg = s.cfg := hlater.cfg
  have ha1 : s1.answersFor (s1.nWp.toNat + 3) := hnWp ▸ hlater.answersFor ha'
  have hq1 : s1.quietFor (s1.nWp.toNat + 3) := hnWp ▸ hlater.quietFor hq'
  obtain ⟨h, t, hc, -⟩ := exists_captures (hcfg ▸ hwf) ha1 hq1
  obtain ⟨hflag, hattributed, hcleared, hdfsr⟩ := hc.quiet (hcfg ▸ hwf) ha1 hq1 (by rwa [hnWp, hcfg])
  have hhit : h.watchpointHit = true := by rw [hflag, htarget]; exact htrap
  obtain ⟨hvalid, hnumber⟩ := hattributed i <| find_scannedSlots hhit (hnWp ▸ hi) (hslot i ▸ hused) (hsame ▸ hmatched)
    fun j hj hj' => hsame ▸ hleast j hj (hslot j ▸ hj')
  have hstatus : statusHalted s.cfg (s.accept.target.readReg s.accept.cfg noise .dhcsr).1 = true :=
    (statusWord_bits hwf s.target.dbg noise).2.1.trans hhalted
  refine ⟨_, exec_haltreason_captures hready hfree hread hstatus hc, ?_, rfl, hhit, hvalid, ?_, fun j hj hj' => ?_, hdfsr⟩
  · exact congrArg (· ++ _) (hports.trans hc.portOnly).responses
  · exact (congrArg BitVec.toNat hnumber).trans (toNat_ofNat_of_slot_lt hi)
  · exact hcleared j (mem_scannedSlots hhit (hnWp ▸ hj) (hslot j ▸ hj'))

end Sys2Proof.Machine
end

section
/-! SUPPORT. RESET as a whole command, with and without the vector catch (46_reset_sequencer.md R252, R253). -/

namespace Sys2Proof.Machine

/-- The transactions of RESET's first step: with `catch` the read and the write that arm the vector catch, without it none (R252
step 1, R253 (a), (b)). -/
def State.armsIfAsked (catchVector : Bool) (s t : State) : Prop :=
  if catchVector = true then ∃ v u, s.reads s.cfg.addrDemcr v u ∧ u.writes s.cfg.addrDemcr (armWord s.cfg v) t
  else t = s

/-- Answered transactions complete that step, and of the controller's registers it changes none. -/
theorem State.armsIfAsked.run {catchVector : Bool} {s t : State} (h : s.armsIfAsked catchVector t) :
    (if catchVector then armVectorCatch else pure ()) s = .ok () t ∧ PortOnly s t := by
  cases catchVector with
  | true =>
    obtain ⟨v, u, hread, hwrite⟩ := h
    exact ⟨armVectorCatch_of hread hwrite, hread.portOnly.trans hwrite.portOnly⟩
  | false =>
    obtain rfl : t = s := h
    exact ⟨rfl, .refl t⟩

/-- Settles O49: the step that arms the vector catch completes, and the request and the poll follow it in the same
configuration. -/
theorem resetCompletes : Obligations.ResetCompletes := by
  intro catchVector s s0 s1 k hready harms hrequest hk hseen
  obtain ⟨harm, hports⟩ := State.armsIfAsked.run (s := s.accept) harms
  exact exec_reset_completes hready harm hrequest (hports.trans hrequest.portOnly).cfg hk hseen

end Sys2Proof.Machine
end

section
/-! SUPPORT. Commands that a failure ends at a known place (60_exceptions.md R262, R263, R265, R266, R267): an exhausted poll, a
sub-transfer that fails, an absent backend. -/

namespace Sys2Proof.Machine

/-! ### Polls that are exhausted (R15, R262, R263, R266) -/

section
variable {s : State} {cfg : Config} (hcfg : s.cfg = cfg) {pred : Config → Word → Bool} {timeout : Failure}
  (h : readsWithout cfg.addrDhcsr (pred cfg) cfg.pollMax s)
include hcfg h

/-- `awaitStatus_exhausted`, for a configuration known under another name. -/
theorem awaitStatus_exhausted_in :
    awaitStatus pred timeout s = .error timeout (afterReads cfg.addrDhcsr cfg.pollMax s) := by
  subst hcfg
  exact awaitStatus_exhausted h

/-- An exhausted poll ends its command: what would follow it is not done (R15, R16). -/
theorem awaitStatus_exhausted_seq {β : Type} (f : Unit → Cmd β) :
    (awaitStatus pred timeout >>= f) s = .error timeout (afterReads cfg.addrDhcsr cfg.pollMax s) :=
  Cmd.bind_of_error f (awaitStatus_exhausted_in hcfg h)

end

/-- The start of an ATTACH that is not refused: its checks, which change nothing, the first control word and the wait for its
effect (R152 steps 1 and 2). -/
theorem exists_cmdAttach_run {code : BitVec 2} {s : State} (hatt : s.attached = false)
    (hvariant : (variantOf code).isSome = true) : ∃ rest : Unit → Cmd Result, cmdAttach code s.accept
      = (wr32 s.cfg.addrDhcsr (dhcsrWord s.cfg attachCw) >>= fun _ =>
          awaitStatus statusDebugEnable .protocolTimeout >>= rest) s.accept := by
  obtain ⟨variant, hvariant⟩ := Option.isSome_iff_exists.mp hvariant
  apply Exists.intro
  unfold cmdAttach
  refine (Cmd.bind_of_ok _ (Cmd.get_run s.accept)).trans ?_
  rw [State.accept_attached, hatt, hvariant]
  exact (Cmd.bind_of_ok _ (refuseIf_false s.accept)).trans (Cmd.bind_of_ok _ (orRefuse_some s.accept variant))

/-- Settles O22: in each of the three commands the poll follows a control word that was written, and ends the command. -/
theorem protocolTimeouts : Obligations.ProtocolTimeouts := by
  refine ⟨fun code s s1 hb hatt hvariant hwrite hreads => ?_, ?_, ?_⟩
  · obtain ⟨rest, hrun⟩ := exists_cmdAttach_run hatt hvariant
    refine exec_of_error hb (hrun.trans ?_)
    refine (Cmd.bind_of_ok _ (wr32_of_writes hwrite)).trans ?_
    exact awaitStatus_exhausted_seq hwrite.portOnly.cfg hreads _
  · intro s s1 s2 v hready hread hrunning cw hwrite hreads
    have hcfg1 : s1.dropHr.cfg = s.cfg := hread.portOnly.cfg
    have hcfg2 : (s2.setCw cw).cfg = s.cfg := hwrite.portOnly.cfg.trans hcfg1
    have hrun := cmdHalt_of_reads hready hread
    rw [if_neg (by simp [hrunning])] at hrun
    refine exec_of_error hready.2 (hrun.trans ?_)
    refine (Cmd.bind_of_ok _ (Cmd.modify_run s1 State.dropHr)).trans ?_
    refine (Cmd.bind_of_ok _ (writeCw_of_writes_in hcfg1 hwrite)).trans ?_
    exact awaitStatus_exhausted_seq hcfg2 hreads _
  · intro mask s s1 hready cw hwrite hreads
    have hcfg : (s1.setCw cw).dropHr.cfg = s.cfg := hwrite.portOnly.cfg
    refine exec_of_error hready.2 ((attached_get_run hready _).trans ?_)
    refine (Cmd.bind_of_ok _ (writeCw_of_writes (s := s.accept) hwrite)).trans ?_
    refine (Cmd.bind_of_ok _ (Cmd.modify_run _ State.dropHr)).trans ?_
    exact awaitStatus_exhausted_seq hcfg hreads _

/-- RESET whose request is written and whose reset is never seen (R252, R266). -/
theorem reset_times_out {catchVector : Bool} {s s0 s1 : State} (hready : s.ready)
    (harms : s.accept.armsIfAsked catchVector s0) (hrequest : s0.writes s.cfg.addrAircr (resetWord s.cfg) s1)
    (hreads : readsWithout s.cfg.addrDhcsr (statusResetSeen s.cfg) s.cfg.pollMax s1.dropHr) :
    exec (.reset catchVector) s
      = .next ((afterReads s.cfg.addrDhcsr s.cfg.pollMax s1.dropHr).deliver (.failed .resetTimeout)) := by
  obtain ⟨harm, hports⟩ := harms.run
  have hcfg : s1.dropHr.cfg = s.cfg := (hports.trans hrequest.portOnly).cfg
  have hrest : (do
      wr32 s.cfg.addrAircr (resetWord s.cfg)
      modify State.dropHr
      awaitStatus statusResetSeen .resetTimeout
      pure .none : Cmd Result) s0 = .error .resetTimeout (afterReads s.cfg.addrDhcsr s.cfg.pollMax s1.dropHr) := by
    refine (Cmd.bind_of_ok _ (wr32_of_writes hrequest)).trans ?_
    refine (Cmd.bind_of_ok _ (Cmd.modify_run s1 State.dropHr)).trans ?_
    exact awaitStatus_exhausted_seq hcfg hreads _
  refine exec_of_error hready.2 ((attached_get_run hready _).trans ?_)
  cases catchVector with
  | true => exact (Cmd.bind_of_ok _ harm).trans hrest
  | false =>
    obtain rfl : s0 = s.accept := harms
    exact hrest

/-- Settles O26: the poll follows the writes of R182, R183 and R252, and ends the command. -/
theorem registerAndResetTimeouts : Obligations.RegisterAndResetTimeouts := by
  refine ⟨fun sel s s1 hready hselect hreads => ?_, fun sel value s s1 s2 hready hdata hselect hreads => ?_,
    fun catchVector s s0 s1 hready harms hrequest hreads => reset_times_out hready harms hrequest hreads⟩
  · refine exec_of_error hready.2 ((attached_get_run hready _).trans ?_)
    refine (Cmd.bind_of_ok _ (wr32_of_writes hselect)).trans ?_
    exact awaitStatus_exhausted_seq hselect.portOnly.cfg hreads _
  · have hcfg : s2.cfg = s.cfg := hselect.portOnly.cfg.trans hdata.portOnly.cfg
    refine exec_of_error hready.2 ((attached_get_run hready _).trans ?_)
    refine (Cmd.bind_of_ok _ (wr32_of_writes hdata)).trans ?_
    refine (Cmd.bind_of_ok _ (wr32_of_writes hselect)).trans ?_
    exact awaitStatus_exhausted_seq hcfg hreads _

/-! ### An absent backend (R267) -/

/-- Settles O14: the first control word fails, which ends ATTACH before it commits anything. -/
theorem attachWithoutABackend : Obligations.AttachWithoutABackend := by
  intro code s hb hatt hvariant habsent
  obtain ⟨rest, hrun⟩ := exists_cmdAttach_run hatt hvariant
  have hwrite : portWrite32 s.cfg.addrDhcsr (dhcsrWord s.cfg attachCw) s.accept = _ :=
    transact_absent (s := s.accept) habsent
  exact ⟨_, exec_of_error hb (hrun.trans (Cmd.bind_of_error _ (wr32_of_fail hwrite))), rfl, hatt, rfl⟩

/-! ### A sub-transfer that fails (R198, R265) -/

/-- The failed counterpart of `memRead_answered`: either port failure is a memory access fault (R68, R198). -/
theorem memRead_failed {s : State} {f : PortFailure} {reached : Bool} (hb : s.cfg.backendPresent = true)
    (ho : s.choice.outcome = .failed f reached) (a : Word) (n : Nat) :
    ∃ target, memRead a n s = .error (.memoryAccessFault a) (s.afterTransaction target (.memRead a n (.fail f))) :=
  ⟨_, by rw [memRead_run, show portReadBlock a n s = _ from transact_failed hb ho]⟩

theorem readTransfers_append (l rest : List (Nat × Nat)) (s : State) :
    readTransfers (l ++ rest) s = (readTransfers l >>= fun bs => readTransfers rest >>= fun more => pure (bs ++ more)) s := by
  induction l generalizing s with
  | nil =>
    rw [List.nil_append, Cmd.bind_run]
    show _ = (readTransfers rest >>= fun more => pure ([] ++ more)) s
    rw [Cmd.bind_run]
    cases readTransfers rest s <;> rfl
  | cons p l ih =>
    rw [List.cons_append, readTransfers_cons, Cmd.bind_run, readTransfers_cons]
    cases memRead (BitVec.ofNat 32 p.1) p.2 s with
    | error e t => rfl
    | ok bs t =>
      dsimp only
      rw [ih, Cmd.bind_run]
      cases readTransfers l t with
      | error e u => rfl
      | ok bs' u =>
        dsimp only
        rw [Cmd.bind_run, Cmd.bind_run]
        cases readTransfers rest u with
        | error e v => rfl
        | ok more v => exact congrArg (EStateM.Result.ok · v) (List.append_assoc bs bs' more).symm

section
variable {l rest : List (Nat × Nat)} {p : Nat × Nat} {s : State} {f : PortFailure} {reached : Bool}
  (ha : s.answersFor l.length) (ho : (s.choiceAt l.length).outcome = .failed f reached)
include ha ho

/-- Reads of which the one after `l` fails: those of `l` and it are in the trace, and nothing after it (R198, R265). -/
theorem readTransfers_failed (hl : ∀ q ∈ l, NaturallyAligned (BitVec.ofNat 32 q.1) q.2) :
    ∃ target es, readTransfers (l ++ p :: rest) s
        = .error (.memoryAccessFault (BitVec.ofNat 32 p.1)) (s.afterEntries target es)
      ∧ es.map TraceEntry.transfer = (l ++ [p]).map fun q => some (BitVec.ofNat 32 q.1, q.2) := by
  obtain ⟨t, es, hrun, hes, _⟩ := readTransfers_answered ha hl
  have hlater := later_afterEntries s t es (by simpa using congrArg List.length hes)
  obtain ⟨target, hfail⟩ := memRead_failed (s := s.afterEntries t es) ha.1 (hlater.choice.symm ▸ ho)
    (BitVec.ofNat 32 p.1) p.2
  refine ⟨target, es ++ [.memRead (BitVec.ofNat 32 p.1) p.2 (.fail f)], ?_, ?_⟩
  · rw [readTransfers_append, Cmd.bind_of_ok _ hrun, ← State.afterEntries_append]
    refine Cmd.bind_of_error _ ?_
    rw [readTransfers_cons, hfail]
    rfl
  · rw [List.map_append, hes, List.map_append]
    rfl

/-- The same for the writes of WRMEM, each as wide as the bytes of the span that it carries (R195, R198, R265). -/
theorem writeTransfers_failed_trace {base : Nat} {bytes : List Byte}
    (hw : ∀ q ∈ l ++ [p], ((bytes.drop (q.1 - base)).take q.2).length = q.2) :
    ∃ target es, writeTransfers base bytes (l ++ p :: rest) s
        = .error (.memoryAccessFault (BitVec.ofNat 32 p.1)) (s.afterEntries target es)
      ∧ es.map TraceEntry.transfer = (l ++ [p]).map fun q => some (BitVec.ofNat 32 q.1, q.2) := by
  obtain ⟨t, hrun, _⟩ := writeTransfers_answered base bytes ha
  have hlater := later_afterEntries s t (storeEntries base bytes l) (List.length_map _)
  let failing : TraceEntry := .memWrite (BitVec.ofNat 32 p.1) ((bytes.drop (p.1 - base)).take p.2) (.fail f)
  obtain ⟨target, hfail⟩ : ∃ target, memWrite (BitVec.ofNat 32 p.1) ((bytes.drop (p.1 - base)).take p.2)
      (s.afterEntries t (storeEntries base bytes l)) = .error (.memoryAccessFault (BitVec.ofNat 32 p.1))
        ((s.afterEntries t (storeEntries base bytes l)).afterTransaction target failing) :=
    ⟨_, memWrite_failed (s := s.afterEntries t _) ha.1 _ (hlater.choice.symm ▸ ho) _⟩
  refine ⟨target, storeEntries base bytes l ++ [failing], ?_, ?_⟩
  · rw [writeTransfers_append, Cmd.bind_of_ok _ hrun, ← State.afterEntries_append, writeTransfers_cons, hfail]
    rfl
  · have hentries : ∀ q ∈ l ++ [p], some (BitVec.ofNat 32 q.1, ((bytes.drop (q.1 - base)).take q.2).length)
        = some (BitVec.ofNat 32 q.1, q.2) := fun q hq => by rw [hw q hq]
    rw [← List.map_congr_left hentries, List.map_append, List.map_append, storeEntries, List.map_map]
    rfl

end

/-- Settles O31: the span's sub-transfers are those before the failing one, it, and those that are not made. -/
theorem memoryAccessFaultAtTheFirstFailure : Obligations.MemoryAccessFaultAtTheFirstFailure := by
  intro hint h code addr len bytes s n f reached hready hhint hspan hbytes hn ha ho x
  obtain ⟨hsplit, -⟩ := (adjacentFrom_decompose addr.toNat len.toNat h.ceiling).split hn
  obtain ⟨l, hl⟩ : ∃ l, l = (decompose addr.toNat len.toNat h.ceiling).take n := ⟨_, rfl⟩
  obtain ⟨p, hp⟩ : ∃ p, p = (decompose addr.toNat len.toNat h.ceiling).getD n (0, 0) := ⟨_, rfl⟩
  rw [← hl, ← hp] at hsplit
  obtain rfl : l.length = n := hl ▸ List.length_take_of_le hn.le
  have hmem : ∀ q ∈ l ++ [p], q ∈ decompose addr.toNat len.toNat h.ceiling := fun q hq => by
    rw [hsplit, ← List.singleton_append, ← List.append_assoc]
    exact List.mem_append_left _ hq
  have hmade : ((subTransfers addr len h).take (l.length + 1)).map some
      = (l ++ [p]).map fun q => some (BitVec.ofNat 32 q.1, q.2) := by
    rw [subTransfers, ← List.map_take, hsplit, List.take_length_add_append, List.map_map]
    rfl
  have hx : x = BitVec.ofNat 32 p.1 := congrArg (fun q => BitVec.ofNat 32 q.1) hp.symm
  rw [hx, hmade]
  constructor
  · obtain ⟨target, es, hrun, hes⟩ := readTransfers_failed (s := s.accept) (p := p) ha ho fun q hq =>
      naturallyAligned_of_mem_decompose (hmem q (List.mem_append_left _ hq))
    rw [← hsplit] at hrun
    have hbody := (cmdRdmem_run hready hhint hspan).trans (Cmd.bind_of_error _ hrun)
    exact ⟨_, es, exec_of_error hready.2 hbody, rfl, hes, rfl⟩
  · obtain ⟨target, es, hrun, hes⟩ := writeTransfers_failed_trace (s := s.accept) (p := p) ha ho fun q hq =>
      length_transferBytes (hbytes ▸ hmem q hq)
    rw [← hsplit] at hrun
    have hbody : commandBody (.wrmem hint code addr len bytes) s.accept = _ :=
      (cmdWrmem_run hready hhint hspan hbytes).trans (Cmd.bind_of_error _ hrun)
    exact ⟨_, es, exec_of_error hready.2 hbody, rfl, hes, rfl⟩

end Sys2Proof.Machine
end

section
/-! SUPPORT. Which transactions of a step are answered, and what ends it (60_exceptions.md R261 to R266): a step that goes on has
had all its transactions answered; one that fails has timed out, or its last transaction failed. -/

namespace Sys2Proof.Machine

open Cmd

/-! ### Answered transactions, and one that fails after them -/

/-- `t` is `s` after transactions that were all answered. -/
def AnsweredFrom (s t : State) : Prop := ∃ target es, t = s.afterEntries target es ∧ ∀ e ∈ es, e.answered = true

/-- The failure of a poll that is exhausted: no transaction has failed (R262, R263, R266). -/
def Failure.isTimeout : Failure → Bool
  | .protocolTimeout => true
  | .registerTimeout => true
  | .resetTimeout => true
  | .linkError => false
  | .noFreeSlot => false
  | .memoryAccessFault _ => false
  | .backendUnavailable => false
  | .refused => false

/-- `t` is `s` after the transactions of a step that ends with the failure: a timeout after answered ones, or the failure of the
last one, all before it answered (R261). -/
inductive FailsFrom (s : State) : Failure → State → Prop where
  | timeout {f t} : f.isTimeout = true → AnsweredFrom s t → FailsFrom s f t
  | transaction {target before last f} : (∀ e ∈ before, e.answered = true) → last.failure = some f →
      FailsFrom s f (s.afterEntries target (before ++ [last]))

section
variable {s t u : State}

theorem AnsweredFrom.refl (s : State) : AnsweredFrom s s :=
  ⟨s.target, [], s.afterEntries_nil.symm, fun _ h => absurd h List.not_mem_nil⟩

theorem AnsweredFrom.trans (h : AnsweredFrom s t) (h' : AnsweredFrom t u) : AnsweredFrom s u := by
  obtain ⟨_, es, rfl, hes⟩ := h
  obtain ⟨target, fs, rfl, hfs⟩ := h'
  exact ⟨target, es ++ fs, s.afterEntries_append _ _ _ _, fun e he => (List.mem_append.mp he).elim (hes e) (hfs e)⟩

theorem AnsweredFrom.failsFrom {f : Failure} (h : AnsweredFrom s t) (h' : FailsFrom t f u) : FailsFrom s f u := by
  cases h' with
  | timeout hf h' => exact .timeout hf (h.trans h')
  | transaction hbefore hlast =>
    obtain ⟨_, es, rfl, hes⟩ := h
    rw [State.afterEntries_append, ← List.append_assoc]
    exact .transaction (fun e he => (List.mem_append.mp he).elim (hes e) (hbefore e)) hlast

/-- A change of the controller's registers commutes with transactions. -/
theorem AnsweredFrom.update {g : State → State} (hg : RegisterUpdate g) (h : AnsweredFrom s t) :
    AnsweredFrom (g s) (g t) := by
  obtain ⟨target, es, rfl, hes⟩ := h
  obtain ⟨hcomm, _, htrace, htick⟩ := hg s target (s.trace ++ es) (s.tick + es.length)
  exact ⟨target, es, by rw [State.afterEntries, hcomm, State.afterEntries, htrace, htick], hes⟩

theorem AnsweredFrom.portOnly (h : AnsweredFrom s t) : PortOnly s t := by
  obtain ⟨target, es, rfl, _⟩ := h
  exact ⟨target, es, rfl⟩

theorem FailsFrom.portOnly {f : Failure} (h : FailsFrom s f t) : PortOnly s t := by
  cases h with
  | timeout _ h => exact h.portOnly
  | transaction _ _ => exact ⟨_, _, rfl⟩

theorem answeredFrom_afterTransaction (s : State) (target : Target) {e : TraceEntry} (he : e.answered = true) :
    AnsweredFrom s (s.afterTransaction target e) := ⟨target, [e], rfl, fun _ h => List.mem_singleton.mp h ▸ he⟩

theorem failsFrom_afterTransaction (s : State) (target : Target) {e : TraceEntry} {f : Failure} (he : e.failure = some f) :
    FailsFrom s f (s.afterTransaction target e) :=
  .transaction (before := []) (fun _ h => absurd h List.not_mem_nil) he

end

/-- A failed transaction fails as a port failure or as a memory access fault, never with a failure of the controller's own. -/
theorem TraceEntry.failure_cases {e : TraceEntry} {f : Failure} (h : e.failure = some f) :
    f = .linkError ∨ f = .backendUnavailable ∨ ∃ a, f = .memoryAccessFault a := by
  cases e with
  | rd32 _ answer | wr32 _ _ answer =>
    cases answer with
    | ok _ => cases h
    | fail g => cases h; cases g <;> simp [PortFailure.raised]
  | memRead _ _ answer | memWrite _ _ answer =>
    cases answer with
    | ok _ => cases h
    | fail g => cases h; simp

/-! ### Steps made of transactions alone -/

/-- From every state the step succeeds with all its transactions answered, or fails with one of the failures `K` by a timeout or
at its last transaction (R15, R261). -/
def Cmd.Transacts {α : Type} (K : Failure → Bool) (c : Cmd α) : Prop :=
  ∀ s, c.Ends s (fun _ t => AnsweredFrom s t) (fun f t => K f = true ∧ FailsFrom s f t)

section
variable {α β : Type} {K : Failure → Bool}

theorem transacts_pure (a : α) : (pure a : Cmd α).Transacts K := fun s => ends_pure (AnsweredFrom.refl s)

theorem transacts_seq {x : Cmd α} {f : α → Cmd β} (hx : x.Transacts K) (hf : ∀ a, (f a).Transacts K) :
    (x >>= f).Transacts K := by
  intro s
  have hs := hx s
  unfold Cmd.Ends at hs ⊢
  rw [Cmd.bind_run]
  cases hxs : x s with
  | error e t => rw [hxs] at hs; exact hs
  | ok a t =>
    rw [hxs] at hs
    have ht := hf a t
    unfold Cmd.Ends at ht
    dsimp only
    cases hft : f a t with
    | ok b u => rw [hft] at ht; exact hs.trans ht
    | error e u => rw [hft] at ht; exact ⟨ht.1, hs.failsFrom ht.2⟩

theorem transacts_get_seq {f : State → Cmd β} (hf : ∀ s, (f s).Transacts K) : (get >>= f).Transacts K :=
  fun s => ends_get (hf s s)

/-- The failures of a transaction that a register access can raise are in `K` (R261, R267). -/
abbrev PortFailuresIn (K : Failure → Bool) : Prop := ∀ g : PortFailure, K g.raised = true

/-- One transaction whose entry is `entry`, the failure `fault` (R68). -/
theorem transaction_cases {call : State → Answer α × State} {entry : Answer α → TraceEntry} {fault : PortFailure → Failure}
    (hspec : ∀ s, ∃ target, (call s).2 = s.afterTransaction target (entry (call s).1))
    (hok : ∀ v, (entry (.ok v)).answered = true) (hfail : ∀ g, (entry (.fail g)).failure = some (fault g)) (s : State) :
    (∃ v t, call s = (.ok v, t) ∧ AnsweredFrom s t) ∨ (∃ g t, call s = (.fail g, t) ∧ FailsFrom s (fault g) t) := by
  obtain ⟨target, hs⟩ := hspec s
  cases hc : call s with
  | mk answer t =>
    rw [hc] at hs
    obtain rfl : t = s.afterTransaction target (entry answer) := hs
    cases answer with
    | ok v => exact .inl ⟨v, _, rfl, answeredFrom_afterTransaction s target (hok v)⟩
    | fail g => exact .inr ⟨g, _, rfl, failsFrom_afterTransaction s target (hfail g)⟩

/-- One register access: its failure is the port's own (R14, R261). -/
theorem orRaise_transacts (hK : PortFailuresIn K) {call : State → Answer α × State} {entry : Answer α → TraceEntry}
    (hspec : ∀ s, ∃ target, (call s).2 = s.afterTransaction target (entry (call s).1))
    (hok : ∀ v, (entry (.ok v)).answered = true) (hfail : ∀ g, (entry (.fail g)).failure = some g.raised) :
    (orRaise call).Transacts K := by
  intro s
  unfold Cmd.Ends orRaise
  rcases transaction_cases hspec hok hfail s with ⟨v, t, hc, h⟩ | ⟨g, t, hc, h⟩
  · rw [hc]; exact h
  · rw [hc]; exact ⟨hK g, h⟩

/-- One sub-transfer: its failure is a memory access fault at its address (R198, R265). -/
theorem orMemoryFault_transacts {a : Word} (hK : K (.memoryAccessFault a) = true) {call : State → Answer α × State}
    {entry : Answer α → TraceEntry} (hspec : ∀ s, ∃ target, (call s).2 = s.afterTransaction target (entry (call s).1))
    (hok : ∀ v, (entry (.ok v)).answered = true)
    (hfail : ∀ g, (entry (.fail g)).failure = some (.memoryAccessFault a)) : (orMemoryFault a call).Transacts K := by
  intro s
  unfold Cmd.Ends orMemoryFault
  rcases transaction_cases hspec hok hfail s with ⟨v, t, hc, h⟩ | ⟨g, t, hc, h⟩
  · rw [hc]; exact h
  · rw [hc]; exact ⟨hK, h⟩

section
variable (hK : ∀ a, K (.memoryAccessFault a) = true)
include hK

theorem memRead_transacts (a : Word) (n : Nat) : (memRead a n).Transacts K :=
  orMemoryFault_transacts (hK a) (portReadBlock_spec a n) (fun _ => rfl) fun _ => rfl

theorem memWrite_transacts (a : Word) (bs : List Byte) : (memWrite a bs).Transacts K :=
  orMemoryFault_transacts (hK a) (portWriteBlock_spec a bs) (fun _ => rfl) fun _ => rfl

theorem readTransfers_transacts (l : List (Nat × Nat)) : (readTransfers l).Transacts K := by
  induction l with
  | nil => exact transacts_pure []
  | cons p rest ih =>
    exact transacts_seq (memRead_transacts hK _ _) fun _ => transacts_seq ih fun _ => transacts_pure _

theorem writeTransfers_transacts (base : Nat) (bytes : List Byte) (l : List (Nat × Nat)) :
    (writeTransfers base bytes l).Transacts K := by
  induction l with
  | nil => exact transacts_pure ()
  | cons p rest ih => exact transacts_seq (memWrite_transacts hK _ _) fun _ => ih

end

variable (hK : PortFailuresIn K)
include hK

theorem rd32_transacts (a : Word) : (rd32 a).Transacts K :=
  orRaise_transacts hK (portRead32_spec a) (fun _ => rfl) fun _ => rfl

theorem wr32_transacts (a v : Word) : (wr32 a v).Transacts K :=
  orRaise_transacts hK (portWrite32_spec a v) (fun _ => rfl) fun _ => rfl

theorem writeAll_transacts (ws : List (Word × Word)) : (writeAll ws).Transacts K := by
  induction ws with
  | nil => exact transacts_pure ()
  | cons w rest ih => exact transacts_seq (wr32_transacts hK w.1 w.2) fun _ => ih

theorem poll_transacts (a : Word) (pred : Word → Bool) (n : Nat) : (poll a pred n).Transacts K := by
  induction n with
  | zero => exact transacts_pure false
  | succ n ih =>
    refine transacts_seq (rd32_transacts hK a) fun v => ?_
    split
    · exact transacts_pure true
    · exact ih

theorem awaitStatus_transacts (pred : Config → Word → Bool) {timeout : Failure} (htimeout : timeout.isTimeout = true)
    (hraised : K timeout = true) : (awaitStatus pred timeout).Transacts K := by
  refine transacts_get_seq fun s => transacts_seq (poll_transacts hK _ _ _) fun found => ?_
  cases found with
  | true => exact transacts_pure ()
  | false => exact fun u => ends_raise ⟨hraised, .timeout htimeout (AnsweredFrom.refl u)⟩

theorem scanWatchpoints_transacts (h : HaltReason) (slots : List Nat) : (scanWatchpoints h slots).Transacts K := by
  induction slots generalizing h with
  | nil => exact transacts_pure h
  | cons i rest ih =>
    refine transacts_get_seq fun s => ?_
    split
    · refine transacts_seq (rd32_transacts hK _) fun f => ?_
      split
      · exact ih _
      · exact ih h
    · exact ih h

theorem attributeHalt_transacts (h : HaltReason) : (attributeHalt h).Transacts K := by
  refine transacts_get_seq fun s => ?_
  split
  · exact scanWatchpoints_transacts hK h _
  · exact transacts_pure h

theorem sampleCache_transacts (variant : Variant) : (sampleCache variant).Transacts K := by
  refine transacts_get_seq fun s => ?_
  dsimp only
  split
  · exact transacts_seq (rd32_transacts hK _) fun _ => transacts_pure _
  · exact transacts_pure _

theorem armVectorCatch_transacts : armVectorCatch.Transacts K :=
  transacts_get_seq fun _ => transacts_seq (rd32_transacts hK _) fun _ => wr32_transacts hK _ _

end

end Sys2Proof.Machine
end

section
/-! SUPPORT. How each command ends (60_exceptions.md section 1): refused, with every slot in use, with a result, or with a failure
that its row of R260 lists; one lemma per command. -/

namespace Sys2Proof.Machine

open Cmd

/-! ### The ways a command can end -/

/-- The registers that a command ending with a failure leaves, before the transactions it has made are added (R272 (b)). -/
inductive LeftByFailure (i : Instr) (s : State) : State → Prop where
  | same : LeftByFailure i s s
  | unitEnabled {a} : i = .setbp a → LeftByFailure i s s.setFpbOn
  | dropped : i = .halt ∨ (∃ c, i = .reset c) → LeftByFailure i s s.dropHr
  | wrote (cw : ControlWord) : i = .halt ∨ (∃ m, i = .resumeStep m) → LeftByFailure i s (s.setCw cw).dropHr

/-- The command asks for a slot of its own, and there is none: no slot holds what is asked for, and none is free (R264). -/
def State.noSlotFor (s : State) : Instr → Prop
  | .setbp a => s.bpHolding (maskedAddress s.cfg a) = none ∧ s.bpFree = none
  | .setwp size access a => ∃ kind, accessOf access = some kind
      ∧ s.wpHolding ⟨true, a, sizeClassOf size, kind⟩ = none ∧ s.wpFree = none
  | _ => False

/-- Everything that can be said of the answer to a command accepted in `s`, and of the transactions before it. -/
inductive Ending (i : Instr) (s : State) : Response → State → Prop where
  | refused : refusedRequest s i = true → Ending i s (.failed .refused) s
  | full : refusedRequest s i = false → s.noSlotFor i → Ending i s (.failed .noFreeSlot) s
  | detached {t} : i = .detach → refusedRequest s i = false → Ending i s (.ok .none) t
  | answered {r t} (es : List TraceEntry) : refusedRequest s i = false → t.trace = s.trace ++ es →
      (∀ e ∈ es, e.answered = true) → Ending i s (.ok r) t
  | failed {b f t} : refusedRequest s i = false → mayEndWith i f = true → LeftByFailure i s b → FailsFrom b f t →
      Ending i s (.failed f) t

/-- Command `i`, accepted in `s0` and now in `s`, ends in one of these ways. -/
abbrev Endings (i : Instr) (s0 : State) (c : Cmd Result) (s : State) : Prop :=
  c.Ends s (fun r t => Ending i s0 (.ok r) t) (fun f t => Ending i s0 (.failed f) t)

/-- Command `i`, accepted in `s0`, has passed its checks and got to `s`: the registers are those of `b`, and every transaction so
far has been answered. -/
structure InProgress (i : Instr) (s0 b s : State) : Prop where
  meant : refusedRequest s0 i = false
  trace : b.trace = s0.trace
  answered : AnsweredFrom b s

section
variable {i : Instr} {s0 b s : State}

theorem inProgress_start (h : refusedRequest s i = false) : InProgress i s s s := ⟨h, rfl, AnsweredFrom.refl s⟩

/-- A command that ends here with a result. -/
theorem InProgress.done (h : InProgress i s0 b s) (r : Result) : Ending i s0 (.ok r) s := by
  obtain ⟨hmeant, htrace, target, es, rfl, hes⟩ := h
  exact .answered es hmeant (congrArg (· ++ es) htrace) hes

theorem InProgress.update {g : State → State} (hg : RegisterUpdate g) (h : InProgress i s0 b s) :
    InProgress i s0 (g b) (g s) := by
  obtain ⟨_, _, htrace, _⟩ := hg b b.target b.trace b.tick
  exact ⟨h.meant, htrace.trans h.trace, h.answered.update hg⟩

/-- A register access can fail in every command that may end with `LinkError` (R260). -/
theorem mayEndWith_raised (h : mayEndWith i .linkError = true) : PortFailuresIn (mayEndWith i) := fun g => by
  cases g <;> exact h

/-! ### Steps of a command on its way -/

section
variable {α β : Type} {Q : β → State → Prop} {E : Failure → State → Prop}

/-- A check, with what its outcome says of the request. -/
theorem Cmd.ends_refuseIf_of {c : Bool} {f : Unit → Cmd β} (he : c = true → E .refused s)
    (hf : c = false → (f ()).Ends s Q E) : (refuseIf c >>= f).Ends s Q E := by
  cases c with
  | true => exact he rfl
  | false => exact hf rfl

theorem Cmd.ends_orRefuse_of {o : Option α} {f : α → Cmd β} (he : o = none → E .refused s)
    (hf : ∀ a, o = some a → (f a).Ends s Q E) : (orRefuse o >>= f).Ends s Q E := by
  cases o with
  | none => exact he rfl
  | some a => exact hf a rfl

theorem Cmd.ends_requireAttached_of {f : Unit → Cmd β} (he : s.attached = false → E .refused s)
    (hf : s.attached = true → (f ()).Ends s Q E) : (requireAttached >>= f).Ends s Q E := by
  unfold Cmd.Ends
  rw [Cmd.bind_run, requireAttached_run]
  cases h : s.attached with
  | true => exact hf h
  | false => exact he h

end

/-- The start of a command that only needs a handle (R268 (b)). -/
theorem ends_attached {f : Unit → Cmd Result} (hi : refusedRequest s i = !s.attached)
    (hf : InProgress i s s s → Endings i s (f ()) s) : Endings i s (requireAttached >>= f) s :=
  ends_requireAttached_of (fun h => .refused (by rw [hi, h]; rfl)) fun h =>
    hf (inProgress_start (by rw [hi, h]; rfl))

/-- A step made of transactions; if it fails, the command leaves the registers as they are (R261). -/
theorem ends_transacts {α : Type} {x : Cmd α} {f : α → Cmd Result} (h : InProgress i s0 b s) (hl : LeftByFailure i s0 b)
    (hx : x.Transacts (mayEndWith i)) (hf : ∀ a t, InProgress i s0 b t → Endings i s0 (f a) t) :
    Endings i s0 (x >>= f) s := by
  have hs := hx s
  unfold Cmd.Ends at hs
  cases hxs : x s with
  | ok a t => rw [hxs] at hs; exact ends_bind_ok hxs (hf a t ⟨h.meant, h.trace, h.answered.trans hs⟩)
  | error e t =>
    rw [hxs] at hs
    exact .of_error (bind_of_error f hxs) (.failed h.meant hs.1 hl (h.answered.failsFrom hs.2))

theorem ends_update {g : State → State} {f : Unit → Cmd Result} (h : InProgress i s0 b s) (hg : RegisterUpdate g)
    (hf : ∀ t, InProgress i s0 (g b) t → Endings i s0 (f ()) t) : Endings i s0 (modify g >>= f) s :=
  ends_bind_ok (modify_run s g) (hf _ (h.update hg))

section
variable {f : Unit → Cmd Result} (h : InProgress i s0 b s) (hl : LeftByFailure i s0 b)
  (hport : PortFailuresIn (mayEndWith i))
include h hl hport

/-- `WriteCW` (R151). -/
theorem ends_commandWord {cw : ControlWord} (hf : ∀ t, InProgress i s0 (b.setCw cw) t → Endings i s0 (f ()) t) :
    Endings i s0 (writeCw cw >>= f) s := by
  refine ends_bind_assoc (ends_get (ends_bind_assoc ?_))
  exact ends_transacts h hl (wr32_transacts hport _ _) fun _ t ht => ends_update ht (registerUpdate_setCw cw) hf

/-- `Capture` (R238). -/
theorem ends_snapshot (hf : ∀ reason t, InProgress i s0 (b.setHr reason) t → Endings i s0 (f ()) t) :
    Endings i s0 (capture >>= f) s := by
  refine ends_bind_congr (capture_run s) (ends_bind_assoc ?_)
  refine ends_transacts h hl (rd32_transacts hport _) fun dfsr t1 h1 => ends_bind_assoc ?_
  refine ends_transacts h1 hl (rd32_transacts hport _) fun hfsr t2 h2 => ends_bind_assoc ?_
  refine ends_transacts h2 hl (attributeHalt_transacts hport _) fun reason t3 h3 => ends_bind_assoc ?_
  exact ends_transacts h3 hl (wr32_transacts hport _ _) fun _ t4 h4 =>
    ends_update h4 (registerUpdate_setHr reason) (hf reason)

/-- The lazy enable leaves the unit on (R214). -/
theorem ends_unitEnabled (hf : ∀ t, InProgress i s0 b.setFpbOn t → Endings i s0 (f ()) t) :
    Endings i s0 (enableFpb >>= f) s := by
  by_cases hon : s.fpbOn = true
  · refine ends_bind_ok (enableFpb_on hon) (hf s ?_)
    rwa [setFpbOn_of_on (h.answered.portOnly.fpbOn ▸ hon)]
  · refine ends_bind_congr (enableFpb_run_off hon) (ends_bind_assoc ?_)
    exact ends_transacts h hl (wr32_transacts hport _ _) fun _ t ht => ends_update ht registerUpdate_setFpbOn hf

end

end

/-! ### The commands -/

section
variable (s : State)

theorem attach_ending (code : BitVec 2) : Endings (.attach code) s (cmdAttach code) s := by
  have hport : PortFailuresIn (mayEndWith (.attach code)) := mayEndWith_raised rfl
  unfold cmdAttach
  refine ends_get <| ends_refuseIf_of (fun h => .refused (by simp [refusedRequest, h])) fun hdet => ?_
  refine ends_orRefuse_of (fun h => .refused (by simp [refusedRequest, h])) fun variant hv => ?_
  have h0 : InProgress (.attach code) s s s := inProgress_start (by simp [refusedRequest, hdet, hv])
  refine ends_transacts h0 .same (wr32_transacts hport _ _) fun _ t1 h1 => ?_
  refine ends_transacts h1 .same (awaitStatus_transacts hport _ rfl rfl) fun _ t2 h2 => ?_
  refine ends_transacts h2 .same (rd32_transacts hport _) fun fpCtrl t3 h3 => ?_
  refine ends_transacts h3 .same (rd32_transacts hport _) fun dwtCtrl t4 h4 => ?_
  refine ends_transacts h4 .same (writeAll_transacts hport _) fun _ t5 h5 => ?_
  refine ends_transacts h5 .same (sampleCache_transacts hport variant) fun cachePresent t6 h6 => ?_
  exact ends_update h6 (registerUpdate_commitAttach _ _ _ _ _) fun t7 h7 => ends_pure (h7.done _)

/-- DETACH ignores every failure of its writes (R158, R274). -/
theorem detach_ending : Endings .detach s cmdDetach s := by
  unfold cmdDetach
  refine ends_attached rfl fun h0 => ends_get ?_
  exact ends_bind_ok (attemptAll_run _ s) <| ends_bind_ok (modify_run _ _) <| ends_pure (.detached rfl h0.meant)

theorem halt_ending : Endings .halt s cmdHalt s := by
  have hport : PortFailuresIn (mayEndWith .halt) := mayEndWith_raised rfl
  unfold cmdHalt
  refine ends_attached rfl fun h0 => ends_get ?_
  refine ends_transacts h0 .same (rd32_transacts hport _) fun status t1 h1 => ?_
  split
  · have hrun := captureOnce_run t1
    split at hrun
    · exact ends_bind_ok hrun (ends_pure (h1.done _))
    · refine ends_bind_congr hrun (ends_snapshot h1 .same hport fun reason t2 h2 => ends_pure (h2.done _))
  · refine ends_update h1 registerUpdate_dropHr fun t2 h2 => ?_
    refine ends_commandWord h2 (.dropped (.inl rfl)) hport fun t3 h3 => ?_
    refine ends_transacts h3 (.wrote _ (.inl rfl)) (awaitStatus_transacts hport _ rfl rfl) fun _ t4 h4 => ?_
    exact ends_snapshot h4 (.wrote _ (.inl rfl)) hport fun reason t5 h5 => ends_pure (h5.done _)

theorem resume_ending (mask : Bool) : Endings (.resume mask) s (cmdResume mask) s := by
  unfold cmdResume
  refine ends_attached rfl fun h0 => ends_get ?_
  refine ends_commandWord h0 .same (mayEndWith_raised rfl) fun t1 h1 => ?_
  exact ends_update h1 registerUpdate_dropHr fun t2 h2 => ends_pure (h2.done _)

theorem resumeStep_ending (mask : Bool) : Endings (.resumeStep mask) s (cmdResumeStep mask) s := by
  have hport : PortFailuresIn (mayEndWith (.resumeStep mask)) := mayEndWith_raised rfl
  have htimeout : mayEndWith (.resumeStep mask) .protocolTimeout = true := by cases mask <;> rfl
  have wrote : ∀ cw, LeftByFailure (.resumeStep mask) s (s.setCw cw).dropHr := fun cw => .wrote cw (.inr ⟨mask, rfl⟩)
  unfold cmdResumeStep
  refine ends_attached rfl fun h0 => ends_get ?_
  refine ends_commandWord h0 .same hport fun t1 h1 => ends_update h1 registerUpdate_dropHr fun t2 h2 => ?_
  refine ends_transacts h2 (wrote _) (awaitStatus_transacts hport _ rfl htimeout) fun _ t3 h3 => ends_get ?_
  refine ends_commandWord h3 (wrote _) hport fun t4 h4 => ?_
  exact ends_snapshot h4 (wrote _) hport fun reason t5 h5 => ends_pure (h5.done _)

theorem reset_ending (catchVector : Bool) : Endings (.reset catchVector) s (cmdReset catchVector) s := by
  have hport : PortFailuresIn (mayEndWith (.reset catchVector)) := mayEndWith_raised rfl
  have requested : ∀ t, InProgress (.reset catchVector) s s t → Endings (.reset catchVector) s
      (do wr32 s.cfg.addrAircr (resetWord s.cfg)
          modify State.dropHr
          awaitStatus statusResetSeen .resetTimeout
          pure .none) t := by
    intro t ht
    refine ends_transacts ht .same (wr32_transacts hport _ _) fun _ t1 h1 => ?_
    refine ends_update h1 registerUpdate_dropHr fun t2 h2 => ?_
    refine ends_transacts h2 (.dropped (.inr ⟨_, rfl⟩)) (awaitStatus_transacts hport _ rfl rfl) fun _ t3 h3 => ?_
    exact ends_pure (h3.done _)
  unfold cmdReset
  refine ends_attached rfl fun h0 => ends_get ?_
  cases catchVector with
  | false => exact requested s h0
  | true => exact ends_transacts h0 .same (armVectorCatch_transacts hport) fun _ => requested

theorem rdreg_ending (sel : BitVec 7) : Endings (.rdreg sel) s (cmdRdreg sel) s := by
  have hport : PortFailuresIn (mayEndWith (.rdreg sel)) := mayEndWith_raised rfl
  unfold cmdRdreg
  refine ends_attached rfl fun h0 => ends_get ?_
  refine ends_transacts h0 .same (wr32_transacts hport _ _) fun _ t1 h1 => ?_
  refine ends_transacts h1 .same (awaitStatus_transacts hport _ rfl rfl) fun _ t2 h2 => ?_
  exact ends_transacts h2 .same (rd32_transacts hport _) fun _ t3 h3 => ends_pure (h3.done _)

theorem wrreg_ending (sel : BitVec 7) (value : Word) : Endings (.wrreg sel value) s (cmdWrreg sel value) s := by
  have hport : PortFailuresIn (mayEndWith (.wrreg sel value)) := mayEndWith_raised rfl
  unfold cmdWrreg
  refine ends_attached rfl fun h0 => ends_get ?_
  refine ends_transacts h0 .same (wr32_transacts hport _ _) fun _ t1 h1 => ?_
  refine ends_transacts h1 .same (wr32_transacts hport _ _) fun _ t2 h2 => ?_
  exact ends_transacts h2 .same (awaitStatus_transacts hport _ rfl rfl) fun _ t3 h3 => ends_pure (h3.done _)

/-- A span is too long exactly if it passes the top of the address space (R191, R268 (e)). -/
theorem refusedRequest_rdmem (hint : BitVec 2) (addr len : Word) : refusedRequest s (.rdmem hint addr len)
    = (!s.attached || (hintOf hint).isNone || spanTooLong addr len) := rfl

theorem refusedRequest_wrmem (hint : BitVec 2) (code : Bool) (addr len : Word) (bytes : List Byte) :
    refusedRequest s (.wrmem hint code addr len bytes)
      = (!s.attached || (hintOf hint).isNone || spanTooLong addr len || bytes.length != len.toNat) := rfl

theorem rdmem_ending (hint : BitVec 2) (addr len : Word) :
    Endings (.rdmem hint addr len) s (cmdRdmem hint addr len) s := by
  unfold cmdRdmem
  refine ends_requireAttached_of (fun h => .refused (by simp [refusedRequest_rdmem, h])) fun hatt => ?_
  refine ends_orRefuse_of (fun h => .refused (by simp [refusedRequest_rdmem, h])) fun ceiling hhint => ?_
  refine ends_refuseIf_of (fun h => .refused (by simp [refusedRequest_rdmem, h])) fun hspan => ?_
  have h0 : InProgress (.rdmem hint addr len) s s s :=
    inProgress_start (by simp [refusedRequest_rdmem, hatt, hhint, hspan])
  exact ends_transacts h0 .same (readTransfers_transacts (fun _ => rfl) _) fun _ t1 h1 => ends_pure (h1.done _)

theorem wrmem_ending (hint : BitVec 2) (code : Bool) (addr len : Word) (bytes : List Byte) :
    Endings (.wrmem hint code addr len bytes) s (cmdWrmem hint code addr len bytes) s := by
  unfold cmdWrmem
  refine ends_requireAttached_of (fun h => .refused (by simp [refusedRequest_wrmem, h])) fun hatt => ?_
  refine ends_orRefuse_of (fun h => .refused (by simp [refusedRequest_wrmem, h])) fun ceiling hhint => ?_
  refine ends_refuseIf_of (fun h => .refused (by simp [refusedRequest_wrmem, h])) fun hspan => ?_
  refine ends_refuseIf_of (fun h => .refused (by simp [refusedRequest_wrmem, h])) fun hbytes => ?_
  have h0 : InProgress (.wrmem hint code addr len bytes) s s s :=
    inProgress_start (by simp [refusedRequest_wrmem, hatt, hhint, hspan, hbytes])
  refine ends_transacts h0 .same (writeTransfers_transacts (fun _ => rfl) _ _ _) fun _ t1 h1 => ends_get ?_
  split
  · exact ends_transacts h1 .same (writeAll_transacts (mayEndWith_raised rfl) _) fun _ t2 h2 => ends_pure (h2.done _)
  · exact ends_pure (h1.done _)

theorem setbp_ending (a : Word) : Endings (.setbp a) s (cmdSetbp a) s := by
  have hport : PortFailuresIn (mayEndWith (.setbp a)) := mayEndWith_raised rfl
  unfold cmdSetbp
  refine ends_attached rfl fun h0 => ends_get ?_
  dsimp only
  split
  · exact ends_pure (h0.done _)
  next hheld =>
    split
    next hfree => exact ends_raise (.full h0.meant ⟨hheld, hfree⟩)
    · refine ends_unitEnabled h0 .same hport fun t1 h1 => ?_
      refine ends_transacts h1 (.unitEnabled rfl) (wr32_transacts hport _ _) fun _ t2 h2 => ?_
      exact ends_update h2 (registerUpdate_setBp _ _) fun t3 h3 => ends_pure (h3.done _)

theorem clrbp_ending (slot : BitVec 4) : Endings (.clrbp slot) s (cmdClrbp slot) s := by
  unfold cmdClrbp
  refine ends_requireAttached_of (fun h => .refused (by simp [refusedRequest, h])) fun hatt => ends_get ?_
  refine ends_refuseIf_of (fun h => .refused (by simp [refusedRequest, of_decide_eq_true h])) fun hslot => ?_
  have h0 : InProgress (.clrbp slot) s s s :=
    inProgress_start (by simpa [refusedRequest, hatt] using of_decide_eq_false hslot)
  refine ends_transacts h0 .same (wr32_transacts (mayEndWith_raised rfl) _ _) fun _ t1 h1 => ?_
  exact ends_update h1 (registerUpdate_setBp _ _) fun t2 h2 => ends_pure (h2.done _)

/-- Only a doubleword has no words, and only in the newer encoding (R136, R225). -/
theorem of_armWrites_eq_none {cfg : Config} {encoding : WpEncoding} {i : Nat} {size : SizeClass} {kind : AccessType}
    (h : armWrites cfg encoding i size kind = none) : encoding = .v2 ∧ size = .doubleword := by
  cases encoding with
  | legacy => cases h
  | v2 =>
    cases size with
    | doubleword => exact ⟨rfl, rfl⟩
    | byte | halfword | word => cases h

theorem setwp_ending (size access : BitVec 2) (a : Word) :
    Endings (.setwp size access a) s (cmdSetwp size access a) s := by
  unfold cmdSetwp
  refine ends_requireAttached_of (fun h => .refused (by simp [refusedRequest, h])) fun hatt => ends_get ?_
  refine ends_orRefuse_of (fun h => .refused (by simp [refusedRequest, h])) fun kind hkind => ?_
  refine ends_refuseIf_of (fun h => .refused (by simp [refusedRequest, h])) fun hsize => ?_
  have h0 : InProgress (.setwp size access a) s s s :=
    inProgress_start (by simp [refusedRequest, hatt, hkind, hsize])
  dsimp only
  split
  · exact ends_pure (h0.done _)
  next hheld =>
    split
    next hfree => exact ends_raise (.full h0.meant ⟨kind, hkind, hheld, hfree⟩)
    · refine ends_orRefuse_of (fun h => ?_) fun arming _ => ?_
      · obtain ⟨henc, hdouble⟩ := of_armWrites_eq_none h
        exact .refused (by simp [refusedRequest, henc, hdouble])
      refine ends_transacts h0 .same (writeAll_transacts (mayEndWith_raised rfl) _) fun _ t1 h1 => ?_
      exact ends_update h1 (registerUpdate_setWp _ _) fun t2 h2 => ends_pure (h2.done _)

theorem clrwp_ending (slot : BitVec 4) : Endings (.clrwp slot) s (cmdClrwp slot) s := by
  unfold cmdClrwp
  refine ends_requireAttached_of (fun h => .refused (by simp [refusedRequest, h])) fun hatt => ends_get ?_
  refine ends_refuseIf_of (fun h => .refused (by simp [refusedRequest, of_decide_eq_true h])) fun hslot => ?_
  have h0 : InProgress (.clrwp slot) s s s :=
    inProgress_start (by simpa [refusedRequest, hatt] using of_decide_eq_false hslot)
  refine ends_transacts h0 .same (wr32_transacts (mayEndWith_raised rfl) _ _) fun _ t1 h1 => ?_
  exact ends_update h1 (registerUpdate_setWp _ _) fun t2 h2 => ends_pure (h2.done _)

theorem haltreason_ending : Endings .haltreason s cmdHaltreason s := by
  have hport : PortFailuresIn (mayEndWith .haltreason) := mayEndWith_raised rfl
  unfold cmdHaltreason
  refine ends_attached rfl fun h0 => ends_get ?_
  split
  · exact ends_pure (h0.done _)
  · refine ends_transacts h0 .same (rd32_transacts hport _) fun status t1 h1 => ?_
    split
    · exact ends_snapshot h1 .same hport fun reason t2 h2 => ends_get (ends_pure (h2.done _))
    · exact ends_pure (h1.done _)

end

theorem commandBody_ending (i : Instr) (s : State) : Endings i s (commandBody i) s := by
  cases i with
  | attach variant => exact attach_ending s variant
  | detach => exact detach_ending s
  | halt => exact halt_ending s
  | resume mask => exact resume_ending s mask
  | resumeStep mask => exact resumeStep_ending s mask
  | reset catchVector => exact reset_ending s catchVector
  | rdreg sel => exact rdreg_ending s sel
  | wrreg sel value => exact wrreg_ending s sel value
  | rdmem hint addr len => exact rdmem_ending s hint addr len
  | wrmem hint code addr len bytes => exact wrmem_ending s hint code addr len bytes
  | setbp codeAddress => exact setbp_ending s codeAddress
  | clrbp slot => exact clrbp_ending s slot
  | setwp size access address => exact setwp_ending s size access address
  | clrwp slot => exact clrwp_ending s slot
  | haltreason => exact haltreason_ending s

end Sys2Proof.Machine
end

section
/-! SUPPORT. The answers to commands (60_exceptions.md R260, R261, R264, R268, R270, R272): what the response says about the
transactions of its command and about the registers it leaves. -/

namespace Sys2Proof.Machine

/-! ### Commands as a whole -/

theorem Cmd.Ends.and {α : Type} {c : Cmd α} {s : State} {Q Q' : α → State → Prop} {E E' : Failure → State → Prop}
    (h : c.Ends s Q E) (h' : c.Ends s Q' E') : c.Ends s (fun a t => Q a t ∧ Q' a t) (fun f t => E f t ∧ E' f t) := by
  unfold Cmd.Ends at *
  cases hc : c s with
  | ok a t => rw [hc] at h h'; exact ⟨h, h'⟩
  | error f t => rw [hc] at h h'; exact ⟨h, h'⟩

/-- Whether a request has a meaning does not depend on a command being in progress. -/
theorem refusedRequest_accept (s : State) (i : Instr) : refusedRequest s.accept i = refusedRequest s i := by
  cases i <;> rfl

section
variable {i : Instr} {s t : State}

/-- A command that is accepted has its outcome and its ending, with one response, and is answered with it (R32). -/
theorem exec_ending (hb : s.busy = false) (h : exec i s = .next t) :
    ∃ r u, CommandOutcome i s.accept r u ∧ Ending i s.accept r u ∧ t = u.deliver r := by
  have hends := (commandBody_outcomes i s.accept).and (commandBody_ending i s.accept)
  unfold Cmd.Ends at hends
  cases hc : commandBody i s.accept with
  | ok r u =>
    rw [hc] at hends
    exact ⟨_, u, hends.1, hends.2, Host.Outcome.next.inj (h.symm.trans (exec_of_ok hb hc))⟩
  | error f u =>
    rw [hc] at hends
    exact ⟨_, u, hends.1, hends.2, Host.Outcome.next.inj (h.symm.trans (exec_of_error hb hc))⟩

/-- The ending of a command whose response is known. -/
theorem exec_ending_of_responses {r : Response} (hb : s.busy = false) (h : exec i s = .next t)
    (hr : t.responses = s.responses ++ [r]) : ∃ u, Ending i s.accept r u ∧ t = u.deliver r := by
  obtain ⟨p, u, ho, he, rfl⟩ := exec_ending hb h
  rw [State.deliver_responses, ho.responses] at hr
  obtain rfl : p = r := by simpa using hr
  exact ⟨u, he, rfl⟩

/-- Every outcome is a change of registers and then transactions: the trace grows by what they are, and neither configuration,
commands nor script are touched (R19, R20, R302). -/
theorem CommandOutcome.frame {r : Response} (ho : CommandOutcome i s r t) : ∃ es, t.trace = s.trace ++ es
    ∧ t.tick = s.tick + es.length ∧ t.cfg = s.cfg ∧ t.commands = s.commands ∧ t.env = s.env := by
  cases ho with
  | attachFailed _ h => obtain ⟨_, es, rfl⟩ := h; exact ⟨es, rfl, rfl, rfl, rfl, rfl⟩
  | detached h => obtain ⟨_, es, rfl⟩ := h; exact ⟨es, rfl, rfl, rfl, rfl, rfl⟩
  | unchanged h | attached h | captured _ _ _ h | dropped _ h | wrote _ _ h | wroteAndCaptured _ _ _ _ _ h
  | unitEnabled h | breakpointSet _ _ _ h | breakpointCleared h | watchpointSet _ _ _ _ _ h | watchpointCleared h =>
    obtain ⟨⟨_, es, rfl⟩, _⟩ := h
    exact ⟨es, rfl, rfl, rfl, rfl, rfl⟩

/-- Settles O9: a command is answered once, with what its outcome left. -/
theorem everyCommandIsAnsweredOnce : Obligations.EveryCommandIsAnsweredOnce := by
  intro i s hb
  have hexec := exec_eq_runCommand i s
  obtain ⟨r, u, ho, _, ht⟩ := exec_ending hb hexec
  obtain ⟨es, htrace, htick, hcfg, hcommands, henv⟩ := ho.frame
  rw [ht] at hexec
  exact ⟨_, r, es, hexec, congrArg (· ++ [r]) ho.responses, rfl, htrace, htick, hcfg, hcommands, henv⟩

/-! ### Requests with no meaning (R268) -/

/-- The failures that are told from the port's answers: timeouts and the failures of transactions. -/
theorem FailsFrom.cases {f : Failure} (h : FailsFrom s f t) :
    f.isTimeout = true ∨ f = .linkError ∨ f = .backendUnavailable ∨ ∃ a, f = .memoryAccessFault a := by
  cases h with
  | timeout hf _ => exact .inl hf
  | transaction _ hlast => exact .inr (TraceEntry.failure_cases hlast)

theorem FailsFrom.ne_refused {f : Failure} (h : FailsFrom s f t) : f ≠ .refused := by
  rintro rfl
  simpa [Failure.isTimeout] using h.cases

theorem FailsFrom.ne_noFreeSlot {f : Failure} (h : FailsFrom s f t) : f ≠ .noFreeSlot := by
  rintro rfl
  simpa [Failure.isTimeout] using h.cases

/-- A request with no meaning ends before its command has done anything. -/
theorem Ending.of_refusedRequest {r : Response} (he : Ending i s r t) (hmeant : refusedRequest s i = true) :
    r = .failed .refused ∧ t = s := by
  cases he with
  | refused _ => exact ⟨rfl, rfl⟩
  | full h _ | detached _ h | answered _ h _ _ | failed h _ _ _ => exact absurd hmeant (by simp [h])

/-- Every other command has another answer. -/
theorem Ending.ne_refused {r : Response} (he : Ending i s r t) (hmeant : refusedRequest s i = false) :
    r ≠ .failed .refused := by
  cases he with
  | refused h => exact absurd h (by simp [hmeant])
  | full _ _ | detached _ _ | answered _ _ _ _ => simp
  | failed _ _ _ hf => simpa using hf.ne_refused

/-- Settles O7: of the endings of a command, the refusal is that of a request with no meaning. -/
theorem refusedExactlyWhenMeaningless : Obligations.RefusedExactlyWhenMeaningless := by
  intro i s hb
  have hexec := exec_eq_runCommand i s
  obtain ⟨r, u, ho, he, ht⟩ := exec_ending hb hexec
  rw [ht] at hexec
  refine ⟨fun hmeant => ?_, fun hmeant => ?_, fun m rest e hc hd => step_malformed hb hc hd⟩
  · obtain ⟨rfl, rfl⟩ := he.of_refusedRequest ((refusedRequest_accept s i).trans hmeant)
    exact hexec
  · exact ⟨_, r, hexec, congrArg (· ++ [r]) ho.responses, he.ne_refused ((refusedRequest_accept s i).trans hmeant)⟩

/-! ### Failures (R260, R261, R272) -/

/-- Settles O10: each ending that is a failure is one that the row of its kind lists the command for. -/
theorem failureKindsOfEachCommand : Obligations.FailureKindsOfEachCommand := by
  intro i s t f hb h hr
  obtain ⟨u, he, _⟩ := exec_ending_of_responses hb h hr
  cases he with
  | refused _ => rfl
  | full _ hfull =>
    cases i with
    | setbp | setwp => rfl
    | _ => exact hfull.elim
  | failed _ hkind _ _ => exact hkind

theorem LeftByFailure.trace (h : LeftByFailure i s t) : t.trace = s.trace := by
  cases h <;> rfl

/-- A failure of the controller's own is neither a port failure nor a memory access fault. -/
theorem not_transaction_of_own {f : Failure} (hf : f.isTimeout = true ∨ f = .noFreeSlot ∨ f = .refused) :
    (∀ g : PortFailure, Response.failed f ≠ .failed g.raised) ∧ ∀ a, Response.failed f ≠ .failed (.memoryAccessFault a) := by
  refine ⟨fun g h => ?_, fun a h => ?_⟩
  · cases h
    cases g <;> simp [PortFailure.raised, Failure.isTimeout] at hf
  · cases h
    simp [Failure.isTimeout] at hf

/-- Outside DETACH the first transaction that fails is the last one, and the response carries its failure (R261, R265). -/
theorem Ending.trace_cases {r : Response} (he : Ending i s r t) (hi : i ≠ .detach) : ∃ es, t.trace = s.trace ++ es ∧
    (((∀ e ∈ es, e.answered = true) ∧ (∀ f : PortFailure, r ≠ .failed f.raised)
        ∧ ∀ a, r ≠ .failed (.memoryAccessFault a)) ∨
      ∃ before last f, es = before ++ [last] ∧ (∀ e ∈ before, e.answered = true) ∧ last.failure = some f
        ∧ r = .failed f) := by
  have none_made : ∀ e ∈ ([] : List TraceEntry), e.answered = true := fun _ h => absurd h List.not_mem_nil
  cases he with
  | detached h _ => exact absurd h hi
  | refused _ => exact ⟨[], (List.append_nil _).symm, .inl ⟨none_made, not_transaction_of_own (.inr (.inr rfl))⟩⟩
  | full _ _ => exact ⟨[], (List.append_nil _).symm, .inl ⟨none_made, not_transaction_of_own (.inr (.inl rfl))⟩⟩
  | answered es _ htrace hes => exact ⟨es, htrace, .inl ⟨hes, fun _ => nofun, fun _ => nofun⟩⟩
  | failed _ _ hleft hf =>
    cases hf with
    | timeout htimeout h =>
      obtain ⟨_, es, rfl, hes⟩ := h
      exact ⟨es, congrArg (· ++ es) hleft.trace, .inl ⟨hes, not_transaction_of_own (.inl htimeout)⟩⟩
    | transaction hbefore hlast =>
      exact ⟨_, congrArg (· ++ _) hleft.trace, .inr ⟨_, _, _, rfl, hbefore, hlast, rfl⟩⟩

/-- Settles O8: DETACH is its writes, whatever becomes of each; for every other command the ending says it. -/
theorem theFirstFailedTransactionEndsTheCommand : Obligations.TheFirstFailedTransactionEndsTheCommand := by
  intro i s t hb h
  obtain ⟨r, u, ho, he, rfl⟩ := exec_ending hb h
  have hresponses : (u.deliver r).responses = s.responses ++ [r] := congrArg (· ++ [r]) ho.responses
  by_cases hi : i = .detach
  · subst hi
    cases hatt : s.attached with
    | false =>
      obtain ⟨es, htrace, _⟩ := ho.frame
      exact ⟨es, r, htrace, hresponses, fun _ => nofun, fun hne => absurd rfl hne⟩
    | true =>
      obtain ⟨t, es, hdetach, hanswer, _, _, _, _, _, _, htrace, hwrites⟩ := detachAlwaysCompletes s ⟨hatt, hb⟩
      obtain rfl := Host.Outcome.next.inj (h.symm.trans hdetach)
      refine ⟨es, .ok .none, htrace, hanswer, fun _ _ => ⟨rfl, ?_⟩, fun hne => absurd rfl hne⟩
      simpa [Nat.add_assoc] using congrArg List.length hwrites
  · obtain ⟨es, htrace, hes⟩ := he.trace_cases hi
    exact ⟨es, r, htrace, hresponses, fun h => absurd h hi, fun _ => hes⟩

/-- Settles O12: a failing command leaves one of a few sets of registers, and its transactions touch none. -/
theorem aFailureLeavesTheHandle : Obligations.AFailureLeavesTheHandle := by
  intro i s t f hb h hr
  obtain ⟨u, he, rfl⟩ := exec_ending_of_responses hb h hr
  cases he with
  | refused _ | full _ _ => simp
  | failed _ _ hleft hf =>
    obtain ⟨_, _, rfl⟩ := hf.portOnly
    cases hleft with
    | same => simp
    | unitEnabled hi => simp [hi]
    | dropped hi => rcases hi with rfl | ⟨_, rfl⟩ <;> simp
    | wrote cw hi => rcases hi with rfl | ⟨_, rfl⟩ <;> simp

end

/-! ### A full slot table (R264) -/

section
variable {s : State}

theorem State.bpFree_eq_none_iff : s.bpFree = none ↔ ∀ j, j < s.nBp.toNat → (s.bpSlot j).inUse = true := by
  simp [State.bpFree]

theorem State.wpFree_eq_none_iff : s.wpFree = none ↔ ∀ j, j < s.nWp.toNat → (s.wpSlot j).inUse = true := by
  simp [State.wpFree]

/-- As many slots below the count are in use as there are exactly if none is free (R218). -/
theorem State.breakpointsInUse_eq_iff : s.breakpointsInUse = s.nBp.toNat ↔ s.bpFree = none := by
  have hall := List.length_filter_eq_length_iff (p := fun i => (s.bpSlot i).inUse) (l := List.range s.nBp.toNat)
  rw [List.length_range] at hall
  exact hall.trans (by simp [State.bpFree])

/-- `NoFreeSlot` is the answer to a command that asks for a slot there is none for, and nothing has been done (R264). -/
theorem exec_noFreeSlot {i : Instr} {t : State} (hb : s.busy = false) (h : exec i s = .next t)
    (hr : t.responses = s.responses ++ [.failed .noFreeSlot]) :
    s.accept.noSlotFor i ∧ t = s.deliver (.failed .noFreeSlot) := by
  obtain ⟨u, he, rfl⟩ := exec_ending_of_responses hb h hr
  cases he with
  | full _ hfull => exact ⟨hfull, rfl⟩
  | failed _ _ _ hf => exact absurd rfl hf.ne_noFreeSlot

/-- A new triple in a full table fails at once (R222 step 2). -/
theorem exec_setwp_full {size access : BitVec 2} {kind : AccessType} {address : Word} (hready : s.ready)
    (htakes : s.TakesWatch size access kind) (hheld : s.wpHolding ⟨true, address, sizeClassOf size, kind⟩ = none)
    (hfree : s.wpFree = none) : exec (.setwp size access address) s = .next (s.deliver (.failed .noFreeSlot)) := by
  have hrun : cmdSetwp size access address s.accept = .error .noFreeSlot s.accept := by
    refine (setwp_checks_run hready htakes _).trans ?_
    rw [show s.accept.wpHolding ⟨true, address, sizeClassOf size, kind⟩ = none from hheld,
      show s.accept.wpFree = none from hfree]
    rfl
  exact exec_of_error (t := s.accept) hready.2 hrun

end

/-- Settles O38: the searches of R213 and R222 find neither the address nor a free slot. -/
theorem noFreeSlotExactlyWhenFull : Obligations.NoFreeSlotExactlyWhenFull := by
  refine ⟨fun a s t hready h => ⟨⟨fun hr => ?_, fun ⟨hfull, hnew⟩ => ?_⟩, fun hr => (exec_noFreeSlot hready.2 h hr).2⟩,
    fun size access kind address s t hready hkind hsize h =>
      ⟨⟨fun hr j hj => ?_, fun hfull => ?_⟩, fun hr => (exec_noFreeSlot hready.2 h hr).2⟩⟩
  · obtain ⟨⟨hheld, hfree⟩, _⟩ := exec_noFreeSlot hready.2 h hr
    exact ⟨State.breakpointsInUse_eq_iff.mpr hfree, fun j => State.codeAddress_ne_of_bpHolding hheld⟩
  · have hrun := cmdSetbp_full hready (State.bpHolding_eq_none hnew) (State.breakpointsInUse_eq_iff.mp hfull)
    obtain rfl := Host.Outcome.next.inj (h.symm.trans (exec_of_error hready.2 hrun))
    rfl
  · obtain ⟨⟨kind', hkind', hheld, hfree⟩, _⟩ := exec_noFreeSlot hready.2 h hr
    obtain rfl : kind' = kind := Option.some.inj (hkind'.symm.trans hkind)
    have hused := State.wpFree_eq_none_iff.mp hfree j hj
    exact ⟨hused, State.wpSlot_ne_of_wpHolding rfl hheld hj hused⟩
  · have hheld := State.wpHolding_eq_none (watch := ⟨true, address, sizeClassOf size, kind⟩) rfl
      fun j hj _ => (hfull j hj).2
    have hfree := State.wpFree_eq_none_iff.mpr fun j hj => (hfull j hj).1
    obtain rfl := Host.Outcome.next.inj (h.symm.trans (exec_setwp_full hready ⟨hkind, hsize⟩ hheld hfree))
    rfl

end Sys2Proof.Machine
end

section
/-! SUPPORT. The state after the controller's reset (70_reset_and_hazards.md section 1): what R52 and R23 ask of a handle, where
there is none, and the constraints of G1 on the default parameters (93_implementation_defined.md). -/

namespace Sys2Proof.Machine

/-- The control word is bound to the last one written only while attached (R23). -/
theorem cwFollowsRegister_of_detached {s : State} (h : s.attached = false) : s.cwFollowsRegister :=
  fun ha => Bool.noConfusion (h.symm.trans ha)

/-- G1: a check of the default constants one by one; there is nothing in it but their values. -/
theorem configWf_defaultConfig : configWf defaultConfig = true := by decide

theorem State.attached_reset : State.reset.attached = false := rfl

/-- Settles O59: `ATTACHED = 0` leaves nothing for the handle and the control word to meet, and no byte of memory is listed. -/
theorem resetMeetsTheInvariants : Obligations.ResetMeetsTheInvariants :=
  ⟨State.attached_reset, rfl, rfl, rfl, handleOk_of_detached State.attached_reset,
    cwFollowsRegister_of_detached State.attached_reset, Memory.wf_reset, configWf_defaultConfig⟩

end Sys2Proof.Machine
end
